-- ==== Sys2Proof/Word.lean ====
section
/-!
DEFINITION. The word types of the machine. A register the spec gives a width is a `BitVec` of that width; counts,
positions and indices the spec calls exact are `Nat`, box coordinates `Int` (00_scope.md R7, 43_frame_geometry.md R197).
-/

namespace Sys2Proof

/-- One byte of a memory, a palette index, a slot of a quad. -/
abbrev Byte := BitVec 8

/-- A 32-bit register. -/
abbrev Word32 := BitVec 32

end Sys2Proof
end

