-- ==== Sys2Proof/Syntax.lean ====
section
/-!
DEFINITION. The 43 operations, formats and codes of spec/opcode_table.json, one constructor each, and the formats a decoder
is asked to read. The block has no instruction set (00_scope.md R16): an "instruction" here is a BitCursor port operation,
a host command, a sequencer step, an in-stream format or an in-stream code.
-/

namespace Sys2Proof

/-- The five cursors of a direction engine (10_state.md R28). -/
inductive EngCursor where
  | main
  | ec
  | pm
  | et
  | rp
  deriving DecidableEq, Repr, Inhabited

/-- The cursor select codes 0 to 5 of 30_encoding.md R121: an engine's five cursors, or the front end's `CCUR`. -/
inductive CursorSel where
  | eng (c : EngCursor)
  | ccur
  deriving DecidableEq, Repr, Inhabited

/-- The seven width registers `WB[0..6]` in the order of 10_state.md R29. -/
structure Widths where
  v0 : BitVec 6
  w  : BitVec 6
  h  : BitVec 6
  x  : BitVec 6
  y  : BitVec 6
  o  : BitVec 6
  c  : BitVec 6
  deriving DecidableEq, Repr, Inhabited

/-- The fields of format `DHDR` (30_encoding.md R96): the seven 4-bit values are indices, not widths. -/
structure DhdrFields where
  outsize : BitVec 32
  cflags  : BitVec 2
  v0idx   : BitVec 4
  widx    : BitVec 4
  hidx    : BitVec 4
  xidx    : BitVec 4
  yidx    : BitVec 4
  oidx    : BitVec 4
  cidx    : BitVec 4
  deriving DecidableEq, Repr, Inhabited

/-- The fields of format `FHDR` (30_encoding.md R97) as values of 32 bits: the unsigned ones zero-extended, `xoffset` and
`yoffset` sign-extended from their widths. -/
structure FhdrFields where
  variable0 : BitVec 32
  width     : BitVec 32
  height    : BitVec 32
  xoffset   : BitVec 32
  yoffset   : BitVec 32
  noptional : BitVec 32
  ncoded    : BitVec 32
  bottomup  : BitVec 1
  deriving DecidableEq, Repr, Inhabited

/-- One constructor for each row of spec/opcode_table.json. -/
inductive Instr where
  -- BitCursor port operations (30_encoding.md R120)
  | rdbits (cur : CursorSel) (n : BitVec 6)
  | rdsbits (cur : CursorSel) (n : BitVec 6)
  | rdbit (cur : CursorSel)
  | skip (cur : CursorSel) (n20 : BitVec 20)
  | cons (cur : CursorSel)
  | clone (cur : CursorSel) (src : CursorSel)
  -- host commands (30_encoding.md R122): the other command bit of the same `CTRL` word is the operand
  | start (c : Bool)
  | clear (st : Bool)
  -- sequencer steps (30_encoding.md R123)
  | chdr
  | dseek
  | dhdr
  | fgeom
  | dbox
  | optchk
  | bsizes
  | palv
  | slice
  | dgrid
  | fgrid
  | rcell
  | pxlat
  | ichk
  | ccell
  | dfin
  | cfin
  -- in-stream formats (30_encoding.md R91, R92, R96, R97, R99, R100)
  | fmtCont (version ndir : BitVec 8) (nframes totalsize : BitVec 32)
  | fmtOfft (diroff : List (BitVec 32))
  | fmtDhdr (f : DhdrFields)
  | fmtFhdr (wb : Widths) (f : FhdrFields)
  | fmtSizes (ecsize : Option (BitVec 20)) (pmsize : BitVec 20) (etrp : Option (BitVec 20 × BitVec 20))
  | fmtPalv (valid : BitVec 256)
  -- in-stream codes (30_encoding.md R93, R95, R104, R108 to R112, R114)
  | sig
  | sentinel
  | widx (field : Fin 7) (i : BitVec 4)
  | ecbit (e : BitVec 1)
  | pmask (m : BitVec 4)
  | etbit (t : BitVec 1)
  | rawval (v : BitVec 8)
  | dnibEnd (d : BitVec 4)
  | dnibCont
  | pixcode0
  | pixcode1 (c : BitVec 1)
  | pixcode2 (c : BitVec 2)
  deriving DecidableEq, Repr, Inhabited

/-- Which in-stream format or code a consumer reads next. A nibble is `DNIB.END` or `DNIB.CONT` by its bits; a pixel code
is `PIXCODE0`, `PIXCODE1` or `PIXCODE2` by the quad it selects from. -/
inductive CodeKind where
  | cont
  | offt
  | dhdr
  | fhdr
  | sizes
  | palv
  | sig
  | sentinel
  | widx (field : Fin 7)
  | ecbit
  | pmask
  | etbit
  | rawval
  | dnib
  | pixcode
  deriving DecidableEq, Repr, Inhabited

/-- A `CodeKind` with what the state read earlier says of its length (30_encoding.md R113). -/
inductive CodeFmt where
  | cont
  | offt (ndir : Nat)
  | dhdr
  | fhdr (wb : Widths)
  | sizes (cflags : BitVec 2)
  | palv
  | sig
  | sentinel
  | widx (field : Fin 7)
  | ecbit
  | pmask
  | etbit
  | rawval
  | dnib
  | pixcode0
  | pixcode1
  | pixcode2
  deriving DecidableEq, Repr, Inhabited

/-- An instruction as its unit is given it: a `BCOP` word with `SKIP`'s separate operand, the two command bits of `CTRL`, a
`PHASE` code, or the bits of an in-stream format or code in the order they are read. -/
inductive Encoded where
  | bcop (w : BitVec 15) (n20 : BitVec 20)
  | cmd (c : BitVec 2)
  | seq (p : BitVec 5)
  | code (k : CodeFmt) (bits : List Bool)
  deriving DecidableEq, Repr, Inhabited

/-- Why a decoder reads no instruction. -/
inductive DecodeErr where
  /-- `BCOP` `op` 0 ("none") or 7 ("reserved, never issued"): "no state change" (30_encoding.md R120). -/
  | noOperation
  /-- A cursor number 6 or 7, "never issued" (30_encoding.md R121). -/
  | badCursor
  /-- A width 33 to 63 of `RDBITS` or `RDSBITS`, "never issued" (30_encoding.md R120). -/
  | badWidth
  /-- No command bit of `CTRL` is set (10_state.md R23). -/
  | noCommand
  /-- `PHASE` code 0, `IDLE`: "no step" (30_encoding.md R123). -/
  | noStep
  /-- A `PHASE` code 18 to 31, "never taken" (30_encoding.md R123). -/
  | neverTaken
  /-- The buffer ends before the format or code does (20_memory.md R68). -/
  | outOfRange
  /-- The signature byte is not `0x74` (30_encoding.md R93). -/
  | badSignature
  /-- The sentinel is not 1 (30_encoding.md R95). -/
  | badSentinel
  deriving DecidableEq, Repr, Inhabited

end Sys2Proof
end

