-- ==== Sys2Proof/Decode.lean ====
section
/-!
DEFINITION. The decoder, total on any bits and rejecting by name, and the encoder beside it, both written from the tables of
30_encoding.md; with them the bit-field helpers: a field of a stream is read least significant bit first (R101), a signed
field is two's complement of its width (R102).
-/

namespace Sys2Proof

/-! ### Bit fields -/

/-- The value of bits in the order they are read: the first bit is bit 0 (30_encoding.md R101). -/
def bitsValue : List Bool → Nat
  | [] => 0
  | b :: bs => b.toNat + 2 * bitsValue bs

/-- The `n` low bits of `v` in the order they are read. -/
def fieldBits : Nat → Nat → List Bool
  | 0, _ => []
  | n + 1, v => v.testBit 0 :: fieldBits n (v / 2)

/-- `signed_n(u)` of 00_scope.md R8; width 0 gives 0 (30_encoding.md R102). -/
def signedOf (n u : Nat) : Int :=
  if n = 0 then 0 else if u.testBit (n - 1) then (u : Int) - 2 ^ n else u

/-- An `n`-bit field at the head of a stream, and the stream after it. -/
def takeField (n : Nat) (bs : List Bool) : Except DecodeErr (Nat × List Bool) :=
  if n ≤ bs.length then .ok (bitsValue (bs.take n), bs.drop n) else .error .outOfRange

/-- `n` fields of 32 bits (the offset table, 30_encoding.md R92). -/
def takeWords : Nat → List Bool → Except DecodeErr (List (BitVec 32) × List Bool)
  | 0, bs => .ok ([], bs)
  | n + 1, bs => do
    let (v, bs) ← takeField 32 bs
    let (vs, bs) ← takeWords n bs
    return (BitVec.ofNat 32 v :: vs, bs)

/-! ### Select codes -/

/-- The cursor of a select code (30_encoding.md R121). -/
def decodeCursor (c : BitVec 3) : Except DecodeErr CursorSel :=
  match c.toNat with
  | 0 => .ok (.eng .main)
  | 1 => .ok (.eng .ec)
  | 2 => .ok (.eng .pm)
  | 3 => .ok (.eng .et)
  | 4 => .ok (.eng .rp)
  | 5 => .ok .ccur
  | _ => .error .badCursor

/-- The select code of a cursor (30_encoding.md R121). -/
def encodeCursor : CursorSel → BitVec 3
  | .eng .main => 0
  | .eng .ec => 1
  | .eng .pm => 2
  | .eng .et => 3
  | .eng .rp => 4
  | .ccur => 5

/-- The width field of `RDBITS` and `RDSBITS`: 33 to 63 are never issued; 0, never issued either, has the effect
40_bitcursor.md R138 gives a zero-width read (DESIGN CHOICE, log 15). -/
def decodeWidth (n : BitVec 6) : Except DecodeErr (BitVec 6) :=
  if n.toNat ≤ 32 then .ok n else .error .badWidth

/-- A `BCOP` word: `op[2:0]`, `cur[5:3]`, `n[11:6]`, `src[14:12]`; `n20` is `SKIP`'s separate operand (30_encoding.md R120). -/
def decodeBcop (w : BitVec 15) (n20 : BitVec 20) : Except DecodeErr Instr :=
  let cur := decodeCursor (w.extractLsb' 3 3)
  let n := decodeWidth (w.extractLsb' 6 6)
  match (w.extractLsb' 0 3).toNat with
  | 1 => do return .rdbits (← cur) (← n)
  | 2 => do return .rdsbits (← cur) (← n)
  | 3 => do return .rdbit (← cur)
  | 4 => do return .skip (← cur) n20
  | 5 => do return .cons (← cur)
  | 6 => do return .clone (← cur) (← decodeCursor (w.extractLsb' 12 3))
  | _ => .error .noOperation

/-- The command bits of `CTRL`: `START` is bit 0, `CLEAR` bit 1 (30_encoding.md R122). A word with both is a `CLEAR` that a
`START` follows (10_state.md R23; log 23). -/
def decodeCmd (c : BitVec 2) : Except DecodeErr Instr :=
  match c.toNat with
  | 1 => .ok (.start false)
  | 2 => .ok (.clear false)
  | 3 => .ok (.clear true)
  | _ => .error .noCommand

/-- A `PHASE` code (30_encoding.md R123). -/
def decodeSeq (p : BitVec 5) : Except DecodeErr Instr :=
  match p.toNat with
  | 0 => .error .noStep
  | 1 => .ok .chdr
  | 2 => .ok .dseek
  | 3 => .ok .dhdr
  | 4 => .ok .fgeom
  | 5 => .ok .dbox
  | 6 => .ok .optchk
  | 7 => .ok .bsizes
  | 8 => .ok .palv
  | 9 => .ok .slice
  | 10 => .ok .dgrid
  | 11 => .ok .fgrid
  | 12 => .ok .rcell
  | 13 => .ok .pxlat
  | 14 => .ok .ichk
  | 15 => .ok .ccell
  | 16 => .ok .dfin
  | 17 => .ok .cfin
  | _ => .error .neverTaken

/-! ### In-stream formats and codes -/

/-- Format `CONT` (30_encoding.md R91), signature and sentinel matched where they stand (R93, R95). -/
def decodeCont (bs : List Bool) : Except DecodeErr (Instr × List Bool) := do
  let (sg, bs) ← takeField 8 bs
  if sg ≠ 0x74 then throw .badSignature
  let (ver, bs) ← takeField 8 bs
  let (nd, bs) ← takeField 8 bs
  let (nf, bs) ← takeField 32 bs
  let (se, bs) ← takeField 32 bs
  if se ≠ 1 then throw .badSentinel
  let (ts, bs) ← takeField 32 bs
  return (.fmtCont (BitVec.ofNat 8 ver) (BitVec.ofNat 8 nd) (BitVec.ofNat 32 nf) (BitVec.ofNat 32 ts), bs)

/-- Format `DHDR` (30_encoding.md R96). -/
def decodeDhdr (bs : List Bool) : Except DecodeErr (Instr × List Bool) := do
  let (os, bs) ← takeField 32 bs
  let (cf, bs) ← takeField 2 bs
  let (i0, bs) ← takeField 4 bs
  let (i1, bs) ← takeField 4 bs
  let (i2, bs) ← takeField 4 bs
  let (i3, bs) ← takeField 4 bs
  let (i4, bs) ← takeField 4 bs
  let (i5, bs) ← takeField 4 bs
  let (i6, bs) ← takeField 4 bs
  return (.fmtDhdr
    { outsize := BitVec.ofNat 32 os, cflags := BitVec.ofNat 2 cf, v0idx := BitVec.ofNat 4 i0, widx := BitVec.ofNat 4 i1,
      hidx := BitVec.ofNat 4 i2, xidx := BitVec.ofNat 4 i3, yidx := BitVec.ofNat 4 i4, oidx := BitVec.ofNat 4 i5,
      cidx := BitVec.ofNat 4 i6 }, bs)

/-- Format `FHDR` (30_encoding.md R97) under the widths the direction header gave; a field of width 0 occupies no bits and is
0 (R105). -/
def decodeFhdr (wb : Widths) (bs : List Bool) : Except DecodeErr (Instr × List Bool) := do
  let (v0, bs) ← takeField wb.v0.toNat bs
  let (fw, bs) ← takeField wb.w.toNat bs
  let (fh, bs) ← takeField wb.h.toNat bs
  let (fx, bs) ← takeField wb.x.toNat bs
  let (fy, bs) ← takeField wb.y.toNat bs
  let (no, bs) ← takeField wb.o.toNat bs
  let (nc, bs) ← takeField wb.c.toNat bs
  let (bu, bs) ← takeField 1 bs
  return (.fmtFhdr wb
    { variable0 := BitVec.ofNat 32 v0, width := BitVec.ofNat 32 fw, height := BitVec.ofNat 32 fh,
      xoffset := BitVec.ofInt 32 (signedOf wb.x.toNat fx), yoffset := BitVec.ofInt 32 (signedOf wb.y.toNat fy),
      noptional := BitVec.ofNat 32 no, ncoded := BitVec.ofNat 32 nc, bottomup := BitVec.ofNat 1 bu }, bs)

/-- A 20-bit size field that is present or absent (30_encoding.md R99). -/
def takeSize (present : Bool) (bs : List Bool) : Except DecodeErr (Option (BitVec 20) × List Bool) :=
  if present then do
    let (v, bs) ← takeField 20 bs
    return (some (BitVec.ofNat 20 v), bs)
  else .ok (none, bs)

/-- First part of format `DTAIL` (30_encoding.md R99): `CFLAGS[1]` says whether `ecsize` is present, `CFLAGS[0]` whether
`etsize` and `rpsize` are. -/
def decodeSizes (cflags : BitVec 2) (bs : List Bool) : Except DecodeErr (Instr × List Bool) := do
  let (ec, bs) ← takeSize (cflags.getLsbD 1) bs
  let (pm, bs) ← takeField 20 bs
  if cflags.getLsbD 0 then
    let (et, bs) ← takeField 20 bs
    let (rp, bs) ← takeField 20 bs
    return (.fmtSizes ec (BitVec.ofNat 20 pm) (some (BitVec.ofNat 20 et, BitVec.ofNat 20 rp)), bs)
  else
    return (.fmtSizes ec (BitVec.ofNat 20 pm) none, bs)

/-- An in-stream format or code at the head of a stream, and the stream after it. -/
def decodeCode (k : CodeFmt) (bs : List Bool) : Except DecodeErr (Instr × List Bool) :=
  match k with
  | .cont => decodeCont bs
  | .offt n => do
    let (vs, bs) ← takeWords n bs
    return (.fmtOfft vs, bs)
  | .dhdr => decodeDhdr bs
  | .fhdr wb => decodeFhdr wb bs
  | .sizes cf => decodeSizes cf bs
  | .palv => do
    let (v, bs) ← takeField 256 bs
    return (.fmtPalv (BitVec.ofNat 256 v), bs)
  | .sig => do
    let (v, bs) ← takeField 8 bs
    if v = 0x74 then return (.sig, bs) else throw .badSignature
  | .sentinel => do
    let (v, bs) ← takeField 32 bs
    if v = 1 then return (.sentinel, bs) else throw .badSentinel
  | .widx f => do
    let (v, bs) ← takeField 4 bs
    return (.widx f (BitVec.ofNat 4 v), bs)
  | .ecbit => do
    let (v, bs) ← takeField 1 bs
    return (.ecbit (BitVec.ofNat 1 v), bs)
  | .pmask => do
    let (v, bs) ← takeField 4 bs
    return (.pmask (BitVec.ofNat 4 v), bs)
  | .etbit => do
    let (v, bs) ← takeField 1 bs
    return (.etbit (BitVec.ofNat 1 v), bs)
  | .rawval => do
    let (v, bs) ← takeField 8 bs
    return (.rawval (BitVec.ofNat 8 v), bs)
  | .dnib => do
    let (v, bs) ← takeField 4 bs
    if v = 15 then return (.dnibCont, bs) else return (.dnibEnd (BitVec.ofNat 4 v), bs)
  | .pixcode0 => .ok (.pixcode0, bs)
  | .pixcode1 => do
    let (v, bs) ← takeField 1 bs
    return (.pixcode1 (BitVec.ofNat 1 v), bs)
  | .pixcode2 => do
    let (v, bs) ← takeField 2 bs
    return (.pixcode2 (BitVec.ofNat 2 v), bs)

/-- How many bits a format or code has: its length is known before it is read (30_encoding.md R113). -/
def codeLen : CodeFmt → Nat
  | .cont => 120
  | .offt n => 32 * n
  | .dhdr => 62
  | .fhdr wb => wb.v0.toNat + wb.w.toNat + wb.h.toNat + wb.x.toNat + wb.y.toNat + wb.o.toNat + wb.c.toNat + 1
  | .sizes cf => (if cf.getLsbD 1 then 20 else 0) + 20 + (if cf.getLsbD 0 then 40 else 0)
  | .palv => 256
  | .sig => 8
  | .sentinel => 32
  | .widx _ => 4
  | .ecbit => 1
  | .pmask => 4
  | .etbit => 1
  | .rawval => 8
  | .dnib => 4
  | .pixcode0 => 0
  | .pixcode1 => 1
  | .pixcode2 => 2

/-- The decoder: an instruction as its unit is given it. -/
def decode : Encoded → Except DecodeErr Instr
  | .bcop w n20 => decodeBcop w n20
  | .cmd c => decodeCmd c
  | .seq p => decodeSeq p
  | .code k bits => do
    let (i, _) ← decodeCode k bits
    return i

/-! ### The encoder -/

/-- A `BCOP` word from its fields (30_encoding.md R120). -/
def bcopWord (op : BitVec 3) (cur : CursorSel) (n : BitVec 6) (src : BitVec 3) : BitVec 15 :=
  src ++ n ++ encodeCursor cur ++ op

/-- The bits of format `DHDR`. -/
def dhdrBits (f : DhdrFields) : List Bool :=
  fieldBits 32 f.outsize.toNat ++ fieldBits 2 f.cflags.toNat ++ fieldBits 4 f.v0idx.toNat ++ fieldBits 4 f.widx.toNat
    ++ fieldBits 4 f.hidx.toNat ++ fieldBits 4 f.xidx.toNat ++ fieldBits 4 f.yidx.toNat ++ fieldBits 4 f.oidx.toNat
    ++ fieldBits 4 f.cidx.toNat

/-- The bits of format `FHDR` under its widths; a signed field is the low bits of its two's complement. -/
def fhdrBits (wb : Widths) (f : FhdrFields) : List Bool :=
  fieldBits wb.v0.toNat f.variable0.toNat ++ fieldBits wb.w.toNat f.width.toNat ++ fieldBits wb.h.toNat f.height.toNat
    ++ fieldBits wb.x.toNat f.xoffset.toNat ++ fieldBits wb.y.toNat f.yoffset.toNat
    ++ fieldBits wb.o.toNat f.noptional.toNat ++ fieldBits wb.c.toNat f.ncoded.toNat ++ fieldBits 1 f.bottomup.toNat

/-- The bits of an optional 20-bit size. -/
def sizeBits : Option (BitVec 20) → List Bool
  | none => []
  | some v => fieldBits 20 v.toNat

/-- The compression flags a set of present sizes stands for (30_encoding.md R99). -/
def sizesFlags (ec : Option (BitVec 20)) (etrp : Option (BitVec 20 × BitVec 20)) : BitVec 2 :=
  BitVec.ofNat 2 ((if ec.isSome then 2 else 0) + (if etrp.isSome then 1 else 0))

/-- The encoder: the words or bits of an instruction. -/
def encode : Instr → Encoded
  | .rdbits c n => .bcop (bcopWord 1 c n 0) 0
  | .rdsbits c n => .bcop (bcopWord 2 c n 0) 0
  | .rdbit c => .bcop (bcopWord 3 c 0 0) 0
  | .skip c n20 => .bcop (bcopWord 4 c 0 0) n20
  | .cons c => .bcop (bcopWord 5 c 0 0) 0
  | .clone c src => .bcop (bcopWord 6 c 0 (encodeCursor src)) 0
  | .start c => .cmd (if c then 3 else 1)
  | .clear s => .cmd (if s then 3 else 2)
  | .chdr => .seq 1
  | .dseek => .seq 2
  | .dhdr => .seq 3
  | .fgeom => .seq 4
  | .dbox => .seq 5
  | .optchk => .seq 6
  | .bsizes => .seq 7
  | .palv => .seq 8
  | .slice => .seq 9
  | .dgrid => .seq 10
  | .fgrid => .seq 11
  | .rcell => .seq 12
  | .pxlat => .seq 13
  | .ichk => .seq 14
  | .ccell => .seq 15
  | .dfin => .seq 16
  | .cfin => .seq 17
  | .fmtCont ver nd nf ts =>
    .code .cont (fieldBits 8 0x74 ++ fieldBits 8 ver.toNat ++ fieldBits 8 nd.toNat ++ fieldBits 32 nf.toNat
      ++ fieldBits 32 1 ++ fieldBits 32 ts.toNat)
  | .fmtOfft vs => .code (.offt vs.length) (vs.flatMap fun v => fieldBits 32 v.toNat)
  | .fmtDhdr f => .code .dhdr (dhdrBits f)
  | .fmtFhdr wb f => .code (.fhdr wb) (fhdrBits wb f)
  | .fmtSizes ec pm etrp =>
    .code (.sizes (sizesFlags ec etrp))
      (sizeBits ec ++ fieldBits 20 pm.toNat ++ sizeBits (etrp.map Prod.fst) ++ sizeBits (etrp.map Prod.snd))
  | .fmtPalv v => .code .palv (fieldBits 256 v.toNat)
  | .sig => .code .sig (fieldBits 8 0x74)
  | .sentinel => .code .sentinel (fieldBits 32 1)
  | .widx f i => .code (.widx f) (fieldBits 4 i.toNat)
  | .ecbit e => .code .ecbit (fieldBits 1 e.toNat)
  | .pmask m => .code .pmask (fieldBits 4 m.toNat)
  | .etbit t => .code .etbit (fieldBits 1 t.toNat)
  | .rawval v => .code .rawval (fieldBits 8 v.toNat)
  | .dnibEnd d => .code .dnib (fieldBits 4 d.toNat)
  | .dnibCont => .code .dnib (fieldBits 4 15)
  | .pixcode0 => .code .pixcode0 []
  | .pixcode1 c => .code .pixcode1 (fieldBits 1 c.toNat)
  | .pixcode2 c => .code .pixcode2 (fieldBits 2 c.toNat)

/-! ### Words as spec/opcode_table.json numbers their bits -/

/-- What a table word of `nbits` bits is given to. The table numbers the words of its formats from the same bit 0, and a
one-byte word does not say whether it is a `PHASE` code, a command or an in-stream code: a code 1 to 17 is taken as a
`PHASE` code (log 17). The exact widths of the table's formats are taken too. `SKIP`'s amount `n20` is an operand beside the
15-bit `BCOP` word, which does not hold it (30_encoding.md R120): a table word gives none, and it is taken as 0 (DESIGN CHOICE,
log 17). -/
def tableWord (nbits w : Nat) : Option Encoded :=
  match nbits with
  | 2 => if w < 4 then some (.cmd (BitVec.ofNat 2 w)) else none
  | 4 => if w < 16 then some (.code .dnib (fieldBits 4 w)) else none
  | 5 => if w < 32 then some (.seq (BitVec.ofNat 5 w)) else none
  | 8 =>
    if w < 32 then some (.seq (BitVec.ofNat 5 w))
    else if w < 256 then some (.code .sig (fieldBits 8 w)) else none
  | 15 => if w < 2 ^ 15 then some (.bcop (BitVec.ofNat 15 w) 0) else none
  | 16 => if w < 2 ^ 15 then some (.bcop (BitVec.ofNat 15 w) 0) else none
  | 32 => if w < 2 ^ 32 then some (.code .sentinel (fieldBits 32 w)) else none
  | 62 => if w < 2 ^ 62 then some (.code .dhdr (fieldBits 62 w)) else none
  | 64 => if w < 2 ^ 62 then some (.code .dhdr (fieldBits 62 w)) else none
  | 120 => if w < 2 ^ 120 then some (.code .cont (fieldBits 120 w)) else none
  | 256 => if w < 2 ^ 256 then some (.code .palv (fieldBits 256 w)) else none
  | _ => none

/-- The instruction the decoder reads from a table word. -/
def decodeTableWord (nbits w : Nat) : Option Instr :=
  match tableWord nbits w with
  | none => none
  | some x =>
    match decode x with
    | .ok i => some i
    | .error _ => none

end Sys2Proof
end

