-- ==== Sys2Proof/Machine/Types.lean ====
section
/-!
DEFINITION. The data types of the machine's state: memories, cursors, geometry records, quads, entries, working registers.
-/

namespace Sys2Proof.Machine

/-- A byte memory: the bytes that differ from 0, at strictly rising addresses (log 5); its operations are in Machine/Ops.lean. -/
abbrev Mem := List Host.Cell

/-- The input buffer and its length register `IBUF_LEN` (10_state.md R21). -/
structure Buf where
  mem : Mem
  len : BitVec 32
  deriving DecidableEq, Repr, Inhabited

/-- A cursor: `POS` the absolute bit position of the next bit, `CONS` the bits consumed since its origin (10_state.md R28).
Exact naturals: neither wraps (40_bitcursor.md R140; log 14). -/
structure Cursor where
  pos  : Nat
  cons : Nat
  deriving DecidableEq, Repr, Inhabited

/-- One record of the frame geometry file `FG` (10_state.md R32); `fl`, `ft` are exact (log 14). -/
structure FrameGeom where
  fw      : BitVec 32
  fh      : BitVec 32
  fx      : BitVec 32
  fy      : BitVec 32
  fnopt   : BitVec 32
  fncoded : BitVec 32
  fbu     : BitVec 1
  fl      : Int
  ft      : Int
  deriving DecidableEq, Repr, Inhabited

/-- A cell `{W, H, X, Y}` (10_state.md R37, R38). -/
structure CellGeom where
  w : Nat
  h : Nat
  x : Nat
  y : Nat
  deriving DecidableEq, Repr, Inhabited

/-- A last occurrence `{VALID, W, H, X, Y}` (10_state.md R43). -/
structure LastOcc where
  valid : Bool
  w : Nat
  h : Nat
  x : Nat
  y : Nat
  deriving DecidableEq, Repr, Inhabited

/-- Four slots of 8 bits (10_state.md R40). -/
structure Quad where
  s0 : Byte
  s1 : Byte
  s2 : Byte
  s3 : Byte
  deriving DecidableEq, Repr, Inhabited

/-- A pixel-buffer entry: assembled quad `Q`, translated quad `T`, owning frame and cell (10_state.md R40). -/
structure Entry where
  q     : Quad
  t     : Quad
  frame : BitVec 32
  fci   : Nat
  deriving DecidableEq, Repr, Inhabited

/-- The working registers of `RCELL` (10_state.md R39; `vals` holds the `NDEC` accepted values) and the variables of the
pseudocode that live inside one step (45_reconstructor.md R227, 46_compositor.md R256; log 18). -/
structure Work where
  k       : Nat
  eq      : BitVec 1
  mask    : BitVec 4
  cnt     : Nat
  etb     : BitVec 1
  vals    : List (BitVec 32)
  lastpix : BitVec 32
  v       : BitVec 32
  chain   : Bool
  vend    : Bool
  px      : Nat
  py      : Nat
  deriving DecidableEq, Repr, Inhabited

/-- The transient state of a direction engine, what `DFIN` discards (10_state.md R47). -/
structure Transient where
  main   : Cursor
  ec     : Cursor
  pm     : Cursor
  et     : Cursor
  rp     : Cursor
  pbe    : List Entry
  occ    : List (Option Nat)
  pbidx  : Nat
  last   : List LastOcc
  canvas : Mem
  work   : Work
  deriving DecidableEq, Repr, Inhabited

/-- The registers of one direction that are readable in `DONE`, and its output arrays (10_state.md R50). -/
structure DirRegs where
  outsize : BitVec 32
  cflags  : BitVec 2
  wb      : Widths
  ecsize  : BitVec 20
  pmsize  : BitVec 20
  etsize  : BitVec 20
  rpsize  : BitVec 20
  pal     : List Byte
  palcnt  : BitVec 9
  fg      : List FrameGeom
  minl    : Int
  mint    : Int
  maxr    : Int
  maxb    : Int
  dl      : Int
  dt      : Int
  dw      : Nat
  dh      : Nat
  hcc     : Nat
  vcc     : Nat
  dcell   : List CellGeom
  fhcc    : List Nat
  fvcc    : List Nat
  fcell   : List (List CellGeom)
  out     : List Mem
  deriving DecidableEq, Repr, Inhabited

/-- The error causes of 60_exceptions.md R283 (cause `none` is the error record's 0). -/
inductive Cause where
  | badSignature
  | badSentinel
  | outOfRange
  | badFrameCount
  | emptyBox
  | bottomUpFlag
  | optionalDataBits
  | equalCells
  | pixelMask
  | encodingType
  | rawPixelCodes
  | capFrames
  | capCanvas
  | capDcells
  | capFcells
  | capPbe
  deriving DecidableEq, Repr, Inhabited

/-- The error kinds of 60_exceptions.md R282. -/
inductive ErrKind where
  | malformed
  | unsupported
  | integrity
  | capacity
  deriving DecidableEq, Repr, Inhabited

end Sys2Proof.Machine
end

