-- ==== Sys2Proof/Config.lean ====
section
/-!
DEFINITION. What an implementation fixes and what the spec leaves without a value. The capacities are parameters
(00_scope.md R6): a State carries them, so that every statement holds for every choice (log 13). The free values are opaque:
nothing can be proved of one, and every statement holds whatever it is.
-/

namespace Sys2Proof

open Sys2Proof.Machine

/-- The five capacity parameters of 00_scope.md R6; `none` is "unbounded". -/
structure Config.Capacities where
  maxFrames : Option Nat
  maxDcells : Option Nat
  maxFcells : Option Nat
  maxPbe    : Option Nat
  maxCanvas : Option Nat
  deriving DecidableEq, Repr, Inhabited

/-- "model default unbounded" (00_scope.md R6). -/
def Config.unbounded : Config.Capacities :=
  { maxFrames := none, maxDcells := none, maxFcells := none, maxPbe := none, maxCanvas := none }

/-- FREE VALUE: the translated quad of an entry between its creation and `PXLAT` (45_reconstructor.md R227, "T: unspecified"; log 6). -/
opaque Config.freeQuad : Nat → Quad

/-- FREE VALUE: the engine's transient state once `DFIN` has discarded it (10_state.md R47, "unspecified afterwards"; log 7). -/
opaque Config.freeTrans : Nat → Transient

/-- FREE VALUE: what a read answers where the spec says it "returns an unspecified value" (10_state.md R49, R50; log 8). -/
opaque Config.freeRead : Nat → BitVec 64

end Sys2Proof
end

