-- ==== Sys2Proof/Machine/State.lean ====
section
/-!
DEFINITION. The machine's state, every piece of state 10_state.md gives the block, as plain data; the reasons a step can stop;
and the state after reset (10_state.md R51).
-/

namespace Sys2Proof.Machine

/-- The container front end: its `PHASE`, its cursor `CCUR` and the container registers (10_state.md R26 to R28). -/
structure Front where
  phase     : BitVec 5
  ccur      : Cursor
  signature : BitVec 8
  version   : BitVec 8
  ndir      : BitVec 8
  nframes   : BitVec 32
  sentinel  : BitVec 32
  totalsize : BitVec 32
  diroff    : List (BitVec 32)
  deriving DecidableEq, Repr, Inhabited

/-- The direction engine: sequencer registers (10_state.md R27), the direction's registers, the transient state, and the
counter its free values are taken at (the model's own, log 6). -/
structure Engine where
  phase : BitVec 5
  dir   : BitVec 8
  frm   : BitVec 32
  cy    : Nat
  cx    : Nat
  regs  : DirRegs
  tr    : Transient
  free  : Nat
  deriving DecidableEq, Repr, Inhabited

/-- A place of the result store the host can read in `DONE` (10_state.md R50): the output pixels, the boxes, and the registers
of rules R26, R29, R30, R31, R32, R36 and R38. How a bus addresses them is not specified (`OUTMAP`, log 11). -/
inductive ResultSel where
  | signature
  | version
  | ndir
  | nframes
  | sentinel
  | totalsize
  | diroff (d : Nat)
  | outsize (d : Nat)
  | cflags (d : Nat)
  | wb (d : Nat) (i : Fin 7)
  | ecsize (d : Nat)
  | pmsize (d : Nat)
  | etsize (d : Nat)
  | rpsize (d : Nat)
  | palcnt (d : Nat)
  | pal (d : Nat) (j : BitVec 8)
  | dl (d : Nat)
  | dt (d : Nat)
  | dw (d : Nat)
  | dh (d : Nat)
  | hcc (d : Nat)
  | vcc (d : Nat)
  | fw (d f : Nat)
  | fh (d f : Nat)
  | fx (d f : Nat)
  | fy (d f : Nat)
  | fnopt (d f : Nat)
  | fncoded (d f : Nat)
  | fbu (d f : Nat)
  | fl (d f : Nat)
  | ft (d f : Nat)
  | fhcc (d f : Nat)
  | fvcc (d f : Nat)
  | fcellW (d f c : Nat)
  | fcellH (d f c : Nat)
  | fcellX (d f c : Nat)
  | fcellY (d f c : Nat)
  | pixel (d f p : Nat)
  deriving DecidableEq, Repr, Inhabited

/-- One access of the host (10_state.md R22, R50; 41_container_and_sequencer.md R158), or the reset input (70_reset_and_hazards.md
R310). -/
inductive HostReq where
  | csrWrite (n : Nat) (v : BitVec 32)
  | csrRead (n : Nat)
  | ibufWrite (a : BitVec 32) (v : Byte)
  | resultRead (r : ResultSel)
  | rst
  deriving DecidableEq, Repr, Inhabited

/-- A micro-operation presented to its unit as a step of its own (log 1): a `BCOP` word with `SKIP`'s operand, or an in-stream
format or code at its cursor. -/
inductive PortReq where
  | bcop (w : BitVec 15) (n20 : BitVec 20)
  | code (k : CodeKind)
  deriving DecidableEq, Repr, Inhabited

/-- The whole state. -/
structure State where
  ctrl     : BitVec 2
  status   : BitVec 2
  errkind  : BitVec 3
  errcause : BitVec 8
  errdir   : BitVec 9
  irqEn    : BitVec 1
  irq      : BitVec 1
  ibuf     : Buf
  front    : Front
  eng      : Engine
  result   : List DirRegs
  caps     : Config.Capacities
  inputs   : List (Option HostReq)
  port     : Option PortReq
  bcOut    : Int
  hostData : Int
  hostFree : Nat
  deriving DecidableEq, Repr, Inhabited

/-- Why the machine stops with a fault. No step of a decode raises one: the spec's own errors are next states (60_exceptions.md
R280, R281). -/
inductive Fault where
  /-- Raised by a host access to a CSR number above 6: "No other CSR number exists" (10_state.md R22). Safe. -/
  | noSuchCsr
  /-- Raised by a host read, in `DONE`, of an element of the result store that does not exist (10_state.md R50). Safe. -/
  | noSuchResult
  deriving DecidableEq, Repr, Inhabited

/-- Why a step is refused. -/
inductive Refusal where
  /-- Raised by an arm of `exec` whose instruction has no meaning yet. Safe. -/
  | notModelled (mnemonic : String)
  /-- Raised by a host write to `IBUF` while `BUSY`, which makes the outcome of the decode unspecified in whole: `refuse`
  (93_implementation_defined.md U2). Safe. -/
  | ibufWriteWhileBusy
  /-- Raised by the fetch of a `BCOP` word or `PHASE` code that 30_encoding.md R120, R121, R123 say is never issued or never
  taken. Safe. -/
  | neverIssued (why : DecodeErr)
  deriving DecidableEq, Repr, Inhabited

/-! ### Reset values -/

/-- A cursor after reset (DESIGN CHOICE, log 4). -/
def resetCursor : Cursor := { pos := 0, cons := 0 }

/-- The working registers after reset (DESIGN CHOICE, log 4). -/
def resetWork : Work :=
  { k := 0, eq := 0, mask := 0, cnt := 0, etb := 0, vals := [], lastpix := 0, v := 0, chain := false, vend := false,
    px := 0, py := 0 }

/-- The transient state after reset (DESIGN CHOICE, log 4). -/
def resetTransient : Transient :=
  { main := resetCursor, ec := resetCursor, pm := resetCursor, et := resetCursor, rp := resetCursor, pbe := [], occ := [],
    pbidx := 0, last := [], canvas := [], work := resetWork }

/-- The width registers after reset (DESIGN CHOICE, log 4). -/
def resetWidths : Widths := { v0 := 0, w := 0, h := 0, x := 0, y := 0, o := 0, c := 0 }

/-- The registers of a direction after reset (DESIGN CHOICE, log 4). -/
def resetRegs : DirRegs :=
  { outsize := 0, cflags := 0, wb := resetWidths, ecsize := 0, pmsize := 0, etsize := 0, rpsize := 0,
    pal := List.replicate 256 0, palcnt := 0, fg := [], minl := 0, mint := 0, maxr := 0, maxb := 0, dl := 0, dt := 0,
    dw := 0, dh := 0, hcc := 0, vcc := 0, dcell := [], fhcc := [], fvcc := [], fcell := [], out := [] }

/-- The front end after reset: `PHASE` is `IDLE` (10_state.md R51); the rest DESIGN CHOICE, log 4. -/
def resetFront : Front :=
  { phase := 0, ccur := resetCursor, signature := 0, version := 0, ndir := 0, nframes := 0, sentinel := 0, totalsize := 0,
    diroff := [] }

/-- The engine after reset: `PHASE` is `IDLE` (10_state.md R51); the rest DESIGN CHOICE, log 4. -/
def resetEngine : Engine :=
  { phase := 0, dir := 0, frm := 0, cy := 0, cx := 0, regs := resetRegs, tr := resetTransient, free := 0 }

/-- The machine right after reset (10_state.md R51, 70_reset_and_hazards.md R310). -/
def State.reset : State :=
  { ctrl := 0, status := 0, errkind := 0, errcause := 0, errdir := 0, irqEn := 0, irq := 0, ibuf := { mem := [], len := 0 },
    front := resetFront, eng := resetEngine, result := [], caps := Config.unbounded, inputs := [], port := none, bcOut := 0,
    hostData := 0, hostFree := 0 }

end Sys2Proof.Machine
end

