-- ==== Sys2Proof/Machine/Ops.lean ====
section
/-!
DEFINITION. The named operations over memories, cursors and registers, and the two operations every error uses: taking it
(60_exceptions.md R281) and the host's return from it (41_container_and_sequencer.md R151).
-/

namespace Sys2Proof.Machine

/-! ### Byte memories -/

/-- What an address that is not listed reads as (DESIGN CHOICE, log 5). -/
def unlisted : Byte := 0

/-- One byte of a memory. -/
def Mem.read : Mem → Nat → Byte
  | [], _ => unlisted
  | (b, w) :: m, a => if a = b then w else Mem.read m a

/-- One byte written: the list stays sorted and lists no byte equal to `unlisted`. -/
def Mem.write : Mem → Nat → Byte → Mem
  | [], a, v => if v = unlisted then [] else [(a, v)]
  | (b, w) :: m, a, v =>
    if a < b then (if v = unlisted then (b, w) :: m else (a, v) :: (b, w) :: m)
    else if a = b then (if v = unlisted then m else (a, v) :: m)
    else (b, w) :: Mem.write m a v

/-- Every listed address of `m` is above `a`. -/
def Mem.above (a : Nat) (m : Mem) : Bool := m.all fun c => decide (a < c.1)

/-- The canonical form: addresses strictly rising, no byte equal to `unlisted`. -/
def Mem.wf : Mem → Bool
  | [] => true
  | (a, v) :: m => decide (v ≠ unlisted) && Mem.above a m && Mem.wf m

/-- A memory in canonical form from any list of cells. -/
def Mem.ofCells (cs : List Host.Cell) : Mem := cs.foldl (fun m c => Mem.write m c.1 c.2) []

/-! ### Register files

A register file is the list of its first entries; an entry past the end has the value it has at reset (log 21). -/

/-- Entry `i` of a register file. -/
def fileRead {α : Type} (d : α) (l : List α) (i : Nat) : α := l.getD i d

/-- Entry `i` of a register file written. -/
def fileWrite {α : Type} (d : α) : List α → Nat → α → List α
  | [], 0, x => [x]
  | [], i + 1, x => d :: fileWrite d [] i x
  | _ :: l, 0, x => x :: l
  | y :: l, i + 1, x => y :: fileWrite d l i x

/-- A frame record after reset (log 4). -/
def zeroFrame : FrameGeom :=
  { fw := 0, fh := 0, fx := 0, fy := 0, fnopt := 0, fncoded := 0, fbu := 0, fl := 0, ft := 0 }

/-- A cell after reset (log 4). -/
def zeroCell : CellGeom := { w := 0, h := 0, x := 0, y := 0 }

/-- A last occurrence after reset (log 4). -/
def zeroLast : LastOcc := { valid := false, w := 0, h := 0, x := 0, y := 0 }

/-- A quad of zeros. -/
def zeroQuad : Quad := { s0 := 0, s1 := 0, s2 := 0, s3 := 0 }

/-- An entry after reset (log 4). -/
def zeroEntry : Entry := { q := zeroQuad, t := zeroQuad, frame := 0, fci := 0 }

/-! ### The input buffer and the cursors -/

/-- `LEN` in bits. -/
def Buf.bits (b : Buf) : Nat := 8 * b.len.toNat

/-- Bit `p` of the buffer: bit `p mod 8` of byte `p div 8` (20_memory.md R62). -/
def Buf.bit (b : Buf) (p : Nat) : Bool := (b.mem.read (p / 8)).getLsbD (p % 8)

/-- The `n` bits from position `p`, the first read as bit 0 (20_memory.md R63). -/
def Buf.field (b : Buf) : Nat → Nat → Nat
  | _, 0 => 0
  | p, n + 1 => (b.bit p).toNat + 2 * Buf.field b (p + 1) n

/-- The bits from position `p`, at most `n` of them, in the order they are read; none past the end of the buffer. -/
def Buf.stream (b : Buf) (p : Nat) : Nat → List Bool
  | 0 => []
  | n + 1 => if p < b.bits then b.bit p :: Buf.stream b (p + 1) n else []

/-- A cursor moved by `n` bits: position and consumed count alike (40_bitcursor.md R131, R135). -/
def Cursor.advance (c : Cursor) (n : Nat) : Cursor := { pos := c.pos + n, cons := c.cons + n }

/-- `RDBITS c, n` (40_bitcursor.md R132; width 0 is R138: no access, no fault). -/
def Cursor.read (b : Buf) (c : Cursor) (n : Nat) : Except Cause (Nat × Cursor) :=
  if n = 0 then .ok (0, c)
  else if c.pos + n > b.bits then .error .outOfRange
  else .ok (b.field c.pos n, c.advance n)

/-- `CLONE cd, cs`: the new value of `cd` (40_bitcursor.md R137). -/
def Cursor.cloned (c : Cursor) : Cursor := { pos := c.pos, cons := 0 }

/-- The entry count `PBCNT` (10_state.md R40). -/
def Transient.pbcnt (t : Transient) : Nat := t.pbe.length

/-- The count `NDEC` of accepted values (10_state.md R39). -/
def Work.ndec (w : Work) : Nat := w.vals.length

/-! ### Errors -/

/-- Status codes (10_state.md R24). -/
def stIdle : BitVec 2 := 0
def stBusy : BitVec 2 := 1
def stDone : BitVec 2 := 2
def stError : BitVec 2 := 3

/-- `PHASE` codes (30_encoding.md R123). -/
def phIdle : BitVec 5 := 0
def phChdr : BitVec 5 := 1
def phDseek : BitVec 5 := 2
def phDhdr : BitVec 5 := 3
def phFgeom : BitVec 5 := 4
def phDbox : BitVec 5 := 5
def phOptchk : BitVec 5 := 6
def phBsizes : BitVec 5 := 7
def phPalv : BitVec 5 := 8
def phSlice : BitVec 5 := 9
def phDgrid : BitVec 5 := 10
def phFgrid : BitVec 5 := 11
def phRcell : BitVec 5 := 12
def phPxlat : BitVec 5 := 13
def phIchk : BitVec 5 := 14
def phCcell : BitVec 5 := 15
def phDfin : BitVec 5 := 16
def phCfin : BitVec 5 := 17

/-- The kind of a cause (60_exceptions.md R283). -/
def Cause.kind : Cause → ErrKind
  | .badSignature | .badSentinel | .outOfRange | .badFrameCount | .emptyBox => .malformed
  | .bottomUpFlag | .optionalDataBits => .unsupported
  | .equalCells | .pixelMask | .encodingType | .rawPixelCodes => .integrity
  | .capFrames | .capCanvas | .capDcells | .capFcells | .capPbe => .capacity

/-- `ERRKIND` codes (60_exceptions.md R282). -/
def ErrKind.code : ErrKind → BitVec 3
  | .malformed => 1
  | .unsupported => 2
  | .integrity => 3
  | .capacity => 4

/-- `ERRCAUSE` codes (60_exceptions.md R283). -/
def Cause.code : Cause → BitVec 8
  | .badSignature => 0x01
  | .badSentinel => 0x02
  | .outOfRange => 0x03
  | .badFrameCount => 0x04
  | .emptyBox => 0x05
  | .bottomUpFlag => 0x10
  | .optionalDataBits => 0x11
  | .equalCells => 0x20
  | .pixelMask => 0x21
  | .encodingType => 0x22
  | .rawPixelCodes => 0x23
  | .capFrames => 0x30
  | .capCanvas => 0x31
  | .capDcells => 0x32
  | .capFcells => 0x33
  | .capPbe => 0x34

/-- `ERRDIR` of the container front end (10_state.md R25). -/
def dirFrontEnd : BitVec 9 := 0x100

/-- `ERRDIR` of an engine: the direction it decodes (10_state.md R25). -/
def Engine.errDir (e : Engine) : BitVec 9 := e.dir.setWidth 9

/-- `raise Kind(CAUSE)` (60_exceptions.md R281): the error record, `STATE`, both phases and `irq`. What else the raising step
had written stays as it is; none of it is readable in `ERROR` (log 19). -/
def takeError (c : Cause) (d : BitVec 9) (s : State) : State :=
  { s with
    errkind := c.kind.code
    errcause := c.code
    errdir := d
    status := stError
    front.phase := phIdle
    eng.phase := phIdle
    irq := s.irqEn }

/-- The return from an error, and the acknowledgement of a finished decode (41_container_and_sequencer.md R151). -/
def ackClear (s : State) : State :=
  if s.status = stDone ∨ s.status = stError then
    { s with status := stIdle, errkind := 0, errcause := 0, errdir := 0, irq := 0 }
  else s

/-- The effect of the `START` bit (41_container_and_sequencer.md R150). -/
def beginDecode (s : State) : State :=
  if s.status = stIdle then { s with status := stBusy, front.phase := phChdr } else s

/-! ### Steps of the engine and of the front end -/

/-- A step of the direction engine: it changes the engine only, or raises. -/
abbrev EngM := EStateM Cause Engine

/-- A step of the front end's parser: it changes the front end's registers only, or raises. -/
abbrev FrontM := EStateM Cause Front

/-- An engine step as an outcome of the machine. -/
def runEng (m : EngM Unit) (s : State) : Host.Outcome State Fault Refusal :=
  match m s.eng with
  | .ok _ e => .next { s with eng := e }
  | .error c e => .next (takeError c e.errDir { s with eng := e })

/-- A parse of the front end and what follows it, as an outcome of the machine. -/
def runFront (m : FrontM Unit) (k : State → State) (s : State) : Host.Outcome State Fault Refusal :=
  match m s.front with
  | .ok _ f => .next (k { s with front := f })
  | .error c f => .next (takeError c dirFrontEnd { s with front := f })

/-- A change of the engine that cannot raise. -/
def upd (f : Engine → Engine) : EngM Unit := fun e => .ok () (f e)

/-- A change of the front end that cannot raise. -/
def updF (f : Front → Front) : FrontM Unit := fun x => .ok () (f x)

/-- `raise` unless a condition holds. -/
def engCheck (ok : Bool) (c : Cause) : EngM Unit := fun e => if ok then .ok () e else .error c e

/-- `raise` unless a condition holds, in the front end. -/
def frontCheck (ok : Bool) (c : Cause) : FrontM Unit := fun x => if ok then .ok () x else .error c x

/-- A capacity parameter that a count exceeds (00_scope.md R6). -/
def exceeds (cap : Option Nat) (n : Nat) : Bool :=
  match cap with
  | none => false
  | some m => decide (m < n)

end Sys2Proof.Machine
end

