-- ==== Sys2Proof/Machine/Operands.lean ====
section
/-!
DEFINITION. The operand forms: the cursor an operation names, the width a header index stands for, a slot of a quad, the
direction cell and the frame cell of a visit.
-/

namespace Sys2Proof.Machine

/-! ### Cursors -/

/-- The cursor an engine's select code names. -/
def Transient.cur (t : Transient) : EngCursor → Cursor
  | .main => t.main
  | .ec => t.ec
  | .pm => t.pm
  | .et => t.et
  | .rp => t.rp

/-- That cursor written; every other one unchanged (40_bitcursor.md R142). -/
def Transient.setCur (t : Transient) (c : EngCursor) (v : Cursor) : Transient :=
  match c with
  | .main => { t with main := v }
  | .ec => { t with ec := v }
  | .pm => { t with pm := v }
  | .et => { t with et := v }
  | .rp => { t with rp := v }

/-- The cursor a select code names (30_encoding.md R121). -/
def State.cursor (s : State) : CursorSel → Cursor
  | .eng c => s.eng.tr.cur c
  | .ccur => s.front.ccur

/-- That cursor written. -/
def State.setCursor (s : State) (c : CursorSel) (v : Cursor) : State :=
  match c with
  | .eng c => { s with eng.tr := s.eng.tr.setCur c v }
  | .ccur => { s with front.ccur := v }

/-- `ERRDIR` of an error raised through a cursor: `0x100` for the front end's (60_exceptions.md R281). -/
def State.cursorDir (s : State) : CursorSel → BitVec 9
  | .eng _ => s.eng.errDir
  | .ccur => dirFrontEnd

/-- `v <- RDBITS(c, n)` inside an engine step (00_scope.md R11). -/
def rd (b : Buf) (c : EngCursor) (n : Nat) : EngM Nat := fun e =>
  match (e.tr.cur c).read b n with
  | .ok (v, c') => .ok v { e with tr := e.tr.setCur c c' }
  | .error x => .error x e

/-- `v <- RDSBITS(c, n)` inside an engine step: `signed_n` of the bits read (40_bitcursor.md R133). -/
def rds (b : Buf) (c : EngCursor) (n : Nat) : EngM Int := do
  let u ← rd b c n
  return signedOf n u

/-- `SKIP(c, n)` inside an engine step: it never faults (40_bitcursor.md R135). -/
def skp (c : EngCursor) (n : Nat) : EngM Unit :=
  upd fun e => { e with tr := e.tr.setCur c ((e.tr.cur c).advance n) }

/-- `CLONE(cd, cs)` inside an engine step (40_bitcursor.md R137). -/
def cln (cd cs : EngCursor) : EngM Unit :=
  upd fun e => { e with tr := e.tr.setCur cd (e.tr.cur cs).cloned }

/-- `v <- RDBITS(CCUR, n)` inside the front end. -/
def rdc (b : Buf) (n : Nat) : FrontM Nat := fun f =>
  match f.ccur.read b n with
  | .ok (v, c') => .ok v { f with ccur := c' }
  | .error x => .error x f

/-! ### Header widths -/

/-- `WLUT` (30_encoding.md R104). -/
def wlut (i : BitVec 4) : BitVec 6 :=
  match i.toNat with
  | 0 => 0
  | 1 => 1
  | 2 => 2
  | 3 => 4
  | 4 => 6
  | 5 => 8
  | 6 => 10
  | 7 => 12
  | 8 => 14
  | 9 => 16
  | 10 => 20
  | 11 => 24
  | 12 => 26
  | 13 => 28
  | 14 => 30
  | _ => 32

/-- `WB[i]` read (10_state.md R29). -/
def widthAt (wb : Widths) (i : Fin 7) : BitVec 6 :=
  match i with
  | 0 => wb.v0
  | 1 => wb.w
  | 2 => wb.h
  | 3 => wb.x
  | 4 => wb.y
  | 5 => wb.o
  | 6 => wb.c

/-- `WB[i]` written. -/
def setWidthAt (wb : Widths) (i : Fin 7) (v : BitVec 6) : Widths :=
  match i with
  | 0 => { wb with v0 := v }
  | 1 => { wb with w := v }
  | 2 => { wb with h := v }
  | 3 => { wb with x := v }
  | 4 => { wb with y := v }
  | 5 => { wb with o := v }
  | 6 => { wb with c := v }

/-! ### Quads -/

/-- Slot `c` of a quad. -/
def Quad.slot (q : Quad) (c : Nat) : Byte :=
  match c with
  | 0 => q.s0
  | 1 => q.s1
  | 2 => q.s2
  | _ => q.s3

/-- `PAL[j]` (10_state.md R31). -/
def palAt (pal : List Byte) (j : Byte) : Byte := fileRead 0 pal j.toNat

/-- A quad through the palette-translation table (45_reconstructor.md R240). -/
def Quad.translate (pal : List Byte) (q : Quad) : Quad :=
  { s0 := palAt pal q.s0, s1 := palAt pal q.s1, s2 := palAt pal q.s2, s3 := palAt pal q.s3 }

/-! ### Frames and cells of a visit -/

/-- `FG[f]`. -/
def DirRegs.frame (r : DirRegs) (f : Nat) : FrameGeom := fileRead zeroFrame r.fg f

/-- `FG[f]` changed. -/
def DirRegs.updFrame (r : DirRegs) (f : Nat) (g : FrameGeom → FrameGeom) : DirRegs :=
  { r with fg := fileWrite zeroFrame r.fg f (g (r.frame f)) }

/-- `FG[f].FL - DL` and `FG[f].FT - DT`, non-negative (43_frame_geometry.md R196). -/
def DirRegs.offX (r : DirRegs) (f : Nat) : Nat := ((r.frame f).fl - r.dl).toNat
def DirRegs.offY (r : DirRegs) (f : Nat) : Nat := ((r.frame f).ft - r.dt).toNat

/-- `FCELL[f][c]`. -/
def DirRegs.cell (r : DirRegs) (f c : Nat) : CellGeom := fileRead zeroCell (fileRead [] r.fcell f) c

/-- The frame-cell index `c = cx + cy*FHCC[f]` of the current visit (41_container_and_sequencer.md R153). -/
def Engine.visitCell (e : Engine) : Nat := e.cx + e.cy * fileRead 0 e.regs.fhcc e.frm.toNat

/-- The direction-cell index `K` of the current visit (45_reconstructor.md R228). -/
def Engine.visitK (e : Engine) : Nat :=
  e.regs.offX e.frm.toNat / 4 + e.cx + (e.regs.offY e.frm.toNat / 4 + e.cy) * e.regs.hcc

/-- `OUT[DIR][f]`. -/
def DirRegs.outArr (r : DirRegs) (f : Nat) : Mem := fileRead [] r.out f

end Sys2Proof.Machine
end

