-- ==== Sys2Proof/Machine/Flags.lean ====
section
/-!
DEFINITION. The block has no condition codes (10_state.md R34). Its flags are the compression flags, the bottom-up flag, and
the working flags of a visit: equal-cells bit, encoding-type bit, pixel mask, and a last occurrence's valid bit.
-/

namespace Sys2Proof.Machine

/-- `CFLAGS[0]`: the encoding-type and raw-pixel-codes size fields are present. -/
def DirRegs.rawPresent (r : DirRegs) : Bool := r.cflags.getLsbD 0

/-- `CFLAGS[1]`: the equal-cells size field is present. -/
def DirRegs.ecPresent (r : DirRegs) : Bool := r.cflags.getLsbD 1

/-- A sub-bitstream is active when its size is greater than 0 (42_direction_header.md R180). -/
def active (size : BitVec 20) : Bool := decide (0 < size.toNat)

/-- `POPC` (30_encoding.md R117). -/
def popc (m : BitVec 4) : Nat :=
  (m.getLsbD 0).toNat + (m.getLsbD 1).toNat + (m.getLsbD 2).toNat + (m.getLsbD 3).toNat

/-- `EQ` written (45_reconstructor.md R227). -/
def Work.setEq (w : Work) (e : BitVec 1) : Work := { w with eq := e }

/-- `MASK` written, and `CNT` with it (45_reconstructor.md R229, R231). -/
def Work.setMask (w : Work) (m : BitVec 4) : Work := { w with mask := m, cnt := popc m }

/-- `ETB` written, and the value loop prepared: `LASTPIX` and `NDEC` are 0 (45_reconstructor.md R227, R235). -/
def Work.setEtb (w : Work) (t : BitVec 1) : Work :=
  { w with etb := t, lastpix := 0, vals := [], v := 0, chain := false, vend := false }

/-- One nibble of a chain added: the first of a chain adds to `LASTPIX`, a later one to the sum so far, both modulo 2^32
(45_reconstructor.md R233). A nibble 15 leaves the chain open. -/
def Work.addNibble (w : Work) (d : BitVec 4) : Work :=
  { w with v := (if w.chain then w.v else w.lastpix) + d.setWidth 32, chain := decide (d = 15) }

/-- A decoded value: equal to the accumulator it ends the loop, otherwise it is accepted and becomes the accumulator
(45_reconstructor.md R234, R236). -/
def Work.takeValue (w : Work) (v : BitVec 32) : Work :=
  if v = w.lastpix then { w with vend := true } else { w with lastpix := v, vals := w.vals ++ [v] }

/-- The code width of a translated quad: 0, 1 or 2 (30_encoding.md R114). -/
def codeWidth (t : Quad) : Nat := if t.s0 = t.s1 then 0 else if t.s1 = t.s2 then 1 else 2

end Sys2Proof.Machine
end

