-- ==== Sys2Proof/Machine/BitCursor.lean ====
section
/-!
DEFINITION. The BitCursor port operations `RDBITS`, `RDSBITS`, `RDBIT`, `SKIP`, `CONS`, `CLONE` (40_bitcursor.md) as steps of
their own: the operation is taken from the port, and the value it returns stands in `bcOut` (log 1).
-/

namespace Sys2Proof.Machine

/-- A read through a cursor: its value goes to `bcOut`; a read past the end raises and leaves the cursor and `bcOut` as they
were (40_bitcursor.md R132, R139). -/
def bcRead (cur : CursorSel) (n : Nat) (val : Nat → Int) (s : State) : Host.Outcome State Fault Refusal :=
  match (s.cursor cur).read s.ibuf n with
  | .ok (u, c) => .next { (s.setCursor cur c) with bcOut := val u, port := none }
  | .error x => .next (takeError x (s.cursorDir cur) { s with port := none })

/-- `RDBITS cur, n` (40_bitcursor.md R132). -/
def execRdbits (cur : CursorSel) (n : BitVec 6) (s : State) : Host.Outcome State Fault Refusal :=
  bcRead cur n.toNat (fun u => (u : Int)) s

/-- `RDSBITS cur, n` (40_bitcursor.md R133). -/
def execRdsbits (cur : CursorSel) (n : BitVec 6) (s : State) : Host.Outcome State Fault Refusal :=
  bcRead cur n.toNat (signedOf n.toNat) s

/-- `RDBIT cur`: `RDBITS cur, 1` (40_bitcursor.md R134). -/
def execRdbit (cur : CursorSel) (s : State) : Host.Outcome State Fault Refusal :=
  bcRead cur 1 (fun u => (u : Int)) s

/-- `SKIP cur, n20` (40_bitcursor.md R135): no value, no fault. -/
def execSkip (cur : CursorSel) (n20 : BitVec 20) (s : State) : Host.Outcome State Fault Refusal :=
  .next { (s.setCursor cur ((s.cursor cur).advance n20.toNat)) with port := none }

/-- `CONS cur` (40_bitcursor.md R136): the consumed count, no cursor moves. -/
def execCons (cur : CursorSel) (s : State) : Host.Outcome State Fault Refusal :=
  .next { s with bcOut := ((s.cursor cur).cons : Int), port := none }

/-- `CLONE cur, src` (40_bitcursor.md R137): the count restarts at 0. -/
def execClone (cur src : CursorSel) (s : State) : Host.Outcome State Fault Refusal :=
  .next { (s.setCursor cur (s.cursor src).cloned) with port := none }

end Sys2Proof.Machine
end

