-- ==== Sys2Proof/Machine/Container.lean ====
section
/-!
DEFINITION. The container front end: `CHDR`, `DSEEK`, `CFIN` (41_container_and_sequencer.md), and the step order's counters
(R152, R153).
-/

namespace Sys2Proof.Machine

/-! ### Step order -/

/-- `PHASE <- p`. -/
def goto (p : BitVec 5) : EngM Unit := upd fun e => { e with phase := p }

/-- `FRM + 1 < NFRAMES`, `NFRAMES` signed (10_state.md R26). -/
def moreFrames (nframes : BitVec 32) (frm : BitVec 32) : Bool := decide ((frm.toNat : Int) + 1 < nframes.toInt)

/-- The next frame of the same step, or another step (41_container_and_sequencer.md R152, `FGEOM` and `FGRID`). -/
def Engine.nextFrame (nframes : BitVec 32) (done : Engine → Engine) (e : Engine) : Engine :=
  if moreFrames nframes e.frm then { e with frm := e.frm + 1 } else done e

/-- `nextcell(FRM, CY, CX)` (41_container_and_sequencer.md R153): the counters of the next visit, or another step. -/
def Engine.nextCell (nframes : BitVec 32) (done : Engine → Engine) (e : Engine) : Engine :=
  if e.cx + 1 < fileRead 0 e.regs.fhcc e.frm.toNat then { e with cx := e.cx + 1 }
  else if e.cy + 1 < fileRead 0 e.regs.fvcc e.frm.toNat then { e with cy := e.cy + 1, cx := 0 }
  else if moreFrames nframes e.frm then { e with frm := e.frm + 1, cy := 0, cx := 0 }
  else done e

/-- `(FRM, CY, CX) <- (0, 0, 0)` and `PHASE <- p`. -/
def Engine.firstCell (p : BitVec 5) (e : Engine) : Engine := { e with phase := p, frm := 0, cy := 0, cx := 0 }

/-! ### `CHDR` -/

/-- `DIROFF[d] <- RDBITS(CCUR, 32)` for `k` directions from `d` on. -/
def offsetLoop (b : Buf) : Nat → Nat → FrontM Unit
  | _, 0 => pure ()
  | d, k + 1 => do
    let v ← rdc b 32
    updF fun f => { f with diroff := fileWrite 0 f.diroff d (BitVec.ofNat 32 v) }
    offsetLoop b (d + 1) k

/-- The pseudocode of 41_container_and_sequencer.md R154. -/
def chdrParse (b : Buf) (maxFrames : Option Nat) : FrontM Unit := do
  updF fun f => { f with ccur := { pos := 0, cons := 0 } }
  let v ← rdc b 8
  updF fun f => { f with signature := BitVec.ofNat 8 v }
  frontCheck (decide (v = 0x74)) .badSignature
  let v ← rdc b 8
  updF fun f => { f with version := BitVec.ofNat 8 v }
  let nd ← rdc b 8
  updF fun f => { f with ndir := BitVec.ofNat 8 nd }
  let nf ← rdc b 32
  updF fun f => { f with nframes := BitVec.ofNat 32 nf }
  let v ← rdc b 32
  updF fun f => { f with sentinel := BitVec.ofNat 32 v }
  frontCheck (decide (v = 1)) .badSentinel
  let v ← rdc b 32
  updF fun f => { f with totalsize := BitVec.ofNat 32 v }
  offsetLoop b 0 nd
  frontCheck (decide (1 ≤ signedOf 32 nf)) .badFrameCount
  frontCheck (!exceeds maxFrames nf) .capFrames

/-- After `CHDR`: the front end's next step is `CFIN`, taken when the engine has stopped; with at least one direction the
engine is started at `DSEEK` with `DIR = 0` (41_container_and_sequencer.md R152, R157; log 12). -/
def dispatchEngine (s : State) : State :=
  if s.front.ndir = 0 then { s with front.phase := phCfin }
  else { s with front.phase := phCfin, eng.phase := phDseek, eng.dir := 0 }

/-- `CHDR` (41_container_and_sequencer.md R154). -/
def execChdr (s : State) : Host.Outcome State Fault Refusal :=
  runFront (chdrParse s.ibuf s.caps.maxFrames) dispatchEngine s

/-! ### `DSEEK`, `CFIN` -/

/-- `DSEEK` (41_container_and_sequencer.md R156). -/
def execDseek (s : State) : Host.Outcome State Fault Refusal :=
  .next { s with
    eng.tr.main := { pos := 8 * (fileRead 0 s.front.diroff s.eng.dir.toNat).toNat, cons := 0 }
    eng.phase := phDhdr }

/-- `CFIN` (41_container_and_sequencer.md R168). -/
def execCfin (s : State) : Host.Outcome State Fault Refusal :=
  .next { s with front.phase := phIdle, status := stDone, irq := s.irqEn }

end Sys2Proof.Machine
end

