-- ==== Sys2Proof/Machine/CellGrid.lean ====
section
/-!
DEFINITION. The CellGrid builder: `DGRID`, `FGRID` (44_cellgrid.md).
-/

namespace Sys2Proof.Machine

/-- The cell extents of a direction axis (44_cellgrid.md R207). -/
def dtile (E : Nat) : List Nat :=
  let n := 1 + (E - 1) / 4
  List.replicate (n - 1) 4 ++ [E - 4 * (n - 1)]

/-- The number of frame cells on an axis that has more than one (44_cellgrid.md R210). -/
def ftileCount (t : Nat) : Nat := if t % 4 = 0 then 2 + t / 4 - 1 else 2 + t / 4

/-- The cell extents of a frame axis: extent `E`, offset `o` in the direction box (44_cellgrid.md R210). -/
def ftile (E o : Nat) : List Nat :=
  let first := 4 - o % 4
  if E ≤ first + 1 then [E]
  else
    let n := ftileCount (E - first - 1)
    first :: (List.replicate (n - 2) 4 ++ [E - first - 4 * (n - 2)])

/-- One row of cells from column `x` on. -/
def gridRow (h y : Nat) : List Nat → Nat → List CellGeom
  | [], _ => []
  | w :: ws, x => { w := w, h := h, x := x, y := y } :: gridRow h y ws (x + w)

/-- Cells laid out row-major with cumulative offsets (44_cellgrid.md R206, R209). -/
def gridCells (cw : List Nat) (x0 : Nat) : List Nat → Nat → List CellGeom
  | [], _ => []
  | h :: hs, y => gridRow h y cw x0 ++ gridCells cw x0 hs (y + h)

/-- The direction grid's counts written (44_cellgrid.md R206). -/
def DirRegs.setGridCounts (r : DirRegs) : DirRegs :=
  { r with hcc := (dtile r.dw).length, vcc := (dtile r.dh).length }

/-- The pseudocode of 44_cellgrid.md R206, and `FRM <- 0` of the step order. -/
def dgridBody (maxDcells : Option Nat) : EngM Unit := do
  upd fun e => { e with regs := e.regs.setGridCounts }
  let e ← get
  engCheck (!exceeds maxDcells (e.regs.hcc * e.regs.vcc)) .capDcells
  upd fun e => { e with
    regs.dcell := gridCells (dtile e.regs.dw) 0 (dtile e.regs.dh) 0
    tr.occ := List.replicate (e.regs.hcc * e.regs.vcc) none }
  upd fun e => { e with phase := phFgrid, frm := 0 }

/-- `DGRID` (44_cellgrid.md R206). -/
def execDgrid (s : State) : Host.Outcome State Fault Refusal := runEng (dgridBody s.caps.maxDcells) s

/-- Frame `f`'s column widths and row heights (44_cellgrid.md R209). -/
def DirRegs.frameCols (r : DirRegs) (f : Nat) : List Nat := ftile (r.frame f).fw.toNat (r.offX f)
def DirRegs.frameRows (r : DirRegs) (f : Nat) : List Nat := ftile (r.frame f).fh.toNat (r.offY f)

/-- The frame grid's counts written (44_cellgrid.md R209). -/
def DirRegs.setFrameCounts (r : DirRegs) (f : Nat) : DirRegs :=
  { r with
    fhcc := fileWrite 0 r.fhcc f (r.frameCols f).length
    fvcc := fileWrite 0 r.fvcc f (r.frameRows f).length }

/-- The frame grid's cells written, offsets relative to the direction box (44_cellgrid.md R209, R212). -/
def DirRegs.setFrameCells (r : DirRegs) (f : Nat) : DirRegs :=
  { r with fcell := fileWrite [] r.fcell f (gridCells (r.frameCols f) (r.offX f) (r.frameRows f) (r.offY f)) }

/-- The pseudocode of 44_cellgrid.md R209, and the step order. -/
def fgridBody (maxFcells : Option Nat) (nframes : BitVec 32) : EngM Unit := do
  upd fun e => { e with regs := e.regs.setFrameCounts e.frm.toNat }
  let e ← get
  engCheck (!exceeds maxFcells ((e.regs.frameCols e.frm.toNat).length * (e.regs.frameRows e.frm.toNat).length)) .capFcells
  upd fun e => { e with regs := e.regs.setFrameCells e.frm.toNat }
  upd (Engine.nextFrame nframes (Engine.firstCell phRcell))

/-- `FGRID` (44_cellgrid.md R209). -/
def execFgrid (s : State) : Host.Outcome State Fault Refusal :=
  runEng (fgridBody s.caps.maxFcells s.front.nframes) s

end Sys2Proof.Machine
end

