-- ==== Sys2Proof/Machine/Reconstruct.lean ====
section
/-!
DEFINITION. The PixelBuffer reconstructor: `RCELL`, `PXLAT`, `ICHK` (45_reconstructor.md).
-/

namespace Sys2Proof.Machine

/-- A change of the working registers. -/
def updW (f : Work → Work) : EngM Unit := upd fun e => { e with tr.work := f e.tr.work }

/-! ### `RCELL`: mask -/

/-- Step 2 (45_reconstructor.md R227, R229, R230): the mask of the visit, or `true` when the cell is reused. -/
def readMask (b : Buf) (ecsize : BitVec 20) (prev : Option Nat) : EngM Bool := do
  if prev = none then
    updW fun w => (w.setEq 0).setMask 15
    return false
  else
    let eq ← rd b .ec (if active ecsize then 1 else 0)
    updW fun w => w.setEq (BitVec.ofNat 1 eq)
    if eq = 1 then return true
    else
      let m ← rd b .pm 4
      updW fun w => w.setMask (BitVec.ofNat 4 m)
      return false

/-! ### `RCELL`: values -/

/-- A nibble chain (30_encoding.md R112): nibbles are added until one is not 15. The fuel bounds the nibbles the buffer can
still hold; it is not reached (log 20). -/
def chainLoop (b : Buf) : Nat → EngM Unit
  | 0 => fun e => .error .outOfRange e
  | k + 1 => do
    let d ← rd b .main 4
    updW fun w => w.addNibble (BitVec.ofNat 4 d)
    if d = 15 then chainLoop b k else pure ()

/-- More nibbles than the buffer holds from the cursor on. -/
def chainFuel (b : Buf) (e : Engine) : Nat := (b.bits - e.tr.main.pos) / 4 + 1

/-- A delta value: `LASTPIX` plus one chain (45_reconstructor.md R233). -/
def readDelta (b : Buf) : EngM (BitVec 32) := do
  let e ← get
  chainLoop b (chainFuel b e)
  let e ← get
  return e.tr.work.v

/-- One value: raw or delta by `ETB` (45_reconstructor.md R232, R233). -/
def readValue (b : Buf) (etb : BitVec 1) : EngM (BitVec 32) := do
  if etb = 1 then
    let v ← rd b .rp 8
    return BitVec.ofNat 32 v
  else readDelta b

/-- Step 4's loop over at most `k` values; a terminator stops it (45_reconstructor.md R234). -/
def valueLoop (b : Buf) (etb : BitVec 1) : Nat → EngM Unit
  | 0 => pure ()
  | k + 1 => do
    let v ← readValue b etb
    updW fun w => w.takeValue v
    let e ← get
    if e.tr.work.vend then pure () else valueLoop b etb k

/-- Step 4 (45_reconstructor.md R227, R231): the encoding-type bit, then the values. -/
def readValues (b : Buf) (etsize : BitVec 20) : EngM Unit := do
  let e ← get
  let cnt := e.tr.work.cnt
  let t ← rd b .et (if 0 < cnt ∧ active etsize = true then 1 else 0)
  updW fun w => w.setEtb (BitVec.ofNat 1 t)
  valueLoop b (BitVec.ofNat 1 t) cnt

/-! ### `RCELL`: quad and entry -/

/-- One slot: a set one takes the next value, 0 when none is left; a clear one keeps the old value (45_reconstructor.md R238). -/
def fillSlot (m : Bool) (old : Byte) (vs : List (BitVec 32)) : Byte × List (BitVec 32) :=
  if m then
    match vs with
    | [] => (0, [])
    | v :: r => (v.setWidth 8, r)
  else (old, vs)

/-- Step 5: set slots take the accepted values from the last one backwards (45_reconstructor.md R238). -/
def assembleQuad (mask : BitVec 4) (vals : List (BitVec 32)) (old : Quad) : Quad :=
  let a := fillSlot (mask.getLsbD 0) old.s0 vals.reverse
  let b := fillSlot (mask.getLsbD 1) old.s1 a.2
  let c := fillSlot (mask.getLsbD 2) old.s2 b.2
  let d := fillSlot (mask.getLsbD 3) old.s3 c.2
  { s0 := a.1, s1 := b.1, s2 := c.1, s3 := d.1 }

/-- The previous occupant's assembled quad; zeros with no previous occupant (45_reconstructor.md R227, R238). -/
def prevQuad (pbe : List Entry) (prev : Option Nat) : Quad :=
  match prev with
  | none => zeroQuad
  | some i => (fileRead zeroEntry pbe i).q

/-- `OCC[K]`. -/
def Transient.occupant (t : Transient) (k : Nat) : Option Nat := fileRead none t.occ k

/-- The new entry appended and made the occupant of `K`; its `T` is unspecified until `PXLAT`: a free value
(45_reconstructor.md R227, R239; log 6). -/
def Engine.appendEntry (prev : Option Nat) (e : Engine) : Engine :=
  { e with
    tr.pbe := e.tr.pbe ++
      [{ q := assembleQuad e.tr.work.mask e.tr.work.vals (prevQuad e.tr.pbe prev)
         t := Config.freeQuad e.free
         frame := e.frm
         fci := e.visitCell }]
    tr.occ := fileWrite none e.tr.occ e.tr.work.k (some e.tr.pbcnt)
    free := e.free + 1 }

/-- `PBCNT = MAX_PBE` (45_reconstructor.md R227, R242). -/
def pbeFull (maxPbe : Option Nat) (n : Nat) : Bool := decide (maxPbe = some n)

/-- Steps 4 and 5 of a visit that does not reuse. -/
def freshCell (b : Buf) (maxPbe : Option Nat) (prev : Option Nat) : EngM Unit := do
  let e ← get
  readValues b e.regs.etsize
  let e ← get
  engCheck (!pbeFull maxPbe e.tr.pbcnt) .capPbe
  upd (Engine.appendEntry prev)

/-- The pseudocode of 45_reconstructor.md R227, and the step order. -/
def rcellBody (b : Buf) (maxPbe : Option Nat) (nframes : BitVec 32) : EngM Unit := do
  let e ← get
  let prev := e.tr.occupant e.visitK
  updW fun w => { w with k := e.visitK }
  let reuse ← readMask b e.regs.ecsize prev
  (if reuse then pure () else freshCell b maxPbe prev : EngM Unit)
  upd (Engine.nextCell nframes fun x => { x with phase := phPxlat })

/-- `RCELL` (45_reconstructor.md R227). -/
def execRcell (s : State) : Host.Outcome State Fault Refusal :=
  runEng (rcellBody s.ibuf s.caps.maxPbe s.front.nframes) s

/-! ### `PXLAT` -/

/-- An entry translated; `Q` is kept (45_reconstructor.md R240). -/
def Entry.translate (pal : List Byte) (x : Entry) : Entry := { x with t := x.q.translate pal }

/-- `PXLAT` (45_reconstructor.md R240). -/
def execPxlat (s : State) : Host.Outcome State Fault Refusal :=
  .next { s with
    eng.tr.pbe := s.eng.tr.pbe.map (Entry.translate s.eng.regs.pal)
    eng.phase := phIchk }

/-! ### `ICHK` -/

/-- The compositor prepared: no entry consumed, no last occurrence valid, the canvas zero (45_reconstructor.md R243). -/
def Engine.prepareCanvas (e : Engine) : Engine :=
  { e with
    tr.pbidx := 0
    tr.last := (List.range (e.regs.hcc * e.regs.vcc)).map fun k => { fileRead zeroLast e.tr.last k with valid := false }
    tr.canvas := [] }

/-- The pseudocode of 45_reconstructor.md R243, and the step order. -/
def ichkBody : EngM Unit := do
  let e ← get
  engCheck (decide (e.tr.ec.cons = e.regs.ecsize.toNat)) .equalCells
  engCheck (decide (e.tr.pm.cons = e.regs.pmsize.toNat)) .pixelMask
  engCheck (decide (e.tr.et.cons = e.regs.etsize.toNat)) .encodingType
  engCheck (decide (e.tr.rp.cons = e.regs.rpsize.toNat)) .rawPixelCodes
  upd Engine.prepareCanvas
  upd (Engine.firstCell phCcell)

/-- `ICHK` (45_reconstructor.md R243). -/
def execIchk (s : State) : Host.Outcome State Fault Refusal := runEng ichkBody s

end Sys2Proof.Machine
end

