-- ==== Sys2Proof/Machine/Compositor.lean ====
section
/-!
DEFINITION. The FrameCompositor: `CCELL`, `DFIN` (46_compositor.md). The block's only stores to pixel memory are here.
-/

namespace Sys2Proof.Machine

/-! ### Pixels of a block -/

/-- The pixels of a `w` by `h` block, row by row, left to right: `y` outermost, `x` innermost (46_compositor.md R256). -/
def blockPixels (w h : Nat) : List (Nat × Nat) :=
  (List.range h).flatMap fun y => (List.range w).map fun x => (x, y)

/-- The byte address of pixel `(x, y)` in a canvas `dw` wide (20_memory.md R72). -/
def pixAddr (dw x y : Nat) : Nat := x + y * dw

/-- The block at `(x0, y0)` cleared (46_compositor.md R258). -/
def clearBlock (dw x0 y0 : Nat) (ps : List (Nat × Nat)) (m : Mem) : Mem :=
  ps.foldl (fun m p => m.write (pixAddr dw (x0 + p.1) (y0 + p.2)) 0) m

/-- The block at `(sx, sy)` copied to `(x0, y0)` of the same canvas, pixel by pixel on the live canvas
(46_compositor.md R259). -/
def copyBlock (dw sx sy x0 y0 : Nat) (ps : List (Nat × Nat)) (m : Mem) : Mem :=
  ps.foldl (fun m p => m.write (pixAddr dw (x0 + p.1) (y0 + p.2)) (m.read (pixAddr dw (sx + p.1) (sy + p.2)))) m

/-- The block at `(x0, y0)` of the canvas copied to the same place of an output array (46_compositor.md R260, R261). -/
def emitBlock (dw x0 y0 : Nat) (ps : List (Nat × Nat)) (canvas out : Mem) : Mem :=
  ps.foldl
    (fun m p => m.write (pixAddr dw (x0 + p.1) (y0 + p.2)) (canvas.read (pixAddr dw (x0 + p.1) (y0 + p.2)))) out

/-- `OUT[DIR][f]` changed. -/
def DirRegs.updOut (r : DirRegs) (f : Nat) (g : Mem → Mem) : DirRegs :=
  { r with out := fileWrite [] r.out f (g (r.outArr f)) }

/-! ### `CCELL` -/

/-- The cell's block of the canvas emitted to the current frame's output array. -/
def Engine.emit (g : CellGeom) (e : Engine) : Engine :=
  { e with regs := e.regs.updOut e.frm.toNat (emitBlock e.regs.dw g.x g.y (blockPixels g.w g.h) e.tr.canvas) }

/-- The next unconsumed entry belongs to this visit (46_compositor.md R257). -/
def Engine.fresh (e : Engine) : Bool :=
  decide (e.tr.pbidx < e.tr.pbcnt) && decide ((fileRead zeroEntry e.tr.pbe e.tr.pbidx).frame = e.frm)
    && decide ((fileRead zeroEntry e.tr.pbe e.tr.pbidx).fci = e.visitCell)

/-- A back-reference: sizes that differ clear the block of the canvas; equal sizes copy it and emit it
(46_compositor.md R256, R258 to R260). -/
def Engine.backReference (g : CellGeom) (l : LastOcc) (e : Engine) : Engine :=
  if l.w ≠ g.w ∨ l.h ≠ g.h then
    { e with tr.canvas := clearBlock e.regs.dw g.x g.y (blockPixels g.w g.h) e.tr.canvas }
  else
    Engine.emit g { e with tr.canvas := copyBlock e.regs.dw l.x l.y g.x g.y (blockPixels g.w g.h) e.tr.canvas }

/-- One pixel of a cell painted with slot `code` of a quad (46_compositor.md R261). -/
def Engine.paint (g : CellGeom) (t : Quad) (x y code : Nat) (e : Engine) : Engine :=
  { e with tr.canvas := e.tr.canvas.write (pixAddr e.regs.dw (g.x + x) (g.y + y)) (t.slot code) }

/-- A code read and its pixel painted, for each pixel (46_compositor.md R256, R262). -/
def paintLoop (b : Buf) (g : CellGeom) (t : Quad) : List (Nat × Nat) → EngM Unit
  | [] => pure ()
  | p :: ps => do
    let code ← rd b .main (codeWidth t)
    upd (Engine.paint g t p.1 p.2 code)
    paintLoop b g t ps

/-- A fresh cell painted, emitted, its entry consumed (46_compositor.md R256, R261). -/
def freshPaint (b : Buf) (g : CellGeom) : EngM Unit := do
  let e ← get
  paintLoop b g (fileRead zeroEntry e.tr.pbe e.tr.pbidx).t (blockPixels g.w g.h)
  upd (Engine.emit g)
  upd fun x => { x with tr.pbidx := x.tr.pbidx + 1 }

/-- `LAST[K]` becomes this cell (46_compositor.md R263). -/
def Engine.record (k : Nat) (g : CellGeom) (e : Engine) : Engine :=
  { e with tr.last := fileWrite zeroLast e.tr.last k { valid := true, w := g.w, h := g.h, x := g.x, y := g.y } }

/-- The output array zeroed at the first cell of a frame (46_compositor.md R256, R265), and the pixel loops' variables at
their start. -/
def Engine.openVisit (e : Engine) : Engine :=
  let e := { e with tr.work.px := 0, tr.work.py := 0 }
  if e.visitCell = 0 then { e with regs := e.regs.updOut e.frm.toNat fun _ => [] } else e

/-- The pseudocode of 46_compositor.md R256, and the step order. -/
def ccellBody (b : Buf) (nframes : BitVec 32) : EngM Unit := do
  let e ← get
  let k := e.visitK
  let g := e.regs.cell e.frm.toNat e.visitCell
  upd Engine.openVisit
  (if e.fresh then freshPaint b g else upd (Engine.backReference g (fileRead zeroLast e.tr.last k)) : EngM Unit)
  upd (Engine.record k g)
  upd (Engine.nextCell nframes fun x => { x with phase := phDfin })

/-- `CCELL` (46_compositor.md R256). -/
def execCcell (s : State) : Host.Outcome State Fault Refusal := runEng (ccellBody s.ibuf s.front.nframes) s

/-! ### `DFIN` -/

/-- A free cursor, within its two 64-bit registers. -/
def Cursor.within (c : Cursor) : Cursor := { pos := c.pos % 2 ^ 64, cons := c.cons % 2 ^ 64 }

/-- Discarded state: nothing is known of it but that it fits its registers (10_state.md R47; log 7). -/
def discarded (n : Nat) : Transient :=
  let t := Config.freeTrans n
  { t with
    main := t.main.within
    ec := t.ec.within
    pm := t.pm.within
    et := t.et.within
    rp := t.rp.within
    canvas := Mem.ofCells t.canvas }

/-- The engine after a direction: it stops, or, one engine decoding all of them, takes the next direction
(41_container_and_sequencer.md R152, R157; log 12). -/
def Engine.finish (ndir : BitVec 8) (e : Engine) : Engine :=
  let e := { e with tr := discarded e.free, free := e.free + 1 }
  if e.dir.toNat + 1 < ndir.toNat then { e with phase := phDseek, dir := e.dir + 1 } else { e with phase := phIdle }

/-- `DFIN` (46_compositor.md R268): the direction's registers and output arrays are the result store's (log 26). -/
def execDfin (s : State) : Host.Outcome State Fault Refusal :=
  .next { s with
    result := fileWrite resetRegs s.result s.eng.dir.toNat s.eng.regs
    eng := s.eng.finish s.front.ndir }

end Sys2Proof.Machine
end

