-- ==== Sys2Proof/Machine/DirHeader.lean ====
section
/-!
DEFINITION. The DirectionHeader parser: `DHDR`, `OPTCHK`, `BSIZES`, `PALV`, `SLICE` (42_direction_header.md).
-/

namespace Sys2Proof.Machine

/-! ### `DHDR` -/

/-- `idx <- RDBITS(MAIN, 4); WB[i] <- WLUT[idx]` for each listed field. -/
def widthLoop (b : Buf) : List (Fin 7) → EngM Unit
  | [] => pure ()
  | i :: is => do
    let v ← rd b .main 4
    upd fun e => { e with regs.wb := setWidthAt e.regs.wb i (wlut (BitVec.ofNat 4 v)) }
    widthLoop b is

/-- The pseudocode of 42_direction_header.md R171, and `FRM <- 0` of the step order. -/
def dhdrBody (b : Buf) : EngM Unit := do
  let v ← rd b .main 32
  upd fun e => { e with regs.outsize := BitVec.ofNat 32 v }
  let v ← rd b .main 2
  upd fun e => { e with regs.cflags := BitVec.ofNat 2 v }
  widthLoop b [0, 1, 2, 3, 4, 5, 6]
  upd fun e => { e with phase := phFgeom, frm := 0 }

/-- `DHDR` (42_direction_header.md R171). -/
def execDhdr (s : State) : Host.Outcome State Fault Refusal := runEng (dhdrBody s.ibuf) s

/-! ### `OPTCHK` -/

/-- The pseudocode of 42_direction_header.md R175. -/
def optchkBody : EngM Unit := do
  let e ← get
  engCheck (decide (e.regs.wb.o.toNat = 0)) .optionalDataBits
  goto phBsizes

/-- `OPTCHK` (42_direction_header.md R175). -/
def execOptchk (s : State) : Host.Outcome State Fault Refusal := runEng optchkBody s

/-! ### `BSIZES` -/

/-- `RDBITS(MAIN, 20)` when the field is present, else 0. -/
def readSize (b : Buf) (present : Bool) : EngM (BitVec 20) := do
  if present then
    let v ← rd b .main 20
    return BitVec.ofNat 20 v
  else return 0

/-- The pseudocode of 42_direction_header.md R176. -/
def bsizesBody (b : Buf) : EngM Unit := do
  let e ← get
  let v ← readSize b e.regs.ecPresent
  upd fun e => { e with regs.ecsize := v }
  let v ← readSize b true
  upd fun e => { e with regs.pmsize := v }
  let v ← readSize b e.regs.rawPresent
  upd fun e => { e with regs.etsize := v }
  let v ← readSize b e.regs.rawPresent
  upd fun e => { e with regs.rpsize := v }
  goto phPalv

/-- `BSIZES` (42_direction_header.md R176). -/
def execBsizes (s : State) : Host.Outcome State Fault Refusal := runEng (bsizesBody s.ibuf) s

/-! ### `PALV` -/

/-- `PALCNT <- 0` and every entry of `PAL` 0 (42_direction_header.md R177). -/
def DirRegs.clearPal (r : DirRegs) : DirRegs := { r with palcnt := 0, pal := List.replicate 256 0 }

/-- Valid flag `i`: a set one appends index `i` (30_encoding.md R100). -/
def DirRegs.palFlag (r : DirRegs) (i : Nat) (flag : Bool) : DirRegs :=
  if flag then { r with pal := fileWrite 0 r.pal r.palcnt.toNat (BitVec.ofNat 8 i), palcnt := r.palcnt + 1 } else r

/-- The flags from index `i` on, `k` of them. -/
def palLoop (b : Buf) : Nat → Nat → EngM Unit
  | _, 0 => pure ()
  | i, k + 1 => do
    let v ← rd b .main 1
    upd fun e => { e with regs := e.regs.palFlag i (decide (v = 1)) }
    palLoop b (i + 1) k

/-- The pseudocode of 42_direction_header.md R177. -/
def palvBody (b : Buf) : EngM Unit := do
  upd fun e => { e with regs := e.regs.clearPal }
  palLoop b 0 256
  goto phSlice

/-- `PALV` (42_direction_header.md R177). -/
def execPalv (s : State) : Host.Outcome State Fault Refusal := runEng (palvBody s.ibuf) s

/-! ### `SLICE` -/

/-- The pseudocode of 42_direction_header.md R178. -/
def sliceBody : EngM Unit := do
  let e ← get
  cln .ec .main
  skp .main e.regs.ecsize.toNat
  cln .pm .main
  skp .main e.regs.pmsize.toNat
  cln .et .main
  skp .main e.regs.etsize.toNat
  cln .rp .main
  skp .main e.regs.rpsize.toNat
  upd fun e => { e with tr.pbe := [] }
  goto phDgrid

/-- `SLICE` (42_direction_header.md R178). -/
def execSlice (s : State) : Host.Outcome State Fault Refusal := runEng sliceBody s

end Sys2Proof.Machine
end

