-- ==== Sys2Proof/Machine/FrameGeometry.lean ====
section
/-!
DEFINITION. The FrameGeometry parser and the direction bounding box: `FGEOM`, `DBOX` (43_frame_geometry.md). Box arithmetic is
on exact integers (R197).
-/

namespace Sys2Proof.Machine

/-- `FG[f]` changed, inside an engine step. -/
def updFG (f : Nat) (g : FrameGeom → FrameGeom) : EngM Unit := upd fun e => { e with regs := e.regs.updFrame f g }

/-- Right and bottom of a box, exclusive (43_frame_geometry.md R195). -/
def FrameGeom.right (g : FrameGeom) : Int := g.fl + (g.fw.toNat : Int)
def FrameGeom.bottom (g : FrameGeom) : Int := g.ft + (g.fh.toNat : Int)

/-- `FL = FX`, `FT = FY - FH + 1` (43_frame_geometry.md R191, R192). -/
def FrameGeom.setBox (g : FrameGeom) : FrameGeom :=
  { g with fl := g.fx.toInt, ft := g.fy.toInt - (g.fh.toNat : Int) + 1 }

/-- Frame `f`'s box folded into `MINL`, `MINT`, `MAXR`, `MAXB`: frame 0 sets them (43_frame_geometry.md R191). -/
def DirRegs.fold (r : DirRegs) (f : Nat) : DirRegs :=
  let g := r.frame f
  if f = 0 then { r with minl := g.fl, mint := g.ft, maxr := g.right, maxb := g.bottom }
  else { r with minl := min r.minl g.fl, mint := min r.mint g.ft, maxr := max r.maxr g.right, maxb := max r.maxb g.bottom }

/-- The two tests of a frame header, in order (43_frame_geometry.md R191). -/
def frameChecks (g : FrameGeom) : Except Cause Unit :=
  if g.fbu = 1 then .error .bottomUpFlag
  else if g.fw.toNat < 1 ∨ g.fh.toNat < 1 then .error .emptyBox
  else .ok ()

/-- `frameChecks` on `FG[f]`, inside an engine step. -/
def checkFrame (f : Nat) : EngM Unit := fun e =>
  match frameChecks (e.regs.frame f) with
  | .ok _ => .ok () e
  | .error c => .error c e

/-- The fields of a frame header read into `FG[f]` (43_frame_geometry.md R191). -/
def readFrame (b : Buf) (f : Nat) (wb : Widths) : EngM Unit := do
  skp .main wb.v0.toNat
  let v ← rd b .main wb.w.toNat
  updFG f fun g => { g with fw := BitVec.ofNat 32 v }
  let v ← rd b .main wb.h.toNat
  updFG f fun g => { g with fh := BitVec.ofNat 32 v }
  let v ← rds b .main wb.x.toNat
  updFG f fun g => { g with fx := BitVec.ofInt 32 v }
  let v ← rds b .main wb.y.toNat
  updFG f fun g => { g with fy := BitVec.ofInt 32 v }
  let v ← rd b .main wb.o.toNat
  updFG f fun g => { g with fnopt := BitVec.ofNat 32 v }
  let v ← rd b .main wb.c.toNat
  updFG f fun g => { g with fncoded := BitVec.ofNat 32 v }
  let v ← rd b .main 1
  updFG f fun g => { g with fbu := BitVec.ofNat 1 v }

/-- The pseudocode of 43_frame_geometry.md R191, and the step order. -/
def fgeomBody (b : Buf) (nframes : BitVec 32) : EngM Unit := do
  let e ← get
  readFrame b e.frm.toNat e.regs.wb
  checkFrame e.frm.toNat
  updFG e.frm.toNat FrameGeom.setBox
  upd fun x => { x with regs := x.regs.fold x.frm.toNat }
  upd (Engine.nextFrame nframes fun x => { x with phase := phDbox })

/-- `FGEOM` (43_frame_geometry.md R191). -/
def execFgeom (s : State) : Host.Outcome State Fault Refusal := runEng (fgeomBody s.ibuf s.front.nframes) s

/-- `DL`, `DT`, `DW`, `DH` (43_frame_geometry.md R196). -/
def DirRegs.setDirBox (r : DirRegs) : DirRegs :=
  { r with dl := r.minl, dt := r.mint, dw := (r.maxr - r.minl).toNat, dh := (r.maxb - r.mint).toNat }

/-- The pseudocode of 43_frame_geometry.md R196. -/
def dboxBody (maxCanvas : Option Nat) : EngM Unit := do
  upd fun e => { e with regs := e.regs.setDirBox }
  let e ← get
  engCheck (!exceeds maxCanvas (e.regs.dw * e.regs.dh)) .capCanvas
  goto phOptchk

/-- `DBOX` (43_frame_geometry.md R196). -/
def execDbox (s : State) : Host.Outcome State Fault Refusal := runEng (dboxBody s.caps.maxCanvas) s

end Sys2Proof.Machine
end

