-- ==== Sys2Proof/Machine/Codes.lean ====
section
/-!
DEFINITION. The in-stream formats and codes (30_encoding.md) as instructions: what the step that consumes one does with its
bits, as a step of its own (log 18). Each moves its cursor past the bits, takes the request out of the port, and writes what
its consumer writes; the sequencer steps use the same operations inside their loops.
-/

namespace Sys2Proof.Machine

/-- The cursor a format or code is read through (42_direction_header.md R179, 41_container_and_sequencer.md R154). -/
def codeCursor : CodeKind → CursorSel
  | .cont | .offt | .sig | .sentinel => .ccur
  | .dhdr | .fhdr | .sizes | .palv | .widx _ | .dnib | .pixcode => .eng .main
  | .ecbit => .eng .ec
  | .pmask => .eng .pm
  | .etbit => .eng .et
  | .rawval => .eng .rp

/-- The bits consumed: the cursor moves past them, the port is free again. -/
def consumeCode (c : CursorSel) (n : Nat) (s : State) : State :=
  { (s.setCursor c ((s.cursor c).advance n)) with port := none }

/-- A change of the working registers of the machine's engine. -/
def State.updWork (f : Work → Work) (s : State) : State := { s with eng.tr.work := f s.eng.tr.work }

/-- A change of the direction's registers. -/
def State.updRegs (f : DirRegs → DirRegs) (s : State) : State := { s with eng.regs := f s.eng.regs }

/-! ### Formats -/

/-- `FMT.CONT` (30_encoding.md R91): the container registers. -/
def execFmtCont (version ndir : BitVec 8) (nframes totalsize : BitVec 32) (s : State) : Host.Outcome State Fault Refusal :=
  let s := consumeCode .ccur (codeLen .cont) s
  .next { s with
    front.signature := 0x74
    front.version := version
    front.ndir := ndir
    front.nframes := nframes
    front.sentinel := 1
    front.totalsize := totalsize }

/-- Offsets stored from direction `d` on. -/
def storeOffsets : Nat → List (BitVec 32) → List (BitVec 32) → List (BitVec 32)
  | _, [], l => l
  | d, v :: vs, l => storeOffsets (d + 1) vs (fileWrite 0 l d v)

/-- `FMT.OFFT` (30_encoding.md R92): the direction offsets. -/
def execFmtOfft (vs : List (BitVec 32)) (s : State) : Host.Outcome State Fault Refusal :=
  let s := consumeCode .ccur (codeLen (.offt vs.length)) s
  .next { s with front.diroff := storeOffsets 0 vs s.front.diroff }

/-- `FMT.DHDR` (30_encoding.md R96): each index goes through `WLUT`. -/
def execFmtDhdr (f : DhdrFields) (s : State) : Host.Outcome State Fault Refusal :=
  .next ((consumeCode (.eng .main) (codeLen .dhdr) s).updRegs fun r =>
    { r with
      outsize := f.outsize
      cflags := f.cflags
      wb := { v0 := wlut f.v0idx, w := wlut f.widx, h := wlut f.hidx, x := wlut f.xidx, y := wlut f.yidx,
              o := wlut f.oidx, c := wlut f.cidx } })

/-- The fields of a frame header stored in its record (30_encoding.md R97). -/
def FrameGeom.store (f : FhdrFields) (g : FrameGeom) : FrameGeom :=
  { g with fw := f.width, fh := f.height, fx := f.xoffset, fy := f.yoffset, fnopt := f.noptional, fncoded := f.ncoded,
           fbu := f.bottomup }

/-- `FMT.FHDR` (30_encoding.md R97): the fields of frame `FRM`, and the two refusals of a frame header (R116). -/
def execFmtFhdr (wb : Widths) (f : FhdrFields) (s : State) : Host.Outcome State Fault Refusal :=
  let s := (consumeCode (.eng .main) (codeLen (.fhdr wb)) s).updRegs fun r =>
    r.updFrame s.eng.frm.toNat (FrameGeom.store f)
  match frameChecks (s.eng.regs.frame s.eng.frm.toNat) with
  | .ok _ => .next s
  | .error c => .next (takeError c s.eng.errDir s)

/-- `FMT.DTAIL.SIZES` (30_encoding.md R99): an absent size is 0. -/
def execFmtSizes (ec : Option (BitVec 20)) (pm : BitVec 20) (etrp : Option (BitVec 20 × BitVec 20)) (s : State) :
    Host.Outcome State Fault Refusal :=
  .next ((consumeCode (.eng .main) (codeLen (.sizes (sizesFlags ec etrp))) s).updRegs fun r =>
    { r with
      ecsize := ec.getD 0
      pmsize := pm
      etsize := (etrp.map Prod.fst).getD 0
      rpsize := (etrp.map Prod.snd).getD 0 })

/-- Valid flags from index `i` on, `k` of them, taken from a word. -/
def storeFlags (valid : BitVec 256) : Nat → Nat → DirRegs → DirRegs
  | _, 0, r => r
  | i, k + 1, r => storeFlags valid (i + 1) k (r.palFlag i (valid.getLsbD i))

/-- `FMT.DTAIL.PALV` (30_encoding.md R100): the palette-translation table. -/
def execFmtPalv (valid : BitVec 256) (s : State) : Host.Outcome State Fault Refusal :=
  .next ((consumeCode (.eng .main) (codeLen .palv) s).updRegs fun r => storeFlags valid 0 256 r.clearPal)

/-! ### Codes of the headers -/

/-- `SIG` (30_encoding.md R93). A byte that is not the signature is no `SIG`: its fetch raises `BAD_SIGNATURE`. -/
def execSig (s : State) : Host.Outcome State Fault Refusal :=
  let s := consumeCode .ccur (codeLen .sig) s
  .next { s with front.signature := 0x74 }

/-- `SENTINEL` (30_encoding.md R95). A word that is not 1 is no `SENTINEL`: its fetch raises `BAD_SENTINEL`. -/
def execSentinel (s : State) : Host.Outcome State Fault Refusal :=
  let s := consumeCode .ccur (codeLen .sentinel) s
  .next { s with front.sentinel := 1 }

/-- `WIDX` (30_encoding.md R104): the width an index stands for, into the register of its header field. -/
def execWidx (field : Fin 7) (i : BitVec 4) (s : State) : Host.Outcome State Fault Refusal :=
  .next ((consumeCode (.eng .main) (codeLen (.widx field)) s).updRegs fun r =>
    { r with wb := setWidthAt r.wb field (wlut i) })

/-! ### Codes of a cell -/

/-- `ECBIT` (30_encoding.md R108). -/
def execEcbit (e : BitVec 1) (s : State) : Host.Outcome State Fault Refusal :=
  .next ((consumeCode (.eng .ec) (codeLen .ecbit) s).updWork fun w => w.setEq e)

/-- `PMASK` (30_encoding.md R109), and the count `POPC` gives (R117). -/
def execPmask (m : BitVec 4) (s : State) : Host.Outcome State Fault Refusal :=
  .next ((consumeCode (.eng .pm) (codeLen .pmask) s).updWork fun w => w.setMask m)

/-- `ETBIT` (30_encoding.md R110): the value loop that follows starts with `LASTPIX = 0` and no value
(45_reconstructor.md R227). -/
def execEtbit (t : BitVec 1) (s : State) : Host.Outcome State Fault Refusal :=
  .next ((consumeCode (.eng .et) (codeLen .etbit) s).updWork fun w => w.setEtb t)

/-- `RAWVAL` (30_encoding.md R111): a value, accepted or a terminator (45_reconstructor.md R234, R236). -/
def execRawval (v : BitVec 8) (s : State) : Host.Outcome State Fault Refusal :=
  .next ((consumeCode (.eng .rp) (codeLen .rawval) s).updWork fun w => w.takeValue (v.setWidth 32))

/-- `DNIB.END` (30_encoding.md R112): the last nibble of a chain, whose sum is a value (45_reconstructor.md R233, R234). -/
def execDnibEnd (d : BitVec 4) (s : State) : Host.Outcome State Fault Refusal :=
  .next ((consumeCode (.eng .main) (codeLen .dnib) s).updWork fun w =>
    { (w.addNibble d) with chain := false }.takeValue (w.addNibble d).v)

/-- `DNIB.CONT` (30_encoding.md R112): 15 is added and the chain goes on. -/
def execDnibCont (s : State) : Host.Outcome State Fault Refusal :=
  .next ((consumeCode (.eng .main) (codeLen .dnib) s).updWork fun w => w.addNibble 15)

/-! ### Pixel codes -/

/-- The next pixel of a `w` pixels wide cell, row by row (46_compositor.md R256). -/
def Work.nextPixel (w : Nat) (k : Work) : Work :=
  if k.px + 1 < w then { k with px := k.px + 1 } else { k with px := 0, py := k.py + 1 }

/-- The cell and the translated quad of the visit the compositor is in. -/
def Engine.visitGeom (e : Engine) : CellGeom := e.regs.cell e.frm.toNat e.visitCell
def Engine.visitQuad (e : Engine) : Quad := (fileRead zeroEntry e.tr.pbe e.tr.pbidx).t

/-- The current pixel painted with slot `code`, and the next one made current. -/
def Engine.pixel (code : Nat) (e : Engine) : Engine :=
  let p := e.paint e.visitGeom e.visitQuad e.tr.work.px e.tr.work.py code
  { p with tr.work := p.tr.work.nextPixel e.visitGeom.w }

/-- `PIXCODE0` (30_encoding.md R114): nothing is read and every pixel of the cell is `T[0]`. -/
def execPixcode0 (s : State) : Host.Outcome State Fault Refusal :=
  let s := consumeCode (.eng .main) (codeLen .pixcode0) s
  .next { s with
    eng := (blockPixels s.eng.visitGeom.w s.eng.visitGeom.h).foldl
      (fun e p => e.paint s.eng.visitGeom s.eng.visitQuad p.1 p.2 0) s.eng }

/-- `PIXCODE1` (30_encoding.md R114): the current pixel is `T[c]`. -/
def execPixcode1 (c : BitVec 1) (s : State) : Host.Outcome State Fault Refusal :=
  let s := consumeCode (.eng .main) (codeLen .pixcode1) s
  .next { s with eng := s.eng.pixel c.toNat }

/-- `PIXCODE2` (30_encoding.md R114): the current pixel is `T[c]`. -/
def execPixcode2 (c : BitVec 2) (s : State) : Host.Outcome State Fault Refusal :=
  let s := consumeCode (.eng .main) (codeLen .pixcode2) s
  .next { s with eng := s.eng.pixel c.toNat }

end Sys2Proof.Machine
end

