-- ==== Sys2Proof/Machine/HostCmd.lean ====
section
/-!
DEFINITION. The host commands `START` and `CLEAR` (41_container_and_sequencer.md R150, R151). A command takes the pending word
out of `CTRL`, whose bits are self-clearing (10_state.md R23; log 3); with both bits `CLEAR` is applied first and `START`
second.
-/

namespace Sys2Proof.Machine

/-- `START` (41_container_and_sequencer.md R150); `c` is the `CLEAR` bit of the same word. -/
def execStart (c : Bool) (s : State) : Host.Outcome State Fault Refusal :=
  let s := { s with ctrl := 0 }
  .next (beginDecode (if c then ackClear s else s))

/-- `CLEAR` (41_container_and_sequencer.md R151); `st` is the `START` bit of the same word. -/
def execClear (st : Bool) (s : State) : Host.Outcome State Fault Refusal :=
  let s := ackClear { s with ctrl := 0 }
  .next (if st then beginDecode s else s)

end Sys2Proof.Machine
end

