-- ==== Sys2Proof/Machine/Dispatch.lean ====
section
/-!
DEFINITION. One arm for each constructor of Instr.
-/

namespace Sys2Proof.Machine

def exec (i : Instr) (s : State) : Host.Outcome State Fault Refusal :=
  match i with
  | .rdbits cur n => Sys2Proof.Machine.execRdbits cur n s
  | .rdsbits cur n => Sys2Proof.Machine.execRdsbits cur n s
  | .rdbit cur => Sys2Proof.Machine.execRdbit cur s
  | .skip cur n20 => Sys2Proof.Machine.execSkip cur n20 s
  | .cons cur => Sys2Proof.Machine.execCons cur s
  | .clone cur src => Sys2Proof.Machine.execClone cur src s
  | .start c => Sys2Proof.Machine.execStart c s
  | .clear st => Sys2Proof.Machine.execClear st s
  | .chdr => Sys2Proof.Machine.execChdr s
  | .dseek => Sys2Proof.Machine.execDseek s
  | .dhdr => Sys2Proof.Machine.execDhdr s
  | .fgeom => Sys2Proof.Machine.execFgeom s
  | .dbox => Sys2Proof.Machine.execDbox s
  | .optchk => Sys2Proof.Machine.execOptchk s
  | .bsizes => Sys2Proof.Machine.execBsizes s
  | .palv => Sys2Proof.Machine.execPalv s
  | .slice => Sys2Proof.Machine.execSlice s
  | .dgrid => Sys2Proof.Machine.execDgrid s
  | .fgrid => Sys2Proof.Machine.execFgrid s
  | .rcell => Sys2Proof.Machine.execRcell s
  | .pxlat => Sys2Proof.Machine.execPxlat s
  | .ichk => Sys2Proof.Machine.execIchk s
  | .ccell => Sys2Proof.Machine.execCcell s
  | .dfin => Sys2Proof.Machine.execDfin s
  | .cfin => Sys2Proof.Machine.execCfin s
  | .fmtCont version ndir nframes totalsize => Sys2Proof.Machine.execFmtCont version ndir nframes totalsize s
  | .fmtOfft diroff => Sys2Proof.Machine.execFmtOfft diroff s
  | .fmtDhdr f => Sys2Proof.Machine.execFmtDhdr f s
  | .fmtFhdr wb f => Sys2Proof.Machine.execFmtFhdr wb f s
  | .fmtSizes ecsize pmsize etrp => Sys2Proof.Machine.execFmtSizes ecsize pmsize etrp s
  | .fmtPalv valid => Sys2Proof.Machine.execFmtPalv valid s
  | .sig => Sys2Proof.Machine.execSig s
  | .sentinel => Sys2Proof.Machine.execSentinel s
  | .widx field idx => Sys2Proof.Machine.execWidx field idx s
  | .ecbit e => Sys2Proof.Machine.execEcbit e s
  | .pmask m => Sys2Proof.Machine.execPmask m s
  | .etbit t => Sys2Proof.Machine.execEtbit t s
  | .rawval v => Sys2Proof.Machine.execRawval v s
  | .dnibEnd d => Sys2Proof.Machine.execDnibEnd d s
  | .dnibCont => Sys2Proof.Machine.execDnibCont s
  | .pixcode0 => Sys2Proof.Machine.execPixcode0 s
  | .pixcode1 c => Sys2Proof.Machine.execPixcode1 c s
  | .pixcode2 c => Sys2Proof.Machine.execPixcode2 c s

end Sys2Proof.Machine
end

