-- ==== Sys2Proof/Machine/HostPort.lean ====
section
/-!
DEFINITION. The host's accesses: the seven CSRs (10_state.md R22), the input buffer (R21), the result store (R50), and the
reset input (70_reset_and_hazards.md R310). The value a read returns stands in `hostData` (log 2).
-/

namespace Sys2Proof.Machine

/-- A read whose value the spec leaves unspecified: a free value (10_state.md R49, R50; log 8). -/
def readFree (s : State) : State :=
  { s with hostData := ((Config.freeRead s.hostFree).toNat : Int), hostFree := s.hostFree + 1 }

/-- A read that returns `v`. -/
def readValueIs (v : Int) (s : State) : State := { s with hostData := v }

/-! ### CSRs -/

/-- A CSR read (10_state.md R22, R49): `CTRL` reads as 0; while `BUSY` `IBUF_LEN` reads as an unspecified value. -/
def csrRead (n : Nat) (s : State) : Host.Outcome State Fault Refusal :=
  match n with
  | 0 => .next (readValueIs 0 s)
  | 1 => .next (readValueIs s.status.toNat s)
  | 2 => .next (readValueIs s.errkind.toNat s)
  | 3 => .next (readValueIs s.errcause.toNat s)
  | 4 => .next (readValueIs s.errdir.toNat s)
  | 5 => .next (if s.status = stBusy then readFree s else readValueIs s.ibuf.len.toNat s)
  | 6 => .next (readValueIs s.irqEn.toNat s)
  | _ => .fault .noSuchCsr

/-- A CSR write (10_state.md R22, R23): `CTRL` takes command bits, `IBUF_LEN` is written in `IDLE` only, `IRQ_EN` always; a
write to a read-only register changes nothing (DEDUCED, log 10). -/
def csrWrite (n : Nat) (v : BitVec 32) (s : State) : Host.Outcome State Fault Refusal :=
  match n with
  | 0 => .next { s with ctrl := v.setWidth 2 }
  | 1 => .next s
  | 2 => .next s
  | 3 => .next s
  | 4 => .next s
  | 5 => .next (if s.status = stIdle then { s with ibuf.len := v } else s)
  | 6 => .next { s with irqEn := v.setWidth 1 }
  | _ => .fault .noSuchCsr

/-! ### The input buffer -/

/-- A byte written to `IBUF` (70_reset_and_hazards.md R314): refused while `BUSY` (93_implementation_defined.md U2). -/
def ibufWrite (a : BitVec 32) (v : Byte) (s : State) : Host.Outcome State Fault Refusal :=
  if s.status = stBusy then .refused .ibufWriteWhileBusy
  else .next { s with ibuf.mem := s.ibuf.mem.write a.toNat v }

/-! ### The result store -/

/-- Direction `d` of the result store. -/
def resultDir (s : State) (d : Nat) : Option DirRegs :=
  if d < s.front.ndir.toNat then some (fileRead resetRegs s.result d) else none

/-- A value of direction `d`. -/
def ofDir (s : State) (d : Nat) (g : DirRegs → Int) : Option Int := (resultDir s d).map g

/-- A value of frame `f` of direction `d`. -/
def ofFrame (s : State) (d f : Nat) (g : DirRegs → Int) : Option Int :=
  if (f : Int) < s.front.nframes.toInt then ofDir s d g else none

/-- A value of frame cell `c`. -/
def ofCell (s : State) (d f c : Nat) (g : CellGeom → Int) : Option Int :=
  match resultDir s d with
  | none => none
  | some r =>
    if (f : Int) < s.front.nframes.toInt ∧ c < fileRead 0 r.fhcc f * fileRead 0 r.fvcc f then some (g (r.cell f c)) else none

/-- Output pixel `p` of frame `f` of direction `d` (20_memory.md R60). -/
def ofPixel (s : State) (d f p : Nat) : Option Int :=
  match resultDir s d with
  | none => none
  | some r =>
    if (f : Int) < s.front.nframes.toInt ∧ p < r.dw * r.dh then some (((r.outArr f).read p).toNat : Int) else none

/-- What a place of the result store holds; `none` where there is no such place (10_state.md R50). -/
def resultValue (s : State) : ResultSel → Option Int
  | .signature => some s.front.signature.toNat
  | .version => some s.front.version.toNat
  | .ndir => some s.front.ndir.toNat
  | .nframes => some s.front.nframes.toInt
  | .sentinel => some s.front.sentinel.toNat
  | .totalsize => some s.front.totalsize.toNat
  | .diroff d => if d < s.front.ndir.toNat then some ((fileRead 0 s.front.diroff d).toNat : Int) else none
  | .outsize d => ofDir s d fun r => r.outsize.toNat
  | .cflags d => ofDir s d fun r => r.cflags.toNat
  | .wb d i => ofDir s d fun r => (widthAt r.wb i).toNat
  | .ecsize d => ofDir s d fun r => r.ecsize.toNat
  | .pmsize d => ofDir s d fun r => r.pmsize.toNat
  | .etsize d => ofDir s d fun r => r.etsize.toNat
  | .rpsize d => ofDir s d fun r => r.rpsize.toNat
  | .palcnt d => ofDir s d fun r => r.palcnt.toNat
  | .pal d j => ofDir s d fun r => (palAt r.pal j).toNat
  | .dl d => ofDir s d fun r => r.dl
  | .dt d => ofDir s d fun r => r.dt
  | .dw d => ofDir s d fun r => r.dw
  | .dh d => ofDir s d fun r => r.dh
  | .hcc d => ofDir s d fun r => r.hcc
  | .vcc d => ofDir s d fun r => r.vcc
  | .fw d f => ofFrame s d f fun r => (r.frame f).fw.toNat
  | .fh d f => ofFrame s d f fun r => (r.frame f).fh.toNat
  | .fx d f => ofFrame s d f fun r => (r.frame f).fx.toInt
  | .fy d f => ofFrame s d f fun r => (r.frame f).fy.toInt
  | .fnopt d f => ofFrame s d f fun r => (r.frame f).fnopt.toNat
  | .fncoded d f => ofFrame s d f fun r => (r.frame f).fncoded.toNat
  | .fbu d f => ofFrame s d f fun r => (r.frame f).fbu.toNat
  | .fl d f => ofFrame s d f fun r => (r.frame f).fl
  | .ft d f => ofFrame s d f fun r => (r.frame f).ft
  | .fhcc d f => ofFrame s d f fun r => fileRead 0 r.fhcc f
  | .fvcc d f => ofFrame s d f fun r => fileRead 0 r.fvcc f
  | .fcellW d f c => ofCell s d f c fun g => g.w
  | .fcellH d f c => ofCell s d f c fun g => g.h
  | .fcellX d f c => ofCell s d f c fun g => g.x
  | .fcellY d f c => ofCell s d f c fun g => g.y
  | .pixel d f p => ofPixel s d f p

/-- A read of the result store: its value in `DONE`, an unspecified value in every other state (10_state.md R49, R50). -/
def resultRead (r : ResultSel) (s : State) : Host.Outcome State Fault Refusal :=
  if s.status = stDone then
    match resultValue s r with
    | some v => .next (readValueIs v s)
    | none => .fault .noSuchResult
  else .next (readFree s)

/-! ### Reset input and all accesses -/

/-- The reset input (70_reset_and_hazards.md R310): the state after reset; the configuration, the accesses still to come and
the host's side stay (log 24). -/
def resetInput (s : State) : State :=
  { State.reset with caps := s.caps, inputs := s.inputs, hostData := s.hostData, hostFree := s.hostFree }

/-- One access of the host. -/
def hostAccess (r : HostReq) (s : State) : Host.Outcome State Fault Refusal :=
  match r with
  | .csrWrite n v => csrWrite n v s
  | .csrRead n => csrRead n s
  | .ibufWrite a v => ibufWrite a v s
  | .resultRead p => resultRead p s
  | .rst => .next (resetInput s)

end Sys2Proof.Machine
end

