-- ==== Sys2Proof/Machine/Fetch.lean ====
section
/-!
DEFINITION. What the next step runs: a command pending in `CTRL`; else, while `BUSY`, the micro-operation at the port, the
engine's `PHASE`, the front end's `PHASE` (41_container_and_sequencer.md R152; log 1, 3, 12). And where a given word is put so
that the next step fetches it.
-/

namespace Sys2Proof.Machine

/-- What is fetched. -/
inductive Fetched where
  /-- An instruction to execute. -/
  | instr (i : Instr)
  /-- Nothing to do: the block waits (70_reset_and_hazards.md R311). -/
  | wait
  /-- A port word that asks for nothing (30_encoding.md R120, `op` 0 and 7): it is taken, nothing else changes. -/
  | noOp
  /-- Bits that do not decode, for which the spec names an error (30_encoding.md R116, 20_memory.md R68). -/
  | error (c : Cause) (d : BitVec 9)
  /-- A code the spec says is never issued or never taken. -/
  | refuse (r : Refusal)
  deriving DecidableEq, Repr, Inhabited

/-- The format of a requested code, its length taken from the state read earlier (30_encoding.md R113). -/
def codeFmt (s : State) : CodeKind → CodeFmt
  | .cont => .cont
  | .offt => .offt s.front.ndir.toNat
  | .dhdr => .dhdr
  | .fhdr => .fhdr s.eng.regs.wb
  | .sizes => .sizes s.eng.regs.cflags
  | .palv => .palv
  | .sig => .sig
  | .sentinel => .sentinel
  | .widx f => .widx f
  | .ecbit => .ecbit
  | .pmask => .pmask
  | .etbit => .etbit
  | .rawval => .rawval
  | .dnib => .dnib
  | .pixcode =>
    match codeWidth s.eng.visitQuad with
    | 0 => .pixcode0
    | 1 => .pixcode1
    | _ => .pixcode2

/-- The bits of a requested code: those at its cursor, as many as its format has, fewer where the buffer ends. -/
def codeBits (s : State) (k : CodeKind) : List Bool :=
  s.ibuf.stream (s.cursor (codeCursor k)).pos (codeLen (codeFmt s k))

/-- The error the spec names for bits that do not decode. -/
def decodeErrCause : DecodeErr → Option Cause
  | .outOfRange => some .outOfRange
  | .badSignature => some .badSignature
  | .badSentinel => some .badSentinel
  | _ => none

/-- What a decoder's answer fetches; `d` is the direction code of an error. -/
def fetchedOf (d : BitVec 9) : Except DecodeErr Instr → Fetched
  | .ok i => .instr i
  | .error e =>
    match decodeErrCause e with
    | some c => .error c d
    | none =>
      match e with
      | .noOperation => .noOp
      | .noStep | .noCommand => .wait
      | _ => .refuse (.neverIssued e)

/-- The micro-operation at the port (log 1). -/
def fetchPort (s : State) : PortReq → Fetched
  | .bcop w n20 => fetchedOf (s.cursorDir .ccur) (decode (.bcop w n20))
  | .code k => fetchedOf (s.cursorDir (codeCursor k)) (decode (.code (codeFmt s k) (codeBits s k)))

/-- The sequencer step: the engine's while it runs, else the front end's (41_container_and_sequencer.md R152). -/
def fetchSeq (s : State) : Fetched :=
  if s.eng.phase ≠ phIdle then fetchedOf dirFrontEnd (decode (.seq s.eng.phase))
  else fetchedOf dirFrontEnd (decode (.seq s.front.phase))

/-- What the block does next: nothing unless `BUSY` (60_exceptions.md R300). -/
def fetchBlock (s : State) : Fetched :=
  if s.status = stBusy then
    match s.port with
    | some p => fetchPort s p
    | none => fetchSeq s
  else .wait

/-- What the next step runs when no host access comes first: a pending command, else the block's own step. -/
def fetch (s : State) : Fetched :=
  if s.ctrl ≠ 0 then fetchedOf dirFrontEnd (decode (.cmd s.ctrl)) else fetchBlock s

/-! ### Placing a word -/

/-- Nothing else is fetched before the port and the sequencer: no command, no host access, no other request, `BUSY`. -/
def clearFetch (s : State) : State := { s with ctrl := 0, inputs := [], port := none, status := stBusy }

/-- The bytes of `w`, least significant first, from address `a` on. -/
def storeBytes (w a : Nat) : Nat → Mem → Mem
  | 0, m => m
  | n + 1, m => storeBytes (w / 256) (a + 1) n (m.write a (BitVec.ofNat 8 w))

/-- The word `w` of `n` bytes at byte 0 of the buffer, nothing after it, both header cursors at bit 0. -/
def placeBytes (n w : Nat) (s : State) : State :=
  { s with
    ibuf := { mem := storeBytes w 0 n s.ibuf.mem, len := BitVec.ofNat 32 n }
    front.ccur := resetCursor
    eng.tr.main := resetCursor }

/-- The code a table word is read as, requested at the port. -/
def placeCode (k : CodeKind) (n w : Nat) (s : State) : State :=
  { placeBytes n w (clearFetch s) with port := some (.code k) }

/-- A table word placed where the next step fetches it; a `SKIP` word's amount is 0, the table word giving none (log 17). -/
def placeWord (s : State) (nbits w : Nat) : State :=
  match tableWord nbits w with
  | some (.bcop x n20) => { clearFetch s with port := some (.bcop x n20) }
  | some (.cmd c) => { s with inputs := [], ctrl := c }
  | some (.seq p) =>
    if p = phChdr ∨ p = phCfin then { clearFetch s with front.phase := p, eng.phase := phIdle }
    else { clearFetch s with front.phase := phCfin, eng.phase := p }
  | some (.code .sig _) => placeCode .sig 1 w s
  | some (.code .sentinel _) => placeCode .sentinel 4 w s
  | some (.code .dnib _) => placeCode .dnib 1 w s
  | some (.code .dhdr _) => placeCode .dhdr 8 w s
  | some (.code .cont _) => placeCode .cont 15 w s
  | some (.code .palv _) => placeCode .palv 32 w s
  | some (.code _ _) => s
  | none => s

end Sys2Proof.Machine
end

