-- ==== Sys2Proof/Machine/Step.lean ====
section
/-!
DEFINITION. One step of the machine: a command pending in `CTRL`, else the host's next access, else the block's own step.
-/

namespace Sys2Proof.Machine

/-- What was fetched, run. -/
def runFetched (f : Fetched) (s : State) : Host.Outcome State Fault Refusal :=
  match f with
  | .instr i => exec i s
  | .wait => .next s
  | .noOp => .next { s with port := none }
  | .error c d => .next (takeError c d { s with port := none })
  | .refuse r => .refused r

/-- One step. An entry `none` of `inputs` lets the block take a step before the host's next access (log 2). -/
def step (s : State) : Host.Outcome State Fault Refusal :=
  if s.ctrl ≠ 0 then runFetched (fetch s) s
  else
    match s.inputs with
    | some r :: rest => hostAccess r { s with inputs := rest }
    | none :: rest => runFetched (fetch { s with inputs := rest }) { s with inputs := rest }
    | [] => runFetched (fetch s) s

/-- `s` with the table word `w` of `nbits` bits where `step` fetches its next instruction. -/
def State.withFetchWord (s : State) (nbits w : Nat) : State := placeWord s nbits w

end Sys2Proof.Machine
end

