-- ==== Sys2Proof/Safety.lean ====
section
/-!
DEFINITION. What a safe state is, in the terms the statements use: memories in canonical form, control registers that agree
with one another, direction registers with legal values.
-/

namespace Sys2Proof.Machine

/-- The memories of a direction's registers are in canonical form. -/
def DirRegs.memOk (r : DirRegs) : Prop := ∀ m ∈ r.out, Mem.wf m = true

/-- Every byte memory of the state is in canonical form (log 5). -/
structure State.MemOk (s : State) : Prop where
  ibuf   : Mem.wf s.ibuf.mem = true
  canvas : Mem.wf s.eng.tr.canvas = true
  regs   : s.eng.regs.memOk
  result : ∀ r ∈ s.result, r.memOk

/-- The front end's `PHASE` "takes only the values `IDLE`, `CHDR`, `CFIN`" (10_state.md R27). -/
def frontPhaseOk (p : BitVec 5) : Prop := p = phIdle ∨ p = phChdr ∨ p = phCfin

/-- The engine's `PHASE` is `IDLE` or one of the steps `DSEEK` to `DFIN` (30_encoding.md R123, 41_container_and_sequencer.md R152). -/
def engPhaseOk (p : BitVec 5) : Prop := p = phIdle ∨ (2 ≤ p.toNat ∧ p.toNat ≤ 16)

/-- The kind and cause registers hold a row of 60_exceptions.md R283. -/
def errorPairOk (k : BitVec 3) (c : BitVec 8) : Prop := ∃ x : Cause, k = x.kind.code ∧ c = x.code

/-- `ERRDIR` holds a direction index or `0x100` (10_state.md R25). -/
def errDirOk (d : BitVec 9) : Prop := d.toNat ≤ 256

/-- The control registers agree (10_state.md R24, R25, R27; 60_exceptions.md R290, R300). That the front end stands in `PHASE` =
`CFIN` while an engine runs (`waits`) is the model's choice (DESIGN CHOICE, log 12). -/
structure State.CtlOk (s : State) : Prop where
  frontPhase : frontPhaseOk s.front.phase
  engPhase   : engPhaseOk s.eng.phase
  waits      : s.eng.phase ≠ phIdle → s.front.phase = phCfin
  busy       : s.status = stBusy ↔ s.front.phase ≠ phIdle
  noError    : s.status ≠ stError → s.errkind = 0 ∧ s.errcause = 0 ∧ s.errdir = 0
  error      : s.status = stError → errorPairOk s.errkind s.errcause ∧ errDirOk s.errdir
  quiet      : s.status = stIdle ∨ s.status = stBusy → s.irq = 0

/-- The legal values of a width register: the 16 entries of `WLUT` (10_state.md R29). -/
def legalWidths : List Nat := [0, 1, 2, 4, 6, 8, 10, 12, 14, 16, 20, 24, 26, 28, 30, 32]

/-- Every width register holds an entry of `WLUT`, and the palette table has its 256 entries, those from `PALCNT` on 0
(10_state.md R29, R31). -/
structure DirRegs.Legal (r : DirRegs) : Prop where
  widths : ∀ i : Fin 7, (widthAt r.wb i).toNat ∈ legalWidths
  palLen : r.pal.length = 256
  palCnt : r.palcnt.toNat ≤ 256
  palTop : ∀ j : Byte, r.palcnt.toNat ≤ j.toNat → palAt r.pal j = 0

/-- The registers of the direction in work and of every finished one are legal. -/
structure State.RegsOk (s : State) : Prop where
  eng    : s.eng.regs.Legal
  result : ∀ r ∈ s.result, r.Legal

/-- An outcome that is a next state. -/
def goesOn (o : Host.Outcome State Fault Refusal) : Prop := ∃ t, o = .next t

end Sys2Proof.Machine
end

