-- ==== Sys2Proof/WellFormed.lean ====
section
/-!
DEFINITION. Which instructions the encodings of 30_encoding.md admit. Everything the types of `Instr` do not already say is a
check here; Sys2Proof/Tests/Slice0.lean has an ill-formed term for each check.
-/

namespace Sys2Proof

/-- An unsigned field fits its width. -/
def fitsUnsigned (n v : Nat) : Bool := decide (v < 2 ^ n)

/-- A signed field fits its width (30_encoding.md R102); width 0 holds only 0. -/
def fitsSigned (n : Nat) (v : Int) : Bool :=
  if n = 0 then decide (v = 0) else decide (-(2 : Int) ^ (n - 1) ≤ v ∧ v < (2 : Int) ^ (n - 1))

/-- The seven widths of a frame header are at most 32 bits, the largest entry of `WLUT` (30_encoding.md R104). -/
def widthsOk (wb : Widths) : Bool :=
  decide (wb.v0.toNat ≤ 32) && decide (wb.w.toNat ≤ 32) && decide (wb.h.toNat ≤ 32) && decide (wb.x.toNat ≤ 32)
    && decide (wb.y.toNat ≤ 32) && decide (wb.o.toNat ≤ 32) && decide (wb.c.toNat ≤ 32)

/-- Every field of a frame header fits its width (30_encoding.md R97). -/
def fhdrOk (wb : Widths) (f : FhdrFields) : Bool :=
  fitsUnsigned wb.v0.toNat f.variable0.toNat && fitsUnsigned wb.w.toNat f.width.toNat
    && fitsUnsigned wb.h.toNat f.height.toNat && fitsSigned wb.x.toNat f.xoffset.toInt
    && fitsSigned wb.y.toNat f.yoffset.toInt && fitsUnsigned wb.o.toNat f.noptional.toNat
    && fitsUnsigned wb.c.toNat f.ncoded.toNat

/-- The instructions the encodings admit. -/
def Instr.wf : Instr → Bool
  | .rdbits _ n => decide (n.toNat ≤ 32)             -- 30_encoding.md R120; 0 is log 15
  | .rdsbits _ n => decide (n.toNat ≤ 32)
  | .start c => !c                                   -- the word with both bits is `CLEAR`'s (log 23)
  | .fmtOfft vs => decide (vs.length ≤ 255)          -- `NDIR` is 8 bits (R91, R92)
  | .fmtFhdr wb f => widthsOk wb && fhdrOk wb f
  | .dnibEnd d => decide (d ≠ 15)                    -- R112: 15 continues the chain
  | .rdbit _ | .skip _ _ | .cons _ | .clone _ _ | .clear _ => true
  | .chdr | .dseek | .dhdr | .fgeom | .dbox | .optchk | .bsizes | .palv | .slice | .dgrid | .fgrid | .rcell | .pxlat
  | .ichk | .ccell | .dfin | .cfin => true
  | .fmtCont _ _ _ _ | .fmtDhdr _ | .fmtSizes _ _ _ | .fmtPalv _ => true
  | .sig | .sentinel | .widx _ _ | .ecbit _ | .pmask _ | .etbit _ | .rawval _ | .dnibCont | .pixcode0 | .pixcode1 _
  | .pixcode2 _ => true

end Sys2Proof
end

