-- ==== Sys2Proof/Certificates/Slice0/Obligations.lean ====
section
/-!
DEFINITION. The statements for the provers. The words they share come first: bits, fields and bytes of the input buffer as
20_memory.md R61 to R63 give them, the record of an error, the frames, the walk order.
-/

namespace Sys2Proof.Machine

/-! ### Words of the statements -/

/-- The buffer's length in bits, `8*LEN`. -/
def State.lenBits (s : State) : Nat := 8 * s.ibuf.len.toNat

/-- Byte `a` of the input buffer. -/
def State.byteAt (s : State) (a : Nat) : Nat := (s.ibuf.mem.read a).toNat

/-- `ibit(p) = (IBUF[p div 8] >> (p mod 8)) & 1` (20_memory.md R62). -/
def State.ibit (s : State) (p : Nat) : Nat := s.byteAt (p / 8) / 2 ^ (p % 8) % 2

/-- `sum over i in 0 .. n-1 of ibit(p + i) * 2^i` (20_memory.md R63). -/
def State.bitsAt (s : State) (p n : Nat) : Nat := ((List.range n).map fun i => s.ibit (p + i) * 2 ^ i).sum

/-- The little-endian integer of `k` bytes at byte `a` (20_memory.md R61). -/
def State.leAt (s : State) (a k : Nat) : Nat := ((List.range k).map fun j => s.byteAt (a + j) * 256 ^ j).sum

/-- `signed_n(u)` of 00_scope.md R8. -/
def signedVal (n u : Nat) : Int := if 1 ≤ n ∧ 2 ^ (n - 1) ≤ u then (u : Int) - 2 ^ n else u

/-- A count within a capacity parameter (00_scope.md R6). -/
def withinCap (cap : Option Nat) (n : Nat) : Prop := ∀ m, cap = some m → n ≤ m

/-- Only the direction engine differs. -/
def EngOnly (s t : State) : Prop := { t with eng := s.eng } = s

/-- Every byte of every memory reads as before: the input buffer, the canvas, the output arrays in work and those of the
result store. -/
def SameBytes (s t : State) : Prop :=
  (∀ a, t.ibuf.mem.read a = s.ibuf.mem.read a) ∧ (∀ a, t.eng.tr.canvas.read a = s.eng.tr.canvas.read a) ∧
    (∀ f a, (t.eng.regs.outArr f).read a = (s.eng.regs.outArr f).read a) ∧
    ∀ d f a, ((fileRead resetRegs t.result d).outArr f).read a = ((fileRead resetRegs s.result d).outArr f).read a

/-- What every raise leaves (60_exceptions.md R281): the record, `STATE`, the phases and `irq`; the buffer, the host's
registers and the finished directions as they were. -/
def Raises (s t : State) (c : Cause) (d : BitVec 9) : Prop :=
  t.errkind = c.kind.code ∧ t.errcause = c.code ∧ t.errdir = d ∧ t.status = stError ∧ t.front.phase = phIdle ∧
    t.eng.phase = phIdle ∧ t.irq = s.irqEn ∧ t.irqEn = s.irqEn ∧ t.ibuf = s.ibuf ∧ t.result = s.result ∧
    t.ctrl = s.ctrl ∧ t.inputs = s.inputs ∧ t.caps = s.caps

/-- An engine step raises `c` for its direction. -/
def EngRaises (i : Instr) (s : State) (c : Cause) : Prop := ∃ t, exec i s = .next t ∧ Raises s t c (s.eng.dir.setWidth 9)

/-- `nextcell(f, cy, cx)` (41_container_and_sequencer.md R153). -/
def State.nextVisit (s : State) : Option (Nat × Nat × Nat) :=
  let f := s.eng.frm.toNat
  if s.eng.cx + 1 < fileRead 0 s.eng.regs.fhcc f then some (f, s.eng.cy, s.eng.cx + 1)
  else if s.eng.cy + 1 < fileRead 0 s.eng.regs.fvcc f then some (f, s.eng.cy + 1, 0)
  else if (f : Int) + 1 < s.front.nframes.toInt then some (f + 1, 0, 0)
  else none

/-- The same step at the next visit, or step `p` when there is none (41_container_and_sequencer.md R152). -/
def Walks (s t : State) (p : BitVec 5) : Prop :=
  match s.nextVisit with
  | some (f, cy, cx) => t.eng.phase = s.eng.phase ∧ t.eng.frm.toNat = f ∧ t.eng.cy = cy ∧ t.eng.cx = cx
  | none => t.eng.phase = p

/-- The same step at the next frame, or step `p` after the last one (41_container_and_sequencer.md R152). -/
def WalksFrames (s t : State) (p : BitVec 5) : Prop :=
  if (s.eng.frm.toNat : Int) + 1 < s.front.nframes.toInt then
    t.eng.phase = s.eng.phase ∧ t.eng.frm.toNat = s.eng.frm.toNat + 1
  else t.eng.phase = p

/-- The cell index `c` and the direction cell `K` of the current visit (41_container_and_sequencer.md R153,
45_reconstructor.md R228). -/
def State.visitC (s : State) : Nat := s.eng.cx + s.eng.cy * fileRead 0 s.eng.regs.fhcc s.eng.frm.toNat
def State.visitK (s : State) : Nat :=
  ((s.eng.regs.frame s.eng.frm.toNat).fl - s.eng.regs.dl).toNat / 4 + s.eng.cx
    + (((s.eng.regs.frame s.eng.frm.toNat).ft - s.eng.regs.dt).toNat / 4 + s.eng.cy) * s.eng.regs.hcc

/-- The causes an instruction can raise (60_exceptions.md R283, column "Raised by"; R285 for those that raise none). The table
lists steps: the rows of the formats and codes are the model's (log 18), those of the `BCOP` operations too (log 1). -/
def mayRaise : Instr → List Cause
  | .rdbits _ _ | .rdsbits _ _ | .rdbit _ => [.outOfRange]
  | .skip _ _ | .cons _ | .clone _ _ | .start _ | .clear _ => []
  | .chdr => [.outOfRange, .badSignature, .badSentinel, .badFrameCount, .capFrames]
  | .dseek | .slice | .pxlat | .dfin | .cfin => []
  | .dhdr | .bsizes | .palv | .ccell => [.outOfRange]
  | .fgeom => [.outOfRange, .bottomUpFlag, .emptyBox]
  | .dbox => [.capCanvas]
  | .optchk => [.optionalDataBits]
  | .dgrid => [.capDcells]
  | .fgrid => [.capFcells]
  | .rcell => [.outOfRange, .capPbe]
  | .ichk => [.equalCells, .pixelMask, .encodingType, .rawPixelCodes]
  | .fmtFhdr _ _ => [.bottomUpFlag, .emptyBox]
  | .fmtCont _ _ _ _ | .fmtOfft _ | .fmtDhdr _ | .fmtSizes _ _ _ | .fmtPalv _ => []
  | .sig | .sentinel | .widx _ _ | .ecbit _ | .pmask _ | .etbit _ | .rawval _ | .dnibEnd _ | .dnibCont | .pixcode0
  | .pixcode1 _ | .pixcode2 _ => []

/-- `ERRDIR` of an error: `0x100` from the front end, else the engine's direction (60_exceptions.md R281). -/
def raisesAs (i : Instr) (s : State) : BitVec 9 :=
  match i with
  | .chdr | .rdbits .ccur _ | .rdsbits .ccur _ | .rdbit .ccur => 0x100
  | _ => s.eng.dir.setWidth 9

/-- The instructions that store no byte to any memory. -/
def storesNothing : Instr → Bool
  | .ichk | .ccell | .dfin | .pixcode0 | .pixcode1 _ | .pixcode2 _ => false
  | _ => true

/-- One value read at bit `p` with accumulator `last` is `v` and ends at bit `q`: a raw byte, or `last` plus a chain of `j`
nibbles 15 and a nibble below 15, modulo 2^32 (30_encoding.md R111, R112; 45_reconstructor.md R232, R233). -/
def ValueAt (s : State) (raw : Bool) (last p v q : Nat) : Prop :=
  if raw = true then v = s.bitsAt p 8 ∧ q = p + 8
  else ∃ j e, e < 15 ∧ (∀ i, i < j → s.bitsAt (p + 4 * i) 4 = 15) ∧ s.bitsAt (p + 4 * j) 4 = e ∧
    v = (last + 15 * j + e) % 2 ^ 32 ∧ q = p + 4 * (j + 1)

/-- At most `k` values read from bit `p` on with accumulator `last`: the accepted ones are `acc`, the reads end at bit `q`,
all inside the buffer; a value equal to the accumulator stops them (45_reconstructor.md R227 step 4, R234 to R236). -/
def ValuesAt (s : State) (raw : Bool) : Nat → Nat → Nat → List Nat → Nat → Prop
  | 0, _, p, acc, q => acc = [] ∧ q = p
  | k + 1, last, p, acc, q =>
    ∃ v r, ValueAt s raw last p v r ∧ r ≤ s.lenBits ∧
      if v = last then acc = [] ∧ q = r else ∃ more, acc = v :: more ∧ ValuesAt s raw k v r more q

/-- How many bits of a mask are set below slot `i`. -/
def rankBelow (m : BitVec 4) (i : Nat) : Nat := ((List.range i).filter fun j => m.getLsbD j).length

/-- Slot `i` of a new quad: set slots take the accepted values from the last one backwards, 0 when none is left; the others
keep the previous occupant's (45_reconstructor.md R237, R238). -/
def slotRule (m : BitVec 4) (acc : List Nat) (old : Quad) (i : Nat) : Nat :=
  if m.getLsbD i then
    (if rankBelow m i < acc.length then acc.getD (acc.length - 1 - rankBelow m i) 0 % 256 else 0)
  else (old.slot i).toNat

/-- The previous occupant's quad (45_reconstructor.md R238; zeros with none). -/
def oldQuad (s : State) : Option Nat → Quad
  | none => { s0 := 0, s1 := 0, s2 := 0, s3 := 0 }
  | some i => (fileRead zeroEntry s.eng.tr.pbe i).q

/-- The mask `m` of a visit that is not reused, and how far `EC` and `PM` move for it (45_reconstructor.md R227 step 2,
R229). -/
def MaskRead (s : State) (prev : Option Nat) (m : BitVec 4) (ecn pmn : Nat) : Prop :=
  match prev with
  | none => m = 15 ∧ ecn = 0 ∧ pmn = 0
  | some _ =>
    pmn = 4 ∧ m.toNat = s.bitsAt s.eng.tr.pm.pos 4 ∧ s.eng.tr.pm.pos + 4 ≤ s.lenBits ∧
      if s.eng.regs.ecsize = 0 then ecn = 0
      else ecn = 1 ∧ s.bitsAt s.eng.tr.ec.pos 1 = 0 ∧ s.eng.tr.ec.pos + 1 ≤ s.lenBits

/-- The encoding type of a visit with mask `m`, and how far `ET` moves for it (45_reconstructor.md R231). -/
def TypeRead (s : State) (m : BitVec 4) (raw : Bool) (etn : Nat) : Prop :=
  if m ≠ 0 ∧ s.eng.regs.etsize ≠ 0 then
    etn = 1 ∧ raw = decide (s.bitsAt s.eng.tr.et.pos 1 = 1) ∧ s.eng.tr.et.pos + 1 ≤ s.lenBits
  else etn = 0 ∧ raw = false

/-- The compositor's block: pixel `(x, y)` of cell `g` in a canvas `dw` wide (46_compositor.md R256). -/
def blockAddr (dw : Nat) (g : CellGeom) (x y : Nat) : Nat := (g.x + x) + (g.y + y) * dw

/-- An address outside the block of cell `g`. -/
def OutsideBlock (dw : Nat) (g : CellGeom) (a : Nat) : Prop := ∀ x y, x < g.w → y < g.h → a ≠ blockAddr dw g x y

/-- The visit's frame cell. -/
def State.visitCell (s : State) : CellGeom :=
  fileRead zeroCell (fileRead [] s.eng.regs.fcell s.eng.frm.toNat) s.visitC

/-- The next unconsumed entry belongs to the visit (46_compositor.md R257). -/
def State.isFresh (s : State) : Prop :=
  ∃ x, s.eng.tr.pbe[s.eng.tr.pbidx]? = some x ∧ x.frame = s.eng.frm ∧ x.fci = s.visitC

/-- What every `CCELL` that goes on leaves besides the block: other frames' arrays, the array of this frame outside the
block (zeroed at the frame's first cell), the last occurrence, the registers (46_compositor.md R256, R263, R265). -/
def CcellFrame (s t : State) (g : CellGeom) : Prop :=
  EngOnly s t ∧ { t.eng.regs with out := s.eng.regs.out } = s.eng.regs ∧
    (∀ a, OutsideBlock s.eng.regs.dw g a → t.eng.tr.canvas.read a = s.eng.tr.canvas.read a) ∧
    (∀ f a, f ≠ s.eng.frm.toNat → (t.eng.regs.outArr f).read a = (s.eng.regs.outArr f).read a) ∧
    (∀ a, OutsideBlock s.eng.regs.dw g a → (t.eng.regs.outArr s.eng.frm.toNat).read a =
      if s.visitC = 0 then 0 else (s.eng.regs.outArr s.eng.frm.toNat).read a) ∧
    (∀ k, fileRead zeroLast t.eng.tr.last k =
      if k = s.visitK then { valid := true, w := g.w, h := g.h, x := g.x, y := g.y }
      else fileRead zeroLast s.eng.tr.last k) ∧
    t.eng.tr.pbe = s.eng.tr.pbe ∧ t.eng.tr.occ = s.eng.tr.occ ∧ t.eng.tr.ec = s.eng.tr.ec ∧ t.eng.tr.pm = s.eng.tr.pm ∧
    t.eng.tr.et = s.eng.tr.et ∧ t.eng.tr.rp = s.eng.tr.rp ∧ t.eng.dir = s.eng.dir ∧ t.eng.free = s.eng.free ∧
    Walks s t phDfin

/-! The result store's registers, each with the value it reads as in `DONE` (10_state.md R50, R49). -/

/-- The container header's (10_state.md R26). -/
def containerReads (x : Front) : List (ResultSel × Int) :=
  [(.signature, x.signature.toNat), (.version, x.version.toNat), (.ndir, x.ndir.toNat), (.nframes, x.nframes.toInt),
    (.sentinel, x.sentinel.toNat), (.totalsize, x.totalsize.toNat)]

/-- Direction `d`'s: header, sizes, palette (entry `j`), box, grid counts (10_state.md R29, R30, R31, R33, R36). -/
def directionReads (d : Nat) (j : Byte) (r : DirRegs) : List (ResultSel × Int) :=
  [(.outsize d, r.outsize.toNat), (.cflags d, r.cflags.toNat), (.wb d 0, r.wb.v0.toNat), (.wb d 1, r.wb.w.toNat),
    (.wb d 2, r.wb.h.toNat), (.wb d 3, r.wb.x.toNat), (.wb d 4, r.wb.y.toNat), (.wb d 5, r.wb.o.toNat), (.wb d 6, r.wb.c.toNat),
    (.ecsize d, r.ecsize.toNat), (.pmsize d, r.pmsize.toNat), (.etsize d, r.etsize.toNat), (.rpsize d, r.rpsize.toNat),
    (.palcnt d, r.palcnt.toNat), (.pal d j, (fileRead 0 r.pal j.toNat).toNat), (.dl d, r.dl), (.dt d, r.dt), (.dw d, r.dw),
    (.dh d, r.dh), (.hcc d, r.hcc), (.vcc d, r.vcc)]

/-- Frame `f`'s: header, box, grid counts (10_state.md R32, R38). -/
def frameReads (d f : Nat) (r : DirRegs) : List (ResultSel × Int) :=
  [(.fw d f, (r.frame f).fw.toNat), (.fh d f, (r.frame f).fh.toNat), (.fx d f, (r.frame f).fx.toInt),
    (.fy d f, (r.frame f).fy.toInt), (.fnopt d f, (r.frame f).fnopt.toNat), (.fncoded d f, (r.frame f).fncoded.toNat),
    (.fbu d f, (r.frame f).fbu.toNat), (.fl d f, (r.frame f).fl), (.ft d f, (r.frame f).ft), (.fhcc d f, fileRead 0 r.fhcc f),
    (.fvcc d f, fileRead 0 r.fvcc f)]

/-- Frame cell `c`'s (10_state.md R38). -/
def cellReads (d f c : Nat) (g : CellGeom) : List (ResultSel × Int) :=
  [(.fcellW d f c, g.w), (.fcellH d f c, g.h), (.fcellX d f c, g.x), (.fcellY d f c, g.y)]

/-- Each place of the table answers its value. -/
def EachReads (s : State) (l : List (ResultSel × Int)) : Prop :=
  ∀ x ∈ l, hostAccess (.resultRead x.1) s = .next { s with hostData := x.2 }

/-- No place of the table exists: a read of it faults (log 11). -/
def NoneExists (s : State) (l : List (ResultSel × Int)) : Prop := ∀ x ∈ l, hostAccess (.resultRead x.1) s = .fault .noSuchResult

/-- The two memories `CCELL` and the pixel codes store to are in canonical form. -/
def PixelMemOk (s : State) : Prop := Mem.wf s.eng.tr.canvas = true ∧ s.eng.regs.memOk

end Sys2Proof.Machine

open Sys2Proof Sys2Proof.Machine

/-! ### Encodings -/

/-- DECODE AND ENCODE AGREE: every well-formed instruction, with every operand its encoding admits, is read back from its own
encoding. -/
def Obligations.DecodeOfEncode : Prop := ∀ i : Instr, i.wf = true → decode (encode i) = .ok i

/-- What the decoder reads is well formed, for an offset table of at most 255 directions and frame widths of at most 32 bits,
which are the only ones `NDIR` and `WLUT` give (30_encoding.md R92, R104). -/
def Obligations.DecodedIsWellFormed : Prop :=
  ∀ (x : Encoded) (i : Instr), decode x = .ok i →
    (match x with
      | .code (.offt n) _ => n ≤ 255
      | .code (.fhdr wb) _ => widthsOk wb = true
      | _ => True) →
    i.wf = true

/-- No code but the nibble chain delimits itself: what the decoder consumes is the length known before it is read, and the
bits after it are left as they are (30_encoding.md R113). -/
def Obligations.CodeConsumesItsLength : Prop :=
  ∀ (k : CodeFmt) (bs : List Bool) (i : Instr) (rest : List Bool), decodeCode k bs = .ok (i, rest) →
    codeLen k ≤ bs.length ∧ rest = bs.drop (codeLen k)

/-- Words written out from the tables of 30_encoding.md decode to what they stand for: `RDBITS PM, 12`, `CLONE EC, MAIN`,
`START`, `CLEAR`, `PHASE` 3 and 16, the signature, the mask 5, a nibble 15 and a nibble 14, the sub-bitstream sizes of
`CFLAGS = 1` (`PMSIZE`, `ETSIZE`, `RPSIZE`, no `ECSIZE`). -/
def Obligations.DecodesTableWords : Prop :=
  decode (.bcop 0b000_001100_010_001 0) = .ok (.rdbits (.eng .pm) 12) ∧
    decode (.bcop 0b000_000000_001_110 0) = .ok (.clone (.eng .ec) (.eng .main)) ∧
    decode (.cmd 0b01) = .ok (.start false) ∧ decode (.cmd 0b10) = .ok (.clear false) ∧
    decode (.seq 0b00011) = .ok .dhdr ∧ decode (.seq 0b10000) = .ok .dfin ∧
    decode (.code .sig [false, false, true, false, true, true, true, false]) = .ok .sig ∧
    decode (.code .pmask [true, false, true, false]) = .ok (.pmask 5) ∧
    decode (.code .dnib [true, true, true, true]) = .ok .dnibCont ∧
    decode (.code .dnib [false, true, true, true]) = .ok (.dnibEnd 14) ∧
    decode (.code (.sizes 1) (true :: List.replicate 19 false ++ (false :: true :: List.replicate 18 false) ++
      (List.replicate 19 false ++ [true]))) = .ok (.fmtSizes none 1 (some (2, 0x80000)))

/-- Which select codes name an instruction (30_encoding.md R120, R121, R123): `op` 0 and 7 none, cursor numbers 6 and 7 and
widths 33 to 63 never issued, `PHASE` 0 no step and 18 to 31 never taken; every other one decodes. That width 0 decodes is the
model's choice (log 15). -/
def Obligations.SelectCodes : Prop :=
  (∀ (w : BitVec 15) (n20 : BitVec 20),
    let op := w.toNat % 8
    let cur := w.toNat / 8 % 8
    let n := w.toNat / 64 % 64
    let src := w.toNat / 4096
    if op = 0 ∨ op = 7 then decode (.bcop w n20) = .error .noOperation
    else if 6 ≤ cur then decode (.bcop w n20) = .error .badCursor
    else if op ≤ 2 ∧ 33 ≤ n then decode (.bcop w n20) = .error .badWidth
    else if op = 6 ∧ 6 ≤ src then decode (.bcop w n20) = .error .badCursor
    else ∃ i, decode (.bcop w n20) = .ok i) ∧
  ∀ p : BitVec 5,
    if p = 0 then decode (.seq p) = .error .noStep
    else if 18 ≤ p.toNat then decode (.seq p) = .error .neverTaken
    else ∃ i, decode (.seq p) = .ok i

/-! ### One step -/

/-- A STEP RUNS THE DECODED INSTRUCTION: a command pending in `CTRL`; else, while `BUSY`, the micro-operation at the port, the
engine's step, the front end's step. A host access in `inputs` comes before the block's step; an entry `none` gives the block
a turn. Bits at the port that do not decode raise the error the spec names for them. A `BCOP` word with `op` 0 or 7 changes no
state (30_encoding.md R120): it is taken from the port. A `BCOP` word and a `PHASE` code the spec says is never issued or never
taken is refused by name. Otherwise the block waits. (The order, the port and the refusals are the model's: log 1, 2, 3, 12,
15, 16.) -/
def Obligations.StepRunsDecoded : Prop :=
  (∀ (s : State) (i : Instr), s.ctrl ≠ 0 → decode (.cmd s.ctrl) = .ok i → step s = exec i s) ∧
  (∀ (s : State) (r : HostReq) (rest : List (Option HostReq)), s.ctrl = 0 → s.inputs = some r :: rest →
    step s = hostAccess r { s with inputs := rest }) ∧
  ∀ (s u : State), s.ctrl = 0 → (s.inputs = [] ∧ u = s ∨ ∃ rest, s.inputs = none :: rest ∧ u = { s with inputs := rest }) →
    (s.status ≠ stBusy → step s = .next u) ∧
    (s.status = stBusy →
      (∀ w n20 i, s.port = some (.bcop w n20) → decode (.bcop w n20) = .ok i → step s = exec i u) ∧
      (∀ w n20, s.port = some (.bcop w n20) → w.toNat % 8 = 0 ∨ w.toNat % 8 = 7 → step s = .next { u with port := none }) ∧
      (∀ w n20 e, s.port = some (.bcop w n20) → decode (.bcop w n20) = .error e → e ≠ .noOperation →
        step s = .refused (.neverIssued e)) ∧
      (∀ k i, s.port = some (.code k) → decode (.code (codeFmt s k) (codeBits s k)) = .ok i → step s = exec i u) ∧
      (∀ k e c, s.port = some (.code k) → decode (.code (codeFmt s k) (codeBits s k)) = .error e →
        decodeErrCause e = some c → ∃ t, step s = .next t ∧ Raises u t c (s.cursorDir (codeCursor k))) ∧
      (s.port = none →
        (∀ i, s.eng.phase ≠ phIdle → decode (.seq s.eng.phase) = .ok i → step s = exec i u) ∧
        (∀ i, s.eng.phase = phIdle → decode (.seq s.front.phase) = .ok i → step s = exec i u) ∧
        (18 ≤ s.eng.phase.toNat → step s = .refused (.neverIssued .neverTaken)) ∧
        (s.eng.phase = phIdle → 18 ≤ s.front.phase.toNat → step s = .refused (.neverIssued .neverTaken)) ∧
        (s.eng.phase = phIdle → s.front.phase = phIdle → step s = .next u)))

/-- Every instruction has a next state in every state: the spec's errors are results, never a stop. And a block step of a
state whose control registers agree, with no host access due and no `BCOP` word at the port, has one. -/
def Obligations.NothingStops : Prop :=
  (∀ (i : Instr) (s : State), goesOn (exec i s)) ∧
  ∀ s : State, s.CtlOk → (s.inputs = [] ∨ ∃ rest, s.inputs = none :: rest) → (∀ w n20, s.port ≠ some (.bcop w n20)) →
    goesOn (step s)

/-! ### Invariants -/

/-- Every step keeps every byte memory in canonical form (log 5). -/
def Obligations.StepKeepsMemory : Prop := ∀ s t : State, s.MemOk → step s = .next t → t.MemOk

/-- Every step keeps the control registers in agreement: legal phases, `BUSY` exactly while the front end is not `IDLE`, the
error registers 0 outside `ERROR` and a row of the cause table in it, `irq` 0 in `IDLE` and `BUSY`. That the front end stands in
`PHASE` = `CFIN` while an engine runs (`CtlOk.waits`) is the model's choice, not a rule of the spec (log 12). -/
def Obligations.StepKeepsControl : Prop := ∀ s t : State, s.CtlOk → step s = .next t → t.CtlOk

/-- Every step keeps the width registers at entries of `WLUT` and the palette table at 256 entries, 0 from `PALCNT` on. The step
of the reset input keeps it because the model's reset gives these registers, which 10_state.md R51 leaves unspecified, zeros
(log 4, 24). -/
def Obligations.StepKeepsRegisters : Prop := ∀ s t : State, s.RegsOk → step s = .next t → t.RegsOk

/-- The three invariants hold right after reset (what the spec leaves unspecified there is 0 by the model's choice: log 4, 5). -/
def Obligations.ResetIsSafe : Prop := State.reset.MemOk ∧ State.reset.CtlOk ∧ State.reset.RegsOk

/-! ### Reset and the host -/

/-- What reset leaves: `State.reset`, and the state after the reset input in any state, `BUSY` included
(70_reset_and_hazards.md R310: the values it states; of the unspecified rest nothing is said). -/
def Obligations.ResetValues : Prop :=
  let resetTo (t : State) : Prop :=
    t.status = 0 ∧ t.ctrl = 0 ∧ t.errkind = 0 ∧ t.errcause = 0 ∧ t.errdir = 0 ∧ t.ibuf.len = 0 ∧ t.irqEn = 0 ∧ t.irq = 0 ∧
      t.front.phase = 0 ∧ t.eng.phase = 0
  resetTo State.reset ∧ ∀ s : State, ∃ t, hostAccess .rst s = .next t ∧ resetTo t

/-- `START` (41_container_and_sequencer.md R150): accepted in `IDLE`, ignored in every other state; `CTRL`'s bits are
self-clearing. Nothing else changes. -/
def Obligations.StartCommand : Prop :=
  ∀ s : State,
    (s.status = stIdle → exec (.start false) s = .next { s with ctrl := 0, status := stBusy, front.phase := phChdr }) ∧
    (s.status ≠ stIdle → exec (.start false) s = .next { s with ctrl := 0 })

/-- `CLEAR` (41_container_and_sequencer.md R151): accepted in `DONE` and `ERROR`, ignored in `IDLE` and `BUSY`; after it the
result store is not valid: a read of it returns a free value (log 8). A word with both command bits is `CLEAR` first and
`START` second (10_state.md R23). -/
def Obligations.ClearCommand : Prop :=
  ∀ s : State,
    (s.status = stDone ∨ s.status = stError → ∃ t, exec (.clear false) s = .next t ∧
      t = { s with ctrl := 0, status := stIdle, errkind := 0, errcause := 0, errdir := 0, irq := 0 } ∧
      ∀ r, hostAccess (.resultRead r) t = .next (readFree t)) ∧
    (s.status = stIdle ∨ s.status = stBusy → exec (.clear false) s = .next { s with ctrl := 0 }) ∧
    ∀ t, exec (.clear false) s = .next t → exec (.clear true) s = exec (.start false) t

/-- The registers by CSR number (10_state.md R22, R25, R49): what each read answers, that `IBUF_LEN` is free while `BUSY`, what
each write changes, and that no other number exists. (The model's: that a written command waits in `CTRL` for the next step, log
3; that a free read is a free value, log 8; that a write of a read-only register changes nothing, log 10; that an access to
another number faults, log 11.) -/
def Obligations.CsrTable : Prop :=
  ∀ (s : State) (v : BitVec 32) (n : Nat),
    hostAccess (.csrRead 0) s = .next { s with hostData := 0 } ∧
    hostAccess (.csrRead 1) s = .next { s with hostData := s.status.toNat } ∧
    hostAccess (.csrRead 2) s = .next { s with hostData := s.errkind.toNat } ∧
    hostAccess (.csrRead 3) s = .next { s with hostData := s.errcause.toNat } ∧
    hostAccess (.csrRead 4) s = .next { s with hostData := s.errdir.toNat } ∧
    (s.status ≠ stBusy → hostAccess (.csrRead 5) s = .next { s with hostData := s.ibuf.len.toNat }) ∧
    (s.status = stBusy → hostAccess (.csrRead 5) s = .next (readFree s)) ∧
    hostAccess (.csrRead 6) s = .next { s with hostData := s.irqEn.toNat } ∧
    hostAccess (.csrWrite 0 v) s = .next { s with ctrl := v.extractLsb' 0 2 } ∧
    (1 ≤ n → n ≤ 4 → hostAccess (.csrWrite n v) s = .next s) ∧
    (s.status = stIdle → hostAccess (.csrWrite 5 v) s = .next { s with ibuf.len := v }) ∧
    (s.status ≠ stIdle → hostAccess (.csrWrite 5 v) s = .next s) ∧
    hostAccess (.csrWrite 6 v) s = .next { s with irqEn := v.extractLsb' 0 1 } ∧
    (7 ≤ n → hostAccess (.csrRead n) s = .fault .noSuchCsr ∧ hostAccess (.csrWrite n v) s = .fault .noSuchCsr)

/-- A byte written to `IBUF` outside `BUSY` changes that byte of the buffer and nothing else; while `BUSY` it is refused
(70_reset_and_hazards.md R314; 93_implementation_defined.md U2). -/
def Obligations.BufferWrite : Prop :=
  ∀ (s : State) (a : BitVec 32) (v : Byte), s.MemOk →
    (s.status = stBusy → hostAccess (.ibufWrite a v) s = .refused .ibufWriteWhileBusy) ∧
    (s.status ≠ stBusy → ∃ t, hostAccess (.ibufWrite a v) s = .next t ∧
      { t with ibuf := s.ibuf } = s ∧ t.ibuf.len = s.ibuf.len ∧
      ∀ b, t.ibuf.mem.read b = if b = a.toNat then v else s.ibuf.mem.read b)

/-- The result store (10_state.md R50): in `DONE` every register R50 names (those of R26, R29 to R32, R36, R38, the boxes) and
every pixel of an output array reads as it stands, for every direction below `NDIR`, every frame below `NFRAMES`, every cell
below the frame's cell count and every pixel below `DW*DH`. (The model's: that a place past one of these bounds faults, log
11; that in every other state a read is a free value, log 8.) -/
def Obligations.ResultStore : Prop :=
  ∀ (s : State) (d f c p : Nat) (j : Byte),
    let r := fileRead resetRegs s.result d
    let off : List (ResultSel × Int) := [(.diroff d, (fileRead 0 s.front.diroff d).toNat)]
    let pixel : List (ResultSel × Int) := [(.pixel d f p, ((r.outArr f).read p).toNat)]
    let cell := cellReads d f c (r.cell f c)
    (s.status = stDone →
      EachReads s (containerReads s.front) ∧
      (d < s.front.ndir.toNat →
        EachReads s (off ++ directionReads d j r) ∧
        ((f : Int) < s.front.nframes.toInt →
          EachReads s (frameReads d f r) ∧
          (c < fileRead 0 r.fhcc f * fileRead 0 r.fvcc f → EachReads s cell) ∧
          (fileRead 0 r.fhcc f * fileRead 0 r.fvcc f ≤ c → NoneExists s cell) ∧
          (p < r.dw * r.dh → EachReads s pixel) ∧ (r.dw * r.dh ≤ p → NoneExists s pixel)) ∧
        (s.front.nframes.toInt ≤ f → NoneExists s (frameReads d f r ++ cell ++ pixel))) ∧
      (s.front.ndir.toNat ≤ d → NoneExists s (off ++ directionReads d j r ++ frameReads d f r ++ cell ++ pixel))) ∧
    (s.status ≠ stDone → ∀ e, hostAccess (.resultRead e) s = .next (readFree s))

/-- In a state whose control registers agree, `STATUS.STATE` changes only by an accepted `START` or `CLEAR`, by `CFIN`, by a
raise while `BUSY`, and by reset (10_state.md R24, 70_reset_and_hazards.md R310). -/
def Obligations.StatusChanges : Prop :=
  ∀ s t : State, s.CtlOk → step s = .next t → t.status ≠ s.status →
    (s.ctrl.getLsbD 0 = true ∧ s.status = stIdle ∧ t.status = stBusy) ∨
    (s.ctrl.getLsbD 1 = true ∧ (s.status = stDone ∨ s.status = stError) ∧
      t.status = if s.ctrl.getLsbD 0 then stBusy else stIdle) ∨
    (s.ctrl = 0 ∧ s.status = stBusy ∧ s.port = none ∧ s.eng.phase = phIdle ∧ s.front.phase = phCfin ∧ t.status = stDone) ∨
    (s.ctrl = 0 ∧ s.status = stBusy ∧ t.status = stError) ∨
    (s.ctrl = 0 ∧ s.inputs.head? = some (some .rst) ∧ t.status = stIdle)

/-- `irq` changes only where the spec says (60_exceptions.md R290): it becomes `IRQ_EN` at the change to `DONE` or `ERROR`, and 0
by `CLEAR` and by reset; a later write of `IRQ_EN` neither raises nor lowers it. -/
def Obligations.IrqChanges : Prop :=
  ∀ s t : State, step s = .next t →
    t.irq = s.irq ∨
    (t.irq = s.irqEn ∧ s.status = stBusy ∧ (t.status = stDone ∨ t.status = stError)) ∨
    (t.irq = 0 ∧ s.ctrl.getLsbD 1 = true ∧ (s.status = stDone ∨ s.status = stError)) ∨
    (t.irq = 0 ∧ s.ctrl = 0 ∧ s.inputs.head? = some (some .rst))

/-! ### Frames over all instructions -/

/-- No instruction writes the input buffer, `IBUF_LEN`, `IRQ_EN`, the capacities, the host's accesses or the host's data: the
buffer is constant during a decode (20_memory.md R67, R74 (b); 40_bitcursor.md R141). An instruction other than `ICHK`,
`CCELL`, `DFIN` and the pixel codes stores no byte at all: every address of the input buffer, of the canvas, of every output
array in work and of every finished one reads as before. -/
def Obligations.MemoryFrame : Prop :=
  (∀ (i : Instr) (s t : State), exec i s = .next t →
    t.ibuf = s.ibuf ∧ (∀ a, t.byteAt a = s.byteAt a) ∧ t.irqEn = s.irqEn ∧ t.caps = s.caps ∧ t.inputs = s.inputs ∧
      t.hostData = s.hostData ∧ t.hostFree = s.hostFree) ∧
  ∀ (i : Instr) (s t : State), storesNothing i = true → exec i s = .next t → SameBytes s t

/-! ### Errors -/

/-- The constant tables: `WLUT` and `POPC` (30_encoding.md R104, R117), the codes of the error kinds and causes, and that a
cause's high nibble is its kind minus 1 (60_exceptions.md R282, R283). -/
def Obligations.ConstantTables : Prop :=
  (List.range 16).map (fun i => (wlut (BitVec.ofNat 4 i)).toNat) = [0, 1, 2, 4, 6, 8, 10, 12, 14, 16, 20, 24, 26, 28, 30, 32] ∧
  (List.range 16).map (fun m => popc (BitVec.ofNat 4 m)) = [0, 1, 1, 2, 1, 2, 2, 3, 1, 2, 2, 3, 2, 3, 3, 4] ∧
  (∀ c : Cause, (c.code.toNat, c.kind.code.toNat) = match c with
    | .badSignature => (0x01, 1)
    | .badSentinel => (0x02, 1)
    | .outOfRange => (0x03, 1)
    | .badFrameCount => (0x04, 1)
    | .emptyBox => (0x05, 1)
    | .bottomUpFlag => (0x10, 2)
    | .optionalDataBits => (0x11, 2)
    | .equalCells => (0x20, 3)
    | .pixelMask => (0x21, 3)
    | .encodingType => (0x22, 3)
    | .rawPixelCodes => (0x23, 3)
    | .capFrames => (0x30, 4)
    | .capCanvas => (0x31, 4)
    | .capDcells => (0x32, 4)
    | .capFcells => (0x33, 4)
    | .capPbe => (0x34, 4)) ∧
  ∀ c : Cause, c.code.toNat / 16 + 1 = c.kind.code.toNat

/-- `raise` (60_exceptions.md R281): the record, `STATE`, both phases and `irq`; the result store is not valid, so that a read of
it returns a free value. (The model's: the free value, log 8; that the finished directions stay in the store, unreadable, log
19, 26.) -/
def Obligations.RaiseRecord : Prop :=
  ∀ (c : Cause) (d : BitVec 9) (s : State), Raises s (takeError c d s) c d ∧
    ∀ r, hostAccess (.resultRead r) (takeError c d s) = .next (readFree (takeError c d s))

/-- An instruction that brings the block to `ERROR` raises one of its own causes with the record of a raise, `ERRDIR` being
`0x100` from the front end and the engine's direction otherwise; `START`, `CLEAR`, `DSEEK`, `SLICE`, `PXLAT`, `DFIN`, `CFIN`,
`SKIP`, `CONS` and `CLONE` raise nothing (60_exceptions.md R283, R285). For the `BCOP` operations, the formats and the codes as
steps of their own the causes and `ERRDIR` are the model's (log 1, 18). -/
def Obligations.WhatInstructionsRaise : Prop :=
  ∀ (i : Instr) (s t : State), exec i s = .next t → s.status ≠ stError → t.status = stError →
    ∃ c ∈ mayRaise i, Raises s t c (raisesAs i s)

/-! ### The BitCursor -/

/-- A field is assembled first bit lowest, and at a byte boundary a read of whole bytes is the little-endian integer there
(20_memory.md R61 to R63): (a), (b) and (d) of R63 for the model's field. -/
def Obligations.FieldAssembly : Prop :=
  ∀ (s : State) (p n a k : Nat), s.ibuf.field p n = s.bitsAt p n ∧ s.bitsAt p n < 2 ^ n ∧
    s.bitsAt (8 * a) (8 * k) = s.leAt a k ∧ s.bitsAt (8 * a) 4 + 16 * s.bitsAt (8 * a + 4) 4 = s.byteAt a

/-- `RDBITS` and `RDBIT` inside the buffer: the value, both counts of the named cursor moved, nothing else (40_bitcursor.md R132,
R134); a read of width 0 gives 0 wherever the cursor stands (R138). Past the end they raise `OUT_OF_RANGE`, every cursor and the
returned value as before (R139). That the operation is a step of its own, taken from the port, and leaves its value in `bcOut`
is the model's (log 1). -/
def Obligations.ReadBits : Prop :=
  ∀ (cur : CursorSel) (n : BitVec 6) (s : State), n.toNat ≤ 32 →
    let c := s.cursor cur
    (n = 0 ∨ c.pos + n.toNat ≤ s.lenBits → exec (.rdbits cur n) s = .next { (s.setCursor cur
        { pos := c.pos + n.toNat, cons := c.cons + n.toNat }) with bcOut := (s.bitsAt c.pos n.toNat : Int), port := none }) ∧
    (n ≠ 0 → s.lenBits < c.pos + n.toNat → ∃ t, exec (.rdbits cur n) s = .next t ∧
      Raises s t .outOfRange (raisesAs (.rdbits cur n) s) ∧ t.bcOut = s.bcOut ∧ ∀ d, t.cursor d = s.cursor d) ∧
    (c.pos + 1 ≤ s.lenBits → exec (.rdbit cur) s = .next { (s.setCursor cur
        { pos := c.pos + 1, cons := c.cons + 1 }) with bcOut := (s.ibit c.pos : Int), port := none }) ∧
    (s.lenBits < c.pos + 1 → ∃ t, exec (.rdbit cur) s = .next t ∧ Raises s t .outOfRange (raisesAs (.rdbit cur) s) ∧
      t.bcOut = s.bcOut ∧ ∀ d, t.cursor d = s.cursor d)

/-- `RDSBITS` (40_bitcursor.md R133): the same advance and the same fault, the value the two's complement of the bits read,
within its range; width 0 gives 0 (R138). (The port and `bcOut`: log 1.) -/
def Obligations.ReadSignedBits : Prop :=
  ∀ (cur : CursorSel) (n : BitVec 6) (s : State), n.toNat ≤ 32 →
    let c := s.cursor cur
    (n = 0 ∨ c.pos + n.toNat ≤ s.lenBits → ∃ v : Int, v = signedVal n.toNat (s.bitsAt c.pos n.toNat) ∧ (n = 0 → v = 0) ∧
      (n ≠ 0 → -(2 : Int) ^ (n.toNat - 1) ≤ v ∧ v < (2 : Int) ^ (n.toNat - 1)) ∧
      exec (.rdsbits cur n) s = .next { (s.setCursor cur
        { pos := c.pos + n.toNat, cons := c.cons + n.toNat }) with bcOut := v, port := none }) ∧
    (n ≠ 0 → s.lenBits < c.pos + n.toNat → ∃ t, exec (.rdsbits cur n) s = .next t ∧
      Raises s t .outOfRange (raisesAs (.rdsbits cur n) s) ∧ t.bcOut = s.bcOut ∧ ∀ d, t.cursor d = s.cursor d)

/-- `SKIP`, `CONS`, `CLONE` (40_bitcursor.md R135 to R137): no bounds check, no fault. (The port and `bcOut`: log 1.) -/
def Obligations.SkipConsClone : Prop :=
  ∀ (cur src : CursorSel) (n20 : BitVec 20) (s : State),
    exec (.skip cur n20) s = .next { (s.setCursor cur
      { pos := (s.cursor cur).pos + n20.toNat, cons := (s.cursor cur).cons + n20.toNat }) with port := none } ∧
    exec (.cons cur) s = .next { s with bcOut := ((s.cursor cur).cons : Int), port := none } ∧
    exec (.clone cur src) s = .next { (s.setCursor cur { pos := (s.cursor src).pos, cons := 0 }) with port := none }

/-- Two cursors never share state: an operation leaves every cursor but the one it names as destination as it was
(40_bitcursor.md R142); and every operation but `CLONE` moves a cursor's position and its consumed count alike (R131). -/
def Obligations.CursorsAreIndependent : Prop :=
  ∀ (i : Instr) (cur : CursorSel) (s t : State), exec i s = .next t →
    ((∃ n, i = .rdbits cur n) ∨ (∃ n, i = .rdsbits cur n) ∨ i = .rdbit cur ∨ (∃ n, i = .skip cur n) ∨ i = .cons cur →
      (∀ d, d ≠ cur → t.cursor d = s.cursor d) ∧
      (t.cursor cur).pos + (s.cursor cur).cons = (s.cursor cur).pos + (t.cursor cur).cons) ∧
    ((∃ src, i = .clone cur src) → ∀ d, d ≠ cur → t.cursor d = s.cursor d)

/-! ### Container front end -/

/-- `CHDR` on a whole header (41_container_and_sequencer.md R154, 30_encoding.md R91, R92): the container registers, the offset
table, `CCUR`; with no direction the front end's next step is `CFIN`, with one or more the engine starts at `DSEEK` with
`DIR = 0` while the front end waits (R152, R157; that the front end waits in `PHASE = CFIN` and that one engine takes the
directions in turn is the model's: log 12). -/
def Obligations.ChdrParses : Prop :=
  ∀ s : State, s.byteAt 0 = 0x74 → s.leAt 7 4 = 1 → 15 + 4 * s.byteAt 2 ≤ s.ibuf.len.toNat →
    1 ≤ signedVal 32 (s.leAt 3 4) → withinCap s.caps.maxFrames (s.leAt 3 4) →
    ∃ t, exec .chdr s = .next t ∧ { t with front := s.front, eng := s.eng } = s ∧
      t.front.signature.toNat = 0x74 ∧ t.front.version.toNat = s.byteAt 1 ∧ t.front.ndir.toNat = s.byteAt 2 ∧
      t.front.nframes.toNat = s.leAt 3 4 ∧ t.front.sentinel.toNat = 1 ∧ t.front.totalsize.toNat = s.leAt 11 4 ∧
      (∀ d, d < s.byteAt 2 → (fileRead 0 t.front.diroff d).toNat = s.leAt (15 + 4 * d) 4) ∧
      (∀ d, s.byteAt 2 ≤ d → fileRead 0 t.front.diroff d = fileRead 0 s.front.diroff d) ∧
      t.front.ccur = { pos := 120 + 32 * s.byteAt 2, cons := 120 + 32 * s.byteAt 2 } ∧ t.front.phase = phCfin ∧
      (s.byteAt 2 = 0 → t.eng = s.eng) ∧ (1 ≤ s.byteAt 2 → t.eng = { s.eng with phase := phDseek, dir := 0 })

/-- `CHDR` on any other buffer raises, with `ERRDIR = 0x100` and no engine started, the first error its pseudocode meets
(41_container_and_sequencer.md R154, R155; 60_exceptions.md R295). -/
def Obligations.ChdrRaises : Prop :=
  ∀ (s : State) (c : Cause),
    (if s.ibuf.len = 0 then some Cause.outOfRange
      else if s.byteAt 0 ≠ 0x74 then some Cause.badSignature
      else if s.ibuf.len.toNat < 11 then some Cause.outOfRange
      else if s.leAt 7 4 ≠ 1 then some Cause.badSentinel
      else if s.ibuf.len.toNat < 15 + 4 * s.byteAt 2 then some Cause.outOfRange
      else if signedVal 32 (s.leAt 3 4) < 1 then some Cause.badFrameCount
      else if (∃ m, s.caps.maxFrames = some m ∧ m < s.leAt 3 4) then some Cause.capFrames
      else none) = some c →
    ∃ t, exec .chdr s = .next t ∧ Raises s t c 0x100 ∧ t.eng = { s.eng with phase := phIdle }

/-- `DSEEK` (41_container_and_sequencer.md R156): `MAIN` at bit `8*DIROFF[DIR]`, its count 0; the next step is `DHDR`; nothing
else changes. -/
def Obligations.DseekPlacesMain : Prop :=
  ∀ s : State, exec .dseek s = .next { s with
    eng.tr.main := { pos := 8 * (fileRead 0 s.front.diroff s.eng.dir.toNat).toNat, cons := 0 }
    eng.phase := phDhdr }

/-- `CFIN` (41_container_and_sequencer.md R168). -/
def Obligations.CfinFinishes : Prop :=
  ∀ s : State, exec .cfin s = .next { s with front.phase := phIdle, status := stDone, irq := s.irqEn }

/-! ### Direction header -/

/-- `DHDR` (42_direction_header.md R171): the 62 bits of format `DHDR` at `MAIN` into the registers, each index through `WLUT`;
the next step is `FGEOM` of frame 0; fewer bits raise `OUT_OF_RANGE`. -/
def Obligations.DhdrReads : Prop :=
  ∀ s : State,
    let p := s.eng.tr.main.pos
    let w (i : Nat) : BitVec 6 := wlut (BitVec.ofNat 4 (s.bitsAt (p + 34 + 4 * i) 4))
    (p + 62 ≤ s.lenBits → exec .dhdr s = .next { s with
      eng.regs.outsize := BitVec.ofNat 32 (s.bitsAt p 32)
      eng.regs.cflags := BitVec.ofNat 2 (s.bitsAt (p + 32) 2)
      eng.regs.wb := { v0 := w 0, w := w 1, h := w 2, x := w 3, y := w 4, o := w 5, c := w 6 }
      eng.tr.main := { pos := p + 62, cons := s.eng.tr.main.cons + 62 }
      eng.phase := phFgeom
      eng.frm := 0 }) ∧
    (s.lenBits < p + 62 → EngRaises .dhdr s .outOfRange)

/-- A sequencer step does what its in-stream format says: `DHDR`, `BSIZES` and `PALV` on bits inside the buffer are the decoder's
reading of the format at `MAIN`, that format's own meaning, and the step order. (That a format is an instruction of its own is
the model's: log 18.) -/
def Obligations.StepsReadTheirFormats : Prop :=
  ∀ s : State,
    let p := s.eng.tr.main.pos
    let run (f : CodeFmt) (i : Instr) (q : BitVec 5) (e : Engine → Engine) : Prop :=
      p + codeLen f ≤ s.lenBits → ∃ j u, decode (.code f (s.ibuf.stream p (codeLen f))) = .ok j ∧ exec j s = .next u ∧
        exec i s = .next { u with port := s.port, eng := { e u.eng with phase := q } }
    run .dhdr .dhdr phFgeom (fun e => { e with frm := 0 }) ∧
      run (.sizes s.eng.regs.cflags) .bsizes phPalv id ∧ run .palv .palv phSlice id

/-- `OPTCHK` (42_direction_header.md R175). -/
def Obligations.OptchkRefuses : Prop :=
  ∀ s : State, (s.eng.regs.wb.o = 0 → exec .optchk s = .next { s with eng.phase := phBsizes }) ∧
    (s.eng.regs.wb.o ≠ 0 → EngRaises .optchk s .optionalDataBits)

/-- `BSIZES` (42_direction_header.md R176): each size field where its flag says it stands, 0 where it is absent; the next step is
`PALV`; fewer bits raise `OUT_OF_RANGE`. -/
def Obligations.BsizesReads : Prop :=
  ∀ s : State,
    let p := s.eng.tr.main.pos
    let e := if s.eng.regs.cflags.getLsbD 1 then 20 else 0
    let r := if s.eng.regs.cflags.getLsbD 0 then 40 else 0
    (p + (e + 20 + r) ≤ s.lenBits → exec .bsizes s = .next { s with
      eng.regs.ecsize := if e = 20 then BitVec.ofNat 20 (s.bitsAt p 20) else 0
      eng.regs.pmsize := BitVec.ofNat 20 (s.bitsAt (p + e) 20)
      eng.regs.etsize := if r = 40 then BitVec.ofNat 20 (s.bitsAt (p + e + 20) 20) else 0
      eng.regs.rpsize := if r = 40 then BitVec.ofNat 20 (s.bitsAt (p + e + 40) 20) else 0
      eng.tr.main := { pos := p + (e + 20 + r), cons := s.eng.tr.main.cons + (e + 20 + r) }
      eng.phase := phPalv }) ∧
    (s.lenBits < p + (e + 20 + r) → EngRaises .bsizes s .outOfRange)

/-- `PALV` (42_direction_header.md R177): the indices whose flag is set, in ascending order, then zeros up to 256 entries; the
next step is `SLICE`; fewer bits raise `OUT_OF_RANGE`. -/
def Obligations.PalvBuildsTable : Prop :=
  ∀ s : State,
    let p := s.eng.tr.main.pos
    let set := (List.range 256).filter fun i => s.ibit (p + i) = 1
    (p + 256 ≤ s.lenBits → exec .palv s = .next { s with
      eng.regs.pal := set.map (fun i => BitVec.ofNat 8 i) ++ List.replicate (256 - set.length) 0
      eng.regs.palcnt := BitVec.ofNat 9 set.length
      eng.tr.main := { pos := p + 256, cons := s.eng.tr.main.cons + 256 }
      eng.phase := phSlice }) ∧
    (s.lenBits < p + 256 → EngRaises .palv s .outOfRange)

/-- `SLICE` (42_direction_header.md R178): the four sub-bitstream cursors at successive positions, their counts 0, `MAIN` behind
them, no entry; the next step is `DGRID`. No bounds check. -/
def Obligations.SliceCursors : Prop :=
  ∀ s : State,
    let p := s.eng.tr.main.pos
    let e := s.eng.regs.ecsize.toNat
    let m := s.eng.regs.pmsize.toNat
    let t := s.eng.regs.etsize.toNat
    let r := s.eng.regs.rpsize.toNat
    exec .slice s = .next { s with
      eng.tr.ec := { pos := p, cons := 0 }
      eng.tr.pm := { pos := p + e, cons := 0 }
      eng.tr.et := { pos := p + e + m, cons := 0 }
      eng.tr.rp := { pos := p + e + m + t, cons := 0 }
      eng.tr.main := { pos := p + e + m + t + r, cons := s.eng.tr.main.cons + e + m + t + r }
      eng.tr.pbe := []
      eng.phase := phDgrid }

/-! ### Frame geometry -/

/-- `FGEOM` (43_frame_geometry.md R191) with widths `WLUT` can give: the fields of frame `FRM`'s header where the widths place
them, its box, the box folded into the accumulators, the next frame or `DBOX`; and the errors in their order. -/
def Obligations.FgeomReads : Prop :=
  ∀ s : State, (∀ i : Fin 7, (widthAt s.eng.regs.wb i).toNat ≤ 32) →
    let wb := s.eng.regs.wb
    let pw := s.eng.tr.main.pos + wb.v0.toNat
    let ph := pw + wb.w.toNat
    let px := ph + wb.h.toNat
    let py := px + wb.x.toNat
    let po := py + wb.y.toNat
    let pc := po + wb.o.toNat
    let pb := pc + wb.c.toNat
    let fw := s.bitsAt pw wb.w.toNat
    let fh := s.bitsAt ph wb.h.toNat
    let f := s.eng.frm.toNat
    (s.lenBits < pb + 1 → EngRaises .fgeom s .outOfRange) ∧
    (pb + 1 ≤ s.lenBits → s.ibit pb = 1 → EngRaises .fgeom s .bottomUpFlag) ∧
    (pb + 1 ≤ s.lenBits → s.ibit pb = 0 → (fw = 0 ∨ fh = 0) → EngRaises .fgeom s .emptyBox) ∧
    (pb + 1 ≤ s.lenBits → s.ibit pb = 0 → 1 ≤ fw → 1 ≤ fh → ∃ t, exec .fgeom s = .next t ∧ EngOnly s t ∧
      (let g := t.eng.regs.frame f
       let g0 := s.eng.regs
       g.fw.toNat = fw ∧ g.fh.toNat = fh ∧ g.fx.toInt = signedVal wb.x.toNat (s.bitsAt px wb.x.toNat) ∧
        g.fy.toInt = signedVal wb.y.toNat (s.bitsAt py wb.y.toNat) ∧ g.fnopt.toNat = s.bitsAt po wb.o.toNat ∧
        g.fncoded.toNat = s.bitsAt pc wb.c.toNat ∧ g.fbu = 0 ∧ g.fl = g.fx.toInt ∧ g.ft = g.fy.toInt - fh + 1 ∧
        (∀ k, k ≠ f → t.eng.regs.frame k = s.eng.regs.frame k) ∧
        (if f = 0 then
          t.eng.regs.minl = g.fl ∧ t.eng.regs.mint = g.ft ∧ t.eng.regs.maxr = g.fl + fw ∧ t.eng.regs.maxb = g.ft + fh
        else
          t.eng.regs.minl = min g0.minl g.fl ∧ t.eng.regs.mint = min g0.mint g.ft ∧
            t.eng.regs.maxr = max g0.maxr (g.fl + fw) ∧ t.eng.regs.maxb = max g0.maxb (g.ft + fh)) ∧
        { t.eng.regs with fg := g0.fg, minl := g0.minl, mint := g0.mint, maxr := g0.maxr, maxb := g0.maxb } = g0 ∧
        t.eng.tr.main = { pos := pb + 1, cons := s.eng.tr.main.cons + (pb + 1 - s.eng.tr.main.pos) } ∧
        { t.eng with regs := s.eng.regs, tr.main := s.eng.tr.main, phase := s.eng.phase, frm := s.eng.frm } = s.eng ∧
        WalksFrames s t phDbox))

/-- `DBOX` (43_frame_geometry.md R196): the direction box from the accumulators, and `Capacity(CANVAS)` when it is larger than
`MAX_CANVAS`; the next step is `OPTCHK`. -/
def Obligations.DboxFixesBox : Prop :=
  ∀ s : State,
    let r := s.eng.regs
    r.minl ≤ r.maxr → r.mint ≤ r.maxb →
    (withinCap s.caps.maxCanvas ((r.maxr - r.minl).toNat * (r.maxb - r.mint).toNat) → ∃ t, exec .dbox s = .next t ∧
      t = { s with eng := { s.eng with regs := t.eng.regs, phase := phOptchk } } ∧
      t.eng.regs = { r with dl := r.minl, dt := r.mint, dw := t.eng.regs.dw, dh := t.eng.regs.dh } ∧
      (t.eng.regs.dw : Int) = r.maxr - r.minl ∧ (t.eng.regs.dh : Int) = r.maxb - r.mint) ∧
    (∀ m, s.caps.maxCanvas = some m → m < (r.maxr - r.minl).toNat * (r.maxb - r.mint).toNat →
      EngRaises .dbox s .capCanvas)

/-- The direction box is the union of the frame boxes (43_frame_geometry.md R198): after every frame's box is folded in and the
box fixed, it contains each frame's box and each of its four sides is some frame's. -/
def Obligations.BoxIsUnion : Prop :=
  ∀ (r0 : DirRegs) (n : Nat), 1 ≤ n →
    let r := ((List.range n).foldl DirRegs.fold r0).setDirBox
    (∀ f, f < n → r.dl ≤ (r.frame f).fl ∧ (r.frame f).fl + (r.frame f).fw.toNat ≤ r.dl + r.dw ∧
      r.dt ≤ (r.frame f).ft ∧ (r.frame f).ft + (r.frame f).fh.toNat ≤ r.dt + r.dh) ∧
    (∃ f, f < n ∧ (r.frame f).fl = r.dl) ∧ (∃ f, f < n ∧ (r.frame f).ft = r.dt) ∧
    (∃ f, f < n ∧ (r.frame f).fl + (r.frame f).fw.toNat = r.dl + r.dw) ∧
    ∃ f, f < n ∧ (r.frame f).ft + (r.frame f).fh.toNat = r.dt + r.dh

/-! ### Cell grids -/

/-- The direction tiling (44_cellgrid.md R207): how many cells, each size, where each starts, and the sum. -/
def Obligations.DirectionTiling : Prop :=
  ∀ E : Nat, 1 ≤ E →
    (dtile E).length = 1 + (E - 1) / 4 ∧ (dtile E).sum = E ∧
    ∀ i, i < (dtile E).length → ((dtile E).take i).sum = 4 * i ∧
      (dtile E).getD i 0 = if i + 1 < (dtile E).length then 4 else (E - 1) % 4 + 1

/-- The frame tiling (44_cellgrid.md R210, R213): the sum, the sizes, the count, and that every cell but the first starts on a
direction cell boundary. -/
def Obligations.FrameTiling : Prop :=
  ∀ E o : Nat, 1 ≤ E →
    let first := 4 - o % 4
    let l := ftile E o
    l.sum = E ∧ (∀ x ∈ l, 1 ≤ x ∧ x ≤ 5) ∧ (l.length = 1 ↔ E ≤ first + 1) ∧ (l.length = 1 → l = [E]) ∧
    (2 ≤ l.length →
      l.length = 1 + (E - first - 1 + 3) / 4 ∧ l.getD 0 0 = first ∧
      (∀ i, 1 ≤ i → i + 1 < l.length → l.getD i 0 = 4) ∧
      l.getD (l.length - 1) 0 = (E - first - 2) % 4 + 2) ∧
    ∀ i, 1 ≤ i → i < l.length → (l.take i).sum = first + 4 * (i - 1) ∧ o + (l.take i).sum = 4 * (o / 4 + i)

/-- `DGRID` (44_cellgrid.md R206) with the direction box a direction has: the counts, every direction cell, the empty occupant
table, and `Capacity(DCELLS)`; the next step is `FGRID` of frame 0. -/
def Obligations.DgridBuilds : Prop :=
  ∀ s : State, 1 ≤ s.eng.regs.dw → 1 ≤ s.eng.regs.dh →
    let cw := dtile s.eng.regs.dw
    let ch := dtile s.eng.regs.dh
    (withinCap s.caps.maxDcells (cw.length * ch.length) → ∃ t, exec .dgrid s = .next t ∧
      t = { s with eng := { s.eng with
        regs := { s.eng.regs with hcc := cw.length, vcc := ch.length, dcell := t.eng.regs.dcell }
        tr := { s.eng.tr with occ := t.eng.tr.occ }
        phase := phFgrid
        frm := 0 } } ∧
      (∀ q r, q < cw.length → r < ch.length → fileRead zeroCell t.eng.regs.dcell (q + r * cw.length) =
        { w := cw.getD q 0, h := ch.getD r 0, x := 4 * q, y := 4 * r }) ∧
      ∀ k, k < cw.length * ch.length → fileRead none t.eng.tr.occ k = none) ∧
    (∀ m, s.caps.maxDcells = some m → m < cw.length * ch.length → EngRaises .dgrid s .capDcells)

/-- `FGRID` (44_cellgrid.md R209) for a frame inside the direction box: the counts, every cell of frame `FRM` at its place in
the direction box, the other frames' grids as they were, `Capacity(FCELLS)`; the next step is `FGRID` of the next frame, `CY` and
`CX` as they were, or `RCELL` at the first cell of frame 0. -/
def Obligations.FgridBuilds : Prop :=
  ∀ s : State,
    let r := s.eng.regs
    let f := s.eng.frm.toNat
    let ox := ((r.frame f).fl - r.dl).toNat
    let oy := ((r.frame f).ft - r.dt).toNat
    let cw := ftile (r.frame f).fw.toNat ox
    let ch := ftile (r.frame f).fh.toNat oy
    r.dl ≤ (r.frame f).fl → r.dt ≤ (r.frame f).ft → 1 ≤ (r.frame f).fw.toNat → 1 ≤ (r.frame f).fh.toNat →
    (withinCap s.caps.maxFcells (cw.length * ch.length) → ∃ t, exec .fgrid s = .next t ∧
      t = { s with eng := { s.eng with
        regs := { r with fhcc := t.eng.regs.fhcc, fvcc := t.eng.regs.fvcc, fcell := t.eng.regs.fcell }
        phase := t.eng.phase, frm := t.eng.frm, cy := t.eng.cy, cx := t.eng.cx } } ∧
      (∀ k, fileRead 0 t.eng.regs.fhcc k = if k = f then cw.length else fileRead 0 r.fhcc k) ∧
      (∀ k, fileRead 0 t.eng.regs.fvcc k = if k = f then ch.length else fileRead 0 r.fvcc k) ∧
      (∀ k, k ≠ f → fileRead [] t.eng.regs.fcell k = fileRead [] r.fcell k) ∧
      (∀ q c, q < cw.length → c < ch.length → t.eng.regs.cell f (q + c * cw.length) =
        { w := cw.getD q 0, h := ch.getD c 0, x := ox + (cw.take q).sum, y := oy + (ch.take c).sum }) ∧
      WalksFrames s t phRcell ∧
      ((s.eng.frm.toNat : Int) + 1 < s.front.nframes.toInt → t.eng.cy = s.eng.cy ∧ t.eng.cx = s.eng.cx) ∧
      (¬ (s.eng.frm.toNat : Int) + 1 < s.front.nframes.toInt → t.eng.frm = 0 ∧ t.eng.cy = 0 ∧ t.eng.cx = 0)) ∧
    (∀ m, s.caps.maxFcells = some m → m < cw.length * ch.length → EngRaises .fgrid s .capFcells)

/-- Every visit of a frame inside the direction box names a direction cell of the grid, the cell's own corner lies in that
direction cell, the cell's block lies inside the canvas, and two visits of one frame name different direction cells
(44_cellgrid.md R215, 45_reconstructor.md R228, 46_compositor.md R266). -/
def Obligations.VisitsStayInGrid : Prop :=
  ∀ DW DH W H ox oy : Nat, 1 ≤ W → 1 ≤ H → ox + W ≤ DW → oy + H ≤ DH →
    let cw := ftile W ox
    let ch := ftile H oy
    let hcc := (dtile DW).length
    let vcc := (dtile DH).length
    let k (cx cy : Nat) : Nat := ox / 4 + cx + (oy / 4 + cy) * hcc
    (∀ cx cy, cx < cw.length → cy < ch.length →
      k cx cy < hcc * vcc ∧ (ox + (cw.take cx).sum) / 4 = ox / 4 + cx ∧ (oy + (ch.take cy).sum) / 4 = oy / 4 + cy ∧
      ox + (cw.take cx).sum + cw.getD cx 0 ≤ DW ∧ oy + (ch.take cy).sum + ch.getD cy 0 ≤ DH) ∧
    ∀ cx cy cx' cy', cx < cw.length → cy < ch.length → cx' < cw.length → cy' < ch.length → k cx cy = k cx' cy' →
      cx = cx' ∧ cy = cy'

/-! ### Reconstructor -/

/-- `RCELL`, reuse (45_reconstructor.md R229, R230): an occupied direction cell, an active equal-cells sub-bitstream and a set
bit: `EC` moves by one bit, no entry is allocated, the other cursors, the occupants and the entries stay; the next visit
follows. -/
def Obligations.RcellReuses : Prop :=
  ∀ (s : State) (i : Nat), fileRead none s.eng.tr.occ s.visitK = some i → s.eng.regs.ecsize ≠ 0 →
    s.eng.tr.ec.pos + 1 ≤ s.lenBits → s.bitsAt s.eng.tr.ec.pos 1 = 1 →
    ∃ t, exec .rcell s = .next t ∧ EngOnly s t ∧ t.eng.regs = s.eng.regs ∧ t.eng.free = s.eng.free ∧
      t.eng.dir = s.eng.dir ∧
      t.eng.tr = { s.eng.tr with
        ec := { pos := s.eng.tr.ec.pos + 1, cons := s.eng.tr.ec.cons + 1 }
        work := { s.eng.tr.work with k := s.visitK, eq := 1 } } ∧
      Walks s t phPxlat

/-- `RCELL`, a fresh cell (45_reconstructor.md R227, R229, R231 to R239): the mask, the encoding type, the accepted values and
where their reads end, all inside the buffer, and room for the entry: one entry is appended, tagged with the visit, its
quad assembled from the accepted values and the previous occupant; it becomes the occupant; each cursor has moved by what it
was read; the next visit follows. Of the entry's `T` nothing is said (log 6). -/
def Obligations.RcellDecodes : Prop :=
  ∀ (s : State) (prev : Option Nat) (m : BitVec 4) (ecn pmn etn : Nat) (raw : Bool) (acc : List Nat) (q : Nat),
    fileRead none s.eng.tr.occ s.visitK = prev → MaskRead s prev m ecn pmn → TypeRead s m raw etn →
    ValuesAt s raw (popc m) 0 (if raw then s.eng.tr.rp.pos else s.eng.tr.main.pos) acc q →
    s.caps.maxPbe ≠ some s.eng.tr.pbe.length →
    ∃ t x, exec .rcell s = .next t ∧ EngOnly s t ∧ t.eng.regs = s.eng.regs ∧ t.eng.dir = s.eng.dir ∧
      t.eng.tr.pbe = s.eng.tr.pbe ++ [x] ∧ x.frame = s.eng.frm ∧ x.fci = s.visitC ∧
      (∀ i, i < 4 → (x.q.slot i).toNat = slotRule m acc (oldQuad s prev) i) ∧
      (∀ k, fileRead none t.eng.tr.occ k =
        if k = s.visitK then some s.eng.tr.pbe.length else fileRead none s.eng.tr.occ k) ∧
      t.eng.tr.ec = { pos := s.eng.tr.ec.pos + ecn, cons := s.eng.tr.ec.cons + ecn } ∧
      t.eng.tr.pm = { pos := s.eng.tr.pm.pos + pmn, cons := s.eng.tr.pm.cons + pmn } ∧
      t.eng.tr.et = { pos := s.eng.tr.et.pos + etn, cons := s.eng.tr.et.cons + etn } ∧
      t.eng.tr.rp = (if raw then { pos := q, cons := s.eng.tr.rp.cons + (q - s.eng.tr.rp.pos) } else s.eng.tr.rp) ∧
      t.eng.tr.main = (if raw then s.eng.tr.main else
        { pos := q, cons := s.eng.tr.main.cons + (q - s.eng.tr.main.pos) }) ∧
      t.eng.tr.pbidx = s.eng.tr.pbidx ∧ t.eng.tr.last = s.eng.tr.last ∧ t.eng.tr.canvas = s.eng.tr.canvas ∧
      t.eng.tr.work.mask = m ∧ t.eng.tr.work.vals.map BitVec.toNat = acc ∧ Walks s t phPxlat

/-- `RCELL`, errors: each of its reads past the end of the buffer raises `OUT_OF_RANGE` (45_reconstructor.md R227): the
equal-cells bit; the mask, with no equal-cells bit to read or after one that is 0; the encoding-type bit, after the mask of an
occupied cell or with no occupant; and the values, raw bytes and every nibble of every delta chain, whenever the buffer does not
hold the reads up to the last one. Reads that the buffer holds, and no room for the entry: `Capacity(PBE)` (R227, R242). -/
def Obligations.RcellRaises : Prop :=
  ∀ s : State,
    (∀ i, fileRead none s.eng.tr.occ s.visitK = some i → s.eng.regs.ecsize ≠ 0 → s.lenBits < s.eng.tr.ec.pos + 1 →
      EngRaises .rcell s .outOfRange) ∧
    (∀ i, fileRead none s.eng.tr.occ s.visitK = some i →
      s.eng.regs.ecsize = 0 ∨ (s.eng.tr.ec.pos + 1 ≤ s.lenBits ∧ s.bitsAt s.eng.tr.ec.pos 1 = 0) →
      s.lenBits < s.eng.tr.pm.pos + 4 → EngRaises .rcell s .outOfRange) ∧
    ∀ prev m ecn pmn, fileRead none s.eng.tr.occ s.visitK = prev → MaskRead s prev m ecn pmn →
      (m ≠ 0 → s.eng.regs.etsize ≠ 0 → s.lenBits < s.eng.tr.et.pos + 1 → EngRaises .rcell s .outOfRange) ∧
      ∀ raw etn, TypeRead s m raw etn →
        let start := if raw then s.eng.tr.rp.pos else s.eng.tr.main.pos
        ((¬ ∃ acc q, ValuesAt s raw (popc m) 0 start acc q) → EngRaises .rcell s .outOfRange) ∧
        ∀ acc q, ValuesAt s raw (popc m) 0 start acc q → s.caps.maxPbe = some s.eng.tr.pbe.length →
          EngRaises .rcell s .capPbe

/-- `PXLAT` (45_reconstructor.md R240): every slot of every entry through `PAL` into `T`; `Q` and the tags are kept; the next
step is `ICHK`; nothing else changes. -/
def Obligations.PxlatTranslates : Prop :=
  ∀ s : State, ∃ t, exec .pxlat s = .next t ∧
    t = { s with eng.tr.pbe := t.eng.tr.pbe, eng.phase := phIchk } ∧ t.eng.tr.pbe.length = s.eng.tr.pbe.length ∧
    ∀ (e : Nat) (x : Entry), s.eng.tr.pbe[e]? = some x → ∃ y : Entry, t.eng.tr.pbe[e]? = some y ∧ y.q = x.q ∧ y.frame = x.frame ∧ y.fci = x.fci ∧
      ∀ i, i < 4 → y.t.slot i = fileRead 0 s.eng.regs.pal (x.q.slot i).toNat

/-- `ICHK` (45_reconstructor.md R243): the four counts against the four sizes in the order `EC`, `PM`, `ET`, `RP`, the first
mismatch raised; all equal, the compositor is prepared: no entry consumed, no last occurrence of the grid valid, every byte of
the canvas 0; the next step is `CCELL` at the first cell of frame 0. -/
def Obligations.IchkChecks : Prop :=
  ∀ s : State,
    let e := s.eng.tr.ec.cons = s.eng.regs.ecsize.toNat
    let p := s.eng.tr.pm.cons = s.eng.regs.pmsize.toNat
    let y := s.eng.tr.et.cons = s.eng.regs.etsize.toNat
    let r := s.eng.tr.rp.cons = s.eng.regs.rpsize.toNat
    (¬ e → EngRaises .ichk s .equalCells) ∧ (e → ¬ p → EngRaises .ichk s .pixelMask) ∧
    (e → p → ¬ y → EngRaises .ichk s .encodingType) ∧ (e → p → y → ¬ r → EngRaises .ichk s .rawPixelCodes) ∧
    (e → p → y → r → ∃ t, exec .ichk s = .next t ∧
      t = { s with eng := { s.eng with
        tr := { s.eng.tr with pbidx := 0, last := t.eng.tr.last, canvas := t.eng.tr.canvas }
        phase := phCcell, frm := 0, cy := 0, cx := 0 } } ∧
      (∀ k, k < s.eng.regs.hcc * s.eng.regs.vcc →
        fileRead zeroLast t.eng.tr.last k = { fileRead zeroLast s.eng.tr.last k with valid := false }) ∧
      ∀ a, t.eng.tr.canvas.read a = 0)

/-! ### Compositor -/

/-- `CCELL`, a fresh cell (46_compositor.md R256, R257, R261 to R263, R265; 30_encoding.md R114): one code per pixel, row by row,
0, 1 or 2 bits wide by the entry's translated quad; pixel `(x, y)` of the block takes the slot its code selects, in the canvas
and in the frame's output array; the entry is consumed; no other byte changes but that the array is zeroed at the frame's first
cell. A code past the end of the buffer raises `OUT_OF_RANGE`. -/
def Obligations.CcellPaints : Prop :=
  ∀ (s : State) (x : Entry), PixelMemOk s → s.isFresh → s.eng.tr.pbe[s.eng.tr.pbidx]? = some x →
    let g := s.visitCell
    let nb := if x.t.s0 = x.t.s1 then 0 else if x.t.s1 = x.t.s2 then 1 else 2
    let p := s.eng.tr.main.pos
    (g.x + g.w ≤ s.eng.regs.dw → nb * (g.w * g.h) = 0 ∨ p + nb * (g.w * g.h) ≤ s.lenBits →
      ∃ t, exec .ccell s = .next t ∧ CcellFrame s t g ∧
      (∀ px py, px < g.w → py < g.h →
        t.eng.tr.canvas.read (blockAddr s.eng.regs.dw g px py) = x.t.slot (s.bitsAt (p + nb * (px + py * g.w)) nb) ∧
        (t.eng.regs.outArr s.eng.frm.toNat).read (blockAddr s.eng.regs.dw g px py) =
          x.t.slot (s.bitsAt (p + nb * (px + py * g.w)) nb)) ∧
      t.eng.tr.main = { pos := p + nb * (g.w * g.h), cons := s.eng.tr.main.cons + nb * (g.w * g.h) } ∧
      t.eng.tr.pbidx = s.eng.tr.pbidx + 1) ∧
    (1 ≤ nb * (g.w * g.h) → s.lenBits < p + nb * (g.w * g.h) → EngRaises .ccell s .outOfRange)

/-- `CCELL`, a back-reference (46_compositor.md R256, R258 to R260, R263): where the last occurrence's size differs the block of
the canvas is cleared and the output array does not take it; where it is equal each pixel of the block takes the live canvas's
source pixel, in ascending row-major order, so that a source pixel already overwritten is read as overwritten, and the block
is copied to the output array. `MAIN` does not move and no entry is consumed. -/
def Obligations.CcellRefersBack : Prop :=
  ∀ s : State, PixelMemOk s → ¬ s.isFresh →
    let g := s.visitCell
    let l := fileRead zeroLast s.eng.tr.last s.visitK
    let dw := s.eng.regs.dw
    g.x + g.w ≤ dw →
    (l.w ≠ g.w ∨ l.h ≠ g.h → ∃ t, exec .ccell s = .next t ∧ CcellFrame s t g ∧ t.eng.tr.main = s.eng.tr.main ∧
      t.eng.tr.pbidx = s.eng.tr.pbidx ∧
      ∀ x y, x < g.w → y < g.h →
        t.eng.tr.canvas.read (blockAddr dw g x y) = 0 ∧
        (t.eng.regs.outArr s.eng.frm.toNat).read (blockAddr dw g x y) =
          if s.visitC = 0 then 0 else (s.eng.regs.outArr s.eng.frm.toNat).read (blockAddr dw g x y)) ∧
    (l.w = g.w → l.h = g.h → l.x + l.w ≤ dw → ∃ t, exec .ccell s = .next t ∧ CcellFrame s t g ∧
      t.eng.tr.main = s.eng.tr.main ∧ t.eng.tr.pbidx = s.eng.tr.pbidx ∧
      ∀ x y, x < g.w → y < g.h →
        let a := blockAddr dw g x y
        let b := (l.x + x) + (l.y + y) * dw
        let done := (∃ x' y', x' < g.w ∧ y' < g.h ∧ b = blockAddr dw g x' y') ∧ b < a
        (done → t.eng.tr.canvas.read a = t.eng.tr.canvas.read b) ∧
        (¬ done → t.eng.tr.canvas.read a = s.eng.tr.canvas.read b) ∧
        (t.eng.regs.outArr s.eng.frm.toNat).read a = t.eng.tr.canvas.read a)

/-- `DFIN` (46_compositor.md R268, 10_state.md R47, R50): the direction's registers and output arrays become entry `DIR` of the
result store, the other directions' entries stay; the engine stops, or takes the next direction (the store and the one engine
are the model's: log 12, 26). Of the discarded state nothing is said (log 7). -/
def Obligations.DfinFinishes : Prop :=
  ∀ s : State, ∃ t, exec .dfin s = .next t ∧ { t with eng := s.eng, result := s.result } = s ∧
    (∀ d, fileRead resetRegs t.result d = if d = s.eng.dir.toNat then s.eng.regs else fileRead resetRegs s.result d) ∧
    t.eng.regs = s.eng.regs ∧
    (s.eng.dir.toNat + 1 < s.front.ndir.toNat → t.eng.phase = phDseek ∧ t.eng.dir.toNat = s.eng.dir.toNat + 1) ∧
    (s.front.ndir.toNat ≤ s.eng.dir.toNat + 1 → t.eng.phase = phIdle)

/-! ### In-stream formats and codes as instructions (log 18) -/

/-- The container's formats and codes: `FMT.CONT`, `FMT.OFFT`, `SIG`, `SENTINEL` (30_encoding.md R91 to R95). `CCUR` moves by the
length, the port is free again, the registers take the fields. (As instructions of their own: log 1, 18.) -/
def Obligations.ContainerCodes : Prop :=
  ∀ (s : State) (ver nd : BitVec 8) (nf ts : BitVec 32) (offs : List (BitVec 32)),
    let cur (n : Nat) : Cursor := { pos := s.front.ccur.pos + n, cons := s.front.ccur.cons + n }
    exec (.fmtCont ver nd nf ts) s = .next { s with
      port := none
      front := { s.front with
        ccur := cur 120, signature := 0x74, version := ver, ndir := nd, nframes := nf, sentinel := 1, totalsize := ts } } ∧
    (∃ t, exec (.fmtOfft offs) s = .next t ∧
      t = { s with port := none, front := { s.front with ccur := cur (32 * offs.length), diroff := t.front.diroff } } ∧
      ∀ d, fileRead 0 t.front.diroff d = if d < offs.length then offs.getD d 0 else fileRead 0 s.front.diroff d) ∧
    exec .sig s = .next { s with port := none, front := { s.front with ccur := cur 8, signature := 0x74 } } ∧
    exec .sentinel s = .next { s with port := none, front := { s.front with ccur := cur 32, sentinel := 1 } }

/-- The header's formats and codes: `FMT.DHDR`, `WIDX`, `FMT.DTAIL.SIZES`, `FMT.DTAIL.PALV` (30_encoding.md R96, R99, R100, R104).
(As instructions of their own: log 1, 18.) -/
def Obligations.HeaderCodes : Prop :=
  ∀ (s : State) (f : DhdrFields) (k : Fin 7) (i : BitVec 4) (ec : Option (BitVec 20)) (pm : BitVec 20)
    (et : Option (BitVec 20 × BitVec 20)) (valid : BitVec 256),
    let e := s.eng
    let cur (n : Nat) : Transient := { e.tr with main := { pos := e.tr.main.pos + n, cons := e.tr.main.cons + n } }
    let set := (List.range 256).filter fun j => valid.getLsbD j
    exec (.fmtDhdr f) s = .next { s with port := none, eng := { e with tr := cur 62, regs := { e.regs with
      outsize := f.outsize, cflags := f.cflags,
      wb := { v0 := wlut f.v0idx, w := wlut f.widx, h := wlut f.hidx, x := wlut f.xidx, y := wlut f.yidx,
              o := wlut f.oidx, c := wlut f.cidx } } } } ∧
    (∃ t, exec (.widx k i) s = .next t ∧
      t = { s with port := none, eng := { e with tr := cur 4, regs := { e.regs with wb := t.eng.regs.wb } } } ∧
      ∀ j, widthAt t.eng.regs.wb j = if j = k then wlut i else widthAt e.regs.wb j) ∧
    exec (.fmtSizes ec pm et) s = .next { s with port := none, eng := { e with
      tr := cur ((if ec.isSome then 20 else 0) + 20 + (if et.isSome then 40 else 0))
      regs := { e.regs with ecsize := ec.getD 0, pmsize := pm, etsize := (et.getD (0, 0)).1, rpsize := (et.getD (0, 0)).2 } } } ∧
    exec (.fmtPalv valid) s = .next { s with port := none, eng := { e with tr := cur 256, regs := { e.regs with
      pal := set.map (fun j => BitVec.ofNat 8 j) ++ List.replicate (256 - set.length) 0
      palcnt := BitVec.ofNat 9 set.length } } }

/-- `FMT.FHDR` (30_encoding.md R97, R116): the fields into record `FRM`, the other records as they were; a set bottom-up flag or
an empty box is refused as `FGEOM` refuses it. (As an instruction of its own: log 1, 18.) -/
def Obligations.FrameHeaderCode : Prop :=
  ∀ (s : State) (wb : Widths) (f : FhdrFields),
    let n := wb.v0.toNat + wb.w.toNat + wb.h.toNat + wb.x.toNat + wb.y.toNat + wb.o.toNat + wb.c.toNat + 1
    (f.bottomup = 1 → EngRaises (.fmtFhdr wb f) s .bottomUpFlag) ∧
    (f.bottomup = 0 → (f.width = 0 ∨ f.height = 0) → EngRaises (.fmtFhdr wb f) s .emptyBox) ∧
    (f.bottomup = 0 → f.width ≠ 0 → f.height ≠ 0 → ∃ t, exec (.fmtFhdr wb f) s = .next t ∧
      t = { s with port := none, eng := { s.eng with
        tr := { s.eng.tr with main := { pos := s.eng.tr.main.pos + n, cons := s.eng.tr.main.cons + n } }
        regs := { s.eng.regs with fg := t.eng.regs.fg } } } ∧
      ∀ k, t.eng.regs.frame k = if k = s.eng.frm.toNat then
          { s.eng.regs.frame k with fw := f.width, fh := f.height, fx := f.xoffset, fy := f.yoffset,
                                    fnopt := f.noptional, fncoded := f.ncoded, fbu := 0 }
        else s.eng.regs.frame k)

/-- The codes of a cell (30_encoding.md R108 to R112, R117; 45_reconstructor.md R233, R234, R236): each moves its own cursor by its
length and writes its working registers; a value equal to the accumulator is a terminator, any other is accepted and becomes
the accumulator. (As instructions of their own: log 1, 18.) -/
def Obligations.CellCodes : Prop :=
  ∀ (s : State) (e : BitVec 1) (m : BitVec 4) (y : BitVec 1) (v : BitVec 8) (d : BitVec 4),
    let tr := s.eng.tr
    let w := tr.work
    let adv (c : Cursor) (n : Nat) : Cursor := { pos := c.pos + n, cons := c.cons + n }
    let put (x : Transient) : State := { s with port := none, eng := { s.eng with tr := x } }
    let sum (k : Nat) : BitVec 32 := (if w.chain then w.v else w.lastpix) + BitVec.ofNat 32 k
    exec (.ecbit e) s = .next (put { tr with ec := adv tr.ec 1, work := { w with eq := e } }) ∧
    exec (.pmask m) s = .next (put { tr with pm := adv tr.pm 4, work := { w with mask := m, cnt := popc m } }) ∧
    exec (.etbit y) s = .next (put { tr with
      et := adv tr.et 1
      work := { w with etb := y, lastpix := 0, vals := [], v := 0, chain := false, vend := false } }) ∧
    (v.toNat = w.lastpix.toNat →
      exec (.rawval v) s = .next (put { tr with rp := adv tr.rp 8, work := { w with vend := true } })) ∧
    (v.toNat ≠ w.lastpix.toNat → exec (.rawval v) s = .next (put { tr with
      rp := adv tr.rp 8
      work := { w with lastpix := v.setWidth 32, vals := w.vals ++ [v.setWidth 32] } })) ∧
    exec .dnibCont s = .next (put { tr with main := adv tr.main 4, work := { w with v := sum 15, chain := true } }) ∧
    (sum d.toNat = w.lastpix → exec (.dnibEnd d) s = .next (put { tr with
      main := adv tr.main 4
      work := { w with v := sum d.toNat, chain := false, vend := true } })) ∧
    (sum d.toNat ≠ w.lastpix → exec (.dnibEnd d) s = .next (put { tr with
      main := adv tr.main 4
      work := { w with v := sum d.toNat, chain := false, lastpix := sum d.toNat, vals := w.vals ++ [sum d.toNat] } }))

/-- A nibble chain (30_encoding.md R112): `j` nibbles 15 and a nibble `d` below 15 add `15*j + d` to the accumulator, modulo 2^32,
and leave that as the value; `MAIN` has moved by `4*(j + 1)` bits. -/
def Obligations.ChainSums : Prop :=
  ∀ (s : State) (j : Nat) (d : BitVec 4), d ≠ 15 → s.eng.tr.work.chain = false →
    let run := Nat.rec (motive := fun _ => Host.Outcome State Fault Refusal) (.next s)
      (fun _ o => match o with
        | .next u => exec .dnibCont u
        | o => o) j
    ∃ u t, run = .next u ∧ exec (.dnibEnd d) u = .next t ∧
      t.eng.tr.work.v.toNat = (s.eng.tr.work.lastpix.toNat + 15 * j + d.toNat) % 2 ^ 32 ∧ t.eng.tr.work.chain = false ∧
      t.eng.tr.main = { pos := s.eng.tr.main.pos + 4 * (j + 1), cons := s.eng.tr.main.cons + 4 * (j + 1) } ∧
      t.eng.tr.work.vals = (if t.eng.tr.work.v = s.eng.tr.work.lastpix then s.eng.tr.work.vals
        else s.eng.tr.work.vals ++ [t.eng.tr.work.v])

/-- The pixel codes (30_encoding.md R114, 46_compositor.md R261): `PIXCODE1` and `PIXCODE2` paint the current pixel with the slot
the code selects and make the next one current, `PIXCODE0` paints every pixel of the cell with slot 0; no other byte of any
memory changes. (As instructions of their own, and the current pixel: log 1, 18.) -/
def Obligations.PixelCodes : Prop :=
  ∀ (s : State) (c1 : BitVec 1) (c2 : BitVec 2), PixelMemOk s →
    let g := s.visitCell
    let q := (fileRead zeroEntry s.eng.tr.pbe s.eng.tr.pbidx).t
    let w := s.eng.tr.work
    let a := blockAddr s.eng.regs.dw g w.px w.py
    let next : Work := if w.px + 1 < g.w then { w with px := w.px + 1 } else { w with px := 0, py := w.py + 1 }
    let one (i : Instr) (n code : Nat) : Prop := ∃ t, exec i s = .next t ∧
      t = { s with port := none, eng := { s.eng with tr := { s.eng.tr with
        main := { pos := s.eng.tr.main.pos + n, cons := s.eng.tr.main.cons + n }, canvas := t.eng.tr.canvas, work := next } } } ∧
      ∀ b, t.eng.tr.canvas.read b = if b = a then q.slot code else s.eng.tr.canvas.read b
    one (.pixcode1 c1) 1 c1.toNat ∧ one (.pixcode2 c2) 2 c2.toNat ∧
    ∃ t, exec .pixcode0 s = .next t ∧
      t = { s with port := none, eng := { s.eng with tr := { s.eng.tr with canvas := t.eng.tr.canvas } } } ∧
      (∀ x y, x < g.w → y < g.h → t.eng.tr.canvas.read (blockAddr s.eng.regs.dw g x y) = q.s0) ∧
      ∀ b, OutsideBlock s.eng.regs.dw g b → t.eng.tr.canvas.read b = s.eng.tr.canvas.read b
end

