-- ==== Sys2Proof/Laws/Encoding.lean ====
section
/-!
SUPPORT. Bit fields: what a field written by the encoder reads back as, and how long the encoder's bits are.
-/

namespace Sys2Proof

@[simp] theorem fieldBits_length : ∀ (n v : Nat), (fieldBits n v).length = n
  | 0, _ => rfl
  | n + 1, v => by simp [fieldBits, fieldBits_length n]

/-- A field reads back as the value it was written from, as far as its width holds it. -/
theorem bitsValue_fieldBits : ∀ (n v : Nat), bitsValue (fieldBits n v) = v % 2 ^ n
  | 0, v => by simp [fieldBits, bitsValue, Nat.mod_one]
  | n + 1, v => by
    have ih := bitsValue_fieldBits n (v / 2)
    have hb : (v.testBit 0).toNat = v % 2 := by
      rcases Nat.mod_two_eq_zero_or_one v with h | h <;> simp [Nat.testBit_zero, h]
    rw [fieldBits, bitsValue, ih, hb, Nat.pow_succ', Nat.mod_mul]

theorem bitsValue_lt : ∀ (bs : List Bool), bitsValue bs < 2 ^ bs.length
  | [] => by simp [bitsValue]
  | b :: bs => by
    have h := bitsValue_lt bs
    have hb : b.toNat ≤ 1 := Bool.toNat_le _
    rw [bitsValue, List.length_cons, Nat.pow_succ]
    omega

/-- A field taken from a stream that begins with it. -/
theorem takeField_append (n v : Nat) (rest : List Bool) :
    takeField n (fieldBits n v ++ rest) = .ok (v % 2 ^ n, rest) := by
  have h : n ≤ (fieldBits n v ++ rest).length := by simp
  rw [takeField, if_pos h, List.take_left' (by simp), List.drop_left' (by simp), bitsValue_fieldBits]

/-- A field taken from a stream long enough. -/
theorem takeField_ok {n : Nat} {bs : List Bool} (h : n ≤ bs.length) :
    takeField n bs = .ok (bitsValue (bs.take n), bs.drop n) := if_pos h

/-- A field that does not fit. -/
theorem takeField_short {n : Nat} {bs : List Bool} (h : bs.length < n) : takeField n bs = .error .outOfRange :=
  if_neg (by omega)

theorem ofNat_toNat_mod {n : Nat} (v : BitVec n) : BitVec.ofNat n (v.toNat % 2 ^ n) = v := by
  apply BitVec.eq_of_toNat_eq
  simp

theorem decodeCursor_encodeCursor (c : CursorSel) : decodeCursor (encodeCursor c) = .ok c := by
  cases c with
  | eng c => cases c <;> rfl
  | ccur => rfl

theorem decodeWidth_ok {n : BitVec 6} (h : n.toNat ≤ 32) : decodeWidth n = .ok n := if_pos h

theorem sizeBits_length (o : Option (BitVec 20)) : (sizeBits o).length = if o.isSome then 20 else 0 := by
  cases o <;> simp [sizeBits]

theorem sizesFlags_bit1 (ec : Option (BitVec 20)) (et : Option (BitVec 20 × BitVec 20)) :
    (sizesFlags ec et).getLsbD 1 = ec.isSome := by
  cases ec <;> cases et <;> simp [sizesFlags]

theorem sizesFlags_bit0 (ec : Option (BitVec 20)) (et : Option (BitVec 20 × BitVec 20)) :
    (sizesFlags ec et).getLsbD 0 = et.isSome := by
  cases ec <;> cases et <;> simp [sizesFlags]

end Sys2Proof
end

