-- ==== Sys2Proof/Laws/Memory.lean ====
section
/-!
SUPPORT. Byte memories: read after write, every operation keeps the canonical form, equal reads of canonical memories are
equal memories; register files: read after write.
-/

namespace Sys2Proof.Machine

/-! ### Reads and writes -/

@[simp] theorem Mem.read_nil (a : Nat) : Mem.read [] a = 0 := rfl

theorem Mem.above_iff {a : Nat} {m : Mem} : Mem.above a m = true ↔ ∀ c ∈ m, a < c.1 := by
  simp [Mem.above, List.all_eq_true]

theorem Mem.read_of_above {a : Nat} : ∀ {m : Mem}, Mem.above a m = true → m.read a = 0
  | [], _ => rfl
  | (b, w) :: m, h => by
    have hb := (Mem.above_iff.1 h) (b, w) (by simp)
    have hm : Mem.above a m = true := Mem.above_iff.2 fun c hc => (Mem.above_iff.1 h) c (by simp [hc])
    simp only [Mem.read]
    rw [if_neg (by simpa using Nat.ne_of_lt hb)]
    exact Mem.read_of_above hm

theorem Mem.above_trans {a b : Nat} {m : Mem} (hab : a < b) (h : Mem.above b m = true) : Mem.above a m = true :=
  Mem.above_iff.2 fun c hc => Nat.lt_trans hab (Mem.above_iff.1 h c hc)

theorem Mem.wf_cons {a : Nat} {v : Byte} {m : Mem} :
    Mem.wf ((a, v) :: m) = true ↔ v ≠ 0 ∧ Mem.above a m = true ∧ Mem.wf m = true := by
  by_cases h : v = 0#8 <;> simp [Mem.wf, unlisted, h]

/-- A byte read after a write: the written one at its address, every other as before. -/
theorem Mem.read_write : ∀ (m : Mem) (_ : Mem.wf m = true) (a : Nat) (v : Byte) (b : Nat),
    (m.write a v).read b = if b = a then v else m.read b
  | [], _, a, v, b => by
    by_cases hv : v = 0#8 <;> by_cases hb : b = a <;> simp [Mem.write, Mem.read, unlisted, hv, hb]
  | (c, w) :: m, h, a, v, b => by
    obtain ⟨hw, hc, hm⟩ := Mem.wf_cons.1 h
    have ih := Mem.read_write m hm a v b
    have hz : Mem.read m c = 0 := Mem.read_of_above hc
    simp only [Mem.write, unlisted]
    by_cases h1 : a < c
    · have hne : a ≠ c := Nat.ne_of_lt h1
      have hza : Mem.read m a = 0 := Mem.read_of_above (Mem.above_trans h1 hc)
      by_cases hv : v = 0#8 <;> by_cases hb : b = a <;>
        simp [h1, hv, hb, Mem.read, hne, hza]
    · by_cases h2 : a = c
      · subst h2
        by_cases hv : v = 0#8 <;> by_cases hb : b = a <;> simp [hv, hb, Mem.read, hz]
      · by_cases hb : b = c
        · subst hb
          simp [h1, h2, Mem.read, Ne.symm h2]
        · simp [h1, h2, Mem.read, hb, ih]

theorem Mem.above_write {a x : Nat} {v : Byte} : ∀ {m : Mem}, Mem.above a m = true → a < x →
    Mem.above a (m.write x v) = true
  | [], _, hx => by by_cases hv : v = 0#8 <;> simp [Mem.write, unlisted, hv, Mem.above, hx]
  | (c, w) :: m, h, hx => by
    have hc := Mem.above_iff.1 h (c, w) (by simp)
    have hm : Mem.above a m = true := Mem.above_iff.2 fun d hd => Mem.above_iff.1 h d (by simp [hd])
    have ih := Mem.above_write (v := v) hm hx
    simp only [Mem.write, unlisted]
    apply Mem.above_iff.2
    intro d hd
    by_cases h1 : x < c
    · by_cases hv : v = 0
      · simp only [h1, hv, if_true] at hd
        exact Mem.above_iff.1 h d hd
      · simp only [h1, hv, if_true, if_false, List.mem_cons] at hd
        rcases hd with rfl | rfl | hd
        · exact hx
        · exact hc
        · exact Mem.above_iff.1 hm d hd
    · by_cases h2 : x = c
      · by_cases hv : v = 0
        · simp only [h2, hv, if_true, if_false, Nat.lt_irrefl] at hd
          exact Mem.above_iff.1 hm d hd
        · simp only [h2, hv, if_true, if_false, Nat.lt_irrefl, List.mem_cons] at hd
          rcases hd with rfl | hd
          · exact hc
          · exact Mem.above_iff.1 hm d hd
      · simp only [h1, h2, if_false, List.mem_cons] at hd
        rcases hd with rfl | hd
        · exact hc
        · exact Mem.above_iff.1 ih d hd

/-- A write keeps the canonical form. -/
theorem Mem.wf_write : ∀ {m : Mem} (a : Nat) (v : Byte), Mem.wf m = true → Mem.wf (m.write a v) = true
  | [], a, v, _ => by by_cases hv : v = 0#8 <;> simp [Mem.write, unlisted, hv, Mem.wf, Mem.above]
  | (c, w) :: m, a, v, h => by
    obtain ⟨hw, hc, hm⟩ := Mem.wf_cons.1 h
    have ih := Mem.wf_write a v hm
    simp only [Mem.write, unlisted]
    by_cases h1 : a < c
    · by_cases hv : v = 0
      · simpa [h1, hv] using h
      · simp only [h1, hv, if_true, if_false]
        refine Mem.wf_cons.2 ⟨hv, ?_, h⟩
        apply Mem.above_iff.2
        intro d hd
        rcases List.mem_cons.1 hd with rfl | hd
        · exact h1
        · exact Nat.lt_trans h1 (Mem.above_iff.1 hc d hd)
    · by_cases h2 : a = c
      · by_cases hv : v = 0
        · simpa [h1, h2, hv] using hm
        · simp only [h2, hv, if_true, if_false, Nat.lt_irrefl]
          exact Mem.wf_cons.2 ⟨hv, hc, hm⟩
      · simp only [h1, h2, if_false]
        exact Mem.wf_cons.2 ⟨hw, Mem.above_write hc (by omega), ih⟩

/-- Two canonical memories that read alike everywhere are equal data. -/
theorem Mem.ext : ∀ {m n : Mem}, Mem.wf m = true → Mem.wf n = true → (∀ a, m.read a = n.read a) → m = n
  | [], [], _, _, _ => rfl
  | [], (b, w) :: n, _, hn, h => by
    have := h b
    simp [Mem.read] at this
    exact absurd this.symm (Mem.wf_cons.1 hn).1
  | (a, v) :: m, [], hm, _, h => by
    have := h a
    simp [Mem.read] at this
    exact absurd this (Mem.wf_cons.1 hm).1
  | (a, v) :: m, (b, w) :: n, hm, hn, h => by
    obtain ⟨hv, ha, hm'⟩ := Mem.wf_cons.1 hm
    obtain ⟨hw, hb, hn'⟩ := Mem.wf_cons.1 hn
    have hab : a = b := by
      rcases Nat.lt_trichotomy a b with hlt | heq | hlt
      · have := h a
        simp [Mem.read, Nat.ne_of_lt hlt, Mem.read_of_above (Mem.above_trans hlt hb)] at this
        exact absurd this hv
      · exact heq
      · have := h b
        simp [Mem.read, Nat.ne_of_lt hlt, Mem.read_of_above (Mem.above_trans hlt ha)] at this
        exact absurd this.symm hw
    subst hab
    have hvw : v = w := by simpa [Mem.read] using h a
    have hmn : m = n := Mem.ext hm' hn' fun c => by
      by_cases hc : c = a
      · subst hc; rw [Mem.read_of_above ha, Mem.read_of_above hb]
      · simpa [Mem.read, hc] using h c
    rw [hvw, hmn]

/-! ### Folds of writes -/

theorem Mem.wf_foldl {β : Type} (f : Mem → β → Nat) (g : Mem → β → Byte) : ∀ (l : List β) (m : Mem), Mem.wf m = true →
    Mem.wf (l.foldl (fun m p => m.write (f m p) (g m p)) m) = true
  | [], _, h => h
  | _ :: l, _, h => Mem.wf_foldl f g l _ (Mem.wf_write _ _ h)

theorem Mem.wf_ofCells (cs : List Host.Cell) : Mem.wf (Mem.ofCells cs) = true :=
  Mem.wf_foldl _ _ cs [] rfl

theorem clearBlock_wf {dw x0 y0 : Nat} {ps : List (Nat × Nat)} {m : Mem} (h : Mem.wf m = true) :
    Mem.wf (clearBlock dw x0 y0 ps m) = true :=
  Mem.wf_foldl _ _ ps m h

theorem copyBlock_wf {dw sx sy x0 y0 : Nat} {ps : List (Nat × Nat)} {m : Mem} (h : Mem.wf m = true) :
    Mem.wf (copyBlock dw sx sy x0 y0 ps m) = true :=
  Mem.wf_foldl _ _ ps m h

theorem emitBlock_wf {dw x0 y0 : Nat} {ps : List (Nat × Nat)} {c m : Mem} (h : Mem.wf m = true) :
    Mem.wf (emitBlock dw x0 y0 ps c m) = true :=
  Mem.wf_foldl _ _ ps m h

theorem storeBytes_wf : ∀ (n w a : Nat) (m : Mem), Mem.wf m = true → Mem.wf (storeBytes w a n m) = true
  | 0, _, _, _, h => h
  | n + 1, w, a, _, h => storeBytes_wf n (w / 256) (a + 1) _ (Mem.wf_write _ _ h)

/-- What a fold of writes with fixed values leaves: an address no write names reads as before. -/
theorem Mem.read_foldl_other {β : Type} (f : β → Nat) (g : Mem → β → Byte) (b : Nat) : ∀ (l : List β) (m : Mem),
    Mem.wf m = true → (∀ p ∈ l, f p ≠ b) →
    (l.foldl (fun m p => m.write (f p) (g m p)) m).read b = m.read b
  | [], _, _, _ => rfl
  | p :: l, m, hm, h => by
    rw [List.foldl_cons, Mem.read_foldl_other f g b l _ (Mem.wf_write _ _ hm) fun q hq => h q (by simp [hq])]
    rw [Mem.read_write m hm, if_neg (Ne.symm (h p (by simp)))]

theorem clearBlock_other {dw x0 y0 b : Nat} {ps : List (Nat × Nat)} {m : Mem} (hm : Mem.wf m = true)
    (h : ∀ p ∈ ps, pixAddr dw (x0 + p.1) (y0 + p.2) ≠ b) : (clearBlock dw x0 y0 ps m).read b = m.read b :=
  Mem.read_foldl_other _ _ b ps m hm h

theorem copyBlock_other {dw sx sy x0 y0 b : Nat} {ps : List (Nat × Nat)} {m : Mem} (hm : Mem.wf m = true)
    (h : ∀ p ∈ ps, pixAddr dw (x0 + p.1) (y0 + p.2) ≠ b) : (copyBlock dw sx sy x0 y0 ps m).read b = m.read b :=
  Mem.read_foldl_other _ _ b ps m hm h

theorem emitBlock_other {dw x0 y0 b : Nat} {ps : List (Nat × Nat)} {c m : Mem} (hm : Mem.wf m = true)
    (h : ∀ p ∈ ps, pixAddr dw (x0 + p.1) (y0 + p.2) ≠ b) : (emitBlock dw x0 y0 ps c m).read b = m.read b :=
  Mem.read_foldl_other _ _ b ps m hm h

/-- A block emitted from a canvas reads there as the canvas does. -/
theorem emitBlock_read {dw x0 y0 : Nat} {c : Mem} : ∀ (ps : List (Nat × Nat)) (m : Mem), Mem.wf m = true →
    ∀ b, (emitBlock dw x0 y0 ps c m).read b =
      if b ∈ ps.map (fun p => pixAddr dw (x0 + p.1) (y0 + p.2)) then c.read b else m.read b
  | [], _, _, _ => by simp [emitBlock]
  | p :: ps, m, hm, b => by
    have ih := emitBlock_read (dw := dw) (x0 := x0) (y0 := y0) (c := c) ps _
      (Mem.wf_write (pixAddr dw (x0 + p.1) (y0 + p.2)) (c.read (pixAddr dw (x0 + p.1) (y0 + p.2))) hm) b
    simp only [emitBlock, List.foldl_cons, List.map_cons, List.mem_cons] at ih ⊢
    rw [ih, Mem.read_write m hm]
    by_cases h1 : b = pixAddr dw (x0 + p.1) (y0 + p.2) <;> simp only [h1, true_or, false_or, if_true, if_false, ite_self]

/-- A cleared block reads 0. -/
theorem clearBlock_read {dw x0 y0 : Nat} : ∀ (ps : List (Nat × Nat)) (m : Mem), Mem.wf m = true →
    ∀ b, (clearBlock dw x0 y0 ps m).read b =
      if b ∈ ps.map (fun p => pixAddr dw (x0 + p.1) (y0 + p.2)) then 0 else m.read b
  | [], _, _, _ => by simp [clearBlock]
  | p :: ps, m, hm, b => by
    have ih := clearBlock_read (dw := dw) (x0 := x0) (y0 := y0) ps _
      (Mem.wf_write (pixAddr dw (x0 + p.1) (y0 + p.2)) 0 hm) b
    simp only [clearBlock, List.foldl_cons, List.map_cons, List.mem_cons] at ih ⊢
    rw [ih, Mem.read_write m hm]
    by_cases h1 : b = pixAddr dw (x0 + p.1) (y0 + p.2) <;> simp only [h1, true_or, false_or, if_true, if_false, ite_self]

/-! ### The pixels of a block -/

theorem mem_blockPixels {w h : Nat} {p : Nat × Nat} : p ∈ blockPixels w h ↔ p.1 < w ∧ p.2 < h := by
  obtain ⟨x, y⟩ := p
  simp only [blockPixels, List.mem_flatMap, List.mem_range, List.mem_map, Prod.mk.injEq]
  constructor
  · rintro ⟨y', hy, x', hx, rfl, rfl⟩; exact ⟨hx, hy⟩
  · rintro ⟨hx, hy⟩; exact ⟨y, hy, x, hx, rfl, rfl⟩

theorem blockPixels_length (w h : Nat) : (blockPixels w h).length = w * h := by
  simp [blockPixels, List.length_flatMap, Nat.mul_comm]

/-- Distinct pixels inside a canvas have distinct addresses. -/
theorem pixAddr_inj {dw x y x' y' : Nat} (hx : x < dw) (hx' : x' < dw) (h : pixAddr dw x y = pixAddr dw x' y') :
    x = x' ∧ y = y' := by
  simp only [pixAddr] at h
  have h1 : (x + y * dw) % dw = (x' + y' * dw) % dw := by rw [h]
  rw [Nat.add_mul_mod_self_right, Nat.add_mul_mod_self_right, Nat.mod_eq_of_lt hx, Nat.mod_eq_of_lt hx'] at h1
  subst h1
  exact ⟨rfl, Nat.eq_of_mul_eq_mul_right (Nat.zero_lt_of_lt hx) (Nat.add_left_cancel h)⟩

/-! ### Register files -/

@[simp] theorem fileRead_nil {α : Type} (d : α) (i : Nat) : fileRead d [] i = d := by simp [fileRead]

theorem fileRead_fileWrite {α : Type} (d : α) : ∀ (l : List α) (i : Nat) (x : α) (j : Nat),
    fileRead d (fileWrite d l i x) j = if j = i then x else fileRead d l j
  | [], 0, x, j => by cases j <;> simp [fileWrite, fileRead]
  | [], i + 1, x, 0 => by simp [fileWrite, fileRead]
  | [], i + 1, x, j + 1 => by
    have := fileRead_fileWrite d [] i x j
    simpa [fileWrite, fileRead] using this
  | y :: l, 0, x, j => by cases j <;> simp [fileWrite, fileRead]
  | y :: l, i + 1, x, 0 => by simp [fileWrite, fileRead]
  | y :: l, i + 1, x, j + 1 => by
    have := fileRead_fileWrite d l i x j
    simpa [fileWrite, fileRead] using this

@[simp] theorem fileRead_fileWrite_self {α : Type} (d : α) (l : List α) (i : Nat) (x : α) :
    fileRead d (fileWrite d l i x) i = x := by simp [fileRead_fileWrite]

/-- What a file holds after a write is the value written, the default, or what it held. -/
theorem mem_fileWrite {α : Type} {d : α} : ∀ {l : List α} {i : Nat} {x y : α}, y ∈ fileWrite d l i x →
    y = x ∨ y = d ∨ y ∈ l
  | [], 0, _, _, h => by simp [fileWrite] at h; exact Or.inl h
  | [], i + 1, _, _, h => by
    rcases List.mem_cons.1 (by simpa [fileWrite] using h) with rfl | h
    · exact Or.inr (Or.inl rfl)
    · exact mem_fileWrite (l := []) h
  | z :: l, 0, _, _, h => by
    rcases List.mem_cons.1 (by simpa [fileWrite] using h) with rfl | h
    · exact Or.inl rfl
    · exact Or.inr (Or.inr (by simp [h]))
  | z :: l, i + 1, _, _, h => by
    rcases List.mem_cons.1 (by simpa [fileWrite] using h) with rfl | h
    · exact Or.inr (Or.inr (by simp))
    · rcases mem_fileWrite h with h | h | h
      · exact Or.inl h
      · exact Or.inr (Or.inl h)
      · exact Or.inr (Or.inr (by simp [h]))

theorem fileWrite_length {α : Type} {d : α} : ∀ {l : List α} {i : Nat} {x : α}, i < l.length →
    (fileWrite d l i x).length = l.length
  | _ :: _, 0, _, _ => by simp [fileWrite]
  | _ :: l, i + 1, x, h => by
    simp only [fileWrite, List.length_cons, Nat.add_right_cancel_iff]
    exact fileWrite_length (by simpa using h)

/-! ### The memories at reset -/

theorem reset_ibuf_wf : Mem.wf State.reset.ibuf.mem = true := rfl

theorem reset_canvas_wf : Mem.wf State.reset.eng.tr.canvas = true := rfl

theorem discarded_canvas_wf (n : Nat) : Mem.wf (discarded n).canvas = true := Mem.wf_ofCells _

end Sys2Proof.Machine
end

