-- ==== Sys2Proof/Laws/PerInstr.lean ====
section
/-!
SUPPORT. The family `EncodingFixed`, proved per instruction: what the encoder writes has the form its format allows. A code
has as many bits as its format says before it is read (30_encoding.md R113); a `BCOP` word has an `op` that is issued (R120);
a command word has a command bit (R122); a `PHASE` code names a step (R123).
-/

namespace Sys2Proof.Laws

set_option Elab.async false

def EncodingFixed.Statement (i : Instr) : Prop :=
  match encode i with
  | .bcop w _ => 1 ≤ (w.extractLsb' 0 3).toNat ∧ (w.extractLsb' 0 3).toNat ≤ 6
  | .cmd c => c ≠ 0
  | .seq p => 1 ≤ p.toNat ∧ p.toNat ≤ 17
  | .code k bits => bits.length = codeLen k

theorem bcopWord_op (op : BitVec 3) (c : CursorSel) (n : BitVec 6) (s : BitVec 3) :
    (bcopWord op c n s).extractLsb' 0 3 = op := by
  apply BitVec.eq_of_getLsbD_eq
  intro i hi
  simp only [bcopWord, BitVec.getLsbD_extractLsb', BitVec.getLsbD_append, Nat.zero_add, hi, decide_true, Bool.true_and,
    if_true]

theorem EncodingFixed.rdbits (cur : CursorSel) (n : BitVec 6) : EncodingFixed.Statement (.rdbits cur n) := by
  simp only [EncodingFixed.Statement, encode, bcopWord_op]; decide

theorem EncodingFixed.rdsbits (cur : CursorSel) (n : BitVec 6) : EncodingFixed.Statement (.rdsbits cur n) := by
  simp only [EncodingFixed.Statement, encode, bcopWord_op]; decide

theorem EncodingFixed.rdbit (cur : CursorSel) : EncodingFixed.Statement (.rdbit cur) := by
  simp only [EncodingFixed.Statement, encode, bcopWord_op]; decide

theorem EncodingFixed.skip (cur : CursorSel) (n20 : BitVec 20) : EncodingFixed.Statement (.skip cur n20) := by
  simp only [EncodingFixed.Statement, encode, bcopWord_op]; decide

theorem EncodingFixed.cons (cur : CursorSel) : EncodingFixed.Statement (.cons cur) := by
  simp only [EncodingFixed.Statement, encode, bcopWord_op]; decide

theorem EncodingFixed.clone (cur : CursorSel) (src : CursorSel) : EncodingFixed.Statement (.clone cur src) := by
  simp only [EncodingFixed.Statement, encode, bcopWord_op]; decide

theorem EncodingFixed.start (c : Bool) : EncodingFixed.Statement (.start c) := by
  cases c <;> simp [EncodingFixed.Statement, encode]

theorem EncodingFixed.clear (st : Bool) : EncodingFixed.Statement (.clear st) := by
  cases st <;> simp [EncodingFixed.Statement, encode]

theorem EncodingFixed.chdr : EncodingFixed.Statement .chdr := by
  simp [EncodingFixed.Statement, encode]

theorem EncodingFixed.dseek : EncodingFixed.Statement .dseek := by
  simp [EncodingFixed.Statement, encode]

theorem EncodingFixed.dhdr : EncodingFixed.Statement .dhdr := by
  simp [EncodingFixed.Statement, encode]

theorem EncodingFixed.fgeom : EncodingFixed.Statement .fgeom := by
  simp [EncodingFixed.Statement, encode]

theorem EncodingFixed.dbox : EncodingFixed.Statement .dbox := by
  simp [EncodingFixed.Statement, encode]

theorem EncodingFixed.optchk : EncodingFixed.Statement .optchk := by
  simp [EncodingFixed.Statement, encode]

theorem EncodingFixed.bsizes : EncodingFixed.Statement .bsizes := by
  simp [EncodingFixed.Statement, encode]

theorem EncodingFixed.palv : EncodingFixed.Statement .palv := by
  simp [EncodingFixed.Statement, encode]

theorem EncodingFixed.slice : EncodingFixed.Statement .slice := by
  simp [EncodingFixed.Statement, encode]

theorem EncodingFixed.dgrid : EncodingFixed.Statement .dgrid := by
  simp [EncodingFixed.Statement, encode]

theorem EncodingFixed.fgrid : EncodingFixed.Statement .fgrid := by
  simp [EncodingFixed.Statement, encode]

theorem EncodingFixed.rcell : EncodingFixed.Statement .rcell := by
  simp [EncodingFixed.Statement, encode]

theorem EncodingFixed.pxlat : EncodingFixed.Statement .pxlat := by
  simp [EncodingFixed.Statement, encode]

theorem EncodingFixed.ichk : EncodingFixed.Statement .ichk := by
  simp [EncodingFixed.Statement, encode]

theorem EncodingFixed.ccell : EncodingFixed.Statement .ccell := by
  simp [EncodingFixed.Statement, encode]

theorem EncodingFixed.dfin : EncodingFixed.Statement .dfin := by
  simp [EncodingFixed.Statement, encode]

theorem EncodingFixed.cfin : EncodingFixed.Statement .cfin := by
  simp [EncodingFixed.Statement, encode]

theorem EncodingFixed.fmtCont (version ndir : BitVec 8) (nframes totalsize : BitVec 32) : EncodingFixed.Statement (.fmtCont version ndir nframes totalsize) := by
  simp [EncodingFixed.Statement, encode, codeLen]

theorem EncodingFixed.fmtOfft (diroff : List (BitVec 32)) : EncodingFixed.Statement (.fmtOfft diroff) := by
  simp only [EncodingFixed.Statement, encode, codeLen]
  induction diroff with
  | nil => rfl
  | cons v vs ih => simp only [List.flatMap_cons, List.length_append, List.length_cons, fieldBits_length, ih]; omega

theorem EncodingFixed.fmtDhdr (f : DhdrFields) : EncodingFixed.Statement (.fmtDhdr f) := by
  simp only [EncodingFixed.Statement, encode, codeLen, dhdrBits, List.length_append, fieldBits_length]

theorem EncodingFixed.fmtFhdr (wb : Widths) (f : FhdrFields) : EncodingFixed.Statement (.fmtFhdr wb f) := by
  simp only [EncodingFixed.Statement, encode, codeLen, fhdrBits, List.length_append, fieldBits_length]

theorem EncodingFixed.fmtSizes (ecsize : Option (BitVec 20)) (pmsize : BitVec 20) (etrp : Option (BitVec 20 × BitVec 20)) : EncodingFixed.Statement (.fmtSizes ecsize pmsize etrp) := by
  simp only [EncodingFixed.Statement, encode, codeLen, sizesFlags_bit1, sizesFlags_bit0, List.length_append,
    sizeBits_length, fieldBits_length, Option.isSome_map]
  split <;> split <;> rfl

theorem EncodingFixed.fmtPalv (valid : BitVec 256) : EncodingFixed.Statement (.fmtPalv valid) := by
  simp [EncodingFixed.Statement, encode, codeLen]

theorem EncodingFixed.sig : EncodingFixed.Statement .sig := by
  simp [EncodingFixed.Statement, encode, codeLen]

theorem EncodingFixed.sentinel : EncodingFixed.Statement .sentinel := by
  simp [EncodingFixed.Statement, encode, codeLen]

theorem EncodingFixed.widx (field : Fin 7) (i : BitVec 4) : EncodingFixed.Statement (.widx field i) := by
  simp [EncodingFixed.Statement, encode, codeLen]

theorem EncodingFixed.ecbit (e : BitVec 1) : EncodingFixed.Statement (.ecbit e) := by
  simp [EncodingFixed.Statement, encode, codeLen]

theorem EncodingFixed.pmask (m : BitVec 4) : EncodingFixed.Statement (.pmask m) := by
  simp [EncodingFixed.Statement, encode, codeLen]

theorem EncodingFixed.etbit (t : BitVec 1) : EncodingFixed.Statement (.etbit t) := by
  simp [EncodingFixed.Statement, encode, codeLen]

theorem EncodingFixed.rawval (v : BitVec 8) : EncodingFixed.Statement (.rawval v) := by
  simp [EncodingFixed.Statement, encode, codeLen]

theorem EncodingFixed.dnibEnd (d : BitVec 4) : EncodingFixed.Statement (.dnibEnd d) := by
  simp [EncodingFixed.Statement, encode, codeLen]

theorem EncodingFixed.dnibCont : EncodingFixed.Statement .dnibCont := by
  simp [EncodingFixed.Statement, encode, codeLen]

theorem EncodingFixed.pixcode0 : EncodingFixed.Statement .pixcode0 := by
  simp [EncodingFixed.Statement, encode, codeLen]

theorem EncodingFixed.pixcode1 (c : BitVec 1) : EncodingFixed.Statement (.pixcode1 c) := by
  simp [EncodingFixed.Statement, encode, codeLen]

theorem EncodingFixed.pixcode2 (c : BitVec 2) : EncodingFixed.Statement (.pixcode2 c) := by
  simp [EncodingFixed.Statement, encode, codeLen]

end Sys2Proof.Laws
end

