-- ==== Sys2Proof/Laws/State.lean ====
section
/-!
SUPPORT. One lemma for each field of each update of the state and of its parts: what the update leaves there.
-/

namespace Sys2Proof.Machine

/-! `State.setCursor` -/

@[simp] theorem State.setCursor_ctrl (s : State) (c : CursorSel) (v : Cursor) :
    (s.setCursor c v).ctrl = s.ctrl := by cases c <;> rfl

@[simp] theorem State.setCursor_status (s : State) (c : CursorSel) (v : Cursor) :
    (s.setCursor c v).status = s.status := by cases c <;> rfl

@[simp] theorem State.setCursor_errkind (s : State) (c : CursorSel) (v : Cursor) :
    (s.setCursor c v).errkind = s.errkind := by cases c <;> rfl

@[simp] theorem State.setCursor_errcause (s : State) (c : CursorSel) (v : Cursor) :
    (s.setCursor c v).errcause = s.errcause := by cases c <;> rfl

@[simp] theorem State.setCursor_errdir (s : State) (c : CursorSel) (v : Cursor) :
    (s.setCursor c v).errdir = s.errdir := by cases c <;> rfl

@[simp] theorem State.setCursor_irqEn (s : State) (c : CursorSel) (v : Cursor) :
    (s.setCursor c v).irqEn = s.irqEn := by cases c <;> rfl

@[simp] theorem State.setCursor_irq (s : State) (c : CursorSel) (v : Cursor) :
    (s.setCursor c v).irq = s.irq := by cases c <;> rfl

@[simp] theorem State.setCursor_ibuf (s : State) (c : CursorSel) (v : Cursor) :
    (s.setCursor c v).ibuf = s.ibuf := by cases c <;> rfl

@[simp] theorem State.setCursor_result (s : State) (c : CursorSel) (v : Cursor) :
    (s.setCursor c v).result = s.result := by cases c <;> rfl

@[simp] theorem State.setCursor_caps (s : State) (c : CursorSel) (v : Cursor) :
    (s.setCursor c v).caps = s.caps := by cases c <;> rfl

@[simp] theorem State.setCursor_inputs (s : State) (c : CursorSel) (v : Cursor) :
    (s.setCursor c v).inputs = s.inputs := by cases c <;> rfl

@[simp] theorem State.setCursor_port (s : State) (c : CursorSel) (v : Cursor) :
    (s.setCursor c v).port = s.port := by cases c <;> rfl

@[simp] theorem State.setCursor_bcOut (s : State) (c : CursorSel) (v : Cursor) :
    (s.setCursor c v).bcOut = s.bcOut := by cases c <;> rfl

@[simp] theorem State.setCursor_hostData (s : State) (c : CursorSel) (v : Cursor) :
    (s.setCursor c v).hostData = s.hostData := by cases c <;> rfl

@[simp] theorem State.setCursor_hostFree (s : State) (c : CursorSel) (v : Cursor) :
    (s.setCursor c v).hostFree = s.hostFree := by cases c <;> rfl

@[simp] theorem State.setCursor_front_eng (s : State) (c : EngCursor) (v : Cursor) :
    (s.setCursor (.eng c) v).front = s.front := rfl

@[simp] theorem State.setCursor_eng_eng (s : State) (c : EngCursor) (v : Cursor) :
    (s.setCursor (.eng c) v).eng = { s.eng with tr := s.eng.tr.setCur c v } := rfl

@[simp] theorem State.setCursor_front_ccur (s : State) (v : Cursor) :
    (s.setCursor .ccur v).front = { s.front with ccur := v } := rfl

@[simp] theorem State.setCursor_eng_ccur (s : State) (v : Cursor) : (s.setCursor .ccur v).eng = s.eng := rfl

/-! `Transient.setCur` -/

@[simp] theorem Transient.setCur_pbe (t : Transient) (c : EngCursor) (v : Cursor) :
    (t.setCur c v).pbe = t.pbe := by cases c <;> rfl

@[simp] theorem Transient.setCur_occ (t : Transient) (c : EngCursor) (v : Cursor) :
    (t.setCur c v).occ = t.occ := by cases c <;> rfl

@[simp] theorem Transient.setCur_pbidx (t : Transient) (c : EngCursor) (v : Cursor) :
    (t.setCur c v).pbidx = t.pbidx := by cases c <;> rfl

@[simp] theorem Transient.setCur_last (t : Transient) (c : EngCursor) (v : Cursor) :
    (t.setCur c v).last = t.last := by cases c <;> rfl

@[simp] theorem Transient.setCur_canvas (t : Transient) (c : EngCursor) (v : Cursor) :
    (t.setCur c v).canvas = t.canvas := by cases c <;> rfl

@[simp] theorem Transient.setCur_work (t : Transient) (c : EngCursor) (v : Cursor) :
    (t.setCur c v).work = t.work := by cases c <;> rfl

/-! `takeError` -/

@[simp] theorem takeError_ctrl (c : Cause) (d : BitVec 9) (s : State) :
    (takeError c d s).ctrl = s.ctrl := rfl

@[simp] theorem takeError_status (c : Cause) (d : BitVec 9) (s : State) :
    (takeError c d s).status = stError := rfl

@[simp] theorem takeError_errkind (c : Cause) (d : BitVec 9) (s : State) :
    (takeError c d s).errkind = c.kind.code := rfl

@[simp] theorem takeError_errcause (c : Cause) (d : BitVec 9) (s : State) :
    (takeError c d s).errcause = c.code := rfl

@[simp] theorem takeError_errdir (c : Cause) (d : BitVec 9) (s : State) :
    (takeError c d s).errdir = d := rfl

@[simp] theorem takeError_irqEn (c : Cause) (d : BitVec 9) (s : State) :
    (takeError c d s).irqEn = s.irqEn := rfl

@[simp] theorem takeError_irq (c : Cause) (d : BitVec 9) (s : State) :
    (takeError c d s).irq = s.irqEn := rfl

@[simp] theorem takeError_ibuf (c : Cause) (d : BitVec 9) (s : State) :
    (takeError c d s).ibuf = s.ibuf := rfl

@[simp] theorem takeError_front (c : Cause) (d : BitVec 9) (s : State) :
    (takeError c d s).front = { s.front with phase := phIdle } := rfl

@[simp] theorem takeError_eng (c : Cause) (d : BitVec 9) (s : State) :
    (takeError c d s).eng = { s.eng with phase := phIdle } := rfl

@[simp] theorem takeError_result (c : Cause) (d : BitVec 9) (s : State) :
    (takeError c d s).result = s.result := rfl

@[simp] theorem takeError_caps (c : Cause) (d : BitVec 9) (s : State) :
    (takeError c d s).caps = s.caps := rfl

@[simp] theorem takeError_inputs (c : Cause) (d : BitVec 9) (s : State) :
    (takeError c d s).inputs = s.inputs := rfl

@[simp] theorem takeError_port (c : Cause) (d : BitVec 9) (s : State) :
    (takeError c d s).port = s.port := rfl

@[simp] theorem takeError_bcOut (c : Cause) (d : BitVec 9) (s : State) :
    (takeError c d s).bcOut = s.bcOut := rfl

@[simp] theorem takeError_hostData (c : Cause) (d : BitVec 9) (s : State) :
    (takeError c d s).hostData = s.hostData := rfl

@[simp] theorem takeError_hostFree (c : Cause) (d : BitVec 9) (s : State) :
    (takeError c d s).hostFree = s.hostFree := rfl

/-! `consumeCode` -/

@[simp] theorem consumeCode_ctrl (c : CursorSel) (n : Nat) (s : State) :
    (consumeCode c n s).ctrl = s.ctrl := by cases c <;> rfl

@[simp] theorem consumeCode_status (c : CursorSel) (n : Nat) (s : State) :
    (consumeCode c n s).status = s.status := by cases c <;> rfl

@[simp] theorem consumeCode_errkind (c : CursorSel) (n : Nat) (s : State) :
    (consumeCode c n s).errkind = s.errkind := by cases c <;> rfl

@[simp] theorem consumeCode_errcause (c : CursorSel) (n : Nat) (s : State) :
    (consumeCode c n s).errcause = s.errcause := by cases c <;> rfl

@[simp] theorem consumeCode_errdir (c : CursorSel) (n : Nat) (s : State) :
    (consumeCode c n s).errdir = s.errdir := by cases c <;> rfl

@[simp] theorem consumeCode_irqEn (c : CursorSel) (n : Nat) (s : State) :
    (consumeCode c n s).irqEn = s.irqEn := by cases c <;> rfl

@[simp] theorem consumeCode_irq (c : CursorSel) (n : Nat) (s : State) :
    (consumeCode c n s).irq = s.irq := by cases c <;> rfl

@[simp] theorem consumeCode_ibuf (c : CursorSel) (n : Nat) (s : State) :
    (consumeCode c n s).ibuf = s.ibuf := by cases c <;> rfl

@[simp] theorem consumeCode_result (c : CursorSel) (n : Nat) (s : State) :
    (consumeCode c n s).result = s.result := by cases c <;> rfl

@[simp] theorem consumeCode_caps (c : CursorSel) (n : Nat) (s : State) :
    (consumeCode c n s).caps = s.caps := by cases c <;> rfl

@[simp] theorem consumeCode_inputs (c : CursorSel) (n : Nat) (s : State) :
    (consumeCode c n s).inputs = s.inputs := by cases c <;> rfl

@[simp] theorem consumeCode_port (c : CursorSel) (n : Nat) (s : State) :
    (consumeCode c n s).port = none := by cases c <;> rfl

@[simp] theorem consumeCode_bcOut (c : CursorSel) (n : Nat) (s : State) :
    (consumeCode c n s).bcOut = s.bcOut := by cases c <;> rfl

@[simp] theorem consumeCode_hostData (c : CursorSel) (n : Nat) (s : State) :
    (consumeCode c n s).hostData = s.hostData := by cases c <;> rfl

@[simp] theorem consumeCode_hostFree (c : CursorSel) (n : Nat) (s : State) :
    (consumeCode c n s).hostFree = s.hostFree := by cases c <;> rfl

@[simp] theorem consumeCode_eng_front (c : EngCursor) (n : Nat) (s : State) :
    (consumeCode (.eng c) n s).front = s.front := rfl

@[simp] theorem consumeCode_eng_eng (c : EngCursor) (n : Nat) (s : State) :
    (consumeCode (.eng c) n s).eng = { s.eng with tr := s.eng.tr.setCur c ((s.eng.tr.cur c).advance n) } := rfl

@[simp] theorem consumeCode_ccur_front (n : Nat) (s : State) :
    (consumeCode .ccur n s).front = { s.front with ccur := s.front.ccur.advance n } := rfl

@[simp] theorem consumeCode_ccur_eng (n : Nat) (s : State) : (consumeCode .ccur n s).eng = s.eng := rfl

/-! `State.updWork` -/

@[simp] theorem State.updWork_ctrl (f : Work → Work) (s : State) :
    (s.updWork f).ctrl = s.ctrl := rfl

@[simp] theorem State.updWork_status (f : Work → Work) (s : State) :
    (s.updWork f).status = s.status := rfl

@[simp] theorem State.updWork_errkind (f : Work → Work) (s : State) :
    (s.updWork f).errkind = s.errkind := rfl

@[simp] theorem State.updWork_errcause (f : Work → Work) (s : State) :
    (s.updWork f).errcause = s.errcause := rfl

@[simp] theorem State.updWork_errdir (f : Work → Work) (s : State) :
    (s.updWork f).errdir = s.errdir := rfl

@[simp] theorem State.updWork_irqEn (f : Work → Work) (s : State) :
    (s.updWork f).irqEn = s.irqEn := rfl

@[simp] theorem State.updWork_irq (f : Work → Work) (s : State) :
    (s.updWork f).irq = s.irq := rfl

@[simp] theorem State.updWork_ibuf (f : Work → Work) (s : State) :
    (s.updWork f).ibuf = s.ibuf := rfl

@[simp] theorem State.updWork_front (f : Work → Work) (s : State) :
    (s.updWork f).front = s.front := rfl

@[simp] theorem State.updWork_eng (f : Work → Work) (s : State) :
    (s.updWork f).eng = { s.eng with tr := { s.eng.tr with work := f s.eng.tr.work } } := rfl

@[simp] theorem State.updWork_result (f : Work → Work) (s : State) :
    (s.updWork f).result = s.result := rfl

@[simp] theorem State.updWork_caps (f : Work → Work) (s : State) :
    (s.updWork f).caps = s.caps := rfl

@[simp] theorem State.updWork_inputs (f : Work → Work) (s : State) :
    (s.updWork f).inputs = s.inputs := rfl

@[simp] theorem State.updWork_port (f : Work → Work) (s : State) :
    (s.updWork f).port = s.port := rfl

@[simp] theorem State.updWork_bcOut (f : Work → Work) (s : State) :
    (s.updWork f).bcOut = s.bcOut := rfl

@[simp] theorem State.updWork_hostData (f : Work → Work) (s : State) :
    (s.updWork f).hostData = s.hostData := rfl

@[simp] theorem State.updWork_hostFree (f : Work → Work) (s : State) :
    (s.updWork f).hostFree = s.hostFree := rfl

/-! `State.updRegs` -/

@[simp] theorem State.updRegs_ctrl (f : DirRegs → DirRegs) (s : State) :
    (s.updRegs f).ctrl = s.ctrl := rfl

@[simp] theorem State.updRegs_status (f : DirRegs → DirRegs) (s : State) :
    (s.updRegs f).status = s.status := rfl

@[simp] theorem State.updRegs_errkind (f : DirRegs → DirRegs) (s : State) :
    (s.updRegs f).errkind = s.errkind := rfl

@[simp] theorem State.updRegs_errcause (f : DirRegs → DirRegs) (s : State) :
    (s.updRegs f).errcause = s.errcause := rfl

@[simp] theorem State.updRegs_errdir (f : DirRegs → DirRegs) (s : State) :
    (s.updRegs f).errdir = s.errdir := rfl

@[simp] theorem State.updRegs_irqEn (f : DirRegs → DirRegs) (s : State) :
    (s.updRegs f).irqEn = s.irqEn := rfl

@[simp] theorem State.updRegs_irq (f : DirRegs → DirRegs) (s : State) :
    (s.updRegs f).irq = s.irq := rfl

@[simp] theorem State.updRegs_ibuf (f : DirRegs → DirRegs) (s : State) :
    (s.updRegs f).ibuf = s.ibuf := rfl

@[simp] theorem State.updRegs_front (f : DirRegs → DirRegs) (s : State) :
    (s.updRegs f).front = s.front := rfl

@[simp] theorem State.updRegs_eng (f : DirRegs → DirRegs) (s : State) :
    (s.updRegs f).eng = { s.eng with regs := f s.eng.regs } := rfl

@[simp] theorem State.updRegs_result (f : DirRegs → DirRegs) (s : State) :
    (s.updRegs f).result = s.result := rfl

@[simp] theorem State.updRegs_caps (f : DirRegs → DirRegs) (s : State) :
    (s.updRegs f).caps = s.caps := rfl

@[simp] theorem State.updRegs_inputs (f : DirRegs → DirRegs) (s : State) :
    (s.updRegs f).inputs = s.inputs := rfl

@[simp] theorem State.updRegs_port (f : DirRegs → DirRegs) (s : State) :
    (s.updRegs f).port = s.port := rfl

@[simp] theorem State.updRegs_bcOut (f : DirRegs → DirRegs) (s : State) :
    (s.updRegs f).bcOut = s.bcOut := rfl

@[simp] theorem State.updRegs_hostData (f : DirRegs → DirRegs) (s : State) :
    (s.updRegs f).hostData = s.hostData := rfl

@[simp] theorem State.updRegs_hostFree (f : DirRegs → DirRegs) (s : State) :
    (s.updRegs f).hostFree = s.hostFree := rfl

/-! `readFree` -/

@[simp] theorem readFree_ctrl (s : State) :
    (readFree s).ctrl = s.ctrl := rfl

@[simp] theorem readFree_status (s : State) :
    (readFree s).status = s.status := rfl

@[simp] theorem readFree_errkind (s : State) :
    (readFree s).errkind = s.errkind := rfl

@[simp] theorem readFree_errcause (s : State) :
    (readFree s).errcause = s.errcause := rfl

@[simp] theorem readFree_errdir (s : State) :
    (readFree s).errdir = s.errdir := rfl

@[simp] theorem readFree_irqEn (s : State) :
    (readFree s).irqEn = s.irqEn := rfl

@[simp] theorem readFree_irq (s : State) :
    (readFree s).irq = s.irq := rfl

@[simp] theorem readFree_ibuf (s : State) :
    (readFree s).ibuf = s.ibuf := rfl

@[simp] theorem readFree_front (s : State) :
    (readFree s).front = s.front := rfl

@[simp] theorem readFree_eng (s : State) :
    (readFree s).eng = s.eng := rfl

@[simp] theorem readFree_result (s : State) :
    (readFree s).result = s.result := rfl

@[simp] theorem readFree_caps (s : State) :
    (readFree s).caps = s.caps := rfl

@[simp] theorem readFree_inputs (s : State) :
    (readFree s).inputs = s.inputs := rfl

@[simp] theorem readFree_port (s : State) :
    (readFree s).port = s.port := rfl

@[simp] theorem readFree_bcOut (s : State) :
    (readFree s).bcOut = s.bcOut := rfl

@[simp] theorem readFree_hostData (s : State) :
    (readFree s).hostData = ((Config.freeRead s.hostFree).toNat : Int) := rfl

@[simp] theorem readFree_hostFree (s : State) :
    (readFree s).hostFree = s.hostFree + 1 := rfl

/-! `readValueIs` -/

@[simp] theorem readValueIs_ctrl (v : Int) (s : State) :
    (readValueIs v s).ctrl = s.ctrl := rfl

@[simp] theorem readValueIs_status (v : Int) (s : State) :
    (readValueIs v s).status = s.status := rfl

@[simp] theorem readValueIs_errkind (v : Int) (s : State) :
    (readValueIs v s).errkind = s.errkind := rfl

@[simp] theorem readValueIs_errcause (v : Int) (s : State) :
    (readValueIs v s).errcause = s.errcause := rfl

@[simp] theorem readValueIs_errdir (v : Int) (s : State) :
    (readValueIs v s).errdir = s.errdir := rfl

@[simp] theorem readValueIs_irqEn (v : Int) (s : State) :
    (readValueIs v s).irqEn = s.irqEn := rfl

@[simp] theorem readValueIs_irq (v : Int) (s : State) :
    (readValueIs v s).irq = s.irq := rfl

@[simp] theorem readValueIs_ibuf (v : Int) (s : State) :
    (readValueIs v s).ibuf = s.ibuf := rfl

@[simp] theorem readValueIs_front (v : Int) (s : State) :
    (readValueIs v s).front = s.front := rfl

@[simp] theorem readValueIs_eng (v : Int) (s : State) :
    (readValueIs v s).eng = s.eng := rfl

@[simp] theorem readValueIs_result (v : Int) (s : State) :
    (readValueIs v s).result = s.result := rfl

@[simp] theorem readValueIs_caps (v : Int) (s : State) :
    (readValueIs v s).caps = s.caps := rfl

@[simp] theorem readValueIs_inputs (v : Int) (s : State) :
    (readValueIs v s).inputs = s.inputs := rfl

@[simp] theorem readValueIs_port (v : Int) (s : State) :
    (readValueIs v s).port = s.port := rfl

@[simp] theorem readValueIs_bcOut (v : Int) (s : State) :
    (readValueIs v s).bcOut = s.bcOut := rfl

@[simp] theorem readValueIs_hostData (v : Int) (s : State) :
    (readValueIs v s).hostData = v := rfl

@[simp] theorem readValueIs_hostFree (v : Int) (s : State) :
    (readValueIs v s).hostFree = s.hostFree := rfl

/-! `Cursor.advance` -/

@[simp] theorem Cursor.advance_pos (c : Cursor) (n : Nat) :
    (c.advance n).pos = c.pos + n := rfl

@[simp] theorem Cursor.advance_cons (c : Cursor) (n : Nat) :
    (c.advance n).cons = c.cons + n := rfl

/-! `Cursor.cloned` -/

@[simp] theorem Cursor.cloned_pos (c : Cursor) :
    (c.cloned).pos = c.pos := rfl

@[simp] theorem Cursor.cloned_cons (c : Cursor) :
    (c.cloned).cons = 0 := rfl

/-! `Work.setEq` -/

@[simp] theorem Work.setEq_k (w : Work) (e : BitVec 1) :
    (w.setEq e).k = w.k := rfl

@[simp] theorem Work.setEq_eq (w : Work) (e : BitVec 1) :
    (w.setEq e).eq = e := rfl

@[simp] theorem Work.setEq_mask (w : Work) (e : BitVec 1) :
    (w.setEq e).mask = w.mask := rfl

@[simp] theorem Work.setEq_cnt (w : Work) (e : BitVec 1) :
    (w.setEq e).cnt = w.cnt := rfl

@[simp] theorem Work.setEq_etb (w : Work) (e : BitVec 1) :
    (w.setEq e).etb = w.etb := rfl

@[simp] theorem Work.setEq_vals (w : Work) (e : BitVec 1) :
    (w.setEq e).vals = w.vals := rfl

@[simp] theorem Work.setEq_lastpix (w : Work) (e : BitVec 1) :
    (w.setEq e).lastpix = w.lastpix := rfl

@[simp] theorem Work.setEq_v (w : Work) (e : BitVec 1) :
    (w.setEq e).v = w.v := rfl

@[simp] theorem Work.setEq_chain (w : Work) (e : BitVec 1) :
    (w.setEq e).chain = w.chain := rfl

@[simp] theorem Work.setEq_vend (w : Work) (e : BitVec 1) :
    (w.setEq e).vend = w.vend := rfl

@[simp] theorem Work.setEq_px (w : Work) (e : BitVec 1) :
    (w.setEq e).px = w.px := rfl

@[simp] theorem Work.setEq_py (w : Work) (e : BitVec 1) :
    (w.setEq e).py = w.py := rfl

/-! `Work.setMask` -/

@[simp] theorem Work.setMask_k (w : Work) (m : BitVec 4) :
    (w.setMask m).k = w.k := rfl

@[simp] theorem Work.setMask_eq (w : Work) (m : BitVec 4) :
    (w.setMask m).eq = w.eq := rfl

@[simp] theorem Work.setMask_mask (w : Work) (m : BitVec 4) :
    (w.setMask m).mask = m := rfl

@[simp] theorem Work.setMask_cnt (w : Work) (m : BitVec 4) :
    (w.setMask m).cnt = popc m := rfl

@[simp] theorem Work.setMask_etb (w : Work) (m : BitVec 4) :
    (w.setMask m).etb = w.etb := rfl

@[simp] theorem Work.setMask_vals (w : Work) (m : BitVec 4) :
    (w.setMask m).vals = w.vals := rfl

@[simp] theorem Work.setMask_lastpix (w : Work) (m : BitVec 4) :
    (w.setMask m).lastpix = w.lastpix := rfl

@[simp] theorem Work.setMask_v (w : Work) (m : BitVec 4) :
    (w.setMask m).v = w.v := rfl

@[simp] theorem Work.setMask_chain (w : Work) (m : BitVec 4) :
    (w.setMask m).chain = w.chain := rfl

@[simp] theorem Work.setMask_vend (w : Work) (m : BitVec 4) :
    (w.setMask m).vend = w.vend := rfl

@[simp] theorem Work.setMask_px (w : Work) (m : BitVec 4) :
    (w.setMask m).px = w.px := rfl

@[simp] theorem Work.setMask_py (w : Work) (m : BitVec 4) :
    (w.setMask m).py = w.py := rfl

/-! `Work.setEtb` -/

@[simp] theorem Work.setEtb_k (w : Work) (t : BitVec 1) :
    (w.setEtb t).k = w.k := rfl

@[simp] theorem Work.setEtb_eq (w : Work) (t : BitVec 1) :
    (w.setEtb t).eq = w.eq := rfl

@[simp] theorem Work.setEtb_mask (w : Work) (t : BitVec 1) :
    (w.setEtb t).mask = w.mask := rfl

@[simp] theorem Work.setEtb_cnt (w : Work) (t : BitVec 1) :
    (w.setEtb t).cnt = w.cnt := rfl

@[simp] theorem Work.setEtb_etb (w : Work) (t : BitVec 1) :
    (w.setEtb t).etb = t := rfl

@[simp] theorem Work.setEtb_vals (w : Work) (t : BitVec 1) :
    (w.setEtb t).vals = [] := rfl

@[simp] theorem Work.setEtb_lastpix (w : Work) (t : BitVec 1) :
    (w.setEtb t).lastpix = 0 := rfl

@[simp] theorem Work.setEtb_v (w : Work) (t : BitVec 1) :
    (w.setEtb t).v = 0 := rfl

@[simp] theorem Work.setEtb_chain (w : Work) (t : BitVec 1) :
    (w.setEtb t).chain = false := rfl

@[simp] theorem Work.setEtb_vend (w : Work) (t : BitVec 1) :
    (w.setEtb t).vend = false := rfl

@[simp] theorem Work.setEtb_px (w : Work) (t : BitVec 1) :
    (w.setEtb t).px = w.px := rfl

@[simp] theorem Work.setEtb_py (w : Work) (t : BitVec 1) :
    (w.setEtb t).py = w.py := rfl

/-! `Work.addNibble` -/

@[simp] theorem Work.addNibble_k (w : Work) (d : BitVec 4) :
    (w.addNibble d).k = w.k := rfl

@[simp] theorem Work.addNibble_eq (w : Work) (d : BitVec 4) :
    (w.addNibble d).eq = w.eq := rfl

@[simp] theorem Work.addNibble_mask (w : Work) (d : BitVec 4) :
    (w.addNibble d).mask = w.mask := rfl

@[simp] theorem Work.addNibble_cnt (w : Work) (d : BitVec 4) :
    (w.addNibble d).cnt = w.cnt := rfl

@[simp] theorem Work.addNibble_etb (w : Work) (d : BitVec 4) :
    (w.addNibble d).etb = w.etb := rfl

@[simp] theorem Work.addNibble_vals (w : Work) (d : BitVec 4) :
    (w.addNibble d).vals = w.vals := rfl

@[simp] theorem Work.addNibble_lastpix (w : Work) (d : BitVec 4) :
    (w.addNibble d).lastpix = w.lastpix := rfl

@[simp] theorem Work.addNibble_v (w : Work) (d : BitVec 4) :
    (w.addNibble d).v = (if w.chain then w.v else w.lastpix) + d.setWidth 32 := rfl

@[simp] theorem Work.addNibble_chain (w : Work) (d : BitVec 4) :
    (w.addNibble d).chain = decide (d = 15) := rfl

@[simp] theorem Work.addNibble_vend (w : Work) (d : BitVec 4) :
    (w.addNibble d).vend = w.vend := rfl

@[simp] theorem Work.addNibble_px (w : Work) (d : BitVec 4) :
    (w.addNibble d).px = w.px := rfl

@[simp] theorem Work.addNibble_py (w : Work) (d : BitVec 4) :
    (w.addNibble d).py = w.py := rfl

/-! `FrameGeom.setBox` -/

@[simp] theorem FrameGeom.setBox_fw (g : FrameGeom) :
    (g.setBox).fw = g.fw := rfl

@[simp] theorem FrameGeom.setBox_fh (g : FrameGeom) :
    (g.setBox).fh = g.fh := rfl

@[simp] theorem FrameGeom.setBox_fx (g : FrameGeom) :
    (g.setBox).fx = g.fx := rfl

@[simp] theorem FrameGeom.setBox_fy (g : FrameGeom) :
    (g.setBox).fy = g.fy := rfl

@[simp] theorem FrameGeom.setBox_fnopt (g : FrameGeom) :
    (g.setBox).fnopt = g.fnopt := rfl

@[simp] theorem FrameGeom.setBox_fncoded (g : FrameGeom) :
    (g.setBox).fncoded = g.fncoded := rfl

@[simp] theorem FrameGeom.setBox_fbu (g : FrameGeom) :
    (g.setBox).fbu = g.fbu := rfl

@[simp] theorem FrameGeom.setBox_fl (g : FrameGeom) :
    (g.setBox).fl = g.fx.toInt := rfl

@[simp] theorem FrameGeom.setBox_ft (g : FrameGeom) :
    (g.setBox).ft = g.fy.toInt - (g.fh.toNat : Int) + 1 := rfl

/-! `FrameGeom.store` -/

@[simp] theorem FrameGeom.store_fw (f : FhdrFields) (g : FrameGeom) :
    (FrameGeom.store f g).fw = f.width := rfl

@[simp] theorem FrameGeom.store_fh (f : FhdrFields) (g : FrameGeom) :
    (FrameGeom.store f g).fh = f.height := rfl

@[simp] theorem FrameGeom.store_fx (f : FhdrFields) (g : FrameGeom) :
    (FrameGeom.store f g).fx = f.xoffset := rfl

@[simp] theorem FrameGeom.store_fy (f : FhdrFields) (g : FrameGeom) :
    (FrameGeom.store f g).fy = f.yoffset := rfl

@[simp] theorem FrameGeom.store_fnopt (f : FhdrFields) (g : FrameGeom) :
    (FrameGeom.store f g).fnopt = f.noptional := rfl

@[simp] theorem FrameGeom.store_fncoded (f : FhdrFields) (g : FrameGeom) :
    (FrameGeom.store f g).fncoded = f.ncoded := rfl

@[simp] theorem FrameGeom.store_fbu (f : FhdrFields) (g : FrameGeom) :
    (FrameGeom.store f g).fbu = f.bottomup := rfl

@[simp] theorem FrameGeom.store_fl (f : FhdrFields) (g : FrameGeom) :
    (FrameGeom.store f g).fl = g.fl := rfl

@[simp] theorem FrameGeom.store_ft (f : FhdrFields) (g : FrameGeom) :
    (FrameGeom.store f g).ft = g.ft := rfl

/-! `DirRegs.updFrame` -/

@[simp] theorem DirRegs.updFrame_outsize (r : DirRegs) (f : Nat) (g : FrameGeom → FrameGeom) :
    (r.updFrame f g).outsize = r.outsize := rfl

@[simp] theorem DirRegs.updFrame_cflags (r : DirRegs) (f : Nat) (g : FrameGeom → FrameGeom) :
    (r.updFrame f g).cflags = r.cflags := rfl

@[simp] theorem DirRegs.updFrame_wb (r : DirRegs) (f : Nat) (g : FrameGeom → FrameGeom) :
    (r.updFrame f g).wb = r.wb := rfl

@[simp] theorem DirRegs.updFrame_ecsize (r : DirRegs) (f : Nat) (g : FrameGeom → FrameGeom) :
    (r.updFrame f g).ecsize = r.ecsize := rfl

@[simp] theorem DirRegs.updFrame_pmsize (r : DirRegs) (f : Nat) (g : FrameGeom → FrameGeom) :
    (r.updFrame f g).pmsize = r.pmsize := rfl

@[simp] theorem DirRegs.updFrame_etsize (r : DirRegs) (f : Nat) (g : FrameGeom → FrameGeom) :
    (r.updFrame f g).etsize = r.etsize := rfl

@[simp] theorem DirRegs.updFrame_rpsize (r : DirRegs) (f : Nat) (g : FrameGeom → FrameGeom) :
    (r.updFrame f g).rpsize = r.rpsize := rfl

@[simp] theorem DirRegs.updFrame_pal (r : DirRegs) (f : Nat) (g : FrameGeom → FrameGeom) :
    (r.updFrame f g).pal = r.pal := rfl

@[simp] theorem DirRegs.updFrame_palcnt (r : DirRegs) (f : Nat) (g : FrameGeom → FrameGeom) :
    (r.updFrame f g).palcnt = r.palcnt := rfl

@[simp] theorem DirRegs.updFrame_fg (r : DirRegs) (f : Nat) (g : FrameGeom → FrameGeom) :
    (r.updFrame f g).fg = fileWrite zeroFrame r.fg f (g (r.frame f)) := rfl

@[simp] theorem DirRegs.updFrame_minl (r : DirRegs) (f : Nat) (g : FrameGeom → FrameGeom) :
    (r.updFrame f g).minl = r.minl := rfl

@[simp] theorem DirRegs.updFrame_mint (r : DirRegs) (f : Nat) (g : FrameGeom → FrameGeom) :
    (r.updFrame f g).mint = r.mint := rfl

@[simp] theorem DirRegs.updFrame_maxr (r : DirRegs) (f : Nat) (g : FrameGeom → FrameGeom) :
    (r.updFrame f g).maxr = r.maxr := rfl

@[simp] theorem DirRegs.updFrame_maxb (r : DirRegs) (f : Nat) (g : FrameGeom → FrameGeom) :
    (r.updFrame f g).maxb = r.maxb := rfl

@[simp] theorem DirRegs.updFrame_dl (r : DirRegs) (f : Nat) (g : FrameGeom → FrameGeom) :
    (r.updFrame f g).dl = r.dl := rfl

@[simp] theorem DirRegs.updFrame_dt (r : DirRegs) (f : Nat) (g : FrameGeom → FrameGeom) :
    (r.updFrame f g).dt = r.dt := rfl

@[simp] theorem DirRegs.updFrame_dw (r : DirRegs) (f : Nat) (g : FrameGeom → FrameGeom) :
    (r.updFrame f g).dw = r.dw := rfl

@[simp] theorem DirRegs.updFrame_dh (r : DirRegs) (f : Nat) (g : FrameGeom → FrameGeom) :
    (r.updFrame f g).dh = r.dh := rfl

@[simp] theorem DirRegs.updFrame_hcc (r : DirRegs) (f : Nat) (g : FrameGeom → FrameGeom) :
    (r.updFrame f g).hcc = r.hcc := rfl

@[simp] theorem DirRegs.updFrame_vcc (r : DirRegs) (f : Nat) (g : FrameGeom → FrameGeom) :
    (r.updFrame f g).vcc = r.vcc := rfl

@[simp] theorem DirRegs.updFrame_dcell (r : DirRegs) (f : Nat) (g : FrameGeom → FrameGeom) :
    (r.updFrame f g).dcell = r.dcell := rfl

@[simp] theorem DirRegs.updFrame_fhcc (r : DirRegs) (f : Nat) (g : FrameGeom → FrameGeom) :
    (r.updFrame f g).fhcc = r.fhcc := rfl

@[simp] theorem DirRegs.updFrame_fvcc (r : DirRegs) (f : Nat) (g : FrameGeom → FrameGeom) :
    (r.updFrame f g).fvcc = r.fvcc := rfl

@[simp] theorem DirRegs.updFrame_fcell (r : DirRegs) (f : Nat) (g : FrameGeom → FrameGeom) :
    (r.updFrame f g).fcell = r.fcell := rfl

@[simp] theorem DirRegs.updFrame_out (r : DirRegs) (f : Nat) (g : FrameGeom → FrameGeom) :
    (r.updFrame f g).out = r.out := rfl

/-! `DirRegs.clearPal` -/

@[simp] theorem DirRegs.clearPal_outsize (r : DirRegs) :
    (r.clearPal).outsize = r.outsize := rfl

@[simp] theorem DirRegs.clearPal_cflags (r : DirRegs) :
    (r.clearPal).cflags = r.cflags := rfl

@[simp] theorem DirRegs.clearPal_wb (r : DirRegs) :
    (r.clearPal).wb = r.wb := rfl

@[simp] theorem DirRegs.clearPal_ecsize (r : DirRegs) :
    (r.clearPal).ecsize = r.ecsize := rfl

@[simp] theorem DirRegs.clearPal_pmsize (r : DirRegs) :
    (r.clearPal).pmsize = r.pmsize := rfl

@[simp] theorem DirRegs.clearPal_etsize (r : DirRegs) :
    (r.clearPal).etsize = r.etsize := rfl

@[simp] theorem DirRegs.clearPal_rpsize (r : DirRegs) :
    (r.clearPal).rpsize = r.rpsize := rfl

@[simp] theorem DirRegs.clearPal_pal (r : DirRegs) :
    (r.clearPal).pal = List.replicate 256 0 := rfl

@[simp] theorem DirRegs.clearPal_palcnt (r : DirRegs) :
    (r.clearPal).palcnt = 0 := rfl

@[simp] theorem DirRegs.clearPal_fg (r : DirRegs) :
    (r.clearPal).fg = r.fg := rfl

@[simp] theorem DirRegs.clearPal_minl (r : DirRegs) :
    (r.clearPal).minl = r.minl := rfl

@[simp] theorem DirRegs.clearPal_mint (r : DirRegs) :
    (r.clearPal).mint = r.mint := rfl

@[simp] theorem DirRegs.clearPal_maxr (r : DirRegs) :
    (r.clearPal).maxr = r.maxr := rfl

@[simp] theorem DirRegs.clearPal_maxb (r : DirRegs) :
    (r.clearPal).maxb = r.maxb := rfl

@[simp] theorem DirRegs.clearPal_dl (r : DirRegs) :
    (r.clearPal).dl = r.dl := rfl

@[simp] theorem DirRegs.clearPal_dt (r : DirRegs) :
    (r.clearPal).dt = r.dt := rfl

@[simp] theorem DirRegs.clearPal_dw (r : DirRegs) :
    (r.clearPal).dw = r.dw := rfl

@[simp] theorem DirRegs.clearPal_dh (r : DirRegs) :
    (r.clearPal).dh = r.dh := rfl

@[simp] theorem DirRegs.clearPal_hcc (r : DirRegs) :
    (r.clearPal).hcc = r.hcc := rfl

@[simp] theorem DirRegs.clearPal_vcc (r : DirRegs) :
    (r.clearPal).vcc = r.vcc := rfl

@[simp] theorem DirRegs.clearPal_dcell (r : DirRegs) :
    (r.clearPal).dcell = r.dcell := rfl

@[simp] theorem DirRegs.clearPal_fhcc (r : DirRegs) :
    (r.clearPal).fhcc = r.fhcc := rfl

@[simp] theorem DirRegs.clearPal_fvcc (r : DirRegs) :
    (r.clearPal).fvcc = r.fvcc := rfl

@[simp] theorem DirRegs.clearPal_fcell (r : DirRegs) :
    (r.clearPal).fcell = r.fcell := rfl

@[simp] theorem DirRegs.clearPal_out (r : DirRegs) :
    (r.clearPal).out = r.out := rfl

/-! `DirRegs.palFlag` -/

@[simp] theorem DirRegs.palFlag_outsize (r : DirRegs) (i : Nat) (b : Bool) :
    (r.palFlag i b).outsize = r.outsize := by cases b <;> rfl

@[simp] theorem DirRegs.palFlag_cflags (r : DirRegs) (i : Nat) (b : Bool) :
    (r.palFlag i b).cflags = r.cflags := by cases b <;> rfl

@[simp] theorem DirRegs.palFlag_wb (r : DirRegs) (i : Nat) (b : Bool) :
    (r.palFlag i b).wb = r.wb := by cases b <;> rfl

@[simp] theorem DirRegs.palFlag_ecsize (r : DirRegs) (i : Nat) (b : Bool) :
    (r.palFlag i b).ecsize = r.ecsize := by cases b <;> rfl

@[simp] theorem DirRegs.palFlag_pmsize (r : DirRegs) (i : Nat) (b : Bool) :
    (r.palFlag i b).pmsize = r.pmsize := by cases b <;> rfl

@[simp] theorem DirRegs.palFlag_etsize (r : DirRegs) (i : Nat) (b : Bool) :
    (r.palFlag i b).etsize = r.etsize := by cases b <;> rfl

@[simp] theorem DirRegs.palFlag_rpsize (r : DirRegs) (i : Nat) (b : Bool) :
    (r.palFlag i b).rpsize = r.rpsize := by cases b <;> rfl

@[simp] theorem DirRegs.palFlag_fg (r : DirRegs) (i : Nat) (b : Bool) :
    (r.palFlag i b).fg = r.fg := by cases b <;> rfl

@[simp] theorem DirRegs.palFlag_minl (r : DirRegs) (i : Nat) (b : Bool) :
    (r.palFlag i b).minl = r.minl := by cases b <;> rfl

@[simp] theorem DirRegs.palFlag_mint (r : DirRegs) (i : Nat) (b : Bool) :
    (r.palFlag i b).mint = r.mint := by cases b <;> rfl

@[simp] theorem DirRegs.palFlag_maxr (r : DirRegs) (i : Nat) (b : Bool) :
    (r.palFlag i b).maxr = r.maxr := by cases b <;> rfl

@[simp] theorem DirRegs.palFlag_maxb (r : DirRegs) (i : Nat) (b : Bool) :
    (r.palFlag i b).maxb = r.maxb := by cases b <;> rfl

@[simp] theorem DirRegs.palFlag_dl (r : DirRegs) (i : Nat) (b : Bool) :
    (r.palFlag i b).dl = r.dl := by cases b <;> rfl

@[simp] theorem DirRegs.palFlag_dt (r : DirRegs) (i : Nat) (b : Bool) :
    (r.palFlag i b).dt = r.dt := by cases b <;> rfl

@[simp] theorem DirRegs.palFlag_dw (r : DirRegs) (i : Nat) (b : Bool) :
    (r.palFlag i b).dw = r.dw := by cases b <;> rfl

@[simp] theorem DirRegs.palFlag_dh (r : DirRegs) (i : Nat) (b : Bool) :
    (r.palFlag i b).dh = r.dh := by cases b <;> rfl

@[simp] theorem DirRegs.palFlag_hcc (r : DirRegs) (i : Nat) (b : Bool) :
    (r.palFlag i b).hcc = r.hcc := by cases b <;> rfl

@[simp] theorem DirRegs.palFlag_vcc (r : DirRegs) (i : Nat) (b : Bool) :
    (r.palFlag i b).vcc = r.vcc := by cases b <;> rfl

@[simp] theorem DirRegs.palFlag_dcell (r : DirRegs) (i : Nat) (b : Bool) :
    (r.palFlag i b).dcell = r.dcell := by cases b <;> rfl

@[simp] theorem DirRegs.palFlag_fhcc (r : DirRegs) (i : Nat) (b : Bool) :
    (r.palFlag i b).fhcc = r.fhcc := by cases b <;> rfl

@[simp] theorem DirRegs.palFlag_fvcc (r : DirRegs) (i : Nat) (b : Bool) :
    (r.palFlag i b).fvcc = r.fvcc := by cases b <;> rfl

@[simp] theorem DirRegs.palFlag_fcell (r : DirRegs) (i : Nat) (b : Bool) :
    (r.palFlag i b).fcell = r.fcell := by cases b <;> rfl

@[simp] theorem DirRegs.palFlag_out (r : DirRegs) (i : Nat) (b : Bool) :
    (r.palFlag i b).out = r.out := by cases b <;> rfl

/-! `DirRegs.setDirBox` -/

@[simp] theorem DirRegs.setDirBox_outsize (r : DirRegs) :
    (r.setDirBox).outsize = r.outsize := rfl

@[simp] theorem DirRegs.setDirBox_cflags (r : DirRegs) :
    (r.setDirBox).cflags = r.cflags := rfl

@[simp] theorem DirRegs.setDirBox_wb (r : DirRegs) :
    (r.setDirBox).wb = r.wb := rfl

@[simp] theorem DirRegs.setDirBox_ecsize (r : DirRegs) :
    (r.setDirBox).ecsize = r.ecsize := rfl

@[simp] theorem DirRegs.setDirBox_pmsize (r : DirRegs) :
    (r.setDirBox).pmsize = r.pmsize := rfl

@[simp] theorem DirRegs.setDirBox_etsize (r : DirRegs) :
    (r.setDirBox).etsize = r.etsize := rfl

@[simp] theorem DirRegs.setDirBox_rpsize (r : DirRegs) :
    (r.setDirBox).rpsize = r.rpsize := rfl

@[simp] theorem DirRegs.setDirBox_pal (r : DirRegs) :
    (r.setDirBox).pal = r.pal := rfl

@[simp] theorem DirRegs.setDirBox_palcnt (r : DirRegs) :
    (r.setDirBox).palcnt = r.palcnt := rfl

@[simp] theorem DirRegs.setDirBox_fg (r : DirRegs) :
    (r.setDirBox).fg = r.fg := rfl

@[simp] theorem DirRegs.setDirBox_minl (r : DirRegs) :
    (r.setDirBox).minl = r.minl := rfl

@[simp] theorem DirRegs.setDirBox_mint (r : DirRegs) :
    (r.setDirBox).mint = r.mint := rfl

@[simp] theorem DirRegs.setDirBox_maxr (r : DirRegs) :
    (r.setDirBox).maxr = r.maxr := rfl

@[simp] theorem DirRegs.setDirBox_maxb (r : DirRegs) :
    (r.setDirBox).maxb = r.maxb := rfl

@[simp] theorem DirRegs.setDirBox_dl (r : DirRegs) :
    (r.setDirBox).dl = r.minl := rfl

@[simp] theorem DirRegs.setDirBox_dt (r : DirRegs) :
    (r.setDirBox).dt = r.mint := rfl

@[simp] theorem DirRegs.setDirBox_dw (r : DirRegs) :
    (r.setDirBox).dw = (r.maxr - r.minl).toNat := rfl

@[simp] theorem DirRegs.setDirBox_dh (r : DirRegs) :
    (r.setDirBox).dh = (r.maxb - r.mint).toNat := rfl

@[simp] theorem DirRegs.setDirBox_hcc (r : DirRegs) :
    (r.setDirBox).hcc = r.hcc := rfl

@[simp] theorem DirRegs.setDirBox_vcc (r : DirRegs) :
    (r.setDirBox).vcc = r.vcc := rfl

@[simp] theorem DirRegs.setDirBox_dcell (r : DirRegs) :
    (r.setDirBox).dcell = r.dcell := rfl

@[simp] theorem DirRegs.setDirBox_fhcc (r : DirRegs) :
    (r.setDirBox).fhcc = r.fhcc := rfl

@[simp] theorem DirRegs.setDirBox_fvcc (r : DirRegs) :
    (r.setDirBox).fvcc = r.fvcc := rfl

@[simp] theorem DirRegs.setDirBox_fcell (r : DirRegs) :
    (r.setDirBox).fcell = r.fcell := rfl

@[simp] theorem DirRegs.setDirBox_out (r : DirRegs) :
    (r.setDirBox).out = r.out := rfl

/-! `DirRegs.setGridCounts` -/

@[simp] theorem DirRegs.setGridCounts_outsize (r : DirRegs) :
    (r.setGridCounts).outsize = r.outsize := rfl

@[simp] theorem DirRegs.setGridCounts_cflags (r : DirRegs) :
    (r.setGridCounts).cflags = r.cflags := rfl

@[simp] theorem DirRegs.setGridCounts_wb (r : DirRegs) :
    (r.setGridCounts).wb = r.wb := rfl

@[simp] theorem DirRegs.setGridCounts_ecsize (r : DirRegs) :
    (r.setGridCounts).ecsize = r.ecsize := rfl

@[simp] theorem DirRegs.setGridCounts_pmsize (r : DirRegs) :
    (r.setGridCounts).pmsize = r.pmsize := rfl

@[simp] theorem DirRegs.setGridCounts_etsize (r : DirRegs) :
    (r.setGridCounts).etsize = r.etsize := rfl

@[simp] theorem DirRegs.setGridCounts_rpsize (r : DirRegs) :
    (r.setGridCounts).rpsize = r.rpsize := rfl

@[simp] theorem DirRegs.setGridCounts_pal (r : DirRegs) :
    (r.setGridCounts).pal = r.pal := rfl

@[simp] theorem DirRegs.setGridCounts_palcnt (r : DirRegs) :
    (r.setGridCounts).palcnt = r.palcnt := rfl

@[simp] theorem DirRegs.setGridCounts_fg (r : DirRegs) :
    (r.setGridCounts).fg = r.fg := rfl

@[simp] theorem DirRegs.setGridCounts_minl (r : DirRegs) :
    (r.setGridCounts).minl = r.minl := rfl

@[simp] theorem DirRegs.setGridCounts_mint (r : DirRegs) :
    (r.setGridCounts).mint = r.mint := rfl

@[simp] theorem DirRegs.setGridCounts_maxr (r : DirRegs) :
    (r.setGridCounts).maxr = r.maxr := rfl

@[simp] theorem DirRegs.setGridCounts_maxb (r : DirRegs) :
    (r.setGridCounts).maxb = r.maxb := rfl

@[simp] theorem DirRegs.setGridCounts_dl (r : DirRegs) :
    (r.setGridCounts).dl = r.dl := rfl

@[simp] theorem DirRegs.setGridCounts_dt (r : DirRegs) :
    (r.setGridCounts).dt = r.dt := rfl

@[simp] theorem DirRegs.setGridCounts_dw (r : DirRegs) :
    (r.setGridCounts).dw = r.dw := rfl

@[simp] theorem DirRegs.setGridCounts_dh (r : DirRegs) :
    (r.setGridCounts).dh = r.dh := rfl

@[simp] theorem DirRegs.setGridCounts_hcc (r : DirRegs) :
    (r.setGridCounts).hcc = (dtile r.dw).length := rfl

@[simp] theorem DirRegs.setGridCounts_vcc (r : DirRegs) :
    (r.setGridCounts).vcc = (dtile r.dh).length := rfl

@[simp] theorem DirRegs.setGridCounts_dcell (r : DirRegs) :
    (r.setGridCounts).dcell = r.dcell := rfl

@[simp] theorem DirRegs.setGridCounts_fhcc (r : DirRegs) :
    (r.setGridCounts).fhcc = r.fhcc := rfl

@[simp] theorem DirRegs.setGridCounts_fvcc (r : DirRegs) :
    (r.setGridCounts).fvcc = r.fvcc := rfl

@[simp] theorem DirRegs.setGridCounts_fcell (r : DirRegs) :
    (r.setGridCounts).fcell = r.fcell := rfl

@[simp] theorem DirRegs.setGridCounts_out (r : DirRegs) :
    (r.setGridCounts).out = r.out := rfl

/-! `DirRegs.setFrameCounts` -/

@[simp] theorem DirRegs.setFrameCounts_outsize (r : DirRegs) (f : Nat) :
    (r.setFrameCounts f).outsize = r.outsize := rfl

@[simp] theorem DirRegs.setFrameCounts_cflags (r : DirRegs) (f : Nat) :
    (r.setFrameCounts f).cflags = r.cflags := rfl

@[simp] theorem DirRegs.setFrameCounts_wb (r : DirRegs) (f : Nat) :
    (r.setFrameCounts f).wb = r.wb := rfl

@[simp] theorem DirRegs.setFrameCounts_ecsize (r : DirRegs) (f : Nat) :
    (r.setFrameCounts f).ecsize = r.ecsize := rfl

@[simp] theorem DirRegs.setFrameCounts_pmsize (r : DirRegs) (f : Nat) :
    (r.setFrameCounts f).pmsize = r.pmsize := rfl

@[simp] theorem DirRegs.setFrameCounts_etsize (r : DirRegs) (f : Nat) :
    (r.setFrameCounts f).etsize = r.etsize := rfl

@[simp] theorem DirRegs.setFrameCounts_rpsize (r : DirRegs) (f : Nat) :
    (r.setFrameCounts f).rpsize = r.rpsize := rfl

@[simp] theorem DirRegs.setFrameCounts_pal (r : DirRegs) (f : Nat) :
    (r.setFrameCounts f).pal = r.pal := rfl

@[simp] theorem DirRegs.setFrameCounts_palcnt (r : DirRegs) (f : Nat) :
    (r.setFrameCounts f).palcnt = r.palcnt := rfl

@[simp] theorem DirRegs.setFrameCounts_fg (r : DirRegs) (f : Nat) :
    (r.setFrameCounts f).fg = r.fg := rfl

@[simp] theorem DirRegs.setFrameCounts_minl (r : DirRegs) (f : Nat) :
    (r.setFrameCounts f).minl = r.minl := rfl

@[simp] theorem DirRegs.setFrameCounts_mint (r : DirRegs) (f : Nat) :
    (r.setFrameCounts f).mint = r.mint := rfl

@[simp] theorem DirRegs.setFrameCounts_maxr (r : DirRegs) (f : Nat) :
    (r.setFrameCounts f).maxr = r.maxr := rfl

@[simp] theorem DirRegs.setFrameCounts_maxb (r : DirRegs) (f : Nat) :
    (r.setFrameCounts f).maxb = r.maxb := rfl

@[simp] theorem DirRegs.setFrameCounts_dl (r : DirRegs) (f : Nat) :
    (r.setFrameCounts f).dl = r.dl := rfl

@[simp] theorem DirRegs.setFrameCounts_dt (r : DirRegs) (f : Nat) :
    (r.setFrameCounts f).dt = r.dt := rfl

@[simp] theorem DirRegs.setFrameCounts_dw (r : DirRegs) (f : Nat) :
    (r.setFrameCounts f).dw = r.dw := rfl

@[simp] theorem DirRegs.setFrameCounts_dh (r : DirRegs) (f : Nat) :
    (r.setFrameCounts f).dh = r.dh := rfl

@[simp] theorem DirRegs.setFrameCounts_hcc (r : DirRegs) (f : Nat) :
    (r.setFrameCounts f).hcc = r.hcc := rfl

@[simp] theorem DirRegs.setFrameCounts_vcc (r : DirRegs) (f : Nat) :
    (r.setFrameCounts f).vcc = r.vcc := rfl

@[simp] theorem DirRegs.setFrameCounts_dcell (r : DirRegs) (f : Nat) :
    (r.setFrameCounts f).dcell = r.dcell := rfl

@[simp] theorem DirRegs.setFrameCounts_fhcc (r : DirRegs) (f : Nat) :
    (r.setFrameCounts f).fhcc = fileWrite 0 r.fhcc f (r.frameCols f).length := rfl

@[simp] theorem DirRegs.setFrameCounts_fvcc (r : DirRegs) (f : Nat) :
    (r.setFrameCounts f).fvcc = fileWrite 0 r.fvcc f (r.frameRows f).length := rfl

@[simp] theorem DirRegs.setFrameCounts_fcell (r : DirRegs) (f : Nat) :
    (r.setFrameCounts f).fcell = r.fcell := rfl

@[simp] theorem DirRegs.setFrameCounts_out (r : DirRegs) (f : Nat) :
    (r.setFrameCounts f).out = r.out := rfl

/-! `DirRegs.setFrameCells` -/

@[simp] theorem DirRegs.setFrameCells_outsize (r : DirRegs) (f : Nat) :
    (r.setFrameCells f).outsize = r.outsize := rfl

@[simp] theorem DirRegs.setFrameCells_cflags (r : DirRegs) (f : Nat) :
    (r.setFrameCells f).cflags = r.cflags := rfl

@[simp] theorem DirRegs.setFrameCells_wb (r : DirRegs) (f : Nat) :
    (r.setFrameCells f).wb = r.wb := rfl

@[simp] theorem DirRegs.setFrameCells_ecsize (r : DirRegs) (f : Nat) :
    (r.setFrameCells f).ecsize = r.ecsize := rfl

@[simp] theorem DirRegs.setFrameCells_pmsize (r : DirRegs) (f : Nat) :
    (r.setFrameCells f).pmsize = r.pmsize := rfl

@[simp] theorem DirRegs.setFrameCells_etsize (r : DirRegs) (f : Nat) :
    (r.setFrameCells f).etsize = r.etsize := rfl

@[simp] theorem DirRegs.setFrameCells_rpsize (r : DirRegs) (f : Nat) :
    (r.setFrameCells f).rpsize = r.rpsize := rfl

@[simp] theorem DirRegs.setFrameCells_pal (r : DirRegs) (f : Nat) :
    (r.setFrameCells f).pal = r.pal := rfl

@[simp] theorem DirRegs.setFrameCells_palcnt (r : DirRegs) (f : Nat) :
    (r.setFrameCells f).palcnt = r.palcnt := rfl

@[simp] theorem DirRegs.setFrameCells_fg (r : DirRegs) (f : Nat) :
    (r.setFrameCells f).fg = r.fg := rfl

@[simp] theorem DirRegs.setFrameCells_minl (r : DirRegs) (f : Nat) :
    (r.setFrameCells f).minl = r.minl := rfl

@[simp] theorem DirRegs.setFrameCells_mint (r : DirRegs) (f : Nat) :
    (r.setFrameCells f).mint = r.mint := rfl

@[simp] theorem DirRegs.setFrameCells_maxr (r : DirRegs) (f : Nat) :
    (r.setFrameCells f).maxr = r.maxr := rfl

@[simp] theorem DirRegs.setFrameCells_maxb (r : DirRegs) (f : Nat) :
    (r.setFrameCells f).maxb = r.maxb := rfl

@[simp] theorem DirRegs.setFrameCells_dl (r : DirRegs) (f : Nat) :
    (r.setFrameCells f).dl = r.dl := rfl

@[simp] theorem DirRegs.setFrameCells_dt (r : DirRegs) (f : Nat) :
    (r.setFrameCells f).dt = r.dt := rfl

@[simp] theorem DirRegs.setFrameCells_dw (r : DirRegs) (f : Nat) :
    (r.setFrameCells f).dw = r.dw := rfl

@[simp] theorem DirRegs.setFrameCells_dh (r : DirRegs) (f : Nat) :
    (r.setFrameCells f).dh = r.dh := rfl

@[simp] theorem DirRegs.setFrameCells_hcc (r : DirRegs) (f : Nat) :
    (r.setFrameCells f).hcc = r.hcc := rfl

@[simp] theorem DirRegs.setFrameCells_vcc (r : DirRegs) (f : Nat) :
    (r.setFrameCells f).vcc = r.vcc := rfl

@[simp] theorem DirRegs.setFrameCells_dcell (r : DirRegs) (f : Nat) :
    (r.setFrameCells f).dcell = r.dcell := rfl

@[simp] theorem DirRegs.setFrameCells_fhcc (r : DirRegs) (f : Nat) :
    (r.setFrameCells f).fhcc = r.fhcc := rfl

@[simp] theorem DirRegs.setFrameCells_fvcc (r : DirRegs) (f : Nat) :
    (r.setFrameCells f).fvcc = r.fvcc := rfl

@[simp] theorem DirRegs.setFrameCells_fcell (r : DirRegs) (f : Nat) :
    (r.setFrameCells f).fcell = fileWrite [] r.fcell f (gridCells (r.frameCols f) (r.offX f) (r.frameRows f) (r.offY f)) := rfl

@[simp] theorem DirRegs.setFrameCells_out (r : DirRegs) (f : Nat) :
    (r.setFrameCells f).out = r.out := rfl

/-! `DirRegs.updOut` -/

@[simp] theorem DirRegs.updOut_outsize (r : DirRegs) (f : Nat) (g : Mem → Mem) :
    (r.updOut f g).outsize = r.outsize := rfl

@[simp] theorem DirRegs.updOut_cflags (r : DirRegs) (f : Nat) (g : Mem → Mem) :
    (r.updOut f g).cflags = r.cflags := rfl

@[simp] theorem DirRegs.updOut_wb (r : DirRegs) (f : Nat) (g : Mem → Mem) :
    (r.updOut f g).wb = r.wb := rfl

@[simp] theorem DirRegs.updOut_ecsize (r : DirRegs) (f : Nat) (g : Mem → Mem) :
    (r.updOut f g).ecsize = r.ecsize := rfl

@[simp] theorem DirRegs.updOut_pmsize (r : DirRegs) (f : Nat) (g : Mem → Mem) :
    (r.updOut f g).pmsize = r.pmsize := rfl

@[simp] theorem DirRegs.updOut_etsize (r : DirRegs) (f : Nat) (g : Mem → Mem) :
    (r.updOut f g).etsize = r.etsize := rfl

@[simp] theorem DirRegs.updOut_rpsize (r : DirRegs) (f : Nat) (g : Mem → Mem) :
    (r.updOut f g).rpsize = r.rpsize := rfl

@[simp] theorem DirRegs.updOut_pal (r : DirRegs) (f : Nat) (g : Mem → Mem) :
    (r.updOut f g).pal = r.pal := rfl

@[simp] theorem DirRegs.updOut_palcnt (r : DirRegs) (f : Nat) (g : Mem → Mem) :
    (r.updOut f g).palcnt = r.palcnt := rfl

@[simp] theorem DirRegs.updOut_fg (r : DirRegs) (f : Nat) (g : Mem → Mem) :
    (r.updOut f g).fg = r.fg := rfl

@[simp] theorem DirRegs.updOut_minl (r : DirRegs) (f : Nat) (g : Mem → Mem) :
    (r.updOut f g).minl = r.minl := rfl

@[simp] theorem DirRegs.updOut_mint (r : DirRegs) (f : Nat) (g : Mem → Mem) :
    (r.updOut f g).mint = r.mint := rfl

@[simp] theorem DirRegs.updOut_maxr (r : DirRegs) (f : Nat) (g : Mem → Mem) :
    (r.updOut f g).maxr = r.maxr := rfl

@[simp] theorem DirRegs.updOut_maxb (r : DirRegs) (f : Nat) (g : Mem → Mem) :
    (r.updOut f g).maxb = r.maxb := rfl

@[simp] theorem DirRegs.updOut_dl (r : DirRegs) (f : Nat) (g : Mem → Mem) :
    (r.updOut f g).dl = r.dl := rfl

@[simp] theorem DirRegs.updOut_dt (r : DirRegs) (f : Nat) (g : Mem → Mem) :
    (r.updOut f g).dt = r.dt := rfl

@[simp] theorem DirRegs.updOut_dw (r : DirRegs) (f : Nat) (g : Mem → Mem) :
    (r.updOut f g).dw = r.dw := rfl

@[simp] theorem DirRegs.updOut_dh (r : DirRegs) (f : Nat) (g : Mem → Mem) :
    (r.updOut f g).dh = r.dh := rfl

@[simp] theorem DirRegs.updOut_hcc (r : DirRegs) (f : Nat) (g : Mem → Mem) :
    (r.updOut f g).hcc = r.hcc := rfl

@[simp] theorem DirRegs.updOut_vcc (r : DirRegs) (f : Nat) (g : Mem → Mem) :
    (r.updOut f g).vcc = r.vcc := rfl

@[simp] theorem DirRegs.updOut_dcell (r : DirRegs) (f : Nat) (g : Mem → Mem) :
    (r.updOut f g).dcell = r.dcell := rfl

@[simp] theorem DirRegs.updOut_fhcc (r : DirRegs) (f : Nat) (g : Mem → Mem) :
    (r.updOut f g).fhcc = r.fhcc := rfl

@[simp] theorem DirRegs.updOut_fvcc (r : DirRegs) (f : Nat) (g : Mem → Mem) :
    (r.updOut f g).fvcc = r.fvcc := rfl

@[simp] theorem DirRegs.updOut_fcell (r : DirRegs) (f : Nat) (g : Mem → Mem) :
    (r.updOut f g).fcell = r.fcell := rfl

@[simp] theorem DirRegs.updOut_out (r : DirRegs) (f : Nat) (g : Mem → Mem) :
    (r.updOut f g).out = fileWrite [] r.out f (g (r.outArr f)) := rfl

/-! `DirRegs.fold` -/

@[simp] theorem DirRegs.fold_outsize (r : DirRegs) (f : Nat) :
    (r.fold f).outsize = r.outsize := by unfold DirRegs.fold; dsimp only; split <;> rfl

@[simp] theorem DirRegs.fold_cflags (r : DirRegs) (f : Nat) :
    (r.fold f).cflags = r.cflags := by unfold DirRegs.fold; dsimp only; split <;> rfl

@[simp] theorem DirRegs.fold_wb (r : DirRegs) (f : Nat) :
    (r.fold f).wb = r.wb := by unfold DirRegs.fold; dsimp only; split <;> rfl

@[simp] theorem DirRegs.fold_ecsize (r : DirRegs) (f : Nat) :
    (r.fold f).ecsize = r.ecsize := by unfold DirRegs.fold; dsimp only; split <;> rfl

@[simp] theorem DirRegs.fold_pmsize (r : DirRegs) (f : Nat) :
    (r.fold f).pmsize = r.pmsize := by unfold DirRegs.fold; dsimp only; split <;> rfl

@[simp] theorem DirRegs.fold_etsize (r : DirRegs) (f : Nat) :
    (r.fold f).etsize = r.etsize := by unfold DirRegs.fold; dsimp only; split <;> rfl

@[simp] theorem DirRegs.fold_rpsize (r : DirRegs) (f : Nat) :
    (r.fold f).rpsize = r.rpsize := by unfold DirRegs.fold; dsimp only; split <;> rfl

@[simp] theorem DirRegs.fold_pal (r : DirRegs) (f : Nat) :
    (r.fold f).pal = r.pal := by unfold DirRegs.fold; dsimp only; split <;> rfl

@[simp] theorem DirRegs.fold_palcnt (r : DirRegs) (f : Nat) :
    (r.fold f).palcnt = r.palcnt := by unfold DirRegs.fold; dsimp only; split <;> rfl

@[simp] theorem DirRegs.fold_fg (r : DirRegs) (f : Nat) :
    (r.fold f).fg = r.fg := by unfold DirRegs.fold; dsimp only; split <;> rfl

@[simp] theorem DirRegs.fold_dl (r : DirRegs) (f : Nat) :
    (r.fold f).dl = r.dl := by unfold DirRegs.fold; dsimp only; split <;> rfl

@[simp] theorem DirRegs.fold_dt (r : DirRegs) (f : Nat) :
    (r.fold f).dt = r.dt := by unfold DirRegs.fold; dsimp only; split <;> rfl

@[simp] theorem DirRegs.fold_dw (r : DirRegs) (f : Nat) :
    (r.fold f).dw = r.dw := by unfold DirRegs.fold; dsimp only; split <;> rfl

@[simp] theorem DirRegs.fold_dh (r : DirRegs) (f : Nat) :
    (r.fold f).dh = r.dh := by unfold DirRegs.fold; dsimp only; split <;> rfl

@[simp] theorem DirRegs.fold_hcc (r : DirRegs) (f : Nat) :
    (r.fold f).hcc = r.hcc := by unfold DirRegs.fold; dsimp only; split <;> rfl

@[simp] theorem DirRegs.fold_vcc (r : DirRegs) (f : Nat) :
    (r.fold f).vcc = r.vcc := by unfold DirRegs.fold; dsimp only; split <;> rfl

@[simp] theorem DirRegs.fold_dcell (r : DirRegs) (f : Nat) :
    (r.fold f).dcell = r.dcell := by unfold DirRegs.fold; dsimp only; split <;> rfl

@[simp] theorem DirRegs.fold_fhcc (r : DirRegs) (f : Nat) :
    (r.fold f).fhcc = r.fhcc := by unfold DirRegs.fold; dsimp only; split <;> rfl

@[simp] theorem DirRegs.fold_fvcc (r : DirRegs) (f : Nat) :
    (r.fold f).fvcc = r.fvcc := by unfold DirRegs.fold; dsimp only; split <;> rfl

@[simp] theorem DirRegs.fold_fcell (r : DirRegs) (f : Nat) :
    (r.fold f).fcell = r.fcell := by unfold DirRegs.fold; dsimp only; split <;> rfl

@[simp] theorem DirRegs.fold_out (r : DirRegs) (f : Nat) :
    (r.fold f).out = r.out := by unfold DirRegs.fold; dsimp only; split <;> rfl

/-! `Engine.firstCell` -/

@[simp] theorem Engine.firstCell_phase (p : BitVec 5) (e : Engine) :
    (e.firstCell p).phase = p := rfl

@[simp] theorem Engine.firstCell_dir (p : BitVec 5) (e : Engine) :
    (e.firstCell p).dir = e.dir := rfl

@[simp] theorem Engine.firstCell_frm (p : BitVec 5) (e : Engine) :
    (e.firstCell p).frm = 0 := rfl

@[simp] theorem Engine.firstCell_cy (p : BitVec 5) (e : Engine) :
    (e.firstCell p).cy = 0 := rfl

@[simp] theorem Engine.firstCell_cx (p : BitVec 5) (e : Engine) :
    (e.firstCell p).cx = 0 := rfl

@[simp] theorem Engine.firstCell_regs (p : BitVec 5) (e : Engine) :
    (e.firstCell p).regs = e.regs := rfl

@[simp] theorem Engine.firstCell_tr (p : BitVec 5) (e : Engine) :
    (e.firstCell p).tr = e.tr := rfl

@[simp] theorem Engine.firstCell_free (p : BitVec 5) (e : Engine) :
    (e.firstCell p).free = e.free := rfl

/-! `Engine.emit` -/

@[simp] theorem Engine.emit_phase (g : CellGeom) (e : Engine) :
    (Engine.emit g e).phase = e.phase := rfl

@[simp] theorem Engine.emit_dir (g : CellGeom) (e : Engine) :
    (Engine.emit g e).dir = e.dir := rfl

@[simp] theorem Engine.emit_frm (g : CellGeom) (e : Engine) :
    (Engine.emit g e).frm = e.frm := rfl

@[simp] theorem Engine.emit_cy (g : CellGeom) (e : Engine) :
    (Engine.emit g e).cy = e.cy := rfl

@[simp] theorem Engine.emit_cx (g : CellGeom) (e : Engine) :
    (Engine.emit g e).cx = e.cx := rfl

@[simp] theorem Engine.emit_regs (g : CellGeom) (e : Engine) :
    (Engine.emit g e).regs = e.regs.updOut e.frm.toNat (emitBlock e.regs.dw g.x g.y (blockPixels g.w g.h) e.tr.canvas) := rfl

@[simp] theorem Engine.emit_tr (g : CellGeom) (e : Engine) :
    (Engine.emit g e).tr = e.tr := rfl

@[simp] theorem Engine.emit_free (g : CellGeom) (e : Engine) :
    (Engine.emit g e).free = e.free := rfl

/-! `Engine.paint` -/

@[simp] theorem Engine.paint_phase (g : CellGeom) (t : Quad) (x y code : Nat) (e : Engine) :
    (Engine.paint g t x y code e).phase = e.phase := rfl

@[simp] theorem Engine.paint_dir (g : CellGeom) (t : Quad) (x y code : Nat) (e : Engine) :
    (Engine.paint g t x y code e).dir = e.dir := rfl

@[simp] theorem Engine.paint_frm (g : CellGeom) (t : Quad) (x y code : Nat) (e : Engine) :
    (Engine.paint g t x y code e).frm = e.frm := rfl

@[simp] theorem Engine.paint_cy (g : CellGeom) (t : Quad) (x y code : Nat) (e : Engine) :
    (Engine.paint g t x y code e).cy = e.cy := rfl

@[simp] theorem Engine.paint_cx (g : CellGeom) (t : Quad) (x y code : Nat) (e : Engine) :
    (Engine.paint g t x y code e).cx = e.cx := rfl

@[simp] theorem Engine.paint_regs (g : CellGeom) (t : Quad) (x y code : Nat) (e : Engine) :
    (Engine.paint g t x y code e).regs = e.regs := rfl

@[simp] theorem Engine.paint_tr (g : CellGeom) (t : Quad) (x y code : Nat) (e : Engine) :
    (Engine.paint g t x y code e).tr = { e.tr with canvas := e.tr.canvas.write (pixAddr e.regs.dw (g.x + x) (g.y + y)) (t.slot code) } := rfl

@[simp] theorem Engine.paint_free (g : CellGeom) (t : Quad) (x y code : Nat) (e : Engine) :
    (Engine.paint g t x y code e).free = e.free := rfl

/-! `Engine.record` -/

@[simp] theorem Engine.record_phase (k : Nat) (g : CellGeom) (e : Engine) :
    (Engine.record k g e).phase = e.phase := rfl

@[simp] theorem Engine.record_dir (k : Nat) (g : CellGeom) (e : Engine) :
    (Engine.record k g e).dir = e.dir := rfl

@[simp] theorem Engine.record_frm (k : Nat) (g : CellGeom) (e : Engine) :
    (Engine.record k g e).frm = e.frm := rfl

@[simp] theorem Engine.record_cy (k : Nat) (g : CellGeom) (e : Engine) :
    (Engine.record k g e).cy = e.cy := rfl

@[simp] theorem Engine.record_cx (k : Nat) (g : CellGeom) (e : Engine) :
    (Engine.record k g e).cx = e.cx := rfl

@[simp] theorem Engine.record_regs (k : Nat) (g : CellGeom) (e : Engine) :
    (Engine.record k g e).regs = e.regs := rfl

@[simp] theorem Engine.record_tr (k : Nat) (g : CellGeom) (e : Engine) :
    (Engine.record k g e).tr = { e.tr with last := fileWrite zeroLast e.tr.last k { valid := true, w := g.w, h := g.h, x := g.x, y := g.y } } := rfl

@[simp] theorem Engine.record_free (k : Nat) (g : CellGeom) (e : Engine) :
    (Engine.record k g e).free = e.free := rfl

/-! `Engine.prepareCanvas` -/

@[simp] theorem Engine.prepareCanvas_phase (e : Engine) :
    (e.prepareCanvas).phase = e.phase := rfl

@[simp] theorem Engine.prepareCanvas_dir (e : Engine) :
    (e.prepareCanvas).dir = e.dir := rfl

@[simp] theorem Engine.prepareCanvas_frm (e : Engine) :
    (e.prepareCanvas).frm = e.frm := rfl

@[simp] theorem Engine.prepareCanvas_cy (e : Engine) :
    (e.prepareCanvas).cy = e.cy := rfl

@[simp] theorem Engine.prepareCanvas_cx (e : Engine) :
    (e.prepareCanvas).cx = e.cx := rfl

@[simp] theorem Engine.prepareCanvas_regs (e : Engine) :
    (e.prepareCanvas).regs = e.regs := rfl

@[simp] theorem Engine.prepareCanvas_free (e : Engine) :
    (e.prepareCanvas).free = e.free := rfl

/-! `Engine.appendEntry` -/

@[simp] theorem Engine.appendEntry_phase (prev : Option Nat) (e : Engine) :
    (Engine.appendEntry prev e).phase = e.phase := rfl

@[simp] theorem Engine.appendEntry_dir (prev : Option Nat) (e : Engine) :
    (Engine.appendEntry prev e).dir = e.dir := rfl

@[simp] theorem Engine.appendEntry_frm (prev : Option Nat) (e : Engine) :
    (Engine.appendEntry prev e).frm = e.frm := rfl

@[simp] theorem Engine.appendEntry_cy (prev : Option Nat) (e : Engine) :
    (Engine.appendEntry prev e).cy = e.cy := rfl

@[simp] theorem Engine.appendEntry_cx (prev : Option Nat) (e : Engine) :
    (Engine.appendEntry prev e).cx = e.cx := rfl

@[simp] theorem Engine.appendEntry_regs (prev : Option Nat) (e : Engine) :
    (Engine.appendEntry prev e).regs = e.regs := rfl

@[simp] theorem Engine.appendEntry_free (prev : Option Nat) (e : Engine) :
    (Engine.appendEntry prev e).free = e.free + 1 := rfl

/-! `resetInput` -/

@[simp] theorem resetInput_ctrl (s : State) :
    (resetInput s).ctrl = 0 := rfl

@[simp] theorem resetInput_status (s : State) :
    (resetInput s).status = 0 := rfl

@[simp] theorem resetInput_errkind (s : State) :
    (resetInput s).errkind = 0 := rfl

@[simp] theorem resetInput_errcause (s : State) :
    (resetInput s).errcause = 0 := rfl

@[simp] theorem resetInput_errdir (s : State) :
    (resetInput s).errdir = 0 := rfl

@[simp] theorem resetInput_irqEn (s : State) :
    (resetInput s).irqEn = 0 := rfl

@[simp] theorem resetInput_irq (s : State) :
    (resetInput s).irq = 0 := rfl

@[simp] theorem resetInput_ibuf (s : State) :
    (resetInput s).ibuf = { mem := [], len := 0 } := rfl

@[simp] theorem resetInput_front (s : State) :
    (resetInput s).front = resetFront := rfl

@[simp] theorem resetInput_eng (s : State) :
    (resetInput s).eng = resetEngine := rfl

@[simp] theorem resetInput_result (s : State) :
    (resetInput s).result = [] := rfl

@[simp] theorem resetInput_caps (s : State) :
    (resetInput s).caps = s.caps := rfl

@[simp] theorem resetInput_inputs (s : State) :
    (resetInput s).inputs = s.inputs := rfl

@[simp] theorem resetInput_port (s : State) :
    (resetInput s).port = none := rfl

@[simp] theorem resetInput_bcOut (s : State) :
    (resetInput s).bcOut = 0 := rfl

@[simp] theorem resetInput_hostData (s : State) :
    (resetInput s).hostData = s.hostData := rfl

@[simp] theorem resetInput_hostFree (s : State) :
    (resetInput s).hostFree = s.hostFree := rfl

/-! Cursors -/

@[simp] theorem Transient.cur_setCur_self (t : Transient) (c : EngCursor) (v : Cursor) : (t.setCur c v).cur c = v := by
  cases c <;> rfl

/-- Two cursors never share state (40_bitcursor.md R142). -/
theorem Transient.cur_setCur (t : Transient) (c d : EngCursor) (v : Cursor) :
    (t.setCur c v).cur d = if d = c then v else t.cur d := by
  cases c <;> cases d <;> rfl

theorem Transient.setCur_cur (t : Transient) (c : EngCursor) : t.setCur c (t.cur c) = t := by
  cases c <;> rfl

@[simp] theorem State.cursor_setCursor_self (s : State) (c : CursorSel) (v : Cursor) : (s.setCursor c v).cursor c = v := by
  cases c with
  | eng c => exact Transient.cur_setCur_self _ _ _
  | ccur => rfl

theorem State.cursor_setCursor (s : State) (c d : CursorSel) (v : Cursor) :
    (s.setCursor c v).cursor d = if d = c then v else s.cursor d := by
  cases c with
  | eng c =>
    cases d with
    | eng d => simpa [State.cursor, State.setCursor] using Transient.cur_setCur s.eng.tr c d v
    | ccur => rfl
  | ccur => cases d <;> rfl

/-! Flags of a value -/

theorem Work.takeValue_accept (w : Work) (v : BitVec 32) (h : v ≠ w.lastpix) :
    w.takeValue v = { w with lastpix := v, vals := w.vals ++ [v] } := by simp [Work.takeValue, h]

theorem Work.takeValue_stop (w : Work) : w.takeValue w.lastpix = { w with vend := true } := by simp [Work.takeValue]

end Sys2Proof.Machine
end

