-- ==== Sys2Proof/Laws/Steps.lean ====
section
/-!
SUPPORT. What the shared operations of a step can do, each said once: a read through a cursor, a skip, a clone, a check, a
sequence of them, and an engine step as an outcome of the machine. The provers cite these instead of unfolding.
-/

namespace Sys2Proof.Machine

/-! ### Fields of the buffer -/

/-- A field is the sum of its bits, the first read as bit 0 (20_memory.md R63). -/
theorem Buf.field_succ (b : Buf) (p n : Nat) : b.field p (n + 1) = (b.bit p).toNat + 2 * b.field (p + 1) n := rfl

theorem Buf.field_lt (b : Buf) : ∀ (n p : Nat), b.field p n < 2 ^ n
  | 0, _ => by simp [Buf.field]
  | n + 1, p => by
    have h := Buf.field_lt b n (p + 1)
    have hb : (b.bit p).toNat ≤ 1 := Bool.toNat_le _
    rw [Buf.field_succ, Nat.pow_succ]
    omega

/-- A field is its low part and its high part. -/
theorem Buf.field_add (b : Buf) : ∀ (m p n : Nat), b.field p (m + n) = b.field p m + 2 ^ m * b.field (p + m) n
  | 0, p, n => by simp [Buf.field]
  | m + 1, p, n => by
    have h := Buf.field_add b m (p + 1) n
    rw [show m + 1 + n = (m + n) + 1 by omega, Buf.field_succ, Buf.field_succ, h, Nat.pow_succ,
      show p + 1 + m = p + (m + 1) by omega]
    ring

/-- The bits of a stream are those of the buffer; none past its end. -/
theorem Buf.stream_length (b : Buf) : ∀ (n p : Nat), (b.stream p n).length = min n (b.bits - p)
  | 0, _ => by simp [Buf.stream]
  | n + 1, p => by
    have h := Buf.stream_length b n (p + 1)
    simp only [Buf.stream]
    split
    · simp only [List.length_cons, h]; omega
    · simp only [List.length_nil]; omega

theorem Buf.bitsValue_stream (b : Buf) : ∀ (n p : Nat), p + n ≤ b.bits → bitsValue (b.stream p n) = b.field p n
  | 0, _, _ => rfl
  | n + 1, p, h => by
    have ih := Buf.bitsValue_stream b n (p + 1) (by omega)
    simp only [Buf.stream, if_pos (show p < b.bits by omega), bitsValue, Buf.field_succ, ih]

/-! ### Reads -/

/-- A read inside the buffer (40_bitcursor.md R132, R138). -/
theorem Cursor.read_ok {b : Buf} {c : Cursor} {n : Nat} (h : c.pos + n ≤ b.bits) :
    c.read b n = .ok (b.field c.pos n, c.advance n) := by
  unfold Cursor.read
  split
  · next h0 => subst h0; rfl
  · rw [if_neg (by omega)]

/-- A read past the end (40_bitcursor.md R132, R139). -/
theorem Cursor.read_error {b : Buf} {c : Cursor} {n : Nat} (hn : n ≠ 0) (h : b.bits < c.pos + n) :
    c.read b n = .error .outOfRange := by
  unfold Cursor.read
  rw [if_neg hn, if_pos h]

/-- A zero-width read: no access, no fault (40_bitcursor.md R138). -/
theorem Cursor.read_zero (b : Buf) (c : Cursor) : c.read b 0 = .ok (0, c) := rfl

/-- Everything a read can do. -/
theorem Cursor.read_cases (b : Buf) (c : Cursor) (n : Nat) :
    (c.read b n = .ok (b.field c.pos n, c.advance n) ∧ (n = 0 ∨ c.pos + n ≤ b.bits)) ∨
      (c.read b n = .error .outOfRange ∧ n ≠ 0 ∧ b.bits < c.pos + n) := by
  by_cases h0 : n = 0
  · subst h0; exact Or.inl ⟨rfl, Or.inl rfl⟩
  · by_cases h : c.pos + n ≤ b.bits
    · exact Or.inl ⟨Cursor.read_ok h, Or.inr h⟩
    · exact Or.inr ⟨Cursor.read_error h0 (by omega), h0, by omega⟩

/-! ### One operation of an engine step -/

theorem rd_ok {b : Buf} {c : EngCursor} {n : Nat} {e : Engine} (h : (e.tr.cur c).pos + n ≤ b.bits) :
    rd b c n e = .ok (b.field (e.tr.cur c).pos n) { e with tr := e.tr.setCur c ((e.tr.cur c).advance n) } := by
  simp [rd, Cursor.read_ok h]

theorem rd_error {b : Buf} {c : EngCursor} {n : Nat} {e : Engine} (hn : n ≠ 0) (h : b.bits < (e.tr.cur c).pos + n) :
    rd b c n e = .error .outOfRange e := by
  simp [rd, Cursor.read_error hn h]

theorem rd_zero (b : Buf) (c : EngCursor) (e : Engine) : rd b c 0 e = .ok 0 e := by
  simp [rd, Cursor.read_zero, Transient.setCur_cur]

/-- Everything a read inside an engine step can do. -/
theorem rd_cases (b : Buf) (c : EngCursor) (n : Nat) (e : Engine) :
    rd b c n e = .ok (b.field (e.tr.cur c).pos n) { e with tr := e.tr.setCur c ((e.tr.cur c).advance n) } ∨
      rd b c n e = .error .outOfRange e := by
  rcases Cursor.read_cases b (e.tr.cur c) n with ⟨h, -⟩ | ⟨h, -⟩
  · left; simp [rd, h]
  · right; simp [rd, h]

@[simp] theorem skp_run (c : EngCursor) (n : Nat) (e : Engine) :
    skp c n e = .ok () { e with tr := e.tr.setCur c ((e.tr.cur c).advance n) } := rfl

@[simp] theorem cln_run (cd cs : EngCursor) (e : Engine) :
    cln cd cs e = .ok () { e with tr := e.tr.setCur cd (e.tr.cur cs).cloned } := rfl

@[simp] theorem upd_run (f : Engine → Engine) (e : Engine) : upd f e = .ok () (f e) := rfl

@[simp] theorem updF_run (f : Front → Front) (x : Front) : updF f x = .ok () (f x) := rfl

@[simp] theorem updW_run (f : Work → Work) (e : Engine) :
    updW f e = .ok () { e with tr := { e.tr with work := f e.tr.work } } := rfl

@[simp] theorem goto_run (p : BitVec 5) (e : Engine) : goto p e = .ok () { e with phase := p } := rfl

@[simp] theorem engCheck_pass (c : Cause) (e : Engine) : engCheck true c e = .ok () e := rfl

@[simp] theorem engCheck_fail (c : Cause) (e : Engine) : engCheck false c e = .error c e := rfl

@[simp] theorem frontCheck_pass (c : Cause) (x : Front) : frontCheck true c x = .ok () x := rfl

@[simp] theorem frontCheck_fail (c : Cause) (x : Front) : frontCheck false c x = .error c x := rfl

theorem rdc_ok {b : Buf} {n : Nat} {f : Front} (h : f.ccur.pos + n ≤ b.bits) :
    rdc b n f = .ok (b.field f.ccur.pos n) { f with ccur := f.ccur.advance n } := by
  simp [rdc, Cursor.read_ok h]

theorem rdc_error {b : Buf} {n : Nat} {f : Front} (hn : n ≠ 0) (h : b.bits < f.ccur.pos + n) :
    rdc b n f = .error .outOfRange f := by
  simp [rdc, Cursor.read_error hn h]

/-! ### Sequences -/

/-- A sequence goes on from where its first operation ended. -/
theorem bind_ok {σ ε α β : Type} {m : EStateM ε σ α} {k : α → EStateM ε σ β} {s t : σ} {a : α} (h : m s = .ok a t) :
    (m >>= k) s = k a t := by
  show EStateM.bind m k s = _
  simp [EStateM.bind, h]

/-- A sequence stops where an operation raises. -/
theorem bind_error {σ ε α β : Type} {m : EStateM ε σ α} {k : α → EStateM ε σ β} {s t : σ} {c : ε} (h : m s = .error c t) :
    (m >>= k) s = .error c t := by
  show EStateM.bind m k s = _
  simp [EStateM.bind, h]

/-- A sequence that succeeds is two operations that succeed. -/
theorem bind_eq_ok {σ ε α β : Type} {m : EStateM ε σ α} {k : α → EStateM ε σ β} {s t : σ} {x : β} :
    (m >>= k) s = .ok x t ↔ ∃ a u, m s = .ok a u ∧ k a u = .ok x t := by
  constructor
  · intro h
    cases hm : m s with
    | ok a u => exact ⟨a, u, rfl, by rw [bind_ok hm] at h; exact h⟩
    | error c u => rw [bind_error hm] at h; cases h
  · rintro ⟨a, u, hm, hk⟩
    rw [bind_ok hm, hk]

@[simp] theorem get_run {σ ε : Type} (s : σ) : (get : EStateM ε σ σ) s = .ok s s := rfl

@[simp] theorem pure_run {σ ε α : Type} (a : α) (s : σ) : (pure a : EStateM ε σ α) s = .ok a s := rfl

/-- An operation of an engine step keeps `P` if it ends, and what it raises satisfies `E`. -/
def EngKeeps {α : Type} (P : Engine → Prop) (E : Cause → Engine → Prop) (m : EngM α) : Prop :=
  ∀ e, P e → (∀ a e', m e = .ok a e' → P e') ∧ ∀ c e', m e = .error c e' → E c e'

section
variable {α β : Type} {P : Engine → Prop} {E : Cause → Engine → Prop}

theorem EngKeeps.bind {m : EngM α} {k : α → EngM β} (hm : EngKeeps P E m) (hk : ∀ a, EngKeeps P E (k a)) :
    EngKeeps P E (m >>= k) := by
  intro e he
  cases h : m e with
  | ok a e' =>
    have hp := (hm e he).1 a e' h
    rw [bind_ok h]
    exact hk a e' hp
  | error c e' =>
    have hp := (hm e he).2 c e' h
    rw [bind_error h]
    exact ⟨fun _ _ h => (nomatch h), fun _ _ h => by cases h; exact hp⟩

theorem EngKeeps.pure (a : α) : EngKeeps P E (Pure.pure a : EngM α) := fun _ he =>
  ⟨fun _ _ h => by cases h; exact he, fun _ _ h => by cases h⟩

theorem EngKeeps.get : EngKeeps P E (MonadState.get : EngM Engine) := fun _ he =>
  ⟨fun _ _ h => by cases h; exact he, fun _ _ h => by cases h⟩

theorem EngKeeps.ite {p : Prop} [Decidable p] {a b : EngM α} (ha : EngKeeps P E a) (hb : EngKeeps P E b) :
    EngKeeps P E (if p then a else b) := by split <;> assumption

theorem EngKeeps.upd {f : Engine → Engine} (hf : ∀ e, P e → P (f e)) : EngKeeps P E (upd f) :=
  fun e he => ⟨fun _ _ h => by cases h; exact hf e he, fun _ _ h => by cases h⟩

theorem EngKeeps.updW {f : Work → Work} (hf : ∀ e w, P e → P { e with tr := { e.tr with work := w } }) :
    EngKeeps P E (updW f) := EngKeeps.upd fun e he => hf e _ he

theorem EngKeeps.goto {p : BitVec 5} (hf : ∀ e, P e → P { e with phase := p }) : EngKeeps P E (goto p) := EngKeeps.upd hf

theorem EngKeeps.check (b : Bool) {c : Cause} (hE : ∀ e, P e → b = false → E c e) : EngKeeps P E (engCheck b c) :=
  fun e he => by
  cases b
  · exact ⟨fun _ _ h => (nomatch h), fun _ _ h => by cases h; exact hE _ he rfl⟩
  · exact ⟨fun _ _ h => by cases h; exact he, fun _ _ h => by cases h⟩

theorem EngKeeps.rd (b : Buf) (c : EngCursor) (n : Nat) (hc : ∀ e v, P e → P { e with tr := e.tr.setCur c v })
    (hE : ∀ e, P e → E .outOfRange e) : EngKeeps P E (rd b c n) := fun e he => by
  rcases rd_cases b c n e with h | h <;> rw [h]
  · exact ⟨fun _ _ h => by cases h; exact hc e _ he, fun _ _ h => by cases h⟩
  · exact ⟨fun _ _ h => (nomatch h), fun _ _ h => by cases h; exact hE _ he⟩

theorem EngKeeps.rds (b : Buf) (c : EngCursor) (n : Nat) (hc : ∀ e v, P e → P { e with tr := e.tr.setCur c v })
    (hE : ∀ e, P e → E .outOfRange e) : EngKeeps P E (rds b c n) :=
  EngKeeps.bind (EngKeeps.rd b c n hc hE) fun _ => EngKeeps.pure _

theorem EngKeeps.skp (c : EngCursor) (n : Nat) (hc : ∀ e v, P e → P { e with tr := e.tr.setCur c v }) :
    EngKeeps P E (skp c n) := EngKeeps.upd fun e he => hc e _ he

theorem EngKeeps.cln (c d : EngCursor) (hc : ∀ e v, P e → P { e with tr := e.tr.setCur c v }) :
    EngKeeps P E (cln c d) := EngKeeps.upd fun e he => hc e _ he

theorem EngKeeps.updFG (f : Nat) (g : FrameGeom → FrameGeom) (hf : ∀ e x, P e → P { e with regs := { e.regs with fg := x } }) :
    EngKeeps P E (updFG f g) := EngKeeps.upd fun e he => hf e _ he

theorem EngKeeps.checkFrame (f : Nat) (h1 : ∀ e, P e → E .bottomUpFlag e) (h2 : ∀ e, P e → E .emptyBox e) :
    EngKeeps P E (checkFrame f) := fun e he => by
  unfold Machine.checkFrame frameChecks
  split
  · exact ⟨fun _ _ h => by cases h; exact he, fun _ _ h => by cases h⟩
  · next hc =>
    refine ⟨fun _ _ h => (nomatch h), fun _ _ h => ?_⟩
    cases h
    split at hc
    · cases hc; exact h1 _ he
    · split at hc
      · cases hc; exact h2 _ he
      · cases hc

theorem EngKeeps.widthLoop (b : Buf) (hc : ∀ e v, P e → P { e with tr := e.tr.setCur .main v })
    (hE : ∀ e, P e → E .outOfRange e)
    (hw : ∀ e i x, P e → P { e with regs := { e.regs with wb := setWidthAt e.regs.wb i (wlut x) } }) :
    ∀ l, EngKeeps P E (widthLoop b l)
  | [] => EngKeeps.pure ()
  | _ :: is => EngKeeps.bind (EngKeeps.rd b _ _ hc hE) fun _ => EngKeeps.bind (EngKeeps.upd fun e he => hw e _ _ he) fun _ =>
      EngKeeps.widthLoop b hc hE hw is

theorem EngKeeps.readSize (b : Buf) (p : Bool) (hc : ∀ e v, P e → P { e with tr := e.tr.setCur .main v })
    (hE : ∀ e, P e → E .outOfRange e) : EngKeeps P E (readSize b p) := by
  unfold Machine.readSize
  split
  · exact EngKeeps.bind (EngKeeps.rd b _ _ hc hE) fun _ => EngKeeps.pure _
  · exact EngKeeps.pure _

theorem EngKeeps.chainLoop (b : Buf) (hc : ∀ e v, P e → P { e with tr := e.tr.setCur .main v })
    (hE : ∀ e, P e → E .outOfRange e) (hw : ∀ e w, P e → P { e with tr := { e.tr with work := w } }) :
    ∀ k, EngKeeps P E (chainLoop b k)
  | 0 => fun e he => ⟨fun _ _ h => (nomatch h), fun _ _ h => by cases h; exact hE _ he⟩
  | k + 1 => EngKeeps.bind (EngKeeps.rd b _ _ hc hE) fun _ => EngKeeps.bind (EngKeeps.updW hw) fun _ =>
      EngKeeps.ite (EngKeeps.chainLoop b hc hE hw k) (EngKeeps.pure _)

theorem EngKeeps.readValue (b : Buf) (t : BitVec 1) (hc : ∀ c e v, P e → P { e with tr := e.tr.setCur c v })
    (hE : ∀ e, P e → E .outOfRange e) (hw : ∀ e w, P e → P { e with tr := { e.tr with work := w } }) :
    EngKeeps P E (readValue b t) := by
  unfold Machine.readValue Machine.readDelta
  apply EngKeeps.ite
  · exact EngKeeps.bind (EngKeeps.rd b _ _ (hc _) hE) fun _ => EngKeeps.pure _
  · exact EngKeeps.bind EngKeeps.get fun _ => EngKeeps.bind (EngKeeps.chainLoop b (hc _) hE hw _) fun _ =>
      EngKeeps.bind EngKeeps.get fun _ => EngKeeps.pure _

theorem EngKeeps.valueLoop (b : Buf) (t : BitVec 1) (hc : ∀ c e v, P e → P { e with tr := e.tr.setCur c v })
    (hE : ∀ e, P e → E .outOfRange e) (hw : ∀ e w, P e → P { e with tr := { e.tr with work := w } }) :
    ∀ k, EngKeeps P E (valueLoop b t k)
  | 0 => EngKeeps.pure ()
  | k + 1 => EngKeeps.bind (EngKeeps.readValue b t hc hE hw) fun _ => EngKeeps.bind (EngKeeps.updW hw) fun _ =>
      EngKeeps.bind EngKeeps.get fun _ => EngKeeps.ite (EngKeeps.pure _) (EngKeeps.valueLoop b t hc hE hw k)

theorem EngKeeps.readValues (b : Buf) (n : BitVec 20) (hc : ∀ c e v, P e → P { e with tr := e.tr.setCur c v })
    (hE : ∀ e, P e → E .outOfRange e) (hw : ∀ e w, P e → P { e with tr := { e.tr with work := w } }) :
    EngKeeps P E (readValues b n) :=
  EngKeeps.bind EngKeeps.get fun _ => EngKeeps.bind (EngKeeps.rd b _ _ (hc _) hE) fun _ =>
    EngKeeps.bind (EngKeeps.updW hw) fun _ => EngKeeps.valueLoop b _ hc hE hw _

theorem EngKeeps.readMask (b : Buf) (n : BitVec 20) (prev : Option Nat)
    (hc : ∀ c e v, P e → P { e with tr := e.tr.setCur c v }) (hE : ∀ e, P e → E .outOfRange e)
    (hw : ∀ e w, P e → P { e with tr := { e.tr with work := w } }) : EngKeeps P E (readMask b n prev) := by
  unfold Machine.readMask
  apply EngKeeps.ite
  · exact EngKeeps.bind (EngKeeps.updW hw) fun _ => EngKeeps.pure _
  · refine EngKeeps.bind (EngKeeps.rd b _ _ (hc _) hE) fun _ => EngKeeps.bind (EngKeeps.updW hw) fun _ => ?_
    refine EngKeeps.ite (EngKeeps.pure _) (EngKeeps.bind (EngKeeps.rd b _ _ (hc _) hE) fun _ => ?_)
    exact EngKeeps.bind (EngKeeps.updW hw) fun _ => EngKeeps.pure _

theorem EngKeeps.paintLoop (b : Buf) (g : CellGeom) (t : Quad) (hc : ∀ e v, P e → P { e with tr := e.tr.setCur .main v })
    (hE : ∀ e, P e → E .outOfRange e) (hp : ∀ e x y k, P e → P (e.paint g t x y k)) : ∀ l, EngKeeps P E (paintLoop b g t l)
  | [] => EngKeeps.pure ()
  | _ :: l => EngKeeps.bind (EngKeeps.rd b _ _ hc hE) fun _ => EngKeeps.bind (EngKeeps.upd fun e he => hp e _ _ _ he) fun _ =>
      EngKeeps.paintLoop b g t hc hE hp l

end

theorem nextFrame_keeps {P : Engine → Prop} {n : BitVec 32} {d : Engine → Engine} {e : Engine}
    (hf : ∀ e x, P e → P { e with frm := x }) (hd : ∀ e, P e → P (d e)) (h : P e) : P (e.nextFrame n d) := by
  unfold Engine.nextFrame
  split
  · exact hf _ _ h
  · exact hd _ h

theorem nextCell_keeps {P : Engine → Prop} {n : BitVec 32} {d : Engine → Engine} {e : Engine}
    (hf : ∀ e x y z, P e → P { e with frm := x, cy := y, cx := z }) (hd : ∀ e, P e → P (d e)) (h : P e) :
    P (e.nextCell n d) := by
  unfold Engine.nextCell
  split
  · exact hf e e.frm e.cy _ h
  · split
    · exact hf e e.frm _ 0 h
    · split
      · exact hf e _ 0 0 h
      · exact hd _ h

/-! ### Outcomes -/

theorem runEng_ok {m : EngM Unit} {s : State} {e : Engine} (h : m s.eng = .ok () e) :
    runEng m s = .next { s with eng := e } := by simp [runEng, h]

theorem runEng_error {m : EngM Unit} {s : State} {c : Cause} {e : Engine} (h : m s.eng = .error c e) :
    runEng m s = .next (takeError c e.errDir { s with eng := e }) := by simp [runEng, h]

/-- An engine step always has a next state: its result, or the error it raised. -/
theorem runEng_cases (m : EngM Unit) (s : State) :
    (∃ e, m s.eng = .ok () e ∧ runEng m s = .next { s with eng := e }) ∨
      ∃ c e, m s.eng = .error c e ∧ runEng m s = .next (takeError c e.errDir { s with eng := e }) := by
  cases h : m s.eng with
  | ok a e => exact Or.inl ⟨e, rfl, runEng_ok h⟩
  | error c e => exact Or.inr ⟨c, e, rfl, runEng_error h⟩

/-- A parse of the front end always has a next state. -/
theorem runFront_cases (m : FrontM Unit) (k : State → State) (s : State) :
    (∃ f, m s.front = .ok () f ∧ runFront m k s = .next (k { s with front := f })) ∨
      ∃ c f, m s.front = .error c f ∧ runFront m k s = .next (takeError c dirFrontEnd { s with front := f }) := by
  cases h : m s.front with
  | ok a f => exact Or.inl ⟨f, rfl, by simp [runFront, h]⟩
  | error c f => exact Or.inr ⟨c, f, rfl, by simp [runFront, h]⟩

/-- Everything a `BCOP` read can do. -/
theorem bcRead_cases (cur : CursorSel) (n : Nat) (val : Nat → Int) (s : State) :
    ((n = 0 ∨ (s.cursor cur).pos + n ≤ s.ibuf.bits) ∧
      bcRead cur n val s = .next { s.setCursor cur ((s.cursor cur).advance n) with
        bcOut := val (s.ibuf.field (s.cursor cur).pos n), port := none }) ∨
      (n ≠ 0 ∧ s.ibuf.bits < (s.cursor cur).pos + n ∧
        bcRead cur n val s = .next (takeError .outOfRange (s.cursorDir cur) { s with port := none })) := by
  rcases Cursor.read_cases s.ibuf (s.cursor cur) n with ⟨h, hn⟩ | ⟨h, hn, hb⟩
  · exact Or.inl ⟨hn, by simp [bcRead, h]⟩
  · exact Or.inr ⟨hn, hb, by simp [bcRead, h]⟩

end Sys2Proof.Machine
end

