-- ==== Sys2Proof/Laws/StepCases.lean ====
section
/-!
SUPPORT. Everything one step of the machine can do, said once: a command, an access of the host, a wait, a port word that asks
for nothing, an error of the fetch, or an instruction from the port or from a `PHASE` register. And which instructions each
unit's decoder can read.
-/

namespace Sys2Proof.Machine

/-- The state a block step works on: an entry `none` of `inputs` is taken. -/
def BlockTurn (s u : State) : Prop := u = s ∨ ∃ rest, s.inputs = none :: rest ∧ u = { s with inputs := rest }

/-- What a step from `s` to `t` is. -/
inductive StepIs (s t : State) : Prop
  | cmd (i : Instr) (h : s.ctrl ≠ 0) (hd : decode (.cmd s.ctrl) = .ok i) (he : exec i s = .next t)
  | host (r : HostReq) (rest : List (Option HostReq)) (h : s.ctrl = 0) (hi : s.inputs = some r :: rest)
      (he : hostAccess r { s with inputs := rest } = .next t)
  | wait (u : State) (h : s.ctrl = 0) (hu : BlockTurn s u) (ht : t = u)
  | noOp (u : State) (h : s.ctrl = 0) (hb : s.status = stBusy) (hu : BlockTurn s u) (ht : t = { u with port := none })
  | raise (u : State) (c : Cause) (d : BitVec 9) (h : s.ctrl = 0) (hb : s.status = stBusy) (hu : BlockTurn s u)
      (hd : d.toNat ≤ 256) (ht : t = takeError c d { u with port := none })
  | bcop (u : State) (i : Instr) (w : BitVec 15) (n20 : BitVec 20) (h : s.ctrl = 0) (hb : s.status = stBusy)
      (hu : BlockTurn s u) (hp : s.port = some (.bcop w n20)) (hd : decode (.bcop w n20) = .ok i) (he : exec i u = .next t)
  | code (u : State) (i : Instr) (k : CodeFmt) (b : List Bool) (h : s.ctrl = 0) (hb : s.status = stBusy)
      (hu : BlockTurn s u) (hd : decode (.code k b) = .ok i) (he : exec i u = .next t)
  | seq (u : State) (i : Instr) (p : BitVec 5) (h : s.ctrl = 0) (hb : s.status = stBusy) (hu : BlockTurn s u)
      (hpo : s.port = none) (hp : (s.eng.phase ≠ phIdle ∧ p = s.eng.phase) ∨ (s.eng.phase = phIdle ∧ p = s.front.phase))
      (hd : decode (.seq p) = .ok i) (he : exec i u = .next t)

theorem cursorDir_le (s : State) (c : CursorSel) : (s.cursorDir c).toNat ≤ 256 := by
  cases c
  · simp [State.cursorDir, Engine.errDir]; have := s.eng.dir.isLt; omega
  · simp [State.cursorDir, dirFrontEnd]

/-- A block turn changes the host's list alone. -/
theorem BlockTurn.same {s u : State} (h : BlockTurn s u) : { u with inputs := s.inputs } = s := by
  rcases h with rfl | ⟨rest, -, rfl⟩ <;> rfl

/-- What a decoder's answer runs as. -/
theorem fetchedOf_cases {d : BitVec 9} {x : Encoded} {Q : Prop} {s t : State}
    (hrun : runFetched (fetchedOf d (decode x)) s = .next t)
    (h1 : ∀ i, decode x = .ok i → exec i s = .next t → Q) (h2 : ∀ c, t = takeError c d { s with port := none } → Q)
    (h3 : t = { s with port := none } → Q) (h4 : t = s → Q) : Q := by
  cases hx : decode x with
  | ok i => rw [hx] at hrun; exact h1 i hx hrun
  | error e =>
    rw [hx] at hrun
    cases e <;> simp [fetchedOf, decodeErrCause, runFetched] at hrun
    · exact h3 hrun.symm
    · exact h4 hrun.symm
    · exact h4 hrun.symm
    · exact h2 _ hrun.symm
    · exact h2 _ hrun.symm
    · exact h2 _ hrun.symm

/-- A pending command always decodes. -/
theorem decode_cmd_ok (c : BitVec 2) (h : c ≠ 0) : ∃ i, decode (.cmd c) = .ok i := by
  have h3 : c = 1 ∨ c = 2 ∨ c = 3 := by revert h; revert c; decide
  rcases h3 with rfl | rfl | rfl <;> exact ⟨_, rfl⟩

/-- Everything a step can do. -/
theorem step_is {s t : State} (h : step s = .next t) : StepIs s t := by
  by_cases hc : s.ctrl = 0
  · have key : ∀ u, BlockTurn s u → runFetched (fetch u) u = .next t → StepIs s t := by
      intro u hu hr
      have e : u.ctrl = s.ctrl ∧ u.status = s.status ∧ u.port = s.port ∧ u.eng = s.eng ∧ u.front = s.front := by
        rcases hu with rfl | ⟨rest, -, rfl⟩ <;> simp
      obtain ⟨e1, e2, e3, e4, e5⟩ := e
      simp only [fetch, e1, hc, ne_eq, not_true_eq_false, if_false, fetchBlock, e2] at hr
      split at hr
      · next hb =>
        rw [e3] at hr
        cases hp : s.port with
        | none =>
          rw [hp] at hr
          simp only [fetchSeq, e4, e5] at hr
          split at hr
          · next he =>
            exact fetchedOf_cases hr (fun i h1 h2 => .seq u i _ hc hb hu hp (Or.inl ⟨he, rfl⟩) h1 h2)
              (fun c hh => .raise u c _ hc hb hu (by simp [dirFrontEnd]) hh) (fun hh => .noOp u hc hb hu hh)
              (fun hh => .wait u hc hu hh)
          · next he =>
            exact fetchedOf_cases hr (fun i h1 h2 => .seq u i _ hc hb hu hp (Or.inr ⟨by simpa using he, rfl⟩) h1 h2)
              (fun c hh => .raise u c _ hc hb hu (by simp [dirFrontEnd]) hh) (fun hh => .noOp u hc hb hu hh)
              (fun hh => .wait u hc hu hh)
        | some p =>
          rw [hp] at hr
          cases p with
          | bcop w n20 =>
            exact fetchedOf_cases hr (fun i h1 h2 => .bcop u i w n20 hc hb hu hp h1 h2)
              (fun c hh => .raise u c _ hc hb hu (cursorDir_le _ _) hh) (fun hh => .noOp u hc hb hu hh)
              (fun hh => .wait u hc hu hh)
          | code k =>
            exact fetchedOf_cases hr (fun i h1 h2 => .code u i _ _ hc hb hu h1 h2)
              (fun c hh => .raise u c _ hc hb hu (cursorDir_le _ _) hh) (fun hh => .noOp u hc hb hu hh)
              (fun hh => .wait u hc hu hh)
      · exact .wait u hc hu (by cases hr; rfl)
    rw [step, if_neg (by simpa using hc)] at h
    split at h
    · next r rest hi => exact .host r rest hc hi h
    · next rest hi => exact key _ (Or.inr ⟨rest, hi, rfl⟩) h
    · next hi => exact key s (Or.inl rfl) h
  · rw [step, if_pos hc, fetch, if_pos hc] at h
    obtain ⟨i, hd⟩ := decode_cmd_ok _ hc
    rw [hd] at h
    exact .cmd i hc hd h

/-! ### What each unit's decoder reads -/

/-- The 17 sequencer steps. -/
def isSeq : Instr → Bool
  | .chdr | .dseek | .dhdr | .fgeom | .dbox | .optchk | .bsizes | .palv | .slice | .dgrid | .fgrid | .rcell | .pxlat | .ichk
  | .ccell | .dfin | .cfin => true
  | _ => false

/-- The two host commands. -/
def isCmd : Instr → Bool
  | .start _ | .clear _ => true
  | _ => false

/-- A decoder's sequence that answers is two that answer. -/
theorem except_bind_ok {ε α β : Type} {m : Except ε α} {k : α → Except ε β} {b : β} (h : (m >>= k) = .ok b) :
    ∃ a, m = .ok a ∧ k a = .ok b := by
  cases m with
  | ok a => exact ⟨a, rfl, h⟩
  | error e => cases h

/-- A `BCOP` word is neither a sequencer step nor a command. -/
theorem decode_bcop_kind {w : BitVec 15} {n : BitVec 20} {i : Instr} (h : decode (.bcop w n) = .ok i) :
    isSeq i = false ∧ isCmd i = false := by
  simp only [decode, decodeBcop] at h
  split at h
  all_goals first
    | (obtain ⟨a, -, h⟩ := except_bind_ok h
       first
       | (obtain ⟨b, -, h⟩ := except_bind_ok h; cases h; exact ⟨rfl, rfl⟩)
       | (cases h; exact ⟨rfl, rfl⟩))
    | cases h

/-- A sequencer code is a sequencer step, and `CFIN` is code 17. -/
theorem decode_seq_kind {p : BitVec 5} {i : Instr} (h : decode (.seq p) = .ok i) :
    isSeq i = true ∧ isCmd i = false ∧ (i = .cfin ↔ p = phCfin) := by
  have all : ∀ p : BitVec 5, (match decode (.seq p) with
      | .ok i => decide (isSeq i = true ∧ isCmd i = false ∧ (i = .cfin ↔ p = phCfin))
      | .error _ => true) = true := by decide
  have := all p
  rw [h] at this
  simpa using this

/-- A command word is `START`, `CLEAR`, or `CLEAR` with `START`. -/
theorem decode_cmd_kind {c : BitVec 2} {i : Instr} (h : decode (.cmd c) = .ok i) :
    (c = 1 ∧ i = .start false) ∨ (c = 2 ∧ i = .clear false) ∨ (c = 3 ∧ i = .clear true) := by
  have all : ∀ c : BitVec 2, c = 0 ∨ c = 1 ∨ c = 2 ∨ c = 3 := by decide
  rcases all c with rfl | rfl | rfl | rfl <;> cases h <;> simp

/-- An in-stream format or code is neither a sequencer step nor a command. -/
theorem decode_code_kind {k : CodeFmt} {b : List Bool} {i : Instr} (h : decode (.code k b) = .ok i) :
    isSeq i = false ∧ isCmd i = false := by
  simp only [decode] at h
  obtain ⟨⟨j, r⟩, hd, h⟩ := except_bind_ok h
  cases h
  cases k <;> simp only [decodeCode] at hd
  case cont =>
    simp only [decodeCont] at hd
    obtain ⟨⟨_, _⟩, -, hd⟩ := except_bind_ok hd
    dsimp only at hd
    split at hd
    · cases hd
    iterate 4 obtain ⟨⟨_, _⟩, -, hd⟩ := except_bind_ok hd
    dsimp only at hd
    split at hd
    · cases hd
    obtain ⟨⟨_, _⟩, -, hd⟩ := except_bind_ok hd
    cases hd; exact ⟨rfl, rfl⟩
  case sizes c =>
    simp only [decodeSizes] at hd
    obtain ⟨⟨_, _⟩, -, hd⟩ := except_bind_ok hd
    obtain ⟨⟨_, _⟩, -, hd⟩ := except_bind_ok hd
    dsimp only at hd
    split at hd
    · obtain ⟨⟨_, _⟩, -, hd⟩ := except_bind_ok hd
      obtain ⟨⟨_, _⟩, -, hd⟩ := except_bind_ok hd
      cases hd; exact ⟨rfl, rfl⟩
    · cases hd; exact ⟨rfl, rfl⟩
  case dhdr =>
    simp only [decodeDhdr] at hd
    iterate 9 obtain ⟨⟨_, _⟩, -, hd⟩ := except_bind_ok hd
    cases hd; exact ⟨rfl, rfl⟩
  case fhdr =>
    simp only [decodeFhdr] at hd
    iterate 8 obtain ⟨⟨_, _⟩, -, hd⟩ := except_bind_ok hd
    cases hd; exact ⟨rfl, rfl⟩
  case pixcode0 => cases hd; exact ⟨rfl, rfl⟩
  all_goals
    obtain ⟨⟨_, _⟩, -, hd⟩ := except_bind_ok hd
    first
    | (cases hd; exact ⟨rfl, rfl⟩)
    | (dsimp only at hd; split at hd <;> cases hd <;> exact ⟨rfl, rfl⟩)

end Sys2Proof.Machine
end

