-- ==== Sys2Proof/Tests/Slice0.lean ====
section
/-!
SUPPORT. The model's own tests: an ill-formed term for each well-formedness check; a word written out from 30_encoding.md for
each constructor; single steps whose expected results are the vectors of 95_test_vectors.md (named in each comment) or are worked
by hand from the cited rule; and, for every statement that has hypotheses, states and operands that meet them.
-/

namespace Sys2Proof.Tests

open Sys2Proof Sys2Proof.Machine

set_option Elab.async false

/-! ### Helpers -/

/-- A buffer of the given bytes. -/
def buf (bs : List Nat) : Buf :=
  { mem := Mem.ofCells ((List.range bs.length).zip (bs.map fun b => BitVec.ofNat 8 b)), len := BitVec.ofNat 32 bs.length }

/-- The bits of bytes in the order they are read: bit 0 of the first byte first (20_memory.md R62). -/
def lsb (bs : List Nat) : List Bool := bs.flatMap fun b => (List.range 8).map fun i => b.testBit i

/-- A block at work on a buffer: `BUSY`, the front end waiting in `CFIN`, the engine in step `p`, one frame, one direction. -/
def busy (p : BitVec 5) (bs : List Nat) : State :=
  { State.reset with
    status := stBusy
    ibuf := buf bs
    front := { resetFront with phase := phCfin, ndir := 1, nframes := 1 }
    eng := { resetEngine with phase := p } }

/-- The outcome is a next state with property `p`. -/
def nextIs (o : Host.Outcome State Fault Refusal) (p : State → Bool) : Bool :=
  match o with
  | .next t => p t
  | _ => false

/-- What the decoder reads, or nothing. -/
def reads (x : Encoded) : Option Instr :=
  match decode x with
  | .ok i => some i
  | .error _ => none

/-- The error registers and the status of a raise by direction `d`. -/
def raised (t : State) (kind cause : Nat) (d : Nat) : Bool :=
  decide (t.status = stError ∧ t.errkind.toNat = kind ∧ t.errcause.toNat = cause ∧ t.errdir.toNat = d ∧
    t.front.phase = 0 ∧ t.eng.phase = 0)

/-- Cursor `(POS, CONS)`. -/
def at' (p c : Nat) : Cursor := { pos := p, cons := c }

/-- The buffer `XB` of 95_test_vectors.md 2.1. -/
def xb : List Nat := [0xB5, 0x3C, 0xF0, 0x81, 0x7E]

/-- `XB` with cursor `MAIN` at bit `p`. -/
def bcAt (p : Nat) : State := { busy phRcell xb with eng.tr.main := at' p 0 }

/-! ### Well-formedness: each check refuses something -/

/-- Widths all 0 but the frame width's. -/
def wbW (n : BitVec 6) : Widths := { v0 := 0, w := n, h := 0, x := 0, y := 0, o := 0, c := 0 }

/-- Widths all 0 but the x offset's. -/
def wbX (n : BitVec 6) : Widths := { v0 := 0, w := 0, h := 0, x := n, y := 0, o := 0, c := 0 }

/-- A frame header of zeros. -/
def fhdr0 : FhdrFields :=
  { variable0 := 0, width := 0, height := 0, xoffset := 0, yoffset := 0, noptional := 0, ncoded := 0, bottomup := 0 }

theorem test_wf_rdbits : Instr.wf (.rdbits .ccur 33) = false := by decide
theorem test_wf_rdsbits : Instr.wf (.rdsbits (.eng .rp) 33) = false := by decide
theorem test_wf_start : Instr.wf (.start true) = false := by decide
theorem test_wf_offt : Instr.wf (.fmtOfft (List.replicate 256 0)) = false := by decide +kernel
theorem test_wf_fhdr_width : Instr.wf (.fmtFhdr (wbW 33) fhdr0) = false := by decide
theorem test_wf_fhdr_unsigned : Instr.wf (.fmtFhdr (wbW 4) { fhdr0 with width := 16 }) = false := by decide
theorem test_wf_fhdr_signed : Instr.wf (.fmtFhdr (wbX 4) { fhdr0 with xoffset := 8 }) = false := by decide
theorem test_wf_fhdr_absent : Instr.wf (.fmtFhdr (wbX 0) { fhdr0 with xoffset := 1 }) = false := by decide
theorem test_wf_dnib : Instr.wf (.dnibEnd 15) = false := by decide

/-! ### Decoding: a word for each constructor (30_encoding.md R91 to R124) -/

-- `op` bits 2 to 0, `cur` bits 5 to 3, `n` bits 11 to 6, `src` bits 14 to 12 (R120); MAIN, EC, PM, ET, RP, CCUR are 0 to 5 (R121)
theorem test_decode_rdbits : reads (.bcop 0b000_001100_010_001 0) = some (.rdbits (.eng .pm) 12) := by decide
theorem test_decode_rdsbits : reads (.bcop 0b000_100000_011_010 0) = some (.rdsbits (.eng .et) 32) := by decide
theorem test_decode_rdbit : reads (.bcop 0b000_000000_101_011 0) = some (.rdbit .ccur) := by decide
theorem test_decode_skip : reads (.bcop 0b000_000000_000_100 100) = some (.skip (.eng .main) 100) := by decide
theorem test_decode_cons : reads (.bcop 0b000_000000_100_101 0) = some (.cons (.eng .rp)) := by decide
theorem test_decode_clone : reads (.bcop 0b000_000000_001_110 0) = some (.clone (.eng .ec) (.eng .main)) := by decide
-- `START` bit 0, `CLEAR` bit 1 (R122)
theorem test_decode_start : reads (.cmd 0b01) = some (.start false) := by decide
theorem test_decode_clear : reads (.cmd 0b10) = some (.clear false) := by decide
theorem test_decode_both : reads (.cmd 0b11) = some (.clear true) := by decide
-- `PHASE` codes (R123)
theorem test_decode_steps : (List.range 17).map (fun k => reads (.seq (BitVec.ofNat 5 (k + 1)))) =
    [some .chdr, some .dseek, some .dhdr, some .fgeom, some .dbox, some .optchk, some .bsizes, some .palv, some .slice,
      some .dgrid, some .fgrid, some .rcell, some .pxlat, some .ichk, some .ccell, some .dfin, some .cfin] := by decide
-- E23: P1's bytes 0 to 14 with bytes 11 to 14 = EF BE AD DE (R91)
theorem test_decode_cont : reads (.code .cont (lsb [0x74, 6, 1, 1, 0, 0, 0, 1, 0, 0, 0, 0xEF, 0xBE, 0xAD, 0xDE])) =
    some (.fmtCont 6 1 1 0xDEADBEEF) := by decide +kernel
-- two offsets, little-endian (R92)
theorem test_decode_offt : reads (.code (.offt 2) (lsb [0x17, 0, 0, 0, 0x44, 1, 0, 0])) = some (.fmtOfft [23, 324]) := by
  decide +kernel
-- DH1: P3 bytes 19 to 26 (R96)
theorem test_decode_dhdr : reads (.code .dhdr (lsb [0x34, 0x12, 0, 0, 0xC7, 0x8C, 0x0C, 0x4C])) = some (.fmtDhdr
    { outsize := 0x1234, cflags := 3, v0idx := 1, widx := 3, hidx := 3, xidx := 2, yidx := 3, oidx := 0, cidx := 3 }) := by
  decide +kernel
-- widths 4, 4, y 4 bits: width 4, height 2, y -1, flag 0, first bit read first (R97, R102)
theorem test_decode_fhdr : reads (.code (.fhdr { v0 := 0, w := 4, h := 4, x := 0, y := 4, o := 0, c := 0 })
    [false, false, true, false, false, true, false, false, true, true, true, true, false]) =
    some (.fmtFhdr { v0 := 0, w := 4, h := 4, x := 0, y := 4, o := 0, c := 0 }
      { fhdr0 with width := 4, height := 2, yoffset := 0xFFFFFFFF }) := by decide +kernel
-- BS4: P3 from bit 2 of byte 34 (R99)
theorem test_decode_sizes : reads (.code (.sizes 3) ((lsb [0x0D, 0, 0, 1, 0, 0x0C, 0, 0, 4, 0, 0]).drop 2)) =
    some (.fmtSizes (some 3) 4 (some (3, 16))) := by decide +kernel
-- only flag 42: bit 2 of byte 5 (R100)
theorem test_decode_palv : reads (.code .palv (lsb ([0, 0, 0, 0, 0, 4] ++ List.replicate 26 0))) =
    some (.fmtPalv 0x40000000000) := by decide +kernel
theorem test_decode_sig : reads (.code .sig (lsb [0x74])) = some .sig := by decide
theorem test_decode_sentinel : reads (.code .sentinel (lsb [1, 0, 0, 0])) = some .sentinel := by decide
theorem test_decode_widx : reads (.code (.widx 3) [true, false, true, false]) = some (.widx 3 5) := by decide
theorem test_decode_ecbit : reads (.code .ecbit [true]) = some (.ecbit 1) := by decide
theorem test_decode_pmask : reads (.code .pmask [false, true, false, true]) = some (.pmask 10) := by decide
theorem test_decode_etbit : reads (.code .etbit [false]) = some (.etbit 0) := by decide
theorem test_decode_rawval : reads (.code .rawval (lsb [0x41])) = some (.rawval 65) := by decide
theorem test_decode_dnibEnd : reads (.code .dnib [false, true, true, true]) = some (.dnibEnd 14) := by decide
theorem test_decode_dnibCont : reads (.code .dnib [true, true, true, true]) = some .dnibCont := by decide
theorem test_decode_pixcode0 : reads (.code .pixcode0 []) = some .pixcode0 := by decide
theorem test_decode_pixcode1 : reads (.code .pixcode1 [true]) = some (.pixcode1 1) := by decide
theorem test_decode_pixcode2 : reads (.code .pixcode2 [true, false]) = some (.pixcode2 1) := by decide

/-! ### Table words -/

theorem test_table_words : [decodeTableWord 16 0b000_001100_010_001, decodeTableWord 8 12, decodeTableWord 8 0x74,
    decodeTableWord 32 1, decodeTableWord 8 18] = [some (.rdbits (.eng .pm) 12), some .rcell, some .sig, some .sentinel, none] := by
  decide +kernel
-- the next step after the word is placed runs it (41_container_and_sequencer.md R156: `DSEEK` goes to `DHDR`)
theorem test_withFetchWord : nextIs (step (State.reset.withFetchWord 8 2)) (fun t => t.eng.phase = phDhdr) = true := by
  decide +kernel
theorem test_withFetchWord_bcop :
    nextIs (step (State.reset.withFetchWord 16 0b000_000000_000_100)) (fun t => t.port = none ∧ t.status = stBusy) = true := by
  decide +kernel

/-! ### BitCursor (95_test_vectors.md 2.1) -/

-- BC7, BC21
theorem test_rdbits : nextIs (exec (.rdbits (.eng .main) 32) (bcAt 4))
    (fun t => t.bcOut = 0xE81F03CB ∧ t.eng.tr.main = at' 36 32) = true := by decide +kernel
theorem test_rdbits_end : nextIs (exec (.rdbits (.eng .main) 32) (bcAt 9))
    (fun t => raised t 1 3 0 ∧ t.eng.tr.main = at' 9 0) = true := by decide +kernel
-- BC9, BC14
theorem test_rdsbits : nextIs (exec (.rdsbits (.eng .main) 4) (bcAt 8))
    (fun t => t.bcOut = -4 ∧ t.eng.tr.main = at' 12 4) = true := by decide +kernel
theorem test_rdsbits_one : nextIs (exec (.rdsbits (.eng .main) 1) (bcAt 0)) (fun t => t.bcOut = -1) = true := by decide +kernel
-- BC1, BC19
theorem test_rdbit : nextIs (exec (.rdbit (.eng .main)) (bcAt 0))
    (fun t => t.bcOut = 1 ∧ t.eng.tr.main = at' 1 1) = true := by decide +kernel
theorem test_rdbit_end : nextIs (exec (.rdbit (.eng .main)) (bcAt 40)) (fun t => raised t 1 3 0) = true := by decide +kernel
-- BC22
theorem test_skip : nextIs (exec (.skip (.eng .main) 100) (bcAt 36)) (fun t => t.eng.tr.main = at' 136 100) = true := by
  decide +kernel
-- BC27
theorem test_cons : nextIs (exec (.cons (.eng .rp)) { bcAt 0 with eng.tr.rp := at' 13 3 })
    (fun t => t.bcOut = 3 ∧ t.eng.tr.rp = at' 13 3) = true := by decide +kernel
-- BC28
theorem test_clone : nextIs (exec (.clone (.eng .ec) (.eng .main)) { bcAt 0 with eng.tr.main := at' 17 9 })
    (fun t => t.eng.tr.ec = at' 17 0 ∧ t.eng.tr.main = at' 17 9) = true := by decide +kernel

/-! ### Host commands (95_test_vectors.md 2.2) -/

/-- `ERROR` with a record. -/
def failed : State :=
  { State.reset with status := stError, errkind := 1, errcause := 1, errdir := 0x100, irqEn := 1, irq := 1 }

-- H1, H7
theorem test_start : nextIs (exec (.start false) { State.reset with ctrl := 1 })
    (fun t => t.status = stBusy ∧ t.front.phase = phChdr ∧ t.ctrl = 0) = true := by decide +kernel
theorem test_start_busy : nextIs (exec (.start false) (busy phRcell [])) (fun t => t.eng.phase = phRcell ∧ t.status = stBusy) = true := by
  decide +kernel
-- H5, H6
theorem test_clear : nextIs (exec (.clear false) failed)
    (fun t => t.status = stIdle ∧ t.errkind = 0 ∧ t.errcause = 0 ∧ t.errdir = 0 ∧ t.irq = 0 ∧ t.irqEn = 1) = true := by
  decide +kernel
theorem test_clear_both : nextIs (exec (.clear true) { State.reset with status := stDone }) (fun t => t.status = stBusy) = true := by
  decide +kernel

/-! ### Container front end -/

/-- P1's first 19 bytes with a signature byte `sg` and `n` directions. -/
def p1Head (sg n : Nat) : List Nat := [sg, 6, n, 1, 0, 0, 0, 1, 0, 0, 0, 0, 0, 0, 0, 19, 0, 0, 0]

/-- The front end in `CHDR` on a buffer. -/
def chdrOn (bs : List Nat) : State :=
  { State.reset with status := stBusy, ibuf := buf bs, front := { resetFront with phase := phChdr } }

-- P1; E1
theorem test_chdr : nextIs (exec .chdr (chdrOn (p1Head 0x74 1)))
    (fun t => t.front.version = 6 ∧ t.front.ndir = 1 ∧ t.front.nframes = 1 ∧ t.front.diroff = [19] ∧ t.front.phase = phCfin ∧
      t.eng.phase = phDseek ∧ t.front.ccur = at' 152 152) = true := by decide +kernel
theorem test_chdr_signature : nextIs (exec .chdr (chdrOn (p1Head 0 1))) (fun t => raised t 1 1 0x100) = true := by decide +kernel
-- E21
theorem test_dseek : nextIs (exec .dseek { busy phDseek [] with front.diroff := [0x80000000] })
    (fun t => t.eng.tr.main = at' (2 ^ 34) 0 ∧ t.eng.phase = phDhdr) = true := by decide +kernel
-- H8
theorem test_cfin : nextIs (exec .cfin { busy phIdle [] with irqEn := 1 })
    (fun t => t.status = stDone ∧ t.irq = 1 ∧ t.front.phase = phIdle) = true := by decide +kernel

/-! ### Direction header (95_test_vectors.md 2.3) -/

-- DH1
theorem test_dhdr : nextIs (exec .dhdr (busy phDhdr [0x34, 0x12, 0, 0, 0xC7, 0x8C, 0x0C, 0x4C]))
    (fun t => t.eng.regs.outsize = 0x1234 ∧ t.eng.regs.cflags = 3 ∧
      t.eng.regs.wb = { v0 := 1, w := 4, h := 4, x := 2, y := 4, o := 0, c := 4 } ∧ t.eng.tr.main = at' 62 62) = true := by
  decide +kernel
-- R175
theorem test_optchk : nextIs (exec .optchk { busy phOptchk [] with eng.regs.wb.o := 1 }) (fun t => raised t 2 0x11 0) = true := by
  decide +kernel
-- BS4
theorem test_bsizes : nextIs (exec .bsizes { busy phBsizes [0x0D, 0, 0, 1, 0, 0x0C, 0, 0, 4, 0, 0] with
      eng.regs.cflags := 3, eng.tr.main := at' 2 0 })
    (fun t => t.eng.regs.ecsize = 3 ∧ t.eng.regs.pmsize = 4 ∧ t.eng.regs.etsize = 3 ∧ t.eng.regs.rpsize = 16 ∧
      t.eng.tr.main = at' 82 80) = true := by decide +kernel
-- BS3
theorem test_bsizes_flags : nextIs (exec .bsizes { busy phBsizes [0x0D, 0, 0, 1, 0] with eng.regs.cflags := 2 })
    (fun t => t.eng.regs.ecsize = 13 ∧ t.eng.regs.pmsize = 16 ∧ t.eng.regs.etsize = 0 ∧ t.eng.tr.main = at' 40 40) = true := by
  decide +kernel
-- PV2 has {16, 32, 48}; here {42, 255}: bit 2 of byte 5, bit 7 of byte 31
theorem test_palv : nextIs (exec .palv (busy phPalv ([0, 0, 0, 0, 0, 4] ++ List.replicate 25 0 ++ [128])))
    (fun t => t.eng.regs.palcnt = 2 ∧ t.eng.regs.pal.take 3 = [42, 255, 0] ∧ t.eng.regs.pal.length = 256 ∧
      t.eng.tr.main = at' 256 256) = true := by decide +kernel
-- SL1
theorem test_slice : nextIs (exec .slice { busy phSlice [] with
      eng.tr.main := at' 610 458, eng.regs.ecsize := 3, eng.regs.pmsize := 4, eng.regs.etsize := 3, eng.regs.rpsize := 16 })
    (fun t => t.eng.tr.ec = at' 610 0 ∧ t.eng.tr.pm = at' 613 0 ∧ t.eng.tr.et = at' 617 0 ∧ t.eng.tr.rp = at' 620 0 ∧
      t.eng.tr.main = at' 636 484) = true := by decide +kernel

/-! ### Frame geometry and grids (95_test_vectors.md 2.4 to 2.6) -/

/-- A frame header of 4-bit width, height and y: FG1 is `[0x44, 0x03]`. -/
def fgeomOn (bs : List Nat) : State :=
  { busy phFgeom bs with eng.regs.wb := { v0 := 0, w := 4, h := 4, x := 0, y := 4, o := 0, c := 0 } }

-- FG1; FG9
theorem test_fgeom : nextIs (exec .fgeom (fgeomOn [0x44, 0x03]))
    (fun t => (t.eng.regs.frame 0).fl = 0 ∧ (t.eng.regs.frame 0).ft = 0 ∧ t.eng.regs.maxr = 4 ∧ t.eng.regs.maxb = 4 ∧
      t.eng.tr.main = at' 13 13 ∧ t.eng.phase = phDbox) = true := by decide +kernel
theorem test_fgeom_empty : nextIs (exec .fgeom (fgeomOn [0x40, 0x03])) (fun t => raised t 1 5 0) = true := by decide +kernel

/-- The accumulators of B3. -/
def dboxB3 : State :=
  { busy phDbox [] with eng.regs.minl := -3, eng.regs.mint := -3, eng.regs.maxr := 6, eng.regs.maxb := 6 }

-- B3; a canvas of 81 pixels where 80 fit (00_scope.md R6)
theorem test_dbox : nextIs (exec .dbox dboxB3)
    (fun t => t.eng.regs.dl = -3 ∧ t.eng.regs.dt = -3 ∧ t.eng.regs.dw = 9 ∧ t.eng.regs.dh = 9) = true := by decide +kernel
theorem test_dbox_capacity : nextIs (exec .dbox { dboxB3 with caps.maxCanvas := some 80 }) (fun t => raised t 4 0x31 0) = true := by
  decide +kernel

/-- The direction box of P3. -/
def dgridG3 : State := { busy phDgrid [] with eng.regs.dw := 6, eng.regs.dh := 5 }

/-- P3's frame 1 in its direction box. -/
def fgridG6 : State :=
  { busy phFgrid [] with
    front.nframes := 3
    eng.frm := 1
    eng.regs.fg := [zeroFrame, { zeroFrame with fw := 5, fh := 3, fl := 1, ft := 2 }] }

-- G3, G6, and G2's entries (10, 3) and (9, 0)
theorem test_dgrid : nextIs (exec .dgrid dgridG3)
    (fun t => t.eng.regs.hcc = 2 ∧ t.eng.regs.vcc = 2 ∧ t.eng.tr.occ = [none, none, none, none] ∧
      t.eng.regs.dcell = [⟨4, 4, 0, 0⟩, ⟨2, 4, 4, 0⟩, ⟨4, 1, 0, 4⟩, ⟨2, 1, 4, 4⟩]) = true := by decide +kernel
theorem test_fgrid : nextIs (exec .fgrid fgridG6)
    (fun t => t.eng.regs.fhcc = [0, 2] ∧ t.eng.regs.fvcc = [0, 1] ∧ t.eng.frm = 2 ∧
      t.eng.regs.fcell = [[], [⟨3, 3, 1, 2⟩, ⟨2, 3, 4, 2⟩]]) = true := by decide +kernel
theorem test_ftile : ftile 10 3 = [1, 4, 5] ∧ ftile 9 0 = [4, 5] ∧ ftile 12 1 = [3, 4, 5] := by decide

/-! ### Reconstructor (95_test_vectors.md 2.7 to 2.9) -/

/-- A visit of the only cell of the only frame, no occupant yet. -/
def rcellOn (bs : List Nat) : State :=
  { busy phRcell bs with eng.regs.hcc := 1, eng.regs.vcc := 1, eng.regs.fhcc := [1], eng.regs.fvcc := [1], eng.tr.occ := [none] }

/-- The same with the quad `q` in occupation. -/
def rcellAfter (q : Quad) (bs : List Nat) : State :=
  { rcellOn bs with eng.tr.pbe := [{ zeroEntry with q := q }], eng.tr.occ := [some 0] }

/-- The assembled quad of entry `i`. -/
def quadOf (t : State) (i : Nat) : Quad := (fileRead zeroEntry t.eng.tr.pbe i).q

-- RC2; RC11, with the streams side by side: `EC` bit 0, `PM` bits 1 to 4, `ET` bit 5, `MAIN` from bit 8
theorem test_rcell : nextIs (exec .rcell (rcellOn [0x23, 0x00]))
    (fun t => quadOf t 0 = ⟨5, 3, 0, 0⟩ ∧ t.eng.tr.main = at' 12 12 ∧ t.eng.tr.occ = [some 0] ∧ t.eng.phase = phPxlat) = true := by
  decide +kernel
theorem test_rcell_inherits : nextIs (exec .rcell { rcellAfter ⟨25, 21, 20, 18⟩ [0b00001010, 0x05] with
      eng.regs.ecsize := 3, eng.regs.etsize := 3, eng.tr.pm := at' 1 0, eng.tr.et := at' 5 0, eng.tr.main := at' 8 0 })
    (fun t => quadOf t 1 = ⟨5, 21, 0, 18⟩ ∧ t.eng.tr.ec = at' 1 1 ∧ t.eng.tr.pm = at' 5 4 ∧ t.eng.tr.et = at' 6 1 ∧
      t.eng.tr.main = at' 16 8 ∧ t.eng.tr.occ = [some 1]) = true := by decide +kernel
-- PX2 and PX6's last slots
theorem test_pxlat : nextIs (exec .pxlat { busy phPxlat [] with
      eng.regs.pal := [16, 32, 48], eng.tr.pbe := [{ zeroEntry with q := ⟨1, 0, 0, 0⟩ }, { zeroEntry with q := ⟨2, 3, 200, 255⟩ }] })
    (fun t => t.eng.tr.pbe.map (fun x => x.t) = [⟨32, 16, 16, 16⟩, ⟨48, 0, 0, 0⟩] ∧ quadOf t 0 = ⟨1, 0, 0, 0⟩) = true := by
  decide +kernel

/-- A direction cell once used, a canvas once painted. -/
def ichkOn : State :=
  { busy phIchk [] with
    eng.regs.hcc := 1, eng.regs.vcc := 1, eng.tr.pbidx := 3, eng.tr.canvas := [(0, 5)]
    eng.tr.last := [{ valid := true, w := 4, h := 4, x := 0, y := 0 }] }

-- IC1, IC4
theorem test_ichk : nextIs (exec .ichk ichkOn)
    (fun t => t.eng.tr.pbidx = 0 ∧ t.eng.tr.canvas = [] ∧ t.eng.tr.last.map (fun l => l.valid) = [false] ∧
      t.eng.phase = phCcell) = true := by decide +kernel
theorem test_ichk_order : nextIs (exec .ichk { ichkOn with eng.tr.pm.cons := 4, eng.tr.rp.cons := 8 })
    (fun t => raised t 3 0x21 0) = true := by decide +kernel

/-! ### Compositor (95_test_vectors.md 2.10) -/

/-- A cell 3 wide, 1 high at `(x, 0)` in a canvas 4 wide. -/
def ccellOn (x : Nat) (bs : List Nat) : State :=
  { busy phCcell bs with
    eng.regs.dw := 4, eng.regs.dh := 1, eng.regs.hcc := 1, eng.regs.vcc := 1, eng.regs.fhcc := [1], eng.regs.fvcc := [1]
    eng.regs.fcell := [[⟨3, 1, x, 0⟩]], eng.tr.last := [{ valid := false, w := 0, h := 0, x := 0, y := 0 }] }

/-- P4 before frame 1: CC5's canvas and last occurrence. -/
def ccellCC5 : State :=
  { ccellOn 1 [] with
    eng.tr.canvas := [(0, 0xD0), (1, 0xC0), (2, 0xB0)], eng.tr.last := [{ valid := true, w := 3, h := 1, x := 0, y := 0 }] }

/-- A fresh cell with the translated quad `q`. -/
def ccellFresh (q : Quad) (bs : List Nat) : State :=
  { ccellOn 0 bs with eng.tr.pbe := [{ zeroEntry with t := q }] }

/-- P4's frame 0: two-bit codes 0, 1, 2. -/
def ccellP4 : State := ccellFresh ⟨208, 192, 176, 160⟩ [0b100100]

-- codes 0, 1, 2 of `[208, 192, 176, 160]`; CC5
theorem test_ccell : nextIs (exec .ccell ccellP4)
    (fun t => t.eng.tr.canvas = [(0, 208), (1, 192), (2, 176)] ∧ t.eng.regs.out = [[(0, 208), (1, 192), (2, 176)]] ∧
      t.eng.tr.pbidx = 1 ∧ t.eng.tr.main = at' 6 6 ∧ t.eng.tr.last = [⟨true, 3, 1, 0, 0⟩] ∧ t.eng.phase = phDfin) = true := by
  decide +kernel
theorem test_ccell_smear : nextIs (exec .ccell ccellCC5)
    (fun t => t.eng.tr.canvas = [(0, 0xD0), (1, 0xD0), (2, 0xD0), (3, 0xD0)] ∧
      t.eng.regs.out = [[(1, 0xD0), (2, 0xD0), (3, 0xD0)]]) = true := by decide +kernel
-- DF1, R268
theorem test_dfin : nextIs (exec .dfin { busy phDfin [] with eng.regs.out := [[(0, 42)]] })
    (fun t => t.result.map (fun r => r.out) = [[[(0, 42)]]] ∧ t.eng.phase = phIdle) = true := by decide +kernel

/-! ### In-stream formats and codes -/

theorem test_fmtCont : nextIs (exec (.fmtCont 6 1 3 9) (busy phIdle []))
    (fun t => t.front.signature = 0x74 ∧ t.front.nframes = 3 ∧ t.front.totalsize = 9 ∧ t.front.ccur = at' 120 120) = true := by
  decide +kernel
theorem test_fmtOfft : nextIs (exec (.fmtOfft [23, 324]) (busy phIdle []))
    (fun t => t.front.diroff = [23, 324] ∧ t.front.ccur = at' 64 64) = true := by decide +kernel
theorem test_fmtDhdr : nextIs (exec (.fmtDhdr
      { outsize := 0, cflags := 2, v0idx := 0, widx := 2, hidx := 1, xidx := 2, yidx := 0, oidx := 0, cidx := 15 }) (busy phDhdr []))
    (fun t => t.eng.regs.cflags = 2 ∧ t.eng.regs.wb = { v0 := 0, w := 2, h := 1, x := 2, y := 0, o := 0, c := 32 } ∧
      t.eng.tr.main = at' 62 62) = true := by decide +kernel
-- FG11: the bottom-up flag is tested first
theorem test_fmtFhdr : nextIs (exec (.fmtFhdr (wbW 4) { fhdr0 with bottomup := 1 }) (busy phFgeom []))
    (fun t => raised t 2 0x10 0) = true := by decide +kernel
theorem test_fmtFhdr_fields : nextIs (exec (.fmtFhdr (wbW 4) { fhdr0 with width := 4, height := 1 }) (busy phFgeom []))
    (fun t => (t.eng.regs.frame 0).fw = 4 ∧ t.eng.tr.main = at' 5 5) = true := by decide +kernel
theorem test_fmtSizes : nextIs (exec (.fmtSizes none 4 (some (3, 16))) (busy phBsizes []))
    (fun t => t.eng.regs.ecsize = 0 ∧ t.eng.regs.pmsize = 4 ∧ t.eng.regs.etsize = 3 ∧ t.eng.regs.rpsize = 16 ∧
      t.eng.tr.main = at' 60 60) = true := by decide +kernel
theorem test_fmtPalv : nextIs (exec (.fmtPalv 0x40000000000) (busy phPalv []))
    (fun t => t.eng.regs.palcnt = 1 ∧ t.eng.regs.pal.take 2 = [42, 0]) = true := by decide +kernel
theorem test_sig : nextIs (exec .sig (busy phIdle [])) (fun t => t.front.signature = 0x74 ∧ t.front.ccur = at' 8 8) = true := by
  decide +kernel
theorem test_sentinel : nextIs (exec .sentinel (busy phIdle [])) (fun t => t.front.sentinel = 1 ∧ t.front.ccur = at' 32 32) = true := by
  decide +kernel
-- DH4: index 10 is width 20
theorem test_widx : nextIs (exec (.widx 3 10) (busy phDhdr []))
    (fun t => t.eng.regs.wb = wbX 20 ∧ t.eng.tr.main = at' 4 4) = true := by decide +kernel
theorem test_ecbit : nextIs (exec (.ecbit 1) (busy phRcell [])) (fun t => t.eng.tr.work.eq = 1 ∧ t.eng.tr.ec = at' 1 1) = true := by
  decide +kernel
theorem test_pmask : nextIs (exec (.pmask 11) (busy phRcell []))
    (fun t => t.eng.tr.work.mask = 11 ∧ t.eng.tr.work.cnt = 3 ∧ t.eng.tr.pm = at' 4 4) = true := by decide +kernel
theorem test_etbit : nextIs (exec (.etbit 1) { busy phRcell [] with eng.tr.work.lastpix := 9 })
    (fun t => t.eng.tr.work.etb = 1 ∧ t.eng.tr.work.lastpix = 0 ∧ t.eng.tr.et = at' 1 1) = true := by decide +kernel
-- RC10: a repeated raw value ends the loop
theorem test_rawval : nextIs (exec (.rawval 7) { busy phRcell [] with eng.tr.work.lastpix := 7 })
    (fun t => t.eng.tr.work.vend ∧ t.eng.tr.work.vals = [] ∧ t.eng.tr.rp = at' 8 8) = true := by decide +kernel
-- RC12: 2 and then a chain of 15 and 0 is 17
theorem test_dnibCont : nextIs (exec .dnibCont { busy phRcell [] with eng.tr.work.lastpix := 2, eng.tr.work.vals := [2] })
    (fun t => t.eng.tr.work.v = 17 ∧ t.eng.tr.work.chain ∧ t.eng.tr.work.vals = [2]) = true := by decide +kernel
theorem test_dnibEnd : nextIs (exec (.dnibEnd 0) { busy phRcell [] with
      eng.tr.work.lastpix := 2, eng.tr.work.vals := [2], eng.tr.work.v := 17, eng.tr.work.chain := true })
    (fun t => t.eng.tr.work.vals = [2, 17] ∧ t.eng.tr.work.lastpix = 17 ∧ t.eng.tr.work.chain = false) = true := by decide +kernel
theorem test_pixcode0 : nextIs (exec .pixcode0 (ccellFresh ⟨7, 7, 9, 3⟩ []))
    (fun t => t.eng.tr.canvas = [(0, 7), (1, 7), (2, 7)] ∧ t.eng.tr.main = at' 0 0) = true := by decide +kernel
theorem test_pixcode1 : nextIs (exec (.pixcode1 1) { ccellFresh ⟨32, 16, 16, 16⟩ [] with eng.tr.work.px := 2 })
    (fun t => t.eng.tr.canvas = [(2, 16)] ∧ t.eng.tr.work.px = 0 ∧ t.eng.tr.work.py = 1) = true := by decide +kernel
theorem test_pixcode2 : nextIs (exec (.pixcode2 3) (ccellFresh ⟨51, 43, 41, 37⟩ []))
    (fun t => t.eng.tr.canvas = [(0, 37)] ∧ t.eng.tr.work.px = 1 ∧ t.eng.tr.main = at' 2 2) = true := by decide +kernel

/-! ### The fetch of a code that does not match -/

-- 30_encoding.md R93: any other byte is `BAD_SIGNATURE`
theorem test_fetch_sig : nextIs (step { busy phIdle [0x75] with port := some (.code .sig) }) (fun t => raised t 1 1 0x100) = true := by
  decide +kernel

/-! ### Witnesses: states and operands that meet the hypotheses of each statement that has some -/

theorem ok_of_reads {x : Encoded} {i : Instr} (h : reads x = some i) : decode x = .ok i := by
  unfold reads at h
  split at h
  · next j hj => rw [hj, Option.some.inj h]
  · cases h

theorem next_of {o : Host.Outcome State Fault Refusal} {p : State → Bool} (h : nextIs o p = true) :
    ∃ t, o = .next t ∧ p t = true := by
  cases o with
  | next t => exact ⟨t, rfl, h⟩
  | fault r => cases h
  | refused r => cases h

/-- The invariants hold while an engine step is due on any buffer in canonical form. -/
theorem busy_ctlOk (p : BitVec 5) (bs : List Nat) (h : 2 ≤ p.toNat ∧ p.toNat ≤ 16) : (busy p bs).CtlOk where
  frontPhase := Or.inr (Or.inr rfl)
  engPhase := Or.inr h
  waits := fun _ => rfl
  busy := by simp [busy, stBusy, phCfin, phIdle]
  noError := fun _ => ⟨rfl, rfl, rfl⟩
  error := fun h => by simp [busy, stBusy, stError] at h
  quiet := fun _ => rfl

theorem busy_memOk (p : BitVec 5) (bs : List Nat) : (busy p bs).MemOk where
  ibuf := Mem.wf_ofCells _
  canvas := rfl
  regs := fun _ hm => (nomatch hm)
  result := fun _ hr => (nomatch hr)

theorem resetRegs_legal : resetRegs.Legal where
  widths := by decide
  palLen := by decide +kernel
  palCnt := by decide
  palTop := by decide +kernel

theorem busy_regsOk (p : BitVec 5) (bs : List Nat) : (busy p bs).RegsOk where
  eng := resetRegs_legal
  result := fun _ hr => (nomatch hr)

/-- DH1's bytes before `DHDR`. -/
def dhdrOn : State := busy phDhdr [0x34, 0x12, 0, 0, 0xC7, 0x8C, 0x0C, 0x4C]

theorem dhdrOn_steps : ∃ t, step dhdrOn = .next t := by
  obtain ⟨t, h, -⟩ := next_of (p := fun _ => true) (show nextIs (step dhdrOn) (fun _ => true) = true by decide +kernel)
  exact ⟨t, h⟩

theorem witness_DecodeOfEncode :
    Instr.wf (.fmtFhdr (wbX 32) { fhdr0 with xoffset := 0x80000000 }) = true ∧ Instr.wf (.rdbits .ccur 32) = true ∧
      Instr.wf (.dnibEnd 14) = true ∧ Instr.wf (.fmtOfft (List.replicate 255 0)) = true := by decide +kernel

theorem witness_DecodedIsWellFormed :
    (decode (.code (.offt 2) (lsb [0x17, 0, 0, 0, 0x44, 1, 0, 0])) = .ok (.fmtOfft [23, 324]) ∧ 2 ≤ 255) ∧
      (∃ i, decode (.code (.fhdr (wbW 32)) (lsb [1, 0, 0, 0, 1])) = .ok i ∧ widthsOk (wbW 32) = true) ∧
      decode (.code .dnib [true, true, true, true]) = .ok .dnibCont :=
  ⟨⟨ok_of_reads test_decode_offt, by decide⟩,
    ⟨_, ok_of_reads (i := .fmtFhdr (wbW 32) { fhdr0 with width := 1, bottomup := 1 }) (by decide +kernel), by decide⟩,
    ok_of_reads test_decode_dnibCont⟩

theorem witness_CodeConsumesItsLength :
    decodeCode .pmask [false, true, false, true, true] = .ok (.pmask 10, [true]) ∧
      decodeCode .pixcode0 [true] = .ok (.pixcode0, [true]) := ⟨rfl, rfl⟩

/-- One word for each clause: `op` 0 and 7; cursor 6 and 7; width 33 and 63; source 6; width 32; source 5; the `PHASE` codes
at the edges. -/
theorem witness_SelectCodes :
    decode (.bcop 0b000_000000_000_000 0) = .error .noOperation ∧ decode (.bcop 0b000_000000_000_111 0) = .error .noOperation ∧
    decode (.bcop 0b000_000000_110_011 0) = .error .badCursor ∧ decode (.bcop 0b000_000000_111_001 0) = .error .badCursor ∧
    decode (.bcop 0b000_100001_000_001 0) = .error .badWidth ∧ decode (.bcop 0b000_111111_000_010 0) = .error .badWidth ∧
    decode (.bcop 0b110_000000_000_110 0) = .error .badCursor ∧
    decode (.bcop 0b000_100000_101_001 0) = .ok (.rdbits .ccur 32) ∧
    decode (.bcop 0b101_000000_000_110 0) = .ok (.clone (.eng .main) .ccur) ∧
    decode (.bcop 0b111_111111_000_011 0) = .ok (.rdbit (.eng .main)) ∧
    decode (.seq 0) = .error .noStep ∧ decode (.seq 1) = .ok .chdr ∧ decode (.seq 17) = .ok .cfin ∧
    decode (.seq 18) = .error .neverTaken ∧ decode (.seq 31) = .error .neverTaken :=
  ⟨rfl, rfl, rfl, rfl, rfl, rfl, rfl, rfl, rfl, rfl, rfl, rfl, rfl, rfl, rfl⟩

/-- A `BCOP` word at the port; a code at the port that decodes; one that does not. -/
def portBcop : State := { busy phRcell [] with port := some (.bcop 0b000_000000_000_100 5) }
def portCode : State := { busy phRcell [0x74] with port := some (.code .sig) }
def portBad : State := { busy phRcell [0x75] with port := some (.code .sig) }

/-- `BCOP` words with `op` 0 and 7, a width of 33, cursor number 6; `PHASE` code 18 in each of the two registers. -/
def portOp (w : BitVec 15) : State := { busy phRcell [] with port := some (.bcop w 0) }
def frontNever : State := { busy phIdle [] with front.phase := 18 }

theorem witness_StepRunsDecoded_never :
    (busy phRcell []).ctrl = 0 ∧ (∀ w, (portOp w).ctrl = 0 ∧ (portOp w).inputs = [] ∧ (portOp w).status = stBusy) ∧
    (0 : BitVec 15).toNat % 8 = 0 ∧ (7 : BitVec 15).toNat % 8 = 7 ∧
    decode (.bcop 0b000_100001_000_001 0) = .error .badWidth ∧ decode (.bcop 0b000_000000_110_100 0) = .error .badCursor ∧
    ((busy 18 []).port = none ∧ 18 ≤ (busy 18 []).eng.phase.toNat) ∧
    (frontNever.port = none ∧ frontNever.eng.phase = phIdle ∧ 18 ≤ frontNever.front.phase.toNat) :=
  ⟨rfl, fun _ => ⟨rfl, rfl, rfl⟩, rfl, rfl, rfl, rfl, by decide, by decide⟩

theorem witness_StepRunsDecoded :
    (({ State.reset with ctrl := 1 } : State).ctrl ≠ 0 ∧ decode (.cmd 1) = .ok (.start false)) ∧
    (({ State.reset with inputs := [some .rst] } : State).ctrl = 0 ∧ ({ State.reset with inputs := [some .rst] } : State).inputs = [some .rst]) ∧
    (State.reset.ctrl = 0 ∧ State.reset.inputs = [] ∧ State.reset.status ≠ stBusy) ∧
    (({ dhdrOn with inputs := [none] } : State).inputs = none :: [] ∧ ({ dhdrOn with inputs := [none] } : State).status = stBusy) ∧
    (portBcop.ctrl = 0 ∧ portBcop.status = stBusy ∧ decode (.bcop 0b000_000000_000_100 5) = .ok (.skip (.eng .main) 5)) ∧
    (portCode.status = stBusy ∧ decode (.code (codeFmt portCode .sig) (codeBits portCode .sig)) = .ok .sig) ∧
    (portBad.status = stBusy ∧ decode (.code (codeFmt portBad .sig) (codeBits portBad .sig)) = .error .badSignature ∧
      decodeErrCause .badSignature = some .badSignature) ∧
    (dhdrOn.port = none ∧ dhdrOn.eng.phase ≠ phIdle ∧ decode (.seq dhdrOn.eng.phase) = .ok .dhdr) ∧
    ((busy phIdle []).port = none ∧ (busy phIdle []).eng.phase = phIdle ∧ decode (.seq (busy phIdle []).front.phase) = .ok .cfin) ∧
    ({ State.reset with status := stBusy } : State).front.phase = phIdle :=
  ⟨⟨by decide, rfl⟩, ⟨rfl, rfl⟩, ⟨rfl, rfl, by decide⟩, ⟨rfl, rfl⟩, ⟨rfl, rfl, rfl⟩, ⟨rfl, by rfl⟩, ⟨rfl, by rfl, rfl⟩,
    ⟨rfl, by decide, rfl⟩, ⟨rfl, rfl, rfl⟩, rfl⟩

theorem witness_NothingStops : dhdrOn.CtlOk ∧ dhdrOn.inputs = [] ∧ ∀ w n20, dhdrOn.port ≠ some (.bcop w n20) :=
  ⟨busy_ctlOk _ _ (by decide), rfl, fun w n20 h => (nomatch h)⟩

theorem witness_StepKeepsMemory : ∃ t, dhdrOn.MemOk ∧ step dhdrOn = .next t :=
  let ⟨t, h⟩ := dhdrOn_steps
  ⟨t, busy_memOk _ _, h⟩

theorem witness_StepKeepsControl : ∃ t, dhdrOn.CtlOk ∧ step dhdrOn = .next t :=
  let ⟨t, h⟩ := dhdrOn_steps
  ⟨t, busy_ctlOk _ _ (by decide), h⟩

theorem witness_StepKeepsRegisters : ∃ t, dhdrOn.RegsOk ∧ step dhdrOn = .next t :=
  let ⟨t, h⟩ := dhdrOn_steps
  ⟨t, busy_regsOk _ _, h⟩

/-- `DONE` with one direction of one frame, 2 by 2 pixels. -/
def doneOne : State :=
  { State.reset with
    status := stDone, front := { resetFront with ndir := 1, nframes := 1 }, result := [{ resetRegs with dw := 2, dh := 2, fhcc := [1], fvcc := [1] }] }

theorem witness_StartCommand : State.reset.status = stIdle ∧ failed.status ≠ stIdle := by decide

theorem witness_ClearCommand :
    doneOne.status = stDone ∧ failed.status = stError ∧ State.reset.status = stIdle ∧ dhdrOn.status = stBusy ∧
      ∃ t, exec (.clear false) failed = .next t := ⟨rfl, rfl, rfl, rfl, _, rfl⟩

theorem witness_CsrTable :
    dhdrOn.status = stBusy ∧ State.reset.status ≠ stBusy ∧ State.reset.status = stIdle ∧ doneOne.status ≠ stIdle ∧
      (1 ≤ 1 ∧ 1 ≤ 4) ∧ (1 ≤ 4 ∧ 4 ≤ 4) ∧ 7 ≤ 7 := by decide

theorem witness_BufferWrite : dhdrOn.MemOk ∧ dhdrOn.status = stBusy ∧ State.reset.MemOk ∧ State.reset.status ≠ stBusy :=
  ⟨busy_memOk _ _, rfl, ⟨rfl, rfl, fun _ hm => (nomatch hm), fun _ hr => (nomatch hr)⟩, by decide⟩

/-- The last pixel, cell, frame and direction, and the first of each that does not exist. -/
theorem witness_ResultStore :
    doneOne.status = stDone ∧ 0 < doneOne.front.ndir.toNat ∧ ((0 : Nat) : Int) < doneOne.front.nframes.toInt ∧
      (3 < (fileRead resetRegs doneOne.result 0).dw * (fileRead resetRegs doneOne.result 0).dh) ∧
      (fileRead resetRegs doneOne.result 0).dw * (fileRead resetRegs doneOne.result 0).dh ≤ 4 ∧
      doneOne.front.ndir.toNat ≤ 1 ∧ State.reset.status ≠ stDone ∧ doneOne.front.nframes.toInt ≤ ((1 : Nat) : Int) ∧
      0 < fileRead 0 (fileRead resetRegs doneOne.result 0).fhcc 0 * fileRead 0 (fileRead resetRegs doneOne.result 0).fvcc 0 ∧
      fileRead 0 (fileRead resetRegs doneOne.result 0).fhcc 0 * fileRead 0 (fileRead resetRegs doneOne.result 0).fvcc 0 ≤ 1 :=
  by decide +kernel

/-- `OPTCHK` about to refuse. -/
def optchkBad : State := { busy phOptchk [] with eng.regs.wb.o := 1 }

/-- A command pending, in `IDLE` and in `ERROR`; the reset input while `BUSY`. -/
def startPending : State := { State.reset with ctrl := 1 }
def clearPending : State := { failed with ctrl := 2 }
def resetDue : State := { busy phRcell [] with inputs := [some .rst] }

theorem startPending_ctlOk : startPending.CtlOk where
  frontPhase := Or.inl rfl
  engPhase := Or.inl rfl
  waits := fun h => absurd rfl h
  busy := by decide
  noError := fun _ => ⟨rfl, rfl, rfl⟩
  error := fun h => absurd h (by decide)
  quiet := fun _ => rfl

theorem clearPending_ctlOk : clearPending.CtlOk where
  frontPhase := Or.inl rfl
  engPhase := Or.inl rfl
  waits := fun h => absurd rfl h
  busy := by decide
  noError := fun h => absurd rfl h
  error := fun _ => ⟨⟨.badSignature, rfl, rfl⟩, by unfold errDirOk; decide⟩
  quiet := fun h => absurd h (by decide)

theorem cfinDue_ctlOk : (busy phIdle []).CtlOk where
  frontPhase := Or.inr (Or.inr rfl)
  engPhase := Or.inl rfl
  waits := fun _ => rfl
  busy := by decide
  noError := fun _ => ⟨rfl, rfl, rfl⟩
  error := fun h => absurd h (by decide)
  quiet := fun _ => rfl

theorem optchkBad_ctlOk : optchkBad.CtlOk :=
  have h := busy_ctlOk phOptchk [] (by decide)
  ⟨h.frontPhase, h.engPhase, h.waits, h.busy, h.noError, h.error, h.quiet⟩

theorem resetDue_ctlOk : resetDue.CtlOk :=
  have h := busy_ctlOk phRcell [] (by decide)
  ⟨h.frontPhase, h.engPhase, h.waits, h.busy, h.noError, h.error, h.quiet⟩

/-- One state for each clause. -/
theorem witness_StatusChanges :
    (∃ t, startPending.CtlOk ∧ step startPending = .next t ∧ t.status ≠ startPending.status) ∧
    (∃ t, clearPending.CtlOk ∧ step clearPending = .next t ∧ t.status ≠ clearPending.status) ∧
    (∃ t, (busy phIdle []).CtlOk ∧ step (busy phIdle []) = .next t ∧ t.status ≠ (busy phIdle []).status) ∧
    (∃ t, optchkBad.CtlOk ∧ step optchkBad = .next t ∧ t.status ≠ optchkBad.status) ∧
    ∃ t, resetDue.CtlOk ∧ step resetDue = .next t ∧ t.status ≠ resetDue.status :=
  ⟨⟨_, startPending_ctlOk, rfl, by decide⟩, ⟨_, clearPending_ctlOk, rfl, by decide⟩, ⟨_, cfinDue_ctlOk, rfl, by decide⟩,
    ⟨_, optchkBad_ctlOk, rfl, by decide⟩, ⟨_, resetDue_ctlOk, rfl, by decide⟩⟩

theorem witness_IrqChanges :
    (∃ t, step ({ busy phIdle [] with irqEn := 1 } : State) = .next t ∧ t.irq = 1) ∧
      (∃ t, step clearPending = .next t ∧ t.irq = 0) ∧ ∃ t, step resetDue = .next t ∧ t.irq = 0 :=
  ⟨⟨_, rfl, rfl⟩, ⟨_, rfl, rfl⟩, ⟨_, rfl, rfl⟩⟩

theorem witness_MemoryFrame :
    (∃ t, exec .optchk optchkBad = .next t ∧ storesNothing .optchk = true) ∧ ∃ t, exec .dfin (busy phDfin []) = .next t :=
  ⟨⟨_, rfl, rfl⟩, ⟨_, rfl⟩⟩

theorem witness_WhatInstructionsRaise :
    ∃ t, exec .optchk optchkBad = .next t ∧ optchkBad.status ≠ stError ∧ t.status = stError :=
  ⟨_, rfl, by decide, rfl⟩

/-- Width 0 past the end; width 32 that ends at the end, and one bit later; the last bit, and the one after it. -/
theorem witness_ReadBits :
    ((0 : BitVec 6).toNat ≤ 32 ∧ ((0 : BitVec 6) = 0 ∨ 50 + 0 ≤ (bcAt 50).lenBits)) ∧
    ((32 : BitVec 6).toNat ≤ 32 ∧ ((bcAt 8).cursor (.eng .main)).pos + (32 : BitVec 6).toNat ≤ (bcAt 8).lenBits) ∧
    ((32 : BitVec 6) ≠ 0 ∧ (bcAt 9).lenBits < ((bcAt 9).cursor (.eng .main)).pos + (32 : BitVec 6).toNat) ∧
    ((bcAt 39).cursor (.eng .main)).pos + 1 ≤ (bcAt 39).lenBits ∧
    (bcAt 40).lenBits < ((bcAt 40).cursor (.eng .main)).pos + 1 := by decide +kernel

theorem witness_ReadSignedBits :
    ((0 : BitVec 6).toNat ≤ 32 ∧ ((0 : BitVec 6) = 0 ∨ 50 + 0 ≤ (bcAt 50).lenBits)) ∧
    ((32 : BitVec 6).toNat ≤ 32 ∧ ((bcAt 8).cursor (.eng .main)).pos + (32 : BitVec 6).toNat ≤ (bcAt 8).lenBits) ∧
    ((1 : BitVec 6) ≠ 0 ∧ (bcAt 40).lenBits < ((bcAt 40).cursor (.eng .main)).pos + (1 : BitVec 6).toNat) := by decide +kernel

theorem witness_CursorsAreIndependent :
    (∃ t, exec (.rdbits (.eng .main) 32) (bcAt 4) = .next t) ∧ (∃ t, exec (.clone (.eng .ec) (.eng .main)) (bcAt 4) = .next t) ∧
      ∃ t, exec (.cons .ccur) (bcAt 4) = .next t :=
  ⟨let ⟨t, h, _⟩ := next_of test_rdbits; ⟨t, h⟩, ⟨_, rfl⟩, ⟨_, rfl⟩⟩

/-- With one direction and with none; one frame, as many as `MAX_FRAMES` admits. -/
theorem witness_ChdrParses :
    (let s := { chdrOn (p1Head 0x74 1) with caps.maxFrames := some 1 }
     s.byteAt 0 = 0x74 ∧ s.leAt 7 4 = 1 ∧ 15 + 4 * s.byteAt 2 ≤ s.ibuf.len.toNat ∧ 1 ≤ signedVal 32 (s.leAt 3 4) ∧
      s.leAt 3 4 ≤ 1 ∧ 1 ≤ s.byteAt 2) ∧
    let s := chdrOn ((p1Head 0x74 0).take 15)
    s.byteAt 0 = 0x74 ∧ s.leAt 7 4 = 1 ∧ 15 + 4 * s.byteAt 2 ≤ s.ibuf.len.toNat ∧ 1 ≤ signedVal 32 (s.leAt 3 4) ∧
      s.caps.maxFrames = none ∧ s.byteAt 2 = 0 := by decide +kernel

/-- The first seven errors of a container header: E4, E6, E7, E2, E9, E15, and a frame more than `MAX_FRAMES`. -/
theorem witness_ChdrRaises :
    (chdrOn []).ibuf.len = 0 ∧ (chdrOn [0]).byteAt 0 ≠ 0x74 ∧
    ((chdrOn ((p1Head 0x74 1).take 10)).byteAt 0 = 0x74 ∧ (chdrOn ((p1Head 0x74 1).take 10)).ibuf.len.toNat < 11) ∧
    ((chdrOn [0x74, 6, 1, 1, 0, 0, 0, 2, 0, 0, 0]).leAt 7 4 ≠ 1 ∧ ¬ (chdrOn [0x74, 6, 1, 1, 0, 0, 0, 2, 0, 0, 0]).ibuf.len.toNat < 11) ∧
    ((chdrOn ((p1Head 0x74 1).take 18)).leAt 7 4 = 1 ∧
      (chdrOn ((p1Head 0x74 1).take 18)).ibuf.len.toNat < 15 + 4 * (chdrOn ((p1Head 0x74 1).take 18)).byteAt 2) ∧
    (signedVal 32 ((chdrOn [0x74, 6, 0, 0, 0, 0, 0, 1, 0, 0, 0, 0, 0, 0, 0]).leAt 3 4) < 1) ∧
    (signedVal 32 ((chdrOn [0x74, 6, 0, 255, 255, 255, 255, 1, 0, 0, 0, 0, 0, 0, 0]).leAt 3 4) < 1) ∧
    ((chdrOn (p1Head 0x74 1)).leAt 3 4 = 1 ∧ 0 < 1) := by decide +kernel

/-- `DHDR` ending at the last bit, and one bit further. -/
theorem witness_DhdrReads :
    (let s := { dhdrOn with eng.tr.main := at' 2 0 }; s.eng.tr.main.pos + 62 ≤ s.lenBits) ∧
      let s := { dhdrOn with eng.tr.main := at' 3 0 }; s.lenBits < s.eng.tr.main.pos + 62 := by decide +kernel

theorem witness_StepsReadTheirFormats :
    (dhdrOn.eng.tr.main.pos + codeLen .dhdr ≤ dhdrOn.lenBits) ∧
      (dhdrOn.eng.tr.main.pos + codeLen (.sizes dhdrOn.eng.regs.cflags) ≤ dhdrOn.lenBits) ∧
      let s := busy phPalv (List.replicate 32 255); s.eng.tr.main.pos + codeLen .palv ≤ s.lenBits := by decide +kernel

theorem witness_OptchkRefuses : (busy phOptchk []).eng.regs.wb.o = 0 ∧ optchkBad.eng.regs.wb.o ≠ 0 := by decide

/-- All four fields ending at the last bit; one alone, one bit too long. -/
theorem witness_BsizesReads :
    (let s := { busy phBsizes [0x0D, 0, 0, 1, 0, 0x0C, 0, 0, 4, 0] with eng.regs.cflags := 3 }
     s.eng.tr.main.pos + (20 + 20 + 40) ≤ s.lenBits) ∧
      let s := { busy phBsizes [0x0D, 0, 0] with eng.tr.main := at' 5 0 }
      s.lenBits < s.eng.tr.main.pos + (0 + 20 + 0) := by decide +kernel

theorem witness_PalvBuildsTable :
    (let s := busy phPalv (List.replicate 32 255); s.eng.tr.main.pos + 256 ≤ s.lenBits) ∧
      let s := busy phPalv (List.replicate 31 255); s.lenBits < s.eng.tr.main.pos + 256 := by decide +kernel

/-- A header that ends at the last bit but three; a short one; a set bottom-up flag (bit 12); a width of 0. -/
theorem witness_FgeomReads :
    (∀ i : Fin 7, (widthAt (fgeomOn [0x44, 0x03]).eng.regs.wb i).toNat ≤ 32) ∧
    (12 + 1 ≤ (fgeomOn [0x44, 0x03]).lenBits ∧ (fgeomOn [0x44, 0x03]).ibit 12 = 0 ∧
      1 ≤ (fgeomOn [0x44, 0x03]).bitsAt 0 4 ∧ 1 ≤ (fgeomOn [0x44, 0x03]).bitsAt 4 4) ∧
    (fgeomOn [0x44]).lenBits < 12 + 1 ∧ (fgeomOn [0x44, 0x13]).ibit 12 = 1 ∧
    ((fgeomOn [0x40, 0x03]).ibit 12 = 0 ∧ (fgeomOn [0x40, 0x03]).bitsAt 0 4 = 0) := by decide +kernel

/-- A canvas of exactly `MAX_CANVAS` pixels, and of one more. -/
theorem witness_DboxFixesBox :
    dboxB3.eng.regs.minl ≤ dboxB3.eng.regs.maxr ∧ dboxB3.eng.regs.mint ≤ dboxB3.eng.regs.maxb ∧
      (dboxB3.eng.regs.maxr - dboxB3.eng.regs.minl).toNat * (dboxB3.eng.regs.maxb - dboxB3.eng.regs.mint).toNat ≤ 81 ∧
      80 < (dboxB3.eng.regs.maxr - dboxB3.eng.regs.minl).toNat * (dboxB3.eng.regs.maxb - dboxB3.eng.regs.mint).toNat := by
  decide +kernel

theorem witness_BoxIsUnion : 1 ≤ 1 ∧ 1 ≤ 2 := by decide

/-- One cell, one full cell, a second cell of one pixel. -/
theorem witness_DirectionTiling : (1 ≤ 1 ∧ 0 < (dtile 1).length) ∧ (0 < (dtile 4).length) ∧ 1 < (dtile 5).length := by decide

/-- The largest lone cell, the smallest pair, a triple. -/
theorem witness_FrameTiling : (ftile 5 4).length = 1 ∧ 2 ≤ (ftile 6 4).length ∧ (ftile 3 3).length = 2 ∧ 2 < (ftile 7 3).length := by
  decide

/-- Exactly `MAX_DCELLS` cells, and one more. -/
theorem witness_DgridBuilds :
    1 ≤ dgridG3.eng.regs.dw ∧ 1 ≤ dgridG3.eng.regs.dh ∧
      (dtile dgridG3.eng.regs.dw).length * (dtile dgridG3.eng.regs.dh).length ≤ 4 ∧
      3 < (dtile dgridG3.eng.regs.dw).length * (dtile dgridG3.eng.regs.dh).length := by decide +kernel

/-- Exactly `MAX_FCELLS` cells, and one more; a frame that is not the last, and the last one. -/
theorem witness_FgridBuilds :
    let r := fgridG6.eng.regs
    r.dl ≤ (r.frame 1).fl ∧ r.dt ≤ (r.frame 1).ft ∧ 1 ≤ (r.frame 1).fw.toNat ∧ 1 ≤ (r.frame 1).fh.toNat ∧
      (ftile (r.frame 1).fw.toNat 1).length * (ftile (r.frame 1).fh.toNat 2).length ≤ 2 ∧
      1 < (ftile (r.frame 1).fw.toNat 1).length * (ftile (r.frame 1).fh.toNat 2).length ∧
      (fgridG6.eng.frm.toNat : Int) + 1 < fgridG6.front.nframes.toInt ∧
      ¬ (fgridG6.eng.frm.toNat : Int) + 1 < ({ fgridG6 with front.nframes := 2 } : State).front.nframes.toInt := by
  decide +kernel

/-- P3's frame 1, its last cell. -/
theorem witness_VisitsStayInGrid :
    1 ≤ 5 ∧ 1 ≤ 3 ∧ 1 + 5 ≤ 6 ∧ 2 + 3 ≤ 5 ∧ 1 < (ftile 5 1).length ∧ 0 < (ftile 3 2).length := by decide

/-- The equal-cells bit is the last bit of the buffer. -/
def rcellReuse : State := { rcellAfter ⟨9, 8, 7, 6⟩ [0x80] with eng.regs.ecsize := 5, eng.tr.ec := at' 7 0 }

theorem witness_RcellReuses :
    fileRead none rcellReuse.eng.tr.occ rcellReuse.visitK = some 0 ∧ rcellReuse.eng.regs.ecsize ≠ 0 ∧
      rcellReuse.eng.tr.ec.pos + 1 ≤ rcellReuse.lenBits ∧ rcellReuse.bitsAt rcellReuse.eng.tr.ec.pos 1 = 1 := by decide +kernel

/-- RC2, no occupant and delta values: 3, 5, and a terminator. -/
theorem witness_RcellDecodes :
    let s := rcellOn [0x23, 0x00]
    fileRead none s.eng.tr.occ s.visitK = none ∧ MaskRead s none 15 0 0 ∧ TypeRead s 15 false 0 ∧
      ValuesAt s false (popc 15) 0 s.eng.tr.main.pos [3, 5] 12 ∧ s.caps.maxPbe ≠ some s.eng.tr.pbe.length := by
  refine ⟨by decide +kernel, ⟨rfl, rfl, rfl⟩, ?_, ?_, by decide +kernel⟩
  · unfold TypeRead
    rw [if_neg (by decide +kernel)]
    exact ⟨rfl, rfl⟩
  · refine ⟨3, 4, ⟨0, 3, by decide, fun i hi => absurd hi (by omega), by decide +kernel, by decide +kernel, by decide +kernel⟩, by decide +kernel, ?_⟩
    rw [if_neg (by decide)]
    refine ⟨[5], rfl, 5, 8, ⟨0, 2, by decide, fun i hi => absurd hi (by omega), by decide +kernel, by decide +kernel, by decide +kernel⟩, by decide +kernel, ?_⟩
    rw [if_neg (by decide)]
    refine ⟨[], rfl, 5, 12, ⟨0, 0, by decide, fun i hi => absurd hi (by omega), by decide +kernel, by decide +kernel, by decide +kernel⟩, by decide +kernel, ?_⟩
    rw [if_pos rfl]
    exact ⟨rfl, rfl⟩

/-- RC8, an occupant, the mask 10 and raw values: `EC` bit 0, `PM` bits 1 to 4, `ET` bit 5, `RP` from bit 8. -/
def rcellRC8 : State :=
  { rcellAfter ⟨9, 8, 7, 6⟩ [0b00110100, 0x40, 0x41] with
    eng.regs.ecsize := 5, eng.regs.etsize := 3, eng.tr.pm := at' 1 0, eng.tr.et := at' 5 0, eng.tr.rp := at' 8 0 }

theorem witness_RcellDecodes_raw :
    fileRead none rcellRC8.eng.tr.occ rcellRC8.visitK = some 0 ∧ MaskRead rcellRC8 (some 0) 10 1 4 ∧
      TypeRead rcellRC8 10 true 1 ∧ ValuesAt rcellRC8 true (popc 10) 0 rcellRC8.eng.tr.rp.pos [64, 65] 24 ∧
      rcellRC8.caps.maxPbe ≠ some rcellRC8.eng.tr.pbe.length := by
  refine ⟨by decide +kernel, ⟨rfl, by decide +kernel, by decide +kernel, ?_⟩, ?_, ?_, by decide +kernel⟩
  · rw [if_neg (by decide +kernel)]
    exact ⟨rfl, by decide +kernel, by decide +kernel⟩
  · unfold TypeRead
    rw [if_pos (by decide +kernel)]
    exact ⟨rfl, by decide +kernel, by decide +kernel⟩
  · refine ⟨64, 16, ⟨by decide +kernel, by decide +kernel⟩, by decide +kernel, ?_⟩
    rw [if_neg (by decide)]
    refine ⟨[65], rfl, 65, 24, ⟨by decide +kernel, by decide +kernel⟩, by decide +kernel, ?_⟩
    rw [if_neg (by decide)]
    exact ⟨[], rfl, rfl, rfl⟩

/-- One state for each clause; the cursor stands where one bit is missing. -/
theorem witness_RcellRaises :
    (let s := { rcellReuse with eng.tr.ec := at' 8 0 }
     fileRead none s.eng.tr.occ s.visitK = some 0 ∧ s.eng.regs.ecsize ≠ 0 ∧ s.lenBits < s.eng.tr.ec.pos + 1) ∧
    (let s := { rcellAfter ⟨9, 8, 7, 6⟩ [0x80] with eng.tr.pm := at' 5 0 }
     fileRead none s.eng.tr.occ s.visitK = some 0 ∧ s.eng.regs.ecsize = 0 ∧ s.lenBits < s.eng.tr.pm.pos + 4) ∧
    (let s := { rcellReuse with eng.tr.ec := at' 6 0, eng.tr.pm := at' 5 0 }
     fileRead none s.eng.tr.occ s.visitK = some 0 ∧ s.eng.tr.ec.pos + 1 ≤ s.lenBits ∧ s.bitsAt s.eng.tr.ec.pos 1 = 0 ∧
      s.lenBits < s.eng.tr.pm.pos + 4) := by decide +kernel

/-- The mask 8 of an occupied cell, then `ET` at the end of the buffer; with no occupant the same. -/
theorem witness_RcellRaises_type :
    (let s := { rcellAfter ⟨9, 8, 7, 6⟩ [0x80] with eng.tr.pm := at' 4 0, eng.regs.etsize := 1, eng.tr.et := at' 8 0 }
     fileRead none s.eng.tr.occ s.visitK = some 0 ∧ MaskRead s (some 0) 8 0 4 ∧ s.eng.regs.etsize ≠ 0 ∧
      s.lenBits < s.eng.tr.et.pos + 1) ∧
    (let s := { rcellOn [0x80] with eng.regs.etsize := 1, eng.tr.et := at' 8 0 }
     fileRead none s.eng.tr.occ s.visitK = none ∧ MaskRead s none 15 0 0 ∧ s.eng.regs.etsize ≠ 0 ∧
      s.lenBits < s.eng.tr.et.pos + 1) := by
  refine ⟨⟨by decide +kernel, ⟨rfl, by decide +kernel, by decide +kernel, ?_⟩, by decide +kernel, by decide +kernel⟩,
    by decide +kernel, ⟨rfl, rfl, rfl⟩, by decide +kernel, by decide +kernel⟩
  rw [if_pos (by decide +kernel)]

/-- Values the buffer does not hold: a first raw value one bit short; and a chain whose second nibble is one bit short, because
whatever delta value stands there ends past the buffer. -/
theorem witness_RcellRaises_values :
    (let s := { rcellOn [0x01] with eng.regs.etsize := 1, eng.tr.rp := at' 1 0 }
     fileRead none s.eng.tr.occ s.visitK = none ∧ MaskRead s none 15 0 0 ∧ TypeRead s 15 true 1 ∧
      ¬ ∃ acc q, ValuesAt s true (popc 15) 0 s.eng.tr.rp.pos acc q) ∧
    (let s := { rcellOn [0x1E] with eng.tr.main := at' 1 0 }
     fileRead none s.eng.tr.occ s.visitK = none ∧ MaskRead s none 15 0 0 ∧ TypeRead s 15 false 0 ∧
      ¬ ∃ acc q, ValuesAt s false (popc 15) 0 s.eng.tr.main.pos acc q) := by
  refine ⟨⟨by decide +kernel, ⟨rfl, rfl, rfl⟩, ?_, ?_⟩, by decide +kernel, ⟨rfl, rfl, rfl⟩, ?_, ?_⟩
  · unfold TypeRead
    rw [if_pos (by decide +kernel)]
    exact ⟨rfl, by decide +kernel, by decide +kernel⟩
  · rintro ⟨acc, q, v, r, ⟨-, rfl⟩, h, -⟩
    exact absurd h (by decide +kernel)
  · unfold TypeRead
    rw [if_neg (by decide +kernel)]
    exact ⟨rfl, rfl⟩
  · rintro ⟨acc, q, v, r, ⟨j, e, he, -, hj, -, rfl⟩, h, -⟩
    have hl : ({ rcellOn [0x1E] with eng.tr.main := at' 1 0 } : State).lenBits = 8 := by decide +kernel
    have h' : 1 + 4 * (j + 1) ≤ 8 := hl ▸ h
    obtain rfl : j = 0 := by omega
    have hn : ({ rcellOn [0x1E] with eng.tr.main := at' 1 0 } : State).bitsAt 1 4 = 15 := by decide +kernel
    exact absurd (hj.symm.trans hn) (by omega)

/-- RC7 with room for one entry, which is taken: the mask 0 reads no value. -/
theorem witness_RcellRaises_full :
    let s := { rcellAfter ⟨9, 8, 7, 6⟩ [0x00] with caps.maxPbe := some 1 }
    fileRead none s.eng.tr.occ s.visitK = some 0 ∧ MaskRead s (some 0) 0 0 4 ∧ TypeRead s 0 false 0 ∧
      ValuesAt s false (popc 0) 0 s.eng.tr.main.pos [] 0 ∧ s.caps.maxPbe = some s.eng.tr.pbe.length := by
  refine ⟨by decide +kernel, ⟨rfl, by decide +kernel, by decide +kernel, ?_⟩, ?_, ⟨rfl, rfl⟩, rfl⟩
  · rw [if_pos (by decide +kernel)]
  · unfold TypeRead
    rw [if_neg (by decide +kernel)]
    exact ⟨rfl, rfl⟩

/-- All four counts equal; each of the four alone unequal. -/
theorem witness_IchkChecks :
    let z := ichkOn.eng.regs
    (ichkOn.eng.tr.ec.cons = z.ecsize.toNat ∧ ichkOn.eng.tr.pm.cons = z.pmsize.toNat ∧ ichkOn.eng.tr.et.cons = z.etsize.toNat ∧
      ichkOn.eng.tr.rp.cons = z.rpsize.toNat ∧ 0 < z.hcc * z.vcc) ∧
    ({ ichkOn with eng.tr.ec.cons := 1 } : State).eng.tr.ec.cons ≠ z.ecsize.toNat ∧
    ({ ichkOn with eng.tr.pm.cons := 1 } : State).eng.tr.pm.cons ≠ z.pmsize.toNat ∧
    ({ ichkOn with eng.tr.et.cons := 1 } : State).eng.tr.et.cons ≠ z.etsize.toNat ∧
    ({ ichkOn with eng.tr.rp.cons := 1 } : State).eng.tr.rp.cons ≠ z.rpsize.toNat := by decide +kernel

/-- Two-bit codes that end inside the buffer; the same one bit short; no code at all at the end of an empty buffer. -/
theorem witness_CcellPaints :
    (PixelMemOk ccellP4 ∧ ccellP4.isFresh ∧ (∃ x, ccellP4.eng.tr.pbe[ccellP4.eng.tr.pbidx]? = some x) ∧
      ccellP4.visitCell.x + ccellP4.visitCell.w ≤ ccellP4.eng.regs.dw ∧
      ccellP4.eng.tr.main.pos + 2 * (ccellP4.visitCell.w * ccellP4.visitCell.h) ≤ ccellP4.lenBits) ∧
    (let s := { ccellP4 with eng.tr.main := at' 3 0 }
     PixelMemOk s ∧ s.isFresh ∧ 1 ≤ 2 * (s.visitCell.w * s.visitCell.h) ∧
      s.lenBits < s.eng.tr.main.pos + 2 * (s.visitCell.w * s.visitCell.h)) ∧
    let s := ccellFresh ⟨7, 7, 9, 3⟩ []
    PixelMemOk s ∧ s.isFresh ∧ 0 * (s.visitCell.w * s.visitCell.h) = 0 :=
  ⟨⟨⟨rfl, fun _ hm => (nomatch hm)⟩, ⟨_, rfl, rfl, rfl⟩, ⟨_, rfl⟩, by decide +kernel, by decide +kernel⟩,
    ⟨⟨rfl, fun _ hm => (nomatch hm)⟩, ⟨_, rfl, rfl, rfl⟩, by decide +kernel, by decide +kernel⟩,
    ⟨⟨rfl, fun _ hm => (nomatch hm)⟩, ⟨_, rfl, rfl, rfl⟩, by decide +kernel⟩⟩

/-- CC5, equal sizes, source and destination overlapping; the same with another height. -/
theorem witness_CcellRefersBack :
    (PixelMemOk ccellCC5 ∧ ¬ ccellCC5.isFresh ∧ ccellCC5.visitCell.x + ccellCC5.visitCell.w ≤ ccellCC5.eng.regs.dw ∧
      (let l := fileRead zeroLast ccellCC5.eng.tr.last ccellCC5.visitK
       l.w = ccellCC5.visitCell.w ∧ l.h = ccellCC5.visitCell.h ∧ l.x + l.w ≤ ccellCC5.eng.regs.dw)) ∧
    let s := { ccellCC5 with eng.tr.last := [{ valid := true, w := 3, h := 2, x := 0, y := 0 }] }
    PixelMemOk s ∧ ¬ s.isFresh ∧ s.visitCell.x + s.visitCell.w ≤ s.eng.regs.dw ∧
      (fileRead zeroLast s.eng.tr.last s.visitK).h ≠ s.visitCell.h :=
  ⟨⟨⟨by decide, fun _ hm => (nomatch hm)⟩, fun ⟨x, hx, _⟩ => (nomatch hx), by decide +kernel, by decide +kernel⟩,
    ⟨⟨by decide, fun _ hm => (nomatch hm)⟩, fun ⟨x, hx, _⟩ => (nomatch hx), by decide +kernel, by decide +kernel⟩⟩

/-- Another direction to come, and none. -/
theorem witness_DfinFinishes :
    (let s := { busy phDfin [] with front.ndir := 2 }; s.eng.dir.toNat + 1 < s.front.ndir.toNat) ∧
      (busy phDfin []).front.ndir.toNat ≤ (busy phDfin []).eng.dir.toNat + 1 := by decide

theorem witness_FrameHeaderCode :
    ({ fhdr0 with bottomup := 1 } : FhdrFields).bottomup = 1 ∧ (fhdr0.bottomup = 0 ∧ fhdr0.width = 0) ∧
      let f : FhdrFields := { fhdr0 with width := 1, height := 1 }; f.bottomup = 0 ∧ f.width ≠ 0 ∧ f.height ≠ 0 := by decide

/-- A raw value and a delta equal to the accumulator, and unequal ones. -/
theorem witness_CellCodes :
    let w := (busy phRcell []).eng.tr.work
    ((0 : BitVec 8).toNat = w.lastpix.toNat) ∧ ((1 : BitVec 8).toNat ≠ w.lastpix.toNat) ∧
      ((if w.chain then w.v else w.lastpix) + BitVec.ofNat 32 0 = w.lastpix) ∧
      (if w.chain then w.v else w.lastpix) + BitVec.ofNat 32 14 ≠ w.lastpix := by decide

theorem witness_ChainSums : (14 : BitVec 4) ≠ 15 ∧ (busy phRcell []).eng.tr.work.chain = false := by decide

theorem witness_PixelCodes : PixelMemOk ccellP4 := ⟨rfl, fun _ hm => (nomatch hm)⟩

end Sys2Proof.Tests
end

section
/-!
SUPPORT. The legal values of a direction's registers (10_state.md R29, R31), operation by operation: only the width registers
and the palette table matter, a width comes from `WLUT`, and a palette table is built from its cleared form upwards.
-/

namespace Sys2Proof.Machine

/-! ### Widths -/

/-- What `WLUT` answers is one of its 16 entries (30_encoding.md R104). -/
theorem wlut_legal (i : BitVec 4) : (wlut i).toNat ∈ legalWidths := by
  revert i; decide

theorem widthAt_setWidthAt (wb : Widths) (i j : Fin 7) (v : BitVec 6) :
    widthAt (setWidthAt wb i v) j = if j = i then v else widthAt wb j := by
  fin_cases i <;> fin_cases j <;> rfl

/-! ### Registers -/

/-- Legality reads the widths and the palette table alone. -/
theorem DirRegs.Legal.congr {r r' : DirRegs} (h : r.Legal) (hw : r'.wb = r.wb) (hp : r'.pal = r.pal)
    (hc : r'.palcnt = r.palcnt) : r'.Legal where
  widths := hw ▸ h.widths
  palLen := hp ▸ h.palLen
  palCnt := hc ▸ h.palCnt
  palTop := by rw [hp, hc]; exact h.palTop

theorem DirRegs.Legal.setWidth {r : DirRegs} (h : r.Legal) (i : Fin 7) (x : BitVec 4) :
    { r with wb := setWidthAt r.wb i (wlut x) }.Legal where
  widths j := by
    rw [widthAt_setWidthAt]
    split
    · exact wlut_legal x
    · exact h.widths j
  palLen := h.palLen
  palCnt := h.palCnt
  palTop := h.palTop

/-! ### The palette table -/

/-- Legal registers whose palette table holds at most `i` entries: what the flags below index `i` leave. -/
structure DirRegs.LegalUpTo (r : DirRegs) (i : Nat) : Prop where
  legal : r.Legal
  count : r.palcnt.toNat ≤ i

theorem palAt_replicate_zero (n : Nat) (j : Byte) : palAt (List.replicate n 0) j = 0 := by
  by_cases h : j.toNat < n <;> simp [palAt, fileRead, List.getD, h]

theorem DirRegs.clearPal_legal {r : DirRegs} (h : ∀ i : Fin 7, (widthAt r.wb i).toNat ∈ legalWidths) : r.clearPal.Legal where
  widths := h
  palLen := List.length_replicate
  palCnt := Nat.zero_le _
  palTop j _ := palAt_replicate_zero 256 j

theorem DirRegs.Legal.clearPal {r : DirRegs} (h : r.Legal) : r.clearPal.LegalUpTo 0 where
  legal := DirRegs.clearPal_legal h.widths
  count := Nat.le_refl 0

/-- A flag below index 256 appends at most one entry, in the table's free part. -/
theorem DirRegs.LegalUpTo.palFlag {r : DirRegs} {i : Nat} (h : r.LegalUpTo i) (hi : i < 256) (flag : Bool) :
    (r.palFlag i flag).LegalUpTo (i + 1) := by
  have hcount := h.count
  cases flag with
  | false => exact ⟨h.legal, Nat.le_succ_of_le hcount⟩
  | true =>
    have hlen : r.palcnt.toNat < r.pal.length := by rw [h.legal.palLen]; omega
    have hcnt : (r.palcnt + 1).toNat = r.palcnt.toNat + 1 := by bv_omega
    refine ⟨⟨h.legal.widths, ?_, ?_, fun j hj => ?_⟩, ?_⟩
    · exact (fileWrite_length hlen).trans h.legal.palLen
    · show (r.palcnt + 1).toNat ≤ 256
      omega
    · replace hj : (r.palcnt + 1).toNat ≤ j.toNat := hj
      show fileRead 0 (fileWrite 0 r.pal r.palcnt.toNat _) j.toNat = 0
      rw [fileRead_fileWrite, if_neg (by omega)]
      exact h.legal.palTop j (by omega)
    · show (r.palcnt + 1).toNat ≤ i + 1
      omega

theorem storeFlags_legal (valid : BitVec 256) : ∀ (k i : Nat) (r : DirRegs), r.LegalUpTo i → i + k ≤ 256 →
    (storeFlags valid i k r).Legal
  | 0, _, _, h, _ => h.legal
  | k + 1, i, _, h, hk => storeFlags_legal valid k (i + 1) _ (h.palFlag (by omega) _) (by omega)

theorem resetRegs_legal : resetRegs.Legal := DirRegs.clearPal_legal (r := resetRegs) (by decide)

end Sys2Proof.Machine
end

section
/-!
SUPPORT. What an engine step leaves safe, said once for every step: from a legal `PHASE` it ends at a legal one (10_state.md
R27), from legal registers at legal ones (R29, R31), whether it goes on or raises.
-/

namespace Sys2Proof.Machine

/-- Engine `e` holds a legal `PHASE` if `e₀` does, and legal registers if `e₀` does. -/
structure Engine.StaysSafe (e₀ e : Engine) : Prop where
  phase : engPhaseOk e₀.phase → engPhaseOk e.phase
  regs  : e₀.regs.Legal → e.regs.Legal

namespace Engine.StaysSafe

theorem refl (e : Engine) : e.StaysSafe e := ⟨id, id⟩

section
variable {e₀ e : Engine} (h : e₀.StaysSafe e)
include h

/-- Only `PHASE`, the widths and the palette table matter. -/
theorem congr {e' : Engine} (hp : e'.phase = e.phase) (hw : e'.regs.wb = e.regs.wb) (hpal : e'.regs.pal = e.regs.pal)
    (hcnt : e'.regs.palcnt = e.regs.palcnt) : e₀.StaysSafe e' :=
  ⟨fun h₀ => hp ▸ h.phase h₀, fun h₀ => (h.regs h₀).congr hw hpal hcnt⟩

theorem tr (x : Transient) : e₀.StaysSafe { e with tr := x } := h.congr rfl rfl rfl rfl

theorem goto {p : BitVec 5} (hp : engPhaseOk p) : e₀.StaysSafe { e with phase := p } := ⟨fun _ => hp, h.regs⟩

theorem updRegs {r : DirRegs} (hr : e.regs.Legal → r.Legal) : e₀.StaysSafe { e with regs := r } :=
  ⟨h.phase, fun h₀ => hr (h.regs h₀)⟩

theorem openVisit : e₀.StaysSafe e.openVisit := by
  unfold Engine.openVisit
  dsimp only
  split <;> exact h.congr rfl rfl rfl rfl

theorem backReference (g : CellGeom) (l : LastOcc) : e₀.StaysSafe (Engine.backReference g l e) := by
  unfold Engine.backReference
  split <;> exact h.congr rfl rfl rfl rfl

theorem finish (ndir : BitVec 8) : e₀.StaysSafe (e.finish ndir) := by
  unfold Engine.finish
  dsimp only
  split
  · exact (h.goto (p := phDseek) (.inr (by decide))).congr rfl rfl rfl rfl
  · exact (h.goto (p := phIdle) (.inl rfl)).congr rfl rfl rfl rfl

theorem paintAll (g : CellGeom) (q : Quad) (ps : List (Nat × Nat)) :
    e₀.StaysSafe (ps.foldl (fun e p => e.paint g q p.1 p.2 0) e) := by
  induction ps generalizing e with
  | nil => exact h
  | cons p ps ih => exact ih (h.tr _)

end
end Engine.StaysSafe

/-- An operation of an engine step leaves safe what `e₀` had safe, whether it ends or raises. -/
abbrev EngSafe {α : Type} (e₀ : Engine) (m : EngM α) : Prop := EngKeeps e₀.StaysSafe (fun _ => e₀.StaysSafe) m

/-! ### The operations of the engine's steps -/

section
variable {e₀ : Engine}

theorem rd_safe (b : Buf) (c : EngCursor) (n : Nat) : EngSafe e₀ (rd b c n) :=
  .rd b c n (fun _ _ h => h.tr _) fun _ h => h

theorem rds_safe (b : Buf) (c : EngCursor) (n : Nat) : EngSafe e₀ (rds b c n) :=
  .rds b c n (fun _ _ h => h.tr _) fun _ h => h

theorem skp_safe (c : EngCursor) (n : Nat) : EngSafe e₀ (skp c n) := .skp c n fun _ _ h => h.tr _

theorem cln_safe (c d : EngCursor) : EngSafe e₀ (cln c d) := .cln c d fun _ _ h => h.tr _

theorem engCheck_safe (b : Bool) (c : Cause) : EngSafe e₀ (engCheck b c) := .check b fun _ h _ => h

theorem goto_safe {p : BitVec 5} (hp : engPhaseOk p) : EngSafe e₀ (goto p) := .goto fun _ h => h.goto hp

theorem updW_safe (f : Work → Work) : EngSafe e₀ (updW f) := .updW fun _ _ h => h.tr _

/-- A write that leaves `PHASE`, the widths and the palette table alone. -/
theorem upd_safe {f : Engine → Engine} (hp : ∀ e, (f e).phase = e.phase) (hw : ∀ e, (f e).regs.wb = e.regs.wb)
    (hpal : ∀ e, (f e).regs.pal = e.regs.pal) (hcnt : ∀ e, (f e).regs.palcnt = e.regs.palcnt) : EngSafe e₀ (upd f) :=
  .upd fun e h => h.congr (hp e) (hw e) (hpal e) (hcnt e)

theorem updFG_safe (f : Nat) (g : FrameGeom → FrameGeom) : EngSafe e₀ (updFG f g) :=
  upd_safe (fun _ => rfl) (fun _ => rfl) (fun _ => rfl) fun _ => rfl

theorem checkFrame_safe (f : Nat) : EngSafe e₀ (checkFrame f) := .checkFrame f (fun _ h => h) fun _ h => h

theorem widthLoop_safe (b : Buf) (l : List (Fin 7)) : EngSafe e₀ (widthLoop b l) :=
  .widthLoop (E := fun _ => e₀.StaysSafe) b (fun _ _ h => h.tr _) (fun _ h => h)
    (fun _ i x h => h.updRegs fun hl => hl.setWidth i x) l

theorem readSize_safe (b : Buf) (p : Bool) : EngSafe e₀ (readSize b p) :=
  .readSize b p (fun _ _ h => h.tr _) fun _ h => h

theorem readMask_safe (b : Buf) (n : BitVec 20) (prev : Option Nat) : EngSafe e₀ (readMask b n prev) :=
  .readMask b n prev (fun _ _ _ h => h.tr _) (fun _ h => h) fun _ _ h => h.tr _

theorem readValues_safe (b : Buf) (n : BitVec 20) : EngSafe e₀ (readValues b n) :=
  .readValues b n (fun _ _ _ h => h.tr _) (fun _ h => h) fun _ _ h => h.tr _

theorem paintLoop_safe (b : Buf) (g : CellGeom) (t : Quad) (l : List (Nat × Nat)) : EngSafe e₀ (paintLoop b g t l) :=
  .paintLoop (E := fun _ => e₀.StaysSafe) b g t (fun _ _ h => h.tr _) (fun _ h => h) (fun _ _ _ _ h => h.tr _) l

theorem nextFrame_safe (n : BitVec 32) {done : Engine → Engine} (hd : ∀ e, e₀.StaysSafe e → e₀.StaysSafe (done e)) :
    EngSafe e₀ (upd (Engine.nextFrame n done)) :=
  .upd fun _ h => nextFrame_keeps (fun _ _ h => h.congr rfl rfl rfl rfl) hd h

theorem nextCell_safe (n : BitVec 32) {p : BitVec 5} (hp : engPhaseOk p) :
    EngSafe e₀ (upd (Engine.nextCell n fun x => { x with phase := p })) :=
  .upd fun _ h => nextCell_keeps (fun _ _ _ _ h => h.congr rfl rfl rfl rfl) (fun _ h => h.goto hp) h

/-! ### The bodies of the engine's steps, line by line -/

theorem dhdrBody_safe (b : Buf) : EngSafe e₀ (dhdrBody b) :=
  (rd_safe b _ _).bind fun _ => (EngKeeps.upd fun _ h => h.congr rfl rfl rfl rfl).bind fun _ =>
    (rd_safe b _ _).bind fun _ => (EngKeeps.upd fun _ h => h.congr rfl rfl rfl rfl).bind fun _ =>
    (widthLoop_safe b _).bind fun _ =>
    .upd fun _ h => (h.goto (p := phFgeom) (.inr (by decide))).congr rfl rfl rfl rfl

theorem readFrame_safe (b : Buf) (f : Nat) (wb : Widths) : EngSafe e₀ (readFrame b f wb) :=
  (skp_safe _ _).bind fun _ => (rd_safe b _ _).bind fun _ => (updFG_safe f _).bind fun _ =>
    (rd_safe b _ _).bind fun _ => (updFG_safe f _).bind fun _ =>
    (rds_safe b _ _).bind fun _ => (updFG_safe f _).bind fun _ =>
    (rds_safe b _ _).bind fun _ => (updFG_safe f _).bind fun _ =>
    (rd_safe b _ _).bind fun _ => (updFG_safe f _).bind fun _ =>
    (rd_safe b _ _).bind fun _ => (updFG_safe f _).bind fun _ =>
    (rd_safe b _ _).bind fun _ => updFG_safe f _

theorem fold_safe : EngSafe e₀ (upd fun x => { x with regs := x.regs.fold x.frm.toNat }) :=
  upd_safe (fun _ => rfl) (fun _ => DirRegs.fold_wb _ _) (fun _ => DirRegs.fold_pal _ _) fun _ => DirRegs.fold_palcnt _ _

theorem fgeomBody_safe (b : Buf) (n : BitVec 32) : EngSafe e₀ (fgeomBody b n) :=
  EngKeeps.get.bind fun _ => (readFrame_safe b _ _).bind fun _ => (checkFrame_safe _).bind fun _ =>
    (updFG_safe _ _).bind fun _ => fold_safe.bind fun _ =>
    nextFrame_safe n fun _ h => h.goto (p := phDbox) (.inr (by decide))

theorem dboxBody_safe (cap : Option Nat) : EngSafe e₀ (dboxBody cap) :=
  (EngKeeps.upd fun _ h => h.congr rfl rfl rfl rfl).bind fun _ => EngKeeps.get.bind fun _ =>
    (engCheck_safe _ _).bind fun _ => goto_safe (.inr (by decide))

theorem optchkBody_safe : EngSafe e₀ optchkBody :=
  EngKeeps.get.bind fun _ => (engCheck_safe _ _).bind fun _ => goto_safe (.inr (by decide))

theorem bsizesBody_safe (b : Buf) : EngSafe e₀ (bsizesBody b) :=
  EngKeeps.get.bind fun _ =>
    (readSize_safe b _).bind fun _ => (EngKeeps.upd fun _ h => h.congr rfl rfl rfl rfl).bind fun _ =>
    (readSize_safe b _).bind fun _ => (EngKeeps.upd fun _ h => h.congr rfl rfl rfl rfl).bind fun _ =>
    (readSize_safe b _).bind fun _ => (EngKeeps.upd fun _ h => h.congr rfl rfl rfl rfl).bind fun _ =>
    (readSize_safe b _).bind fun _ => (EngKeeps.upd fun _ h => h.congr rfl rfl rfl rfl).bind fun _ =>
    goto_safe (.inr (by decide))

/-- The flags from index `i` on, from a table that holds at most `i` entries. -/
theorem palLoop_safe (b : Buf) : ∀ (k i : Nat) (e : Engine), i + k ≤ 256 → e₀.StaysSafe e →
    (e₀.regs.Legal → e.regs.LegalUpTo i) →
    (∀ a e', palLoop b i k e = .ok a e' → e₀.StaysSafe e') ∧ ∀ c e', palLoop b i k e = .error c e' → e₀.StaysSafe e'
  | 0, _, e, _, h, _ => EngKeeps.pure (E := fun _ => e₀.StaysSafe) () e h
  | k + 1, i, e, hk, h, hi => by
    rcases rd_cases b .main 1 e with hrd | hrd
    · rw [palLoop, bind_ok hrd, bind_ok (upd_run _ _)]
      have hflag := fun h₀ => (hi h₀).palFlag (by omega) (decide (b.field (e.tr.cur .main).pos 1 = 1))
      exact palLoop_safe b k (i + 1) _ (by omega) ⟨h.phase, fun h₀ => (hflag h₀).legal⟩ hflag
    · rw [palLoop, bind_error hrd]
      exact ⟨fun _ _ hx => (nomatch hx), fun _ _ hx => by cases hx; exact h⟩

theorem palvBody_safe (b : Buf) : EngSafe e₀ (palvBody b) := by
  have hpal : EngSafe e₀ (do upd fun e => { e with regs := e.regs.clearPal }; palLoop b 0 256) := fun e h => by
    rw [bind_ok (upd_run _ _)]
    exact palLoop_safe b 256 0 _ (Nat.le_refl _) (h.updRegs fun hl => hl.clearPal.legal) fun h₀ => (h.regs h₀).clearPal
  have heq : palvBody b = (do upd fun e => { e with regs := e.regs.clearPal }; palLoop b 0 256) >>= fun _ => goto phSlice :=
    (bind_assoc _ _ _).symm
  exact heq ▸ hpal.bind fun _ => goto_safe (.inr (by decide))

theorem sliceBody_safe : EngSafe e₀ sliceBody :=
  EngKeeps.get.bind fun _ =>
    (cln_safe _ _).bind fun _ => (skp_safe _ _).bind fun _ => (cln_safe _ _).bind fun _ => (skp_safe _ _).bind fun _ =>
    (cln_safe _ _).bind fun _ => (skp_safe _ _).bind fun _ => (cln_safe _ _).bind fun _ => (skp_safe _ _).bind fun _ =>
    (EngKeeps.upd fun _ h => h.tr _).bind fun _ => goto_safe (.inr (by decide))

theorem dgridBody_safe (cap : Option Nat) : EngSafe e₀ (dgridBody cap) :=
  (EngKeeps.upd fun _ h => h.congr rfl rfl rfl rfl).bind fun _ => EngKeeps.get.bind fun _ =>
    (engCheck_safe _ _).bind fun _ => (EngKeeps.upd fun _ h => h.congr rfl rfl rfl rfl).bind fun _ =>
    .upd fun _ h => (h.goto (p := phFgrid) (.inr (by decide))).congr rfl rfl rfl rfl

/-- The first cell of a walk that step `p` takes. -/
theorem Engine.StaysSafe.firstCell {e : Engine} (h : e₀.StaysSafe e) {p : BitVec 5} (hp : engPhaseOk p) :
    e₀.StaysSafe (e.firstCell p) := (h.goto hp).congr rfl rfl rfl rfl

theorem fgridBody_safe (cap : Option Nat) (n : BitVec 32) : EngSafe e₀ (fgridBody cap n) :=
  (EngKeeps.upd fun _ h => h.congr rfl rfl rfl rfl).bind fun _ => EngKeeps.get.bind fun _ =>
    (engCheck_safe _ _).bind fun _ => (EngKeeps.upd fun _ h => h.congr rfl rfl rfl rfl).bind fun _ =>
    nextFrame_safe n fun _ h => h.firstCell (.inr (by decide))

theorem freshCell_safe (b : Buf) (cap prev : Option Nat) : EngSafe e₀ (freshCell b cap prev) :=
  EngKeeps.get.bind fun _ => (readValues_safe b _).bind fun _ => EngKeeps.get.bind fun _ =>
    (engCheck_safe _ _).bind fun _ => .upd fun _ h => h.congr rfl rfl rfl rfl

theorem rcellBody_safe (b : Buf) (cap : Option Nat) (n : BitVec 32) : EngSafe e₀ (rcellBody b cap n) :=
  EngKeeps.get.bind fun _ => (updW_safe _).bind fun _ => (readMask_safe b _ _).bind fun _ =>
    (EngKeeps.ite (.pure ()) (freshCell_safe b cap _)).bind fun _ => nextCell_safe n (.inr (by decide))

theorem ichkBody_safe : EngSafe e₀ ichkBody :=
  EngKeeps.get.bind fun _ => (engCheck_safe _ _).bind fun _ => (engCheck_safe _ _).bind fun _ =>
    (engCheck_safe _ _).bind fun _ => (engCheck_safe _ _).bind fun _ => (EngKeeps.upd fun _ h => h.tr _).bind fun _ =>
    .upd fun _ h => h.firstCell (.inr (by decide))

theorem freshPaint_safe (b : Buf) (g : CellGeom) : EngSafe e₀ (freshPaint b g) :=
  EngKeeps.get.bind fun _ => (paintLoop_safe b g _ _).bind fun _ =>
    (EngKeeps.upd fun _ h => h.congr rfl rfl rfl rfl).bind fun _ => .upd fun _ h => h.tr _

theorem ccellBody_safe (b : Buf) (n : BitVec 32) : EngSafe e₀ (ccellBody b n) :=
  EngKeeps.get.bind fun _ => (EngKeeps.upd fun _ h => h.openVisit).bind fun _ =>
    (EngKeeps.ite (freshPaint_safe b _) (.upd fun _ h => h.backReference _ _)).bind fun _ =>
    (EngKeeps.upd fun _ h => h.tr _).bind fun _ => nextCell_safe n (.inr (by decide))

end
end Sys2Proof.Machine
end

section
/-!
SUPPORT. Everything an instruction can do to the control registers (10_state.md R24, R25, R27) and to the registers of the
directions, said once for all 43 of them: nothing, a raise, or what `CHDR`, `CFIN` and the two commands alone do.
-/

namespace Sys2Proof.Machine

/-- The control registers outside the engine are as before. -/
structure State.SameCtl (s t : State) : Prop where
  status     : t.status = s.status
  errkind    : t.errkind = s.errkind
  errcause   : t.errcause = s.errcause
  errdir     : t.errdir = s.errdir
  irq        : t.irq = s.irq
  frontPhase : t.front.phase = s.front.phase

/-- What every instruction leaves safe: the engine, and a result store that holds what it held, the direction in work, or an
entry never written. -/
structure State.SafeAfter (s t : State) : Prop where
  eng    : s.eng.StaysSafe t.eng
  result : ∀ r ∈ t.result, r ∈ s.result ∨ r = s.eng.regs ∨ r = resetRegs

/-- The result store is as before. -/
theorem State.SafeAfter.ofEng {s t : State} (he : s.eng.StaysSafe t.eng) (hr : t.result = s.result) : s.SafeAfter t :=
  ⟨he, fun _ h => .inl (hr ▸ h)⟩

theorem State.SafeAfter.sameEng {s t : State} (he : t.eng = s.eng) (hr : t.result = s.result) : s.SafeAfter t :=
  .ofEng (he ▸ .refl _) hr

/-- The 15 steps of the engine: every sequencer step but the front end's `CHDR` and `CFIN` (30_encoding.md R123). -/
def isEngStep (i : Instr) : Bool := isSeq i && i != .chdr && i != .cfin

/-- What instruction `i` does when it takes `s` to `t`. -/
inductive ExecEffect (i : Instr) (s t : State) : Prop
  /-- No control register changes; the engine's `PHASE` only by a step of the engine. -/
  | same (hs : s.SafeAfter t) (hc : s.SameCtl t) (hp : isEngStep i = true ∨ t.eng.phase = s.eng.phase)
  | raised (u : State) (c : Cause) (d : BitVec 9) (hs : s.SafeAfter u) (hd : errDirOk d) (ht : t = takeError c d u)
  | dispatched (f : Front) (hi : i = .chdr) (ht : t = dispatchEngine { s with front := f })
  | finished (hi : i = .cfin) (ht : t = { s with front.phase := phIdle, status := stDone, irq := s.irqEn })
  | command (hi : isCmd i = true) (he : t.eng = s.eng) (hr : t.result = s.result)

/-- An engine's direction code is a direction index (10_state.md R25). -/
theorem engErrDir_ok (e : Engine) : errDirOk e.errDir := by
  have hdir : e.errDir.toNat = e.dir.toNat := BitVec.toNat_setWidth_of_le (by decide)
  have hlt := e.dir.isLt
  unfold errDirOk
  omega

/-! ### What the shared operations of `exec` do -/

section
variable {i : Instr} {s t : State}

/-- A step of the engine writes the engine and the result store alone. -/
theorem engStep_effect {e : Engine} {l : List DirRegs} (hi : isEngStep i = true)
    (hs : s.SafeAfter { s with eng := e, result := l }) : ExecEffect i s { s with eng := e, result := l } :=
  .same hs ⟨rfl, rfl, rfl, rfl, rfl, rfl⟩ (.inl hi)

theorem runEng_effect {m : EngM Unit} (hi : isEngStep i = true) (hm : EngSafe s.eng m) (h : runEng m s = .next t) :
    ExecEffect i s t := by
  have hsafe := hm s.eng (.refl _)
  rcases runEng_cases m s with ⟨e, hok, hrun⟩ | ⟨c, e, herr, hrun⟩ <;> cases hrun.symm.trans h
  · exact engStep_effect hi (.ofEng (hsafe.1 _ e hok) rfl)
  · exact .raised { s with eng := e } c _ (.ofEng (hsafe.2 c e herr) rfl) (engErrDir_ok e) rfl

/-- A `BCOP` operation that moves a cursor, answers, and leaves the port. -/
theorem setCursor_effect (c : CursorSel) (v : Cursor) (p : Option PortReq) (x : Int) :
    ExecEffect i s { s.setCursor c v with bcOut := x, port := p } := by
  cases c with
  | eng c => exact .same (.ofEng ((Engine.StaysSafe.refl s.eng).tr _) rfl) ⟨rfl, rfl, rfl, rfl, rfl, rfl⟩ (.inr rfl)
  | ccur => exact .same (.sameEng rfl rfl) ⟨rfl, rfl, rfl, rfl, rfl, rfl⟩ (.inr rfl)

theorem bcRead_effect {c : CursorSel} {n : Nat} {val : Nat → Int} (h : bcRead c n val s = .next t) : ExecEffect i s t := by
  rcases bcRead_cases c n val s with ⟨-, hrun⟩ | ⟨-, -, hrun⟩ <;> cases hrun.symm.trans h
  · exact setCursor_effect _ _ _ _
  · exact .raised { s with port := none } _ _ (.sameEng rfl rfl) (cursorDir_le s c) rfl

/-- A code read through an engine cursor, and what its consumer writes in the engine. -/
theorem engCode_effect {c : EngCursor} {n : Nat} {e : Engine} (he : s.eng.StaysSafe e) (hp : e.phase = s.eng.phase) :
    ExecEffect i s { consumeCode (.eng c) n s with eng := e } :=
  .same (.ofEng he rfl) ⟨rfl, rfl, rfl, rfl, rfl, rfl⟩ (.inr hp)

/-- A code read through `CCUR`, and what its consumer writes in the front end. -/
theorem frontCode_effect {n : Nat} {f : Front} (hp : f.phase = s.front.phase) :
    ExecEffect i s { consumeCode .ccur n s with front := f } :=
  .same (.sameEng rfl rfl) ⟨rfl, rfl, rfl, rfl, rfl, hp⟩ (.inr rfl)

theorem updWork_effect {c : EngCursor} {n : Nat} (f : Work → Work) :
    ExecEffect i s ((consumeCode (.eng c) n s).updWork f) :=
  engCode_effect (((Engine.StaysSafe.refl s.eng).tr _).tr _) rfl

theorem updRegs_effect {c : EngCursor} {n : Nat} {f : DirRegs → DirRegs} (hf : s.eng.regs.Legal → (f s.eng.regs).Legal) :
    ExecEffect i s ((consumeCode (.eng c) n s).updRegs f) :=
  engCode_effect (((Engine.StaysSafe.refl s.eng).tr _).updRegs hf) rfl

/-! ### The instructions whose effect is not one of those -/

theorem chdr_effect (h : exec .chdr s = .next t) : ExecEffect .chdr s t := by
  rcases runFront_cases (chdrParse s.ibuf s.caps.maxFrames) dispatchEngine s with ⟨f, -, hrun⟩ | ⟨c, f, -, hrun⟩ <;>
    cases hrun.symm.trans h
  · exact .dispatched f rfl rfl
  · exact .raised { s with front := f } c _ (.sameEng rfl rfl) (cursorDir_le s .ccur) rfl

theorem dfin_effect (h : exec .dfin s = .next t) : ExecEffect .dfin s t := by
  cases h
  refine engStep_effect rfl ⟨(Engine.StaysSafe.refl s.eng).finish _, fun r hr => ?_⟩
  rcases mem_fileWrite hr with hwritten | hdefault | hold
  · exact .inr (.inl hwritten)
  · exact .inr (.inr hdefault)
  · exact .inl hold

theorem fmtFhdr_effect {wb : Widths} {f : FhdrFields} (h : exec (.fmtFhdr wb f) s = .next t) :
    ExecEffect (.fmtFhdr wb f) s t := by
  change execFmtFhdr wb f s = .next t at h
  unfold execFmtFhdr at h
  dsimp only at h
  split at h <;> cases h
  · exact updRegs_effect fun hl => hl.congr rfl rfl rfl
  · exact .raised ((consumeCode (.eng .main) (codeLen (.fhdr wb)) s).updRegs _) _ _
      (.ofEng ((Engine.StaysSafe.refl s.eng).congr rfl rfl rfl rfl) rfl) (engErrDir_ok _) rfl

theorem beginDecode_eng (s : State) : (beginDecode s).eng = s.eng ∧ (beginDecode s).result = s.result := by
  unfold beginDecode; split <;> exact ⟨rfl, rfl⟩

theorem ackClear_eng (s : State) : (ackClear s).eng = s.eng ∧ (ackClear s).result = s.result := by
  unfold ackClear; split <;> exact ⟨rfl, rfl⟩

theorem start_effect (c : Bool) (h : exec (.start c) s = .next t) : ExecEffect (.start c) s t := by
  cases h
  cases c <;> exact .command rfl (by simp [beginDecode_eng, ackClear_eng]) (by simp [beginDecode_eng, ackClear_eng])

theorem clear_effect (st : Bool) (h : exec (.clear st) s = .next t) : ExecEffect (.clear st) s t := by
  cases h
  cases st <;> exact .command rfl (by simp [beginDecode_eng, ackClear_eng]) (by simp [beginDecode_eng, ackClear_eng])

end

theorem paintAll_phase (g : CellGeom) (q : Quad) (ps : List (Nat × Nat)) (e : Engine) :
    (ps.foldl (fun e p => e.paint g q p.1 p.2 0) e).phase = e.phase := by
  induction ps generalizing e with
  | nil => rfl
  | cons p ps ih => exact (ih _).trans (Engine.paint_phase g q p.1 p.2 0 e)

/-- EVERY INSTRUCTION HAS ONE OF FIVE EFFECTS. -/
theorem exec_effect {i : Instr} {s t : State} (h : exec i s = .next t) : ExecEffect i s t := by
  have here : s.eng.StaysSafe s.eng := .refl _
  cases i with
  | rdbits | rdsbits | rdbit => exact bcRead_effect h
  | skip | clone => cases h; exact setCursor_effect _ _ _ _
  | cons => cases h; exact .same (.sameEng rfl rfl) ⟨rfl, rfl, rfl, rfl, rfl, rfl⟩ (.inr rfl)
  | start c => exact start_effect c h
  | clear st => exact clear_effect st h
  | chdr => exact chdr_effect h
  | dseek =>
    cases h
    exact engStep_effect rfl (.ofEng ((here.goto (p := phDhdr) (.inr (by decide))).tr _) rfl)
  | dhdr => exact runEng_effect rfl (dhdrBody_safe _) h
  | fgeom => exact runEng_effect rfl (fgeomBody_safe _ _) h
  | dbox => exact runEng_effect rfl (dboxBody_safe _) h
  | optchk => exact runEng_effect rfl optchkBody_safe h
  | bsizes => exact runEng_effect rfl (bsizesBody_safe _) h
  | palv => exact runEng_effect rfl (palvBody_safe _) h
  | slice => exact runEng_effect rfl sliceBody_safe h
  | dgrid => exact runEng_effect rfl (dgridBody_safe _) h
  | fgrid => exact runEng_effect rfl (fgridBody_safe _ _) h
  | rcell => exact runEng_effect rfl (rcellBody_safe _ _ _) h
  | pxlat =>
    cases h
    exact engStep_effect rfl (.ofEng ((here.goto (p := phIchk) (.inr (by decide))).tr _) rfl)
  | ichk => exact runEng_effect rfl ichkBody_safe h
  | ccell => exact runEng_effect rfl (ccellBody_safe _ _) h
  | dfin => exact dfin_effect h
  | cfin => cases h; exact .finished rfl rfl
  | fmtCont | fmtOfft | sig | sentinel => cases h; exact frontCode_effect rfl
  | fmtDhdr =>
    cases h
    exact updRegs_effect fun hl =>
      { widths := fun j => by fin_cases j <;> exact wlut_legal _
        palLen := hl.palLen
        palCnt := hl.palCnt
        palTop := hl.palTop }
  | fmtFhdr => exact fmtFhdr_effect h
  | fmtSizes => cases h; exact updRegs_effect fun hl => hl.congr rfl rfl rfl
  | fmtPalv valid => cases h; exact updRegs_effect fun hl => storeFlags_legal valid 256 0 _ hl.clearPal (Nat.le_refl _)
  | widx field x => cases h; exact updRegs_effect fun hl => hl.setWidth field x
  | ecbit | pmask | etbit | rawval | dnibEnd | dnibCont => cases h; exact updWork_effect _
  | pixcode0 =>
    cases h
    exact engCode_effect ((here.tr _).paintAll _ _ _) (paintAll_phase _ _ _ _)
  | pixcode1 | pixcode2 => cases h; exact engCode_effect (here.congr rfl rfl rfl rfl) rfl

end Sys2Proof.Machine
end

section
/-!
PROOFS. The control registers (10_state.md R24, R25, R27): every step keeps them in agreement, and what changes
`STATUS.STATE`.
-/

namespace Sys2Proof.Machine

/-! ### Error records and phases -/

/-- A raise leaves the control registers in agreement whatever they were before. -/
theorem takeError_ctlOk {c : Cause} {d : BitVec 9} (s : State) (hd : errDirOk d) : (takeError c d s).CtlOk where
  frontPhase := .inl rfl
  engPhase := .inl rfl
  waits h := absurd rfl h
  busy := by simp [stError, stBusy]
  noError h := absurd rfl h
  error _ := ⟨⟨c, rfl, rfl⟩, hd⟩
  quiet h := by simp [stError, stIdle, stBusy] at h

namespace State.CtlOk
variable {s t : State} (hs : s.CtlOk)
include hs

/-- Outside `BUSY` neither unit has a step due. -/
theorem idlePhases (hb : s.status ≠ stBusy) : s.front.phase = phIdle ∧ s.eng.phase = phIdle := by
  have hfront : s.front.phase = phIdle := by_contra fun h => hb (hs.busy.2 h)
  refine ⟨hfront, by_contra fun h => ?_⟩
  simp [hs.waits h, phCfin, phIdle] at hfront

/-- The engine alone moved, and a running engine was running before. -/
theorem ofSameCtl (hc : s.SameCtl t) (hp : engPhaseOk t.eng.phase) (hw : t.eng.phase ≠ phIdle → s.eng.phase ≠ phIdle) :
    t.CtlOk where
  frontPhase := hc.frontPhase ▸ hs.frontPhase
  engPhase := hp
  waits h := hc.frontPhase ▸ hs.waits (hw h)
  busy := by rw [hc.status, hc.frontPhase]; exact hs.busy
  noError := by rw [hc.status, hc.errkind, hc.errcause, hc.errdir]; exact hs.noError
  error := by rw [hc.status, hc.errkind, hc.errcause, hc.errdir]; exact hs.error
  quiet := by rw [hc.status, hc.irq]; exact hs.quiet

theorem sameEng (hc : s.SameCtl t) (he : t.eng = s.eng) : t.CtlOk :=
  hs.ofSameCtl hc (he ▸ hs.engPhase) (he ▸ id)

/-! ### The commands -/

/-- `START` in `IDLE` (41_container_and_sequencer.md R150). -/
theorem beginDecode : (beginDecode s).CtlOk := by
  by_cases hi : s.status = stIdle
  · have ⟨_, heng⟩ := hs.idlePhases (by simp [hi, stIdle, stBusy])
    have herr := hs.noError (by simp [hi, stIdle, stError])
    have hirq := hs.quiet (.inl hi)
    rw [Machine.beginDecode, if_pos hi]
    exact
      { frontPhase := .inr (.inl rfl)
        engPhase := .inl heng
        waits := fun h => absurd heng h
        busy := by simp [phChdr, phIdle]
        noError := fun _ => herr
        error := fun h => by simp [stBusy, stError] at h
        quiet := fun _ => hirq }
  · rw [Machine.beginDecode, if_neg hi]; exact hs

/-- `CLEAR` in `DONE` or `ERROR` (41_container_and_sequencer.md R151). -/
theorem ackClear : (ackClear s).CtlOk := by
  by_cases hi : s.status = stDone ∨ s.status = stError
  · have ⟨hfront, heng⟩ := hs.idlePhases (by rcases hi with h | h <;> simp [h, stDone, stError, stBusy])
    rw [Machine.ackClear, if_pos hi]
    exact
      { frontPhase := .inl hfront
        engPhase := .inl heng
        waits := fun h => absurd heng h
        busy := by simp [hfront, stIdle, stBusy]
        noError := fun _ => ⟨rfl, rfl, rfl⟩
        error := fun h => by simp [stIdle, stError] at h
        quiet := fun _ => rfl }
  · rw [Machine.ackClear, if_neg hi]; exact hs

/-- A command takes the pending word out of `CTRL`. -/
theorem command {i : Instr} (hd : decode (.cmd s.ctrl) = .ok i) (h : exec i s = .next t) : t.CtlOk := by
  have hs₀ : ({ s with ctrl := 0 } : State).CtlOk := hs.sameEng ⟨rfl, rfl, rfl, rfl, rfl, rfl⟩ rfl
  rcases decode_cmd_kind hd with ⟨-, rfl⟩ | ⟨-, rfl⟩ | ⟨-, rfl⟩ <;> cases h
  · exact hs₀.beginDecode
  · exact hs₀.ackClear
  · exact hs₀.ackClear.beginDecode

/-! ### The sequencer -/

/-- `CHDR` and `CFIN` are fetched from the front end's `PHASE`: no engine runs. -/
theorem frontStep {i : Instr} {p : BitVec 5} (hp : (s.eng.phase ≠ phIdle ∧ p = s.eng.phase) ∨
    (s.eng.phase = phIdle ∧ p = s.front.phase)) (hd : decode (.seq p) = .ok i) (hi : i = .chdr ∨ i = .cfin) :
    s.eng.phase = phIdle ∧ p = s.front.phase := by
  refine hp.resolve_left fun ⟨hrun, hpe⟩ => ?_
  have hnum : ∀ p : BitVec 5, 2 ≤ p.toNat ∧ p.toNat ≤ 16 → decode (.seq p) ≠ .ok .chdr ∧ decode (.seq p) ≠ .ok .cfin := by
    decide
  obtain ⟨hchdr, hcfin⟩ := hnum p (hpe ▸ hs.engPhase.resolve_left hrun)
  rcases hi with rfl | rfl
  · exact hchdr hd
  · exact hcfin hd

/-- A step of the engine is fetched from the engine's `PHASE`: it runs. -/
theorem engStep {i : Instr} {p : BitVec 5} (hp : (s.eng.phase ≠ phIdle ∧ p = s.eng.phase) ∨
    (s.eng.phase = phIdle ∧ p = s.front.phase)) (hd : decode (.seq p) = .ok i) (hi : isEngStep i = true) :
    s.eng.phase ≠ phIdle := by
  rcases hp with ⟨hrun, -⟩ | ⟨-, rfl⟩
  · exact hrun
  · rcases hs.frontPhase with h | h | h <;> rw [h] at hd <;> cases hd <;> cases hi

/-- `CHDR` done (41_container_and_sequencer.md R152): the front end waits, the engine, if there is a direction, starts. -/
theorem dispatch (f : Front) (hb : s.status = stBusy) (he : s.eng.phase = phIdle) :
    (dispatchEngine { s with front := f }).CtlOk := by
  have herr := hs.noError (by simp [hb, stBusy, stError])
  have hirq := hs.quiet (.inr hb)
  have hphase : engPhaseOk (dispatchEngine { s with front := f }).eng.phase := by
    unfold dispatchEngine
    split
    · exact .inl he
    · exact show engPhaseOk phDseek from .inr (by decide)
  have hrest : ({ s with front.phase := phCfin } : State).SameCtl (dispatchEngine { s with front := f }) := by
    unfold dispatchEngine
    split <;> exact ⟨rfl, rfl, rfl, rfl, rfl, rfl⟩
  exact
    { frontPhase := .inr (.inr hrest.frontPhase)
      engPhase := hphase
      waits := fun _ => hrest.frontPhase
      busy := by rw [hrest.status, hrest.frontPhase]; simp [hb, phCfin, phIdle]
      noError := fun _ => by rw [hrest.errkind, hrest.errcause, hrest.errdir]; exact herr
      error := fun h => by rw [hrest.status, hb] at h; simp [stBusy, stError] at h
      quiet := fun _ => hrest.irq.trans hirq }

/-- `CFIN` (41_container_and_sequencer.md R168). -/
theorem finish (hb : s.status = stBusy) (he : s.eng.phase = phIdle) :
    ({ s with front.phase := phIdle, status := stDone, irq := s.irqEn } : State).CtlOk where
  frontPhase := .inl rfl
  engPhase := .inl he
  waits h := absurd he h
  busy := by simp [stDone, stBusy]
  noError _ := hs.noError (by simp [hb, stBusy, stError])
  error h := by simp [stDone, stError] at h
  quiet h := by simp [stDone, stIdle, stBusy] at h

/-- An instruction run while `BUSY` by the unit it belongs to. -/
theorem exec {i : Instr} (hb : s.status = stBusy) (hcmd : isCmd i = false)
    (hengine : isEngStep i = true → s.eng.phase ≠ phIdle) (hfront : i = .chdr ∨ i = .cfin → s.eng.phase = phIdle)
    (h : exec i s = .next t) : t.CtlOk := by
  cases exec_effect h with
  | same hsafe hc hp =>
    refine hs.ofSameCtl hc (hsafe.eng.phase hs.engPhase) fun ht => ?_
    rcases hp with hstep | hsame
    · exact hengine hstep
    · exact hsame ▸ ht
  | raised u c d _ hd ht => exact ht ▸ takeError_ctlOk u hd
  | dispatched f hi ht => exact ht ▸ hs.dispatch f hb (hfront (.inl hi))
  | finished hi ht => exact ht ▸ hs.finish hb (hfront (.inr hi))
  | command hi => exact absurd (hi.symm.trans hcmd) (by decide)

/-- A `BCOP` word, a format or a code, run from the port. -/
theorem port {i : Instr} (hb : s.status = stBusy) (hi : isSeq i = false ∧ isCmd i = false) (h : Machine.exec i s = .next t) :
    t.CtlOk := by
  refine hs.exec hb hi.2 (fun hstep => ?_) ?_ h
  · simp [isEngStep, hi.1] at hstep
  · rintro (rfl | rfl) <;> cases hi.1

end State.CtlOk

/-! ### The host -/

theorem reset_ctlOk : State.reset.CtlOk where
  frontPhase := .inl rfl
  engPhase := .inl rfl
  waits h := absurd rfl h
  busy := by decide
  noError _ := ⟨rfl, rfl, rfl⟩
  error h := absurd h (by decide)
  quiet _ := rfl

/-- The reset input leaves the control registers of `State.reset`. -/
theorem resetInput_ctlOk (s : State) : (resetInput s).CtlOk :=
  reset_ctlOk.sameEng ⟨rfl, rfl, rfl, rfl, rfl, rfl⟩ rfl

/-- An access of the host is the reset input, or changes neither a control register nor a direction. -/
theorem hostAccess_cases {r : HostReq} {s t : State} (h : hostAccess r s = .next t) :
    (r = .rst ∧ t = resetInput s) ∨ (s.SameCtl t ∧ t.eng = s.eng ∧ t.result = s.result) := by
  cases r with
  | rst => cases h; exact .inl ⟨rfl, rfl⟩
  | csrWrite n v =>
    right
    simp only [hostAccess, csrWrite] at h
    split at h
    case h_6 => split at h <;> cases h <;> exact ⟨⟨rfl, rfl, rfl, rfl, rfl, rfl⟩, rfl, rfl⟩
    all_goals cases h <;> exact ⟨⟨rfl, rfl, rfl, rfl, rfl, rfl⟩, rfl, rfl⟩
  | csrRead n =>
    right
    simp only [hostAccess, csrRead] at h
    split at h
    case h_6 => split at h <;> cases h <;> exact ⟨⟨rfl, rfl, rfl, rfl, rfl, rfl⟩, rfl, rfl⟩
    all_goals cases h <;> exact ⟨⟨rfl, rfl, rfl, rfl, rfl, rfl⟩, rfl, rfl⟩
  | ibufWrite a v =>
    right
    simp only [hostAccess, ibufWrite] at h
    split at h <;> cases h
    exact ⟨⟨rfl, rfl, rfl, rfl, rfl, rfl⟩, rfl, rfl⟩
  | resultRead p =>
    right
    simp only [hostAccess, resultRead] at h
    split at h
    · split at h <;> cases h
      exact ⟨⟨rfl, rfl, rfl, rfl, rfl, rfl⟩, rfl, rfl⟩
    · cases h
      exact ⟨⟨rfl, rfl, rfl, rfl, rfl, rfl⟩, rfl, rfl⟩

theorem BlockTurn.fields {s u : State} (hu : BlockTurn s u) :
    s.SameCtl u ∧ u.eng = s.eng ∧ u.front = s.front ∧ u.result = s.result := by
  rcases hu with rfl | ⟨rest, -, rfl⟩ <;> exact ⟨⟨rfl, rfl, rfl, rfl, rfl, rfl⟩, rfl, rfl, rfl⟩

theorem BlockTurn.ctlOk {s u : State} (hu : BlockTurn s u) (hs : s.CtlOk) : u.CtlOk :=
  have ⟨hc, he, _⟩ := hu.fields
  hs.sameEng hc he

theorem BlockTurn.busy {s u : State} (hu : BlockTurn s u) (hb : s.status = stBusy) : u.status = stBusy :=
  hu.fields.1.status.trans hb

end Sys2Proof.Machine

open Sys2Proof Sys2Proof.Machine

/-- Settles O9: each case of a step keeps the control registers in agreement, an instruction because of the unit it was
fetched from. -/
theorem stepKeepsControl : Obligations.StepKeepsControl := by
  intro s t hs hstep
  cases step_is hstep with
  | cmd i _ hd he => exact hs.command hd he
  | host r rest _ _ he =>
    have hrest : ({ s with inputs := rest } : State).CtlOk := hs.sameEng ⟨rfl, rfl, rfl, rfl, rfl, rfl⟩ rfl
    rcases hostAccess_cases he with ⟨-, rfl⟩ | ⟨hc, heng, -⟩
    · exact resetInput_ctlOk _
    · exact hrest.sameEng hc heng
  | wait u _ hu ht => exact ht ▸ hu.ctlOk hs
  | noOp u _ _ hu ht => exact ht ▸ (hu.ctlOk hs).sameEng ⟨rfl, rfl, rfl, rfl, rfl, rfl⟩ rfl
  | raise u c d _ _ _ hd ht => exact ht ▸ takeError_ctlOk _ hd
  | bcop u i w n20 _ hb hu _ hd he => exact (hu.ctlOk hs).port (hu.busy hb) (decode_bcop_kind hd) he
  | code u i k b _ hb hu hd he => exact (hu.ctlOk hs).port (hu.busy hb) (decode_code_kind hd) he
  | seq u i p _ hb hu _ hp hd he =>
    obtain ⟨-, heng, -⟩ := hu.fields
    refine (hu.ctlOk hs).exec (hu.busy hb) (decode_seq_kind hd).2.1 (fun hi => ?_) (fun hi => ?_) he <;> rw [heng]
    · exact hs.engStep hp hd hi
    · exact (hs.frontStep hp hd hi).1
end

section
/-!
PROOFS. The registers of the directions (10_state.md R29, R31): every step keeps the widths and the palette tables legal. And
what reset leaves.
-/

namespace Sys2Proof.Machine

theorem dispatchEngine_safeAfter (s : State) : s.SafeAfter (dispatchEngine s) := by
  have here : s.eng.StaysSafe s.eng := .refl _
  unfold dispatchEngine
  split
  · exact .sameEng rfl rfl
  · exact .ofEng ((here.goto (p := phDseek) (.inr (by decide))).congr rfl rfl rfl rfl) rfl

/-- Every instruction leaves the engine and the result store safe. -/
theorem exec_safeAfter {i : Instr} {s t : State} (h : exec i s = .next t) : s.SafeAfter t := by
  cases exec_effect h with
  | same hsafe => exact hsafe
  | raised u c d hsafe _ ht =>
    exact ht ▸ ⟨hsafe.eng.goto (.inl rfl), hsafe.result⟩
  | dispatched f _ ht =>
    have hf := dispatchEngine_safeAfter { s with front := f }
    exact ht ▸ ⟨hf.eng, hf.result⟩
  | finished _ ht => exact ht ▸ .sameEng rfl rfl
  | command _ he hr => exact .sameEng he hr

/-- Legal registers stay legal where the engine and the result store are left safe. -/
theorem State.RegsOk.ofSafe {s t : State} (hs : s.RegsOk) (h : s.SafeAfter t) : t.RegsOk where
  eng := h.eng.regs hs.eng
  result r hr := by
    rcases h.result r hr with hold | hwork | hreset
    · exact hs.result r hold
    · exact hwork ▸ hs.eng
    · exact hreset ▸ resetRegs_legal

theorem State.RegsOk.sameEng {s t : State} (hs : s.RegsOk) (he : t.eng = s.eng) (hr : t.result = s.result) : t.RegsOk :=
  hs.ofSafe (.sameEng he hr)

theorem BlockTurn.regsOk {s u : State} (hu : BlockTurn s u) (hs : s.RegsOk) : u.RegsOk :=
  have ⟨_, he, _, hr⟩ := hu.fields
  hs.sameEng he hr

theorem reset_regsOk : State.reset.RegsOk where
  eng := resetRegs_legal
  result _ hr := nomatch hr

theorem reset_memOk : State.reset.MemOk where
  ibuf := reset_ibuf_wf
  canvas := reset_canvas_wf
  regs _ hm := nomatch hm
  result _ hr := nomatch hr

end Sys2Proof.Machine

open Sys2Proof Sys2Proof.Machine

/-- Settles O10: an instruction leaves the engine and the result store safe, and no other case of a step but the reset input
touches either. -/
theorem stepKeepsRegisters : Obligations.StepKeepsRegisters := by
  intro s t hs hstep
  cases step_is hstep with
  | cmd i _ _ he => exact hs.ofSafe (exec_safeAfter he)
  | host r rest _ _ he =>
    rcases hostAccess_cases he with ⟨-, rfl⟩ | ⟨-, heng, hres⟩
    · exact reset_regsOk.sameEng rfl rfl
    · exact hs.sameEng heng hres
  | wait u _ hu ht => exact ht ▸ hu.regsOk hs
  | noOp u _ _ hu ht => exact ht ▸ (hu.regsOk hs).sameEng rfl rfl
  | raise u c d _ _ hu _ ht => exact ht ▸ ⟨(hu.regsOk hs).eng, (hu.regsOk hs).result⟩
  | bcop u i w n20 _ _ hu _ _ he => exact (hu.regsOk hs).ofSafe (exec_safeAfter he)
  | code u i k b _ _ hu _ he => exact (hu.regsOk hs).ofSafe (exec_safeAfter he)
  | seq u i p _ _ hu _ _ _ he => exact (hu.regsOk hs).ofSafe (exec_safeAfter he)

/-- Settles O11. -/
theorem resetIsSafe : Obligations.ResetIsSafe := ⟨reset_memOk, reset_ctlOk, reset_regsOk⟩
end

section
/-!
PROOFS. What changes `STATUS.STATE` (10_state.md R24).
-/

namespace Sys2Proof.Machine

theorem beginDecode_status (s : State) : (beginDecode s).status = if s.status = stIdle then stBusy else s.status := by
  unfold beginDecode; split <;> rfl

theorem ackClear_status (s : State) :
    (ackClear s).status = if s.status = stDone ∨ s.status = stError then stIdle else s.status := by
  unfold ackClear; split <;> rfl

theorem dispatchEngine_status (s : State) : (dispatchEngine s).status = s.status := by
  unfold dispatchEngine; split <;> rfl

/-- An instruction other than a command changes `STATE` only by a raise or by `CFIN`. -/
theorem exec_status {i : Instr} {s t : State} (hcmd : isCmd i = false) (h : exec i s = .next t) :
    t.status = s.status ∨ t.status = stError ∨ (i = .cfin ∧ t.status = stDone) := by
  cases exec_effect h with
  | same _ hc => exact .inl hc.status
  | raised u c d _ _ ht => exact .inr (.inl (ht ▸ rfl))
  | dispatched f _ ht => exact .inl (ht ▸ dispatchEngine_status _)
  | finished hi ht => exact .inr (.inr ⟨hi, ht ▸ rfl⟩)
  | command hi => exact absurd (hi.symm.trans hcmd) (by decide)

/-- What a command does to `STATE` (41_container_and_sequencer.md R150, R151): `CLEAR` first, `START` second. -/
theorem command_status {i : Instr} {s t : State} (hd : decode (.cmd s.ctrl) = .ok i) (h : exec i s = .next t)
    (hne : t.status ≠ s.status) :
    (s.ctrl.getLsbD 0 = true ∧ s.status = stIdle ∧ t.status = stBusy) ∨
      (s.ctrl.getLsbD 1 = true ∧ (s.status = stDone ∨ s.status = stError) ∧
        t.status = if s.ctrl.getLsbD 0 then stBusy else stIdle) := by
  rcases decode_cmd_kind hd with ⟨hc, rfl⟩ | ⟨hc, rfl⟩ | ⟨hc, rfl⟩ <;> rw [hc]
  · have hst : t.status = if s.status = stIdle then stBusy else s.status := by
      cases h; exact beginDecode_status { s with ctrl := 0 }
    split at hst
    · next hidle => exact .inl ⟨rfl, hidle, hst⟩
    · exact absurd hst hne
  · have hst : t.status = if s.status = stDone ∨ s.status = stError then stIdle else s.status := by
      cases h; exact ackClear_status { s with ctrl := 0 }
    split at hst
    · next hstopped => exact .inr ⟨rfl, hstopped, hst⟩
    · exact absurd hst hne
  · have hst : t.status = if (ackClear { s with ctrl := 0 }).status = stIdle then stBusy
        else (ackClear { s with ctrl := 0 }).status := by
      cases h; exact beginDecode_status (ackClear { s with ctrl := 0 })
    rw [ackClear_status] at hst
    dsimp only at hst
    by_cases hstopped : s.status = stDone ∨ s.status = stError
    · rw [if_pos hstopped, if_pos rfl] at hst
      exact .inr ⟨rfl, hstopped, hst⟩
    · rw [if_neg hstopped] at hst
      split at hst
      · next hidle => exact .inl ⟨rfl, hidle, hst⟩
      · exact absurd hst hne

end Sys2Proof.Machine

open Sys2Proof Sys2Proof.Machine

/-- Settles O18: a command, a raise, `CFIN` and the reset input are the only cases of a step that change `STATE`. -/
theorem statusChanges : Obligations.StatusChanges := by
  intro s t hs hstep hne
  have same {u : State} (hu : BlockTurn s u) : t.status ≠ u.status := hu.fields.1.status ▸ hne
  cases step_is hstep with
  | cmd i _ hd he =>
    rcases command_status hd he hne with hstart | hclear
    · exact .inl hstart
    · exact .inr (.inl hclear)
  | host r rest hctrl hin he =>
    rcases hostAccess_cases he with ⟨rfl, rfl⟩ | ⟨hc, -, -⟩
    · exact .inr (.inr (.inr (.inr ⟨hctrl, by rw [hin]; rfl, rfl⟩)))
    · exact absurd hc.status hne
  | wait u _ hu ht => exact absurd (ht ▸ rfl) (same hu)
  | noOp u _ _ hu ht => exact absurd (ht ▸ rfl) (same hu)
  | raise u c d hctrl hb _ _ ht => exact .inr (.inr (.inr (.inl ⟨hctrl, hb, ht ▸ rfl⟩)))
  | bcop u i w n20 hctrl hb hu _ hd he =>
    obtain ⟨hseq, hcmd⟩ := decode_bcop_kind hd
    rcases exec_status hcmd he with hst | hst | ⟨rfl, -⟩
    · exact absurd hst (same hu)
    · exact .inr (.inr (.inr (.inl ⟨hctrl, hb, hst⟩)))
    · cases hseq
  | code u i k b hctrl hb hu hd he =>
    obtain ⟨hseq, hcmd⟩ := decode_code_kind hd
    rcases exec_status hcmd he with hst | hst | ⟨rfl, -⟩
    · exact absurd hst (same hu)
    · exact .inr (.inr (.inr (.inl ⟨hctrl, hb, hst⟩)))
    · cases hseq
  | seq u i p hctrl hb hu hport hp hd he =>
    obtain ⟨-, hcmd, hcfin⟩ := decode_seq_kind hd
    rcases exec_status hcmd he with hst | hst | ⟨hi, hst⟩
    · exact absurd hst (same hu)
    · exact .inr (.inr (.inr (.inl ⟨hctrl, hb, hst⟩)))
    · obtain ⟨heng, hfront⟩ := hs.frontStep hp hd (.inr hi)
      exact .inr (.inr (.inl ⟨hctrl, hb, hport, heng, hfront ▸ hcfin.1 hi, hst⟩))
end

section
/-!
PROOFS. The host's registers (10_state.md R22, R49) and the result store (R50).
-/

namespace Sys2Proof.Machine

/-! ### The host registers -/

theorem csrRead_length (s : State) : csrRead 5 s =
    .next (if s.status = stBusy then readFree s else readValueIs s.ibuf.len.toNat s) := rfl

theorem csrWrite_length (v : BitVec 32) (s : State) :
    csrWrite 5 v s = .next (if s.status = stIdle then { s with ibuf.len := v } else s) := rfl

/-- The error registers and `STATUS` are read-only (10_state.md R22; log 10). -/
theorem csrWrite_readOnly {n : Nat} (h1 : 1 ≤ n) (h4 : n ≤ 4) (v : BitVec 32) (s : State) : csrWrite n v s = .next s := by
  interval_cases n <;> rfl

/-- "No other CSR number exists" (10_state.md R22; log 11). -/
theorem noSuchCsr {n : Nat} (h : 7 ≤ n) (v : BitVec 32) (s : State) :
    csrRead n s = .fault .noSuchCsr ∧ csrWrite n v s = .fault .noSuchCsr := by
  obtain ⟨k, rfl⟩ := Nat.exists_eq_add_of_le' h
  exact ⟨rfl, rfl⟩

/-! ### The result store -/

/-- The registers of direction `d` in the result store. -/
abbrev State.stored (s : State) (d : Nat) : DirRegs := fileRead resetRegs s.result d

/-- How many cells frame `f` of it has. -/
abbrev State.storedCells (s : State) (d f : Nat) : Nat := fileRead 0 (s.stored d).fhcc f * fileRead 0 (s.stored d).fvcc f

theorem resultRead_notDone {s : State} (h : s.status ≠ stDone) (e : ResultSel) :
    hostAccess (.resultRead e) s = .next (readFree s) := if_neg h

section
variable {s : State} (hdone : s.status = stDone)
include hdone

/-- In `DONE` a table of places reads as the store's values. -/
theorem eachReads_iff (l : List (ResultSel × Int)) : EachReads s l ↔ ∀ x ∈ l, resultValue s x.1 = some x.2 := by
  refine forall₂_congr fun x _ => ?_
  simp only [hostAccess, resultRead, if_pos hdone]
  cases resultValue s x.1 with
  | none => simp
  | some v => simp [readValueIs]

theorem noneExists_iff (l : List (ResultSel × Int)) : NoneExists s l ↔ ∀ x ∈ l, resultValue s x.1 = none := by
  refine forall₂_congr fun x _ => ?_
  simp only [hostAccess, resultRead, if_pos hdone]
  cases resultValue s x.1 <;> simp

end

/-! What each kind of place holds, and where there is none. -/

section
variable {s : State} {d f : Nat}

theorem resultDir_some (h : d < s.front.ndir.toNat) : resultDir s d = some (s.stored d) := if_pos h

theorem resultDir_none (h : s.front.ndir.toNat ≤ d) : resultDir s d = none := if_neg (Nat.not_lt.2 h)

theorem ofDir_some (h : d < s.front.ndir.toNat) (g : DirRegs → Int) :
    ofDir s d g = some (g (s.stored d)) := by rw [ofDir, resultDir_some h]; rfl

theorem ofDir_none (h : s.front.ndir.toNat ≤ d) (g : DirRegs → Int) : ofDir s d g = none := by
  rw [ofDir, resultDir_none h]; rfl

theorem ofFrame_some (hd : d < s.front.ndir.toNat) (hf : (f : Int) < s.front.nframes.toInt) (g : DirRegs → Int) :
    ofFrame s d f g = some (g (s.stored d)) := (if_pos hf).trans (ofDir_some hd g)

theorem ofFrame_none (h : s.front.ndir.toNat ≤ d ∨ s.front.nframes.toInt ≤ f) (g : DirRegs → Int) :
    ofFrame s d f g = none := by
  unfold ofFrame
  split
  · next hf => exact ofDir_none (h.resolve_right (by omega)) g
  · rfl

theorem ofCell_some {c : Nat} (hd : d < s.front.ndir.toNat) (hf : (f : Int) < s.front.nframes.toInt)
    (hc : c < s.storedCells d f) (g : CellGeom → Int) : ofCell s d f c g = some (g ((s.stored d).cell f c)) := by
  rw [ofCell, resultDir_some hd]
  exact if_pos ⟨hf, hc⟩

theorem ofCell_none {c : Nat} (h : s.front.ndir.toNat ≤ d ∨ s.front.nframes.toInt ≤ f ∨ s.storedCells d f ≤ c)
    (g : CellGeom → Int) : ofCell s d f c g = none := by
  by_cases hd : d < s.front.ndir.toNat
  · rw [ofCell, resultDir_some hd]
    refine if_neg fun ⟨hf, (hc : c < s.storedCells d f)⟩ => ?_
    omega
  · rw [ofCell, resultDir_none (Nat.not_lt.1 hd)]

theorem ofPixel_some {p : Nat} (hd : d < s.front.ndir.toNat) (hf : (f : Int) < s.front.nframes.toInt)
    (hp : p < (s.stored d).dw * (s.stored d).dh) :
    ofPixel s d f p = some ((((s.stored d).outArr f).read p).toNat : Int) := by
  rw [ofPixel, resultDir_some hd]
  exact if_pos ⟨hf, hp⟩

theorem ofPixel_none {p : Nat} (h : s.front.ndir.toNat ≤ d ∨ s.front.nframes.toInt ≤ f ∨
      (s.stored d).dw * (s.stored d).dh ≤ p) : ofPixel s d f p = none := by
  by_cases hd : d < s.front.ndir.toNat
  · rw [ofPixel, resultDir_some hd]
    refine if_neg fun ⟨hf, hp⟩ => ?_
    omega
  · rw [ofPixel, resultDir_none (Nat.not_lt.1 hd)]

end

/-! ### The tables of places -/

section
variable {s : State} {d f c p : Nat} (hdone : s.status = stDone)
include hdone

theorem container_reads : EachReads s (containerReads s.front) := by
  simp [eachReads_iff hdone, containerReads, resultValue]

theorem diroff_reads (hd : d < s.front.ndir.toNat) :
    EachReads s [(.diroff d, ((fileRead 0 s.front.diroff d).toNat : Int))] := by
  simp [eachReads_iff hdone, resultValue, hd]

theorem direction_reads (hd : d < s.front.ndir.toNat) (j : Byte) :
    EachReads s (directionReads d j (s.stored d)) := by
  simp [eachReads_iff hdone, directionReads, resultValue, ofDir_some hd, widthAt, palAt]

theorem frame_reads (hd : d < s.front.ndir.toNat) (hf : (f : Int) < s.front.nframes.toInt) :
    EachReads s (frameReads d f (s.stored d)) := by
  simp [eachReads_iff hdone, frameReads, resultValue, ofFrame_some hd hf]

theorem cell_reads (hd : d < s.front.ndir.toNat) (hf : (f : Int) < s.front.nframes.toInt)
    (hc : c < s.storedCells d f) :
    EachReads s (cellReads d f c ((s.stored d).cell f c)) := by
  simp [eachReads_iff hdone, cellReads, resultValue, ofCell_some hd hf hc]

theorem pixel_reads (hd : d < s.front.ndir.toNat) (hf : (f : Int) < s.front.nframes.toInt)
    (hp : p < (s.stored d).dw * (s.stored d).dh) :
    EachReads s [(.pixel d f p, ((((s.stored d).outArr f).read p).toNat : Int))] := by
  simp [eachReads_iff hdone, resultValue, ofPixel_some hd hf hp]

theorem diroff_none (hd : s.front.ndir.toNat ≤ d) (v : Int) : NoneExists s [(.diroff d, v)] := by
  simp [noneExists_iff hdone, resultValue, Nat.not_lt.2 hd]

theorem direction_none (hd : s.front.ndir.toNat ≤ d) (j : Byte) (r : DirRegs) : NoneExists s (directionReads d j r) := by
  simp [noneExists_iff hdone, directionReads, resultValue, ofDir_none hd]

theorem frame_none (h : s.front.ndir.toNat ≤ d ∨ s.front.nframes.toInt ≤ f) (r : DirRegs) :
    NoneExists s (frameReads d f r) := by
  simp [noneExists_iff hdone, frameReads, resultValue, ofFrame_none h]

theorem cell_none (h : s.front.ndir.toNat ≤ d ∨ s.front.nframes.toInt ≤ f ∨ s.storedCells d f ≤ c)
    (g : CellGeom) : NoneExists s (cellReads d f c g) := by
  simp [noneExists_iff hdone, cellReads, resultValue, ofCell_none h]

theorem pixel_none (h : s.front.ndir.toNat ≤ d ∨ s.front.nframes.toInt ≤ f ∨
      (s.stored d).dw * (s.stored d).dh ≤ p) (v : Int) :
    NoneExists s [(.pixel d f p, v)] := by
  simp [noneExists_iff hdone, resultValue, ofPixel_none h]

end

theorem eachReads_append {s : State} {l m : List (ResultSel × Int)} (hl : EachReads s l) (hm : EachReads s m) :
    EachReads s (l ++ m) := List.forall_mem_append.2 ⟨hl, hm⟩

theorem noneExists_append {s : State} {l m : List (ResultSel × Int)} (hl : NoneExists s l) (hm : NoneExists s m) :
    NoneExists s (l ++ m) := List.forall_mem_append.2 ⟨hl, hm⟩

end Sys2Proof.Machine

open Sys2Proof Sys2Proof.Machine

/-- Settles O15, number by number. -/
theorem csrTable : Obligations.CsrTable := by
  intro s v n
  refine ⟨rfl, rfl, rfl, rfl, rfl, fun hb => ?_, fun hb => ?_, rfl, ?_, fun h1 h4 => csrWrite_readOnly h1 h4 v s,
    fun hi => ?_, fun hi => ?_, ?_, fun h7 => noSuchCsr h7 v s⟩
  · exact (csrRead_length s).trans (by rw [if_neg hb]; rfl)
  · exact (csrRead_length s).trans (by rw [if_pos hb])
  · show csrWrite 0 v s = _
    rw [← BitVec.setWidth_eq_extractLsb' (by decide)]; rfl
  · exact (csrWrite_length v s).trans (by rw [if_pos hi])
  · exact (csrWrite_length v s).trans (by rw [if_neg hi])
  · show csrWrite 6 v s = _
    rw [← BitVec.setWidth_eq_extractLsb' (by decide)]; rfl

/-- Settles O17: in `DONE` table by table, by the bound each place is under. -/
theorem resultStore : Obligations.ResultStore := by
  intro s d f c p j r off pixel cell
  refine ⟨fun hdone => ⟨container_reads hdone, fun hd => ⟨?_, fun hf => ?_, fun hf => ?_⟩, fun hd => ?_⟩, resultRead_notDone⟩
  · exact eachReads_append (diroff_reads hdone hd) (direction_reads hdone hd j)
  · exact ⟨frame_reads hdone hd hf, cell_reads hdone hd hf, fun hc => cell_none hdone (.inr (.inr hc)) _,
      pixel_reads hdone hd hf, fun hp => pixel_none hdone (.inr (.inr hp)) _⟩
  · exact noneExists_append (noneExists_append (frame_none hdone (.inr hf) r) (cell_none hdone (.inr (.inl hf)) _))
      (pixel_none hdone (.inr (.inl hf)) _)
  · exact noneExists_append (noneExists_append (noneExists_append (noneExists_append (diroff_none hdone hd _)
      (direction_none hdone hd j r)) (frame_none hdone (.inl hd) r)) (cell_none hdone (.inl hd) _))
      (pixel_none hdone (.inl hd) _)
end

section
/-!
PROOFS. What no instruction writes, and which instructions store a byte (20_memory.md R67, R74; 40_bitcursor.md R141): the
host's side of the state and the pixel memories, said once for all 43 instructions.
-/

namespace Sys2Proof.Machine

/-! ### The two parts of the state -/

/-- What the host alone writes: the input buffer, `IRQ_EN`, the capacities, its accesses and their data. -/
def State.hostSide (s : State) : Buf × BitVec 1 × Config.Capacities × List (Option HostReq) × Int × Nat :=
  (s.ibuf, s.irqEn, s.caps, s.inputs, s.hostData, s.hostFree)

/-- The pixel memories of an engine: the canvas and the output arrays in work. -/
def Engine.pixels (e : Engine) : Mem × List Mem := (e.tr.canvas, e.regs.out)

/-- Every memory of the machine but the input buffer. -/
def State.pixels (s : State) : (Mem × List Mem) × List DirRegs := (s.eng.pixels, s.result)

theorem State.hostSide_eq_iff {s t : State} : t.hostSide = s.hostSide ↔
    t.ibuf = s.ibuf ∧ t.irqEn = s.irqEn ∧ t.caps = s.caps ∧ t.inputs = s.inputs ∧ t.hostData = s.hostData ∧
      t.hostFree = s.hostFree := by
  simp only [State.hostSide, Prod.mk.injEq]

theorem State.pixels_eq_iff {s t : State} : t.pixels = s.pixels ↔
    (t.eng.tr.canvas = s.eng.tr.canvas ∧ t.eng.regs.out = s.eng.regs.out) ∧ t.result = s.result := by
  simp only [State.pixels, Engine.pixels, Prod.mk.injEq]

/-- Memories that are the same data read alike at every address. -/
theorem SameBytes.of_pixels {s t : State} (hbuf : t.ibuf = s.ibuf) (h : t.pixels = s.pixels) : SameBytes s t := by
  obtain ⟨⟨hcanvas, hout⟩, hresult⟩ := State.pixels_eq_iff.1 h
  simp [SameBytes, DirRegs.outArr, hbuf, hcanvas, hout, hresult]

theorem Engine.pixels_setCur (e : Engine) (c : EngCursor) (v : Cursor) :
    { e with tr := e.tr.setCur c v }.pixels = e.pixels := by cases c <;> rfl

@[simp] theorem State.setCursor_hostSide (s : State) (c : CursorSel) (v : Cursor) :
    (s.setCursor c v).hostSide = s.hostSide := by cases c <;> rfl

@[simp] theorem State.setCursor_pixels (s : State) (c : CursorSel) (v : Cursor) :
    (s.setCursor c v).pixels = s.pixels := by
  cases c with
  | eng c => exact congrArg (·, s.result) (s.eng.pixels_setCur c v)
  | ccur => rfl

@[simp] theorem beginDecode_hostSide (s : State) : (beginDecode s).hostSide = s.hostSide := by
  unfold beginDecode; split <;> rfl

@[simp] theorem beginDecode_pixels (s : State) : (beginDecode s).pixels = s.pixels := by
  unfold beginDecode; split <;> rfl

@[simp] theorem ackClear_hostSide (s : State) : (ackClear s).hostSide = s.hostSide := by
  unfold ackClear; split <;> rfl

@[simp] theorem ackClear_pixels (s : State) : (ackClear s).pixels = s.pixels := by
  unfold ackClear; split <;> rfl

@[simp] theorem dispatchEngine_hostSide (s : State) : (dispatchEngine s).hostSide = s.hostSide := by
  unfold dispatchEngine; split <;> rfl

@[simp] theorem dispatchEngine_pixels (s : State) : (dispatchEngine s).pixels = s.pixels := by
  unfold dispatchEngine; split <;> rfl

theorem storeFlags_out (valid : BitVec 256) : ∀ (k i : Nat) (r : DirRegs), (storeFlags valid i k r).out = r.out
  | 0, _, _ => rfl
  | k + 1, i, r => (storeFlags_out valid k (i + 1) _).trans (DirRegs.palFlag_out r i _)

/-! ### The steps of the engine that store no byte -/

/-- Engine `e` holds the pixel memories of `e₀`. -/
def Engine.SamePixels (e₀ e : Engine) : Prop := e.pixels = e₀.pixels

theorem Engine.SamePixels.congr {e₀ e e' : Engine} (h : e₀.SamePixels e) (hp : e'.pixels = e.pixels) : e₀.SamePixels e' :=
  hp.trans h

theorem Engine.SamePixels.setCur {e₀ e : Engine} (h : e₀.SamePixels e) (c : EngCursor) (v : Cursor) :
    e₀.SamePixels { e with tr := e.tr.setCur c v } := h.congr (e.pixels_setCur c v)

/-- Registers of the direction written, the output arrays not. -/
theorem Engine.SamePixels.updRegs {e₀ e : Engine} (h : e₀.SamePixels e) {r : DirRegs} (hout : r.out = e.regs.out) :
    e₀.SamePixels { e with regs := r } := h.congr (congrArg (e.tr.canvas, ·) hout)

/-- An operation of an engine step leaves the pixel memories as `e₀` has them, whether it ends or raises. -/
abbrev KeepsPixels {α : Type} (e₀ : Engine) (m : EngM α) : Prop := EngKeeps e₀.SamePixels (fun _ => e₀.SamePixels) m

section
variable {e₀ : Engine}

theorem rd_keepsPixels (b : Buf) (c : EngCursor) (n : Nat) : KeepsPixels e₀ (rd b c n) :=
  .rd b c n (fun _ v h => h.setCur c v) fun _ h => h

theorem rds_keepsPixels (b : Buf) (c : EngCursor) (n : Nat) : KeepsPixels e₀ (rds b c n) :=
  (rd_keepsPixels b c n).bind fun _ => .pure _

theorem skp_keepsPixels (c : EngCursor) (n : Nat) : KeepsPixels e₀ (skp c n) :=
  .skp c n fun _ v h => h.setCur c v

theorem cln_keepsPixels (c d : EngCursor) : KeepsPixels e₀ (cln c d) :=
  .cln c d fun _ v h => h.setCur c v

theorem engCheck_keepsPixels (b : Bool) (c : Cause) : KeepsPixels e₀ (engCheck b c) := .check b fun _ h _ => h

theorem goto_keepsPixels (p : BitVec 5) : KeepsPixels e₀ (goto p) := .upd fun _ h => h.congr rfl

theorem updW_keepsPixels (f : Work → Work) : KeepsPixels e₀ (updW f) := .upd fun _ h => h.congr rfl

theorem updFG_keepsPixels (f : Nat) (g : FrameGeom → FrameGeom) : KeepsPixels e₀ (updFG f g) :=
  .upd fun _ h => h.congr rfl

theorem checkFrame_keepsPixels (f : Nat) : KeepsPixels e₀ (checkFrame f) := .checkFrame f (fun _ h => h) fun _ h => h

theorem readSize_keepsPixels (b : Buf) (p : Bool) : KeepsPixels e₀ (readSize b p) :=
  .readSize b p (fun _ v h => h.setCur .main v) fun _ h => h

theorem widthLoop_keepsPixels (b : Buf) (l : List (Fin 7)) : KeepsPixels e₀ (widthLoop b l) :=
  .widthLoop (E := fun _ => e₀.SamePixels) b (fun _ v h => h.setCur .main v) (fun _ h => h) (fun _ _ _ h => h.congr rfl) l

theorem readMask_keepsPixels (b : Buf) (n : BitVec 20) (prev : Option Nat) : KeepsPixels e₀ (readMask b n prev) :=
  .readMask b n prev (fun c _ v h => h.setCur c v) (fun _ h => h) fun _ _ h => h.congr rfl

theorem readValues_keepsPixels (b : Buf) (n : BitVec 20) : KeepsPixels e₀ (readValues b n) :=
  .readValues b n (fun c _ v h => h.setCur c v) (fun _ h => h) fun _ _ h => h.congr rfl

theorem nextFrame_keepsPixels (n : BitVec 32) {done : Engine → Engine} (hd : ∀ e, (done e).pixels = e.pixels) :
    KeepsPixels e₀ (upd (Engine.nextFrame n done)) :=
  .upd fun _ h => nextFrame_keeps (fun _ _ h => h.congr rfl) (fun e h => h.congr (hd e)) h

theorem nextCell_keepsPixels (n : BitVec 32) {done : Engine → Engine} (hd : ∀ e, (done e).pixels = e.pixels) :
    KeepsPixels e₀ (upd (Engine.nextCell n done)) :=
  .upd fun _ h => nextCell_keeps (fun _ _ _ _ h => h.congr rfl) (fun e h => h.congr (hd e)) h

theorem dhdrBody_keepsPixels (b : Buf) : KeepsPixels e₀ (dhdrBody b) :=
  (rd_keepsPixels b _ _).bind fun _ => (EngKeeps.upd fun _ h => h.congr rfl).bind fun _ =>
    (rd_keepsPixels b _ _).bind fun _ => (EngKeeps.upd fun _ h => h.congr rfl).bind fun _ =>
    (widthLoop_keepsPixels b _).bind fun _ => .upd fun _ h => h.congr rfl

theorem readFrame_keepsPixels (b : Buf) (f : Nat) (wb : Widths) : KeepsPixels e₀ (readFrame b f wb) :=
  (skp_keepsPixels _ _).bind fun _ =>
    (rd_keepsPixels b _ _).bind fun _ => (updFG_keepsPixels f _).bind fun _ =>
    (rd_keepsPixels b _ _).bind fun _ => (updFG_keepsPixels f _).bind fun _ =>
    (rds_keepsPixels b _ _).bind fun _ => (updFG_keepsPixels f _).bind fun _ =>
    (rds_keepsPixels b _ _).bind fun _ => (updFG_keepsPixels f _).bind fun _ =>
    (rd_keepsPixels b _ _).bind fun _ => (updFG_keepsPixels f _).bind fun _ =>
    (rd_keepsPixels b _ _).bind fun _ => (updFG_keepsPixels f _).bind fun _ =>
    (rd_keepsPixels b _ _).bind fun _ => updFG_keepsPixels f _

theorem fgeomBody_keepsPixels (b : Buf) (n : BitVec 32) : KeepsPixels e₀ (fgeomBody b n) :=
  EngKeeps.get.bind fun _ => (readFrame_keepsPixels b _ _).bind fun _ =>
    (checkFrame_keepsPixels _).bind fun _ => (updFG_keepsPixels _ _).bind fun _ =>
    (EngKeeps.upd fun e h => h.updRegs (e.regs.fold_out _)).bind fun _ =>
    nextFrame_keepsPixels n fun _ => rfl

theorem dboxBody_keepsPixels (cap : Option Nat) : KeepsPixels e₀ (dboxBody cap) :=
  (EngKeeps.upd fun _ h => h.congr rfl).bind fun _ => EngKeeps.get.bind fun _ =>
    (engCheck_keepsPixels _ _).bind fun _ => goto_keepsPixels _

theorem optchkBody_keepsPixels : KeepsPixels e₀ optchkBody :=
  EngKeeps.get.bind fun _ => (engCheck_keepsPixels _ _).bind fun _ => goto_keepsPixels _

theorem bsizesBody_keepsPixels (b : Buf) : KeepsPixels e₀ (bsizesBody b) :=
  EngKeeps.get.bind fun _ =>
    (readSize_keepsPixels b _).bind fun _ => (EngKeeps.upd fun _ h => h.congr rfl).bind fun _ =>
    (readSize_keepsPixels b _).bind fun _ => (EngKeeps.upd fun _ h => h.congr rfl).bind fun _ =>
    (readSize_keepsPixels b _).bind fun _ => (EngKeeps.upd fun _ h => h.congr rfl).bind fun _ =>
    (readSize_keepsPixels b _).bind fun _ => (EngKeeps.upd fun _ h => h.congr rfl).bind fun _ => goto_keepsPixels _

theorem palLoop_keepsPixels (b : Buf) : ∀ k i : Nat, KeepsPixels e₀ (palLoop b i k)
  | 0, _ => .pure ()
  | k + 1, i => (rd_keepsPixels b _ _).bind fun _ =>
      (EngKeeps.upd fun e h => h.updRegs (e.regs.palFlag_out i _)).bind fun _ =>
      palLoop_keepsPixels b k (i + 1)

theorem palvBody_keepsPixels (b : Buf) : KeepsPixels e₀ (palvBody b) :=
  (EngKeeps.upd fun _ h => h.congr rfl).bind fun _ => (palLoop_keepsPixels b 256 0).bind fun _ => goto_keepsPixels _

theorem sliceBody_keepsPixels : KeepsPixels e₀ sliceBody :=
  EngKeeps.get.bind fun _ =>
    (cln_keepsPixels _ _).bind fun _ => (skp_keepsPixels _ _).bind fun _ =>
    (cln_keepsPixels _ _).bind fun _ => (skp_keepsPixels _ _).bind fun _ =>
    (cln_keepsPixels _ _).bind fun _ => (skp_keepsPixels _ _).bind fun _ =>
    (cln_keepsPixels _ _).bind fun _ => (skp_keepsPixels _ _).bind fun _ =>
    (EngKeeps.upd fun _ h => h.congr rfl).bind fun _ => goto_keepsPixels _

theorem dgridBody_keepsPixels (cap : Option Nat) : KeepsPixels e₀ (dgridBody cap) :=
  (EngKeeps.upd fun _ h => h.congr rfl).bind fun _ => EngKeeps.get.bind fun _ => (engCheck_keepsPixels _ _).bind fun _ =>
    (EngKeeps.upd fun _ h => h.congr rfl).bind fun _ => .upd fun _ h => h.congr rfl

theorem fgridBody_keepsPixels (cap : Option Nat) (n : BitVec 32) : KeepsPixels e₀ (fgridBody cap n) :=
  (EngKeeps.upd fun _ h => h.congr rfl).bind fun _ => EngKeeps.get.bind fun _ => (engCheck_keepsPixels _ _).bind fun _ =>
    (EngKeeps.upd fun _ h => h.congr rfl).bind fun _ => nextFrame_keepsPixels n fun _ => rfl

theorem freshCell_keepsPixels (b : Buf) (cap prev : Option Nat) : KeepsPixels e₀ (freshCell b cap prev) :=
  EngKeeps.get.bind fun _ => (readValues_keepsPixels b _).bind fun _ => EngKeeps.get.bind fun _ =>
    (engCheck_keepsPixels _ _).bind fun _ => .upd fun _ h => h.congr rfl

theorem rcellBody_keepsPixels (b : Buf) (cap : Option Nat) (n : BitVec 32) : KeepsPixels e₀ (rcellBody b cap n) :=
  EngKeeps.get.bind fun _ => (updW_keepsPixels _).bind fun _ => (readMask_keepsPixels b _ _).bind fun _ =>
    (EngKeeps.ite (.pure ()) (freshCell_keepsPixels b cap _)).bind fun _ => nextCell_keepsPixels n fun _ => rfl

end

/-! ### The frame of every instruction -/

/-- What instruction `i` leaves unchanged when it takes `s` to `t`. -/
structure ExecFrame (i : Instr) (s t : State) : Prop where
  host   : t.hostSide = s.hostSide
  pixels : storesNothing i = true → t.pixels = s.pixels

section
variable {i : Instr} {s t : State}

theorem runEng_frame {m : EngM Unit} (hm : storesNothing i = true → KeepsPixels s.eng m) (h : runEng m s = .next t) :
    ExecFrame i s t := by
  rcases runEng_cases m s with ⟨e, hok, hrun⟩ | ⟨c, e, herr, hrun⟩ <;> cases hrun.symm.trans h
  · exact ⟨rfl, fun hi => congrArg (·, s.result) ((hm hi s.eng rfl).1 _ e hok)⟩
  · exact ⟨rfl, fun hi => congrArg (·, s.result) ((hm hi s.eng rfl).2 c e herr)⟩

theorem chdr_frame (h : exec .chdr s = .next t) : ExecFrame .chdr s t := by
  rcases runFront_cases (chdrParse s.ibuf s.caps.maxFrames) dispatchEngine s with ⟨f, -, hrun⟩ | ⟨c, f, -, hrun⟩ <;>
    cases hrun.symm.trans h
  · exact ⟨dispatchEngine_hostSide _, fun _ => dispatchEngine_pixels _⟩
  · exact ⟨rfl, fun _ => rfl⟩

/-- A cursor moved, the port left and an answer given: what a `BCOP` operation does. -/
theorem setCursor_frame (c : CursorSel) (v : Cursor) (p : Option PortReq) (x : Int) :
    ExecFrame i s { s.setCursor c v with bcOut := x, port := p } :=
  ⟨s.setCursor_hostSide c v, fun _ => s.setCursor_pixels c v⟩

theorem bcRead_frame {c : CursorSel} {n : Nat} {val : Nat → Int} (h : bcRead c n val s = .next t) : ExecFrame i s t := by
  rcases bcRead_cases c n val s with ⟨-, hrun⟩ | ⟨-, -, hrun⟩ <;> cases hrun.symm.trans h
  · exact setCursor_frame _ _ _ _
  · exact ⟨rfl, fun _ => rfl⟩

/-- A code read through an engine cursor, and registers of the direction written. -/
theorem updRegs_frame {c : EngCursor} {n : Nat} {f : DirRegs → DirRegs} (hf : (f s.eng.regs).out = s.eng.regs.out) :
    ExecFrame i s ((consumeCode (.eng c) n s).updRegs f) :=
  ⟨rfl, fun _ => State.pixels_eq_iff.2 ⟨⟨s.eng.tr.setCur_canvas c _, hf⟩, rfl⟩⟩

theorem updWork_frame {c : EngCursor} {n : Nat} (f : Work → Work) :
    ExecFrame i s ((consumeCode (.eng c) n s).updWork f) :=
  ⟨rfl, fun _ => s.setCursor_pixels (.eng c) _⟩

theorem fmtFhdr_frame {wb : Widths} {f : FhdrFields} (h : exec (.fmtFhdr wb f) s = .next t) :
    ExecFrame (.fmtFhdr wb f) s t := by
  change execFmtFhdr wb f s = .next t at h
  unfold execFmtFhdr at h
  dsimp only at h
  split at h <;> cases h <;> exact ⟨rfl, fun _ => rfl⟩

theorem start_frame (c : Bool) (h : exec (.start c) s = .next t) : ExecFrame (.start c) s t := by
  cases h
  cases c
  · exact ⟨beginDecode_hostSide _, fun _ => beginDecode_pixels _⟩
  · exact ⟨(beginDecode_hostSide _).trans (ackClear_hostSide _), fun _ => (beginDecode_pixels _).trans (ackClear_pixels _)⟩

theorem clear_frame (st : Bool) (h : exec (.clear st) s = .next t) : ExecFrame (.clear st) s t := by
  cases h
  cases st
  · exact ⟨ackClear_hostSide _, fun _ => ackClear_pixels _⟩
  · exact ⟨(beginDecode_hostSide _).trans (ackClear_hostSide _), fun _ => (beginDecode_pixels _).trans (ackClear_pixels _)⟩

end

/-- NO INSTRUCTION WRITES THE HOST'S SIDE, and those that store nothing leave every memory as it was. -/
theorem exec_frame {i : Instr} {s t : State} (h : exec i s = .next t) : ExecFrame i s t := by
  cases i with
  | rdbits | rdsbits | rdbit => exact bcRead_frame h
  | skip | clone => cases h; exact setCursor_frame _ _ _ _
  | start c => exact start_frame c h
  | clear st => exact clear_frame st h
  | chdr => exact chdr_frame h
  | cons | dseek | pxlat | cfin => cases h; exact ⟨rfl, fun _ => rfl⟩
  | dhdr => exact runEng_frame (fun _ => dhdrBody_keepsPixels _) h
  | fgeom => exact runEng_frame (fun _ => fgeomBody_keepsPixels _ _) h
  | dbox => exact runEng_frame (fun _ => dboxBody_keepsPixels _) h
  | optchk => exact runEng_frame (fun _ => optchkBody_keepsPixels) h
  | bsizes => exact runEng_frame (fun _ => bsizesBody_keepsPixels _) h
  | palv => exact runEng_frame (fun _ => palvBody_keepsPixels _) h
  | slice => exact runEng_frame (fun _ => sliceBody_keepsPixels) h
  | dgrid => exact runEng_frame (fun _ => dgridBody_keepsPixels _) h
  | fgrid => exact runEng_frame (fun _ => fgridBody_keepsPixels _ _) h
  | rcell => exact runEng_frame (fun _ => rcellBody_keepsPixels _ _ _) h
  | ichk | ccell => exact runEng_frame (fun hst => nomatch hst) h
  | dfin | pixcode0 | pixcode1 | pixcode2 => cases h; exact ⟨rfl, fun hst => nomatch hst⟩
  | fmtCont | fmtOfft | sig | sentinel => cases h; exact ⟨rfl, fun _ => rfl⟩
  | fmtDhdr | fmtSizes | widx => cases h; exact updRegs_frame rfl
  | fmtFhdr => exact fmtFhdr_frame h
  | fmtPalv valid => cases h; exact updRegs_frame (storeFlags_out valid 256 0 _)
  | ecbit | pmask | etbit | rawval | dnibEnd | dnibCont => cases h; exact updWork_frame _

end Sys2Proof.Machine

open Sys2Proof Sys2Proof.Machine

/-- Settles O20: the frame of every instruction, read off field by field and byte by byte. -/
theorem memoryFrame : Obligations.MemoryFrame := by
  refine ⟨fun i s t h => ?_, fun i s t hi h => ?_⟩
  · obtain ⟨hbuf, hirq, hcaps, hin, hdata, hfree⟩ := State.hostSide_eq_iff.1 (exec_frame h).host
    exact ⟨hbuf, fun a => by rw [State.byteAt, State.byteAt, hbuf], hirq, hcaps, hin, hdata, hfree⟩
  · have hframe := exec_frame h
    exact .of_pixels (State.hostSide_eq_iff.1 hframe.host).1 (hframe.pixels hi)
end

section
/-!
PROOFS. How a field is assembled (20_memory.md R61 to R63): the sums of the statements are written digit by digit, and a
field that stays in one byte is a slice of it.
-/

namespace Sys2Proof.Machine

/-- Digits of base `B`, the lowest first: the first one, and `B` times the rest. -/
theorem sum_digits_succ (B n : Nat) (d : Nat → Nat) :
    ((List.range (n + 1)).map fun i => d i * B ^ i).sum = d 0 + B * ((List.range n).map fun i => d (i + 1) * B ^ i).sum := by
  rw [List.range_succ_eq_map, List.map_cons, List.sum_cons, List.map_map, pow_zero, mul_one, ← List.sum_map_mul_left]
  congr 3
  funext i
  simp only [Function.comp_apply, Nat.succ_eq_add_one, pow_succ]
  ring

theorem State.bitsAt_succ (s : State) (p n : Nat) : s.bitsAt p (n + 1) = s.ibit p + 2 * s.bitsAt (p + 1) n := by
  simp only [State.bitsAt, sum_digits_succ 2 n fun i => s.ibit (p + i), add_zero, Nat.add_assoc, Nat.add_comm 1]

theorem State.leAt_succ (s : State) (a k : Nat) : s.leAt a (k + 1) = s.byteAt a + 256 * s.leAt (a + 1) k := by
  simp only [State.leAt, sum_digits_succ 256 k fun j => s.byteAt (a + j), add_zero, Nat.add_assoc, Nat.add_comm 1]

/-- The model's bit is R62's. -/
theorem State.toNat_bit (s : State) (p : Nat) : (s.ibuf.bit p).toNat = s.ibit p := by
  rw [Buf.bit, BitVec.getLsbD, Nat.toNat_testBit]; rfl

/-- The model's field is R63's sum. -/
theorem State.field_eq_bitsAt (s : State) : ∀ n p : Nat, s.ibuf.field p n = s.bitsAt p n
  | 0, _ => rfl
  | n + 1, p => by rw [Buf.field_succ, State.toNat_bit, State.field_eq_bitsAt s n, State.bitsAt_succ]

theorem State.bitsAt_lt (s : State) (p n : Nat) : s.bitsAt p n < 2 ^ n := s.field_eq_bitsAt n p ▸ s.ibuf.field_lt n p

theorem State.bitsAt_add (s : State) (p m n : Nat) : s.bitsAt p (m + n) = s.bitsAt p m + 2 ^ m * s.bitsAt (p + m) n := by
  simp only [← State.field_eq_bitsAt, Buf.field_add]

/-- A field that stays in byte `a` is that slice of the byte. -/
theorem State.bitsAt_inByte (s : State) (a : Nat) : ∀ n r : Nat, r + n ≤ 8 →
    s.bitsAt (8 * a + r) n = s.byteAt a / 2 ^ r % 2 ^ n
  | 0, _, _ => (Nat.mod_one _).symm
  | n + 1, r, h => by
    have hbit : s.ibit (8 * a + r) = s.byteAt a / 2 ^ r % 2 := by
      rw [State.ibit, show (8 * a + r) / 8 = a by omega, show (8 * a + r) % 8 = r by omega]
    rw [State.bitsAt_succ, hbit, Nat.add_assoc, State.bitsAt_inByte s a n (r + 1) (by omega), pow_succ 2 r,
      ← Nat.div_div_eq_div_mul, pow_succ' 2 n, Nat.mod_mul]

/-- Eight bits at a byte boundary are the byte (20_memory.md R63). -/
theorem State.bitsAt_byte (s : State) (a : Nat) : s.bitsAt (8 * a) 8 = s.byteAt a := by
  have hlt : s.byteAt a < 2 ^ 8 := (s.ibuf.mem.read a).isLt
  rw [← Nat.add_zero (8 * a), State.bitsAt_inByte s a 8 0 (by decide), pow_zero, Nat.div_one, Nat.mod_eq_of_lt hlt]

theorem State.bitsAt_bytes (s : State) : ∀ k a : Nat, s.bitsAt (8 * a) (8 * k) = s.leAt a k
  | 0, _ => rfl
  | k + 1, a => by
    rw [show 8 * (k + 1) = 8 + 8 * k by ring, State.bitsAt_add, State.bitsAt_byte, ← Nat.mul_succ,
      State.bitsAt_bytes s k (a + 1), State.leAt_succ]
    rfl

end Sys2Proof.Machine

open Sys2Proof Sys2Proof.Machine

/-- Settles O24: two nibbles are one read of 8 bits cut in the middle. -/
theorem fieldAssembly : Obligations.FieldAssembly := by
  intro s p n a k
  refine ⟨s.field_eq_bitsAt n p, s.bitsAt_lt p n, s.bitsAt_bytes k a, ?_⟩
  calc s.bitsAt (8 * a) 4 + 16 * s.bitsAt (8 * a + 4) 4
    _ = s.bitsAt (8 * a) (4 + 4) := (s.bitsAt_add (8 * a) 4 4).symm
    _ = s.byteAt a := s.bitsAt_byte a
end

section
/-!
PROOFS. What a BitCursor operation does (40_bitcursor.md): the value a read assembles, unsigned and signed, where every cursor
stands after it, and the raise of a read past the end.
-/

namespace Sys2Proof.Machine

/-! ### Signed fields (00_scope.md R8) -/

/-- The sign bit of a field says whether it reaches the half of its range. -/
theorem testBit_top_iff {m u : Nat} (hu : u < 2 ^ (m + 1)) : u.testBit m = true ↔ 2 ^ m ≤ u :=
  ⟨Nat.ge_two_pow_of_testBit, fun h => Nat.testBit_of_two_pow_le_and_two_pow_add_one_gt h hu⟩

/-- The model's two's complement is R8's on every value a field can have. -/
theorem signedOf_eq_signedVal {n u : Nat} (hu : u < 2 ^ n) : signedOf n u = signedVal n u := by
  cases n with
  | zero => simp_all [signedOf, signedVal]
  | succ m => simp [signedOf, signedVal, testBit_top_iff hu]

theorem signedVal_range {n u : Nat} (hn : n ≠ 0) (hu : u < 2 ^ n) :
    -(2 : Int) ^ (n - 1) ≤ signedVal n u ∧ signedVal n u < (2 : Int) ^ (n - 1) := by
  obtain ⟨m, rfl⟩ := Nat.exists_eq_succ_of_ne_zero hn
  have hcast : ((2 ^ m : Nat) : Int) = 2 ^ m := by push_cast; rfl
  rw [Nat.succ_eq_add_one, pow_succ] at hu
  simp only [signedVal, Nat.succ_eq_add_one, Nat.add_sub_cancel, pow_succ, ← hcast]
  split <;> omega

/-! ### Where the cursors stand -/

/-- The cursors are the engine's five and `CCUR`. -/
theorem State.cursor_congr {s t : State} (htr : t.eng.tr = s.eng.tr) (hccur : t.front.ccur = s.front.ccur) (d : CursorSel) :
    t.cursor d = s.cursor d := by
  cases d with
  | eng c => exact congrArg (·.cur c) htr
  | ccur => exact hccur

/-- From `s` to `t` only cursor `cur` may move, its position and its consumed count alike (40_bitcursor.md R131, R142). -/
def MovesOnly (cur : CursorSel) (s t : State) : Prop :=
  (∀ d, d ≠ cur → t.cursor d = s.cursor d) ∧
    (t.cursor cur).pos + (s.cursor cur).cons = (s.cursor cur).pos + (t.cursor cur).cons

theorem MovesOnly.of_cursor_eq {cur : CursorSel} {s t : State} (h : ∀ d, t.cursor d = s.cursor d) : MovesOnly cur s t :=
  ⟨fun d _ => h d, by rw [h cur]⟩

theorem State.cursor_setCursor_of_ne {c d : CursorSel} (s : State) (v : Cursor) (h : d ≠ c) :
    (s.setCursor c v).cursor d = s.cursor d := by
  rw [State.cursor_setCursor, if_neg h]

theorem MovesOnly.advance (cur : CursorSel) (n : Nat) (s : State) :
    MovesOnly cur s (s.setCursor cur ((s.cursor cur).advance n)) := by
  refine ⟨fun d hd => s.cursor_setCursor_of_ne _ hd, ?_⟩
  simp only [State.cursor_setCursor_self, Cursor.advance_pos, Cursor.advance_cons]
  omega

/-! ### A read -/

/-- `raise` from a state whose port was emptied makes the record of R281 (60_exceptions.md). -/
theorem takeError_raises (c : Cause) (d : BitVec 9) (p : Option PortReq) (s : State) :
    Raises s (takeError c d { s with port := p }) c d :=
  ⟨rfl, rfl, rfl, rfl, rfl, rfl, rfl, rfl, rfl, rfl, rfl, rfl, rfl⟩

section
variable {cur : CursorSel} {n : Nat} {val : Nat → Int} {s : State}

/-- A read inside the buffer, or of width 0 anywhere (40_bitcursor.md R132, R138). -/
theorem bcRead_inside (h : n = 0 ∨ (s.cursor cur).pos + n ≤ s.lenBits) :
    bcRead cur n val s = .next { (s.setCursor cur { pos := (s.cursor cur).pos + n, cons := (s.cursor cur).cons + n }) with
      bcOut := val (s.bitsAt (s.cursor cur).pos n), port := none } := by
  rcases bcRead_cases cur n val s with ⟨-, hrun⟩ | ⟨hn, hpast, -⟩
  · rw [hrun, State.field_eq_bitsAt]; rfl
  · exact absurd h (not_or.2 ⟨hn, Nat.not_le.2 hpast⟩)

/-- A read past the end (40_bitcursor.md R139). -/
theorem bcRead_past (hn : n ≠ 0) (h : s.lenBits < (s.cursor cur).pos + n) :
    ∃ t, bcRead cur n val s = .next t ∧ Raises s t .outOfRange (s.cursorDir cur) ∧ t.bcOut = s.bcOut ∧
      ∀ d, t.cursor d = s.cursor d := by
  rcases bcRead_cases cur n val s with ⟨hin, -⟩ | ⟨-, -, hrun⟩
  · exact absurd hin (not_or.2 ⟨hn, Nat.not_le.2 h⟩)
  · exact ⟨_, hrun, takeError_raises _ _ _ s, rfl, State.cursor_congr rfl rfl⟩

theorem bcRead_movesOnly {t : State} (h : bcRead cur n val s = .next t) : MovesOnly cur s t := by
  rcases bcRead_cases cur n val s with ⟨-, hrun⟩ | ⟨-, -, hrun⟩ <;> cases hrun.symm.trans h
  · exact MovesOnly.advance cur n s
  · exact .of_cursor_eq (State.cursor_congr rfl rfl)

end

/-- The direction the record names is the cursor's (60_exceptions.md R281). -/
theorem raisesAs_read (cur : CursorSel) (n : BitVec 6) (s : State) :
    raisesAs (.rdbits cur n) s = s.cursorDir cur ∧ raisesAs (.rdsbits cur n) s = s.cursorDir cur ∧
      raisesAs (.rdbit cur) s = s.cursorDir cur := by
  cases cur <;> exact ⟨rfl, rfl, rfl⟩

/-- One bit is a field of width 1. -/
theorem State.bitsAt_one (s : State) (p : Nat) : s.bitsAt p 1 = s.ibit p := s.bitsAt_succ p 0

end Sys2Proof.Machine

open Sys2Proof Sys2Proof.Machine

/-- Settles O25: both operations are one read, of the width given and of width 1. -/
theorem readBits : Obligations.ReadBits := by
  intro cur n s _
  obtain ⟨hdir, -, hdir₁⟩ := raisesAs_read cur n s
  refine ⟨fun h => bcRead_inside (h.imp_left (congrArg BitVec.toNat)), fun hn h => ?_, fun h => ?_, fun h => ?_⟩
  · rw [hdir]
    exact bcRead_past (BitVec.toNat_ne_iff_ne.2 hn) h
  · rw [← State.bitsAt_one]
    exact bcRead_inside (.inr h)
  · rw [hdir₁]
    exact bcRead_past one_ne_zero h

/-- Settles O26: a read whose value is the two's complement of a field, and a field is below `2 ^ n`. -/
theorem readSignedBits : Obligations.ReadSignedBits := by
  intro cur n s _ c
  obtain ⟨-, hdir, -⟩ := raisesAs_read cur n s
  have hlt : s.bitsAt c.pos n.toNat < 2 ^ n.toNat := s.bitsAt_lt c.pos n.toNat
  refine ⟨fun h => ⟨_, rfl, ?_, fun hn => signedVal_range (BitVec.toNat_ne_iff_ne.2 hn) hlt, ?_⟩, fun hn h => ?_⟩
  · rintro rfl
    rfl
  · rw [← signedOf_eq_signedVal hlt]
    exact bcRead_inside (h.imp_left (congrArg BitVec.toNat))
  · rw [hdir]
    exact bcRead_past (BitVec.toNat_ne_iff_ne.2 hn) h

/-- Settles O27: the three operations have one outcome each, whatever the cursor's position. -/
theorem skipConsClone : Obligations.SkipConsClone :=
  fun _ _ _ _ => ⟨rfl, rfl, rfl⟩

/-- Settles O28: a read moves its cursor alike or, when it raises, not at all; `SKIP` moves it alike, `CONS` not at all, and
`CLONE` writes its destination alone. -/
theorem cursorsAreIndependent : Obligations.CursorsAreIndependent := by
  intro i cur s t h
  refine ⟨?_, ?_⟩
  · rintro (⟨n, rfl⟩ | ⟨n, rfl⟩ | rfl | ⟨n, rfl⟩ | rfl)
    · exact bcRead_movesOnly h
    · exact bcRead_movesOnly h
    · exact bcRead_movesOnly h
    · cases h; exact MovesOnly.advance cur n.toNat s
    · cases h; exact MovesOnly.of_cursor_eq (State.cursor_congr rfl rfl)
  · rintro ⟨src, rfl⟩ d hd
    cases h
    exact s.cursor_setCursor_of_ne _ hd
end

section
/-!
PROOFS. What a step runs (41_container_and_sequencer.md R152; log 1, 2, 3): which of the command, the host's access and the
block's own step it takes, and what each answer of a decoder runs as.
-/

namespace Sys2Proof.Machine

/-! ### The order -/

theorem step_command {s : State} (h : s.ctrl ≠ 0) : step s = runFetched (fetchedOf dirFrontEnd (decode (.cmd s.ctrl))) s := by
  rw [step, if_pos h, fetch, if_pos h]

theorem step_access {s : State} {r : HostReq} {rest : List (Option HostReq)} (hctrl : s.ctrl = 0)
    (hin : s.inputs = some r :: rest) : step s = hostAccess r { s with inputs := rest } := by
  rw [step, if_neg (not_not.2 hctrl)]
  simp only [hin]

/-- Without a command the fetch is the block's. -/
theorem fetch_block {s : State} (h : s.ctrl = 0) : fetch s = fetchBlock s := if_neg (not_not.2 h)

/-- With no command and no access due it is the block's turn; what it fetches does not depend on the host's list. -/
theorem step_block {s u : State} (hctrl : s.ctrl = 0)
    (hu : s.inputs = [] ∧ u = s ∨ ∃ rest, s.inputs = none :: rest ∧ u = { s with inputs := rest }) :
    step s = runFetched (fetchBlock s) u := by
  rw [step, if_neg (not_not.2 hctrl)]
  rcases hu with ⟨hin, rfl⟩ | ⟨rest, hin, rfl⟩
  · simp only [hin, fetch_block hctrl]
  · have hturn : fetch { s with inputs := rest } = fetchBlock s := fetch_block hctrl
    simp only [hin, hturn]

/-! ### What the block fetches -/

theorem fetchBlock_notBusy {s : State} (h : s.status ≠ stBusy) : fetchBlock s = .wait := if_neg h

section
variable {s : State} (hb : s.status = stBusy)
include hb

theorem fetchBlock_port {p : PortReq} (hp : s.port = some p) : fetchBlock s = fetchPort s p := by
  rw [fetchBlock, if_pos hb, hp]

theorem fetchBlock_engine (hp : s.port = none) (he : s.eng.phase ≠ phIdle) :
    fetchBlock s = fetchedOf dirFrontEnd (decode (.seq s.eng.phase)) := by
  rw [fetchBlock, if_pos hb, hp]
  exact if_pos he

theorem fetchBlock_front (hp : s.port = none) (he : s.eng.phase = phIdle) :
    fetchBlock s = fetchedOf dirFrontEnd (decode (.seq s.front.phase)) := by
  rw [fetchBlock, if_pos hb, hp]
  exact if_neg (not_not.2 he)

end

/-! ### What a decoder's answer runs as -/

theorem fetchedOf_cause {d : BitVec 9} {e : DecodeErr} {c : Cause} (h : decodeErrCause e = some c) :
    fetchedOf d (.error e) = .error c d := by
  simp only [fetchedOf, h]

/-- The codes 30_encoding.md R120, R121, R123 say are never issued or never taken (log 15, 16). -/
theorem fetchedOf_never {d : BitVec 9} {e : DecodeErr} (h : e = .badCursor ∨ e = .badWidth ∨ e = .neverTaken) :
    fetchedOf d (.error e) = .refuse (.neverIssued e) := by
  rcases h with rfl | rfl | rfl <;> rfl

/-! ### Words that do not decode -/

theorem except_bind_error {ε α β : Type} {m : Except ε α} {k : α → Except ε β} {e : ε} (h : (m >>= k) = .error e) :
    m = .error e ∨ ∃ a, m = .ok a ∧ k a = .error e := by
  cases m with
  | ok a => exact .inr ⟨a, rfl, h⟩
  | error e' => exact .inl (by cases h; rfl)

theorem decodeCursor_error {c : BitVec 3} {e : DecodeErr} (h : decodeCursor c = .error e) : e = .badCursor := by
  unfold decodeCursor at h
  split at h <;> cases h
  rfl

theorem decodeWidth_error {n : BitVec 6} {e : DecodeErr} (h : decodeWidth n = .error e) : e = .badWidth := by
  unfold decodeWidth at h
  split at h <;> cases h
  rfl

/-- `op` 0 and 7 name no operation (30_encoding.md R120). -/
theorem decode_bcop_noOperation {w : BitVec 15} (n20 : BitVec 20) (h : w.toNat % 8 = 0 ∨ w.toNat % 8 = 7) :
    decode (.bcop w n20) = .error .noOperation := by
  have hop : (w.extractLsb' 0 3).toNat = w.toNat % 8 := by simp
  rcases h with h | h <;> simp only [decode, decodeBcop, hop, h]

/-- A word with an operation fails to decode by a cursor number or a width (30_encoding.md R120, R121). -/
theorem decode_bcop_error {w : BitVec 15} {n20 : BitVec 20} {e : DecodeErr} (h : decode (.bcop w n20) = .error e)
    (hop : e ≠ .noOperation) : e = .badCursor ∨ e = .badWidth := by
  have noMore {i : Instr} {Q : Prop} (h : (pure i : Except DecodeErr Instr) = .error e) : Q := nomatch h
  simp only [decode, decodeBcop] at h
  split at h
  case h_7 => cases h; exact absurd rfl hop
  all_goals
    rcases except_bind_error h with hcur | ⟨c, -, h⟩
    · exact .inl (decodeCursor_error hcur)
  case h_1 | h_2 =>
    rcases except_bind_error h with hn | ⟨n, -, h⟩
    · exact .inr (decodeWidth_error hn)
    · exact noMore h
  case h_6 =>
    rcases except_bind_error h with hsrc | ⟨n, -, h⟩
    · exact .inl (decodeCursor_error hsrc)
    · exact noMore h
  all_goals exact noMore h

/-- `PHASE` codes 18 to 31 (30_encoding.md R123). -/
theorem decode_seq_never : ∀ p : BitVec 5, 18 ≤ p.toNat → decode (.seq p) = .error .neverTaken := by decide

end Sys2Proof.Machine

open Sys2Proof Sys2Proof.Machine

/-- Settles O6: the order of `step`, then one clause for each answer a decoder can give to what stands at the port, in the
engine's `PHASE` or in the front end's. -/
theorem stepRunsDecoded : Obligations.StepRunsDecoded := by
  refine ⟨fun s i hctrl hd => by rw [step_command hctrl, hd]; rfl, fun s r rest => step_access, fun s u hctrl hu => ?_⟩
  rw [step_block hctrl hu]
  refine ⟨fun hidle => by rw [fetchBlock_notBusy hidle]; rfl, fun hb => ?_⟩
  refine ⟨?_, ?_, ?_, ?_, ?_, fun hp => ⟨?_, ?_, ?_, ?_, ?_⟩⟩
  · intro w n20 i hp hd
    rw [fetchBlock_port hb hp, fetchPort, hd]; rfl
  · intro w n20 hp hop
    rw [fetchBlock_port hb hp, fetchPort, decode_bcop_noOperation n20 hop]; rfl
  · intro w n20 e hp hd hop
    rw [fetchBlock_port hb hp, fetchPort, hd, fetchedOf_never ((decode_bcop_error hd hop).imp_right .inl)]; rfl
  · intro k i hp hd
    rw [fetchBlock_port hb hp, fetchPort, hd]; rfl
  · intro k e c hp hd hc
    rw [fetchBlock_port hb hp, fetchPort, hd, fetchedOf_cause hc]
    exact ⟨_, rfl, takeError_raises c _ none u⟩
  · intro i he hd
    rw [fetchBlock_engine hb hp he, hd]; rfl
  · intro i he hd
    rw [fetchBlock_front hb hp he, hd]; rfl
  · intro hnever
    have he : s.eng.phase ≠ phIdle := fun h => by simp [h, phIdle] at hnever
    rw [fetchBlock_engine hb hp he, decode_seq_never _ hnever]; rfl
  · intro he hnever
    rw [fetchBlock_front hb hp he, decode_seq_never _ hnever]; rfl
  · intro he hf
    rw [fetchBlock_front hb hp he, hf]; rfl
end

section
/-!
PROOFS. The host's commands (41_container_and_sequencer.md R150, R151) and the two sequencer steps that parse nothing (R156,
R168).
-/

namespace Sys2Proof.Machine

theorem beginDecode_idle {s : State} (h : s.status = stIdle) :
    beginDecode s = { s with status := stBusy, front.phase := phChdr } := if_pos h

theorem beginDecode_ignored {s : State} (h : s.status ≠ stIdle) : beginDecode s = s := if_neg h

theorem ackClear_stopped {s : State} (h : s.status = stDone ∨ s.status = stError) :
    ackClear s = { s with status := stIdle, errkind := 0, errcause := 0, errdir := 0, irq := 0 } := if_pos h

theorem ackClear_ignored {s : State} (h : s.status = stIdle ∨ s.status = stBusy) : ackClear s = s :=
  if_neg (by rcases h with h | h <;> rw [h] <;> decide)

/-- `CTRL`'s bits clear themselves (10_state.md R23), then `START` alone is applied. -/
theorem exec_start (s : State) : exec (.start false) s = .next (beginDecode { s with ctrl := 0 }) := rfl

theorem exec_clear (s : State) : exec (.clear false) s = .next (ackClear { s with ctrl := 0 }) := rfl

/-- A word with both bits (10_state.md R23). -/
theorem exec_clear_start (s : State) :
    exec (.clear true) s = .next (beginDecode (ackClear { s with ctrl := 0 })) := rfl

/-- No command is pending once `CLEAR` has been taken. -/
theorem ackClear_ctrl (s : State) : (ackClear s).ctrl = s.ctrl := by
  unfold ackClear; split <;> rfl

end Sys2Proof.Machine

open Sys2Proof Sys2Proof.Machine

/-- Settles O13: the two branches of R150. -/
theorem startCommand : Obligations.StartCommand :=
  fun s => ⟨fun hidle => (exec_start s).trans (congrArg _ (beginDecode_idle hidle)),
    fun hother => (exec_start s).trans (congrArg _ (beginDecode_ignored hother))⟩

/-- Settles O14: the two branches of R151; the word with both bits runs `START` where `CLEAR` alone ends, `CTRL` being 0
there already. -/
theorem clearCommand : Obligations.ClearCommand := by
  refine fun s => ⟨fun hstopped => ⟨_, exec_clear s, ackClear_stopped hstopped, fun r => resultRead_notDone ?_ r⟩,
    fun hignored => (exec_clear s).trans (congrArg _ (ackClear_ignored hignored)), fun t ht => ?_⟩
  · rw [ackClear_status, if_pos hstopped]
    decide
  · cases (exec_clear s).symm.trans ht
    have hctrl : { ackClear { s with ctrl := 0 } with ctrl := 0 } = ackClear { s with ctrl := 0 } :=
      congrArg (fun c => { ackClear { s with ctrl := 0 } with ctrl := c }) (ackClear_ctrl { s with ctrl := 0 }).symm
    rw [exec_start, exec_clear_start, hctrl]

/-- Settles O31: `DSEEK` reads the offset table and nothing of the buffer, so it has this one outcome. -/
theorem dseekPlacesMain : Obligations.DseekPlacesMain := fun _ => rfl

/-- Settles O32: `CFIN` has this one outcome. -/
theorem cfinFinishes : Obligations.CfinFinishes := fun _ => rfl
end

section
/-!
PROOFS. `CHDR` (41_container_and_sequencer.md R154, R155): what a byte field read through `CCUR` is, how each line of the
pseudocode carries the verdict on the rest of it, and the verdict on the whole header.
-/

namespace Sys2Proof.Machine

/-! ### Byte fields of the buffer -/

/-- A cursor that started at bit 0 and stands at byte `a`. -/
def atByte (a : Nat) : Cursor := { pos := 8 * a, cons := 8 * a }

theorem State.leAt_one (s : State) (a : Nat) : s.leAt a 1 = s.byteAt a := s.leAt_succ a 0

theorem State.leAt_lt (s : State) (a k : Nat) : s.leAt a k < 2 ^ (8 * k) := s.bitsAt_bytes k a ▸ s.bitsAt_lt (8 * a) (8 * k)

theorem State.toNat_ofNat_byteAt (s : State) (a : Nat) : (BitVec.ofNat 8 (s.byteAt a)).toNat = s.byteAt a := by
  simp [State.byteAt]

theorem State.toNat_ofNat_leAt (s : State) (a k : Nat) : (BitVec.ofNat (8 * k) (s.leAt a k)).toNat = s.leAt a k :=
  (BitVec.toNat_ofNat _ _).trans (Nat.mod_eq_of_lt (s.leAt_lt a k))

section
variable {s : State} {f : Front} {a k : Nat} (hf : f.ccur = atByte a)
include hf

theorem rdc_bytes (h : a + k ≤ s.ibuf.len.toNat) :
    rdc s.ibuf (8 * k) f = .ok (s.leAt a k) { f with ccur := atByte (a + k) } := by
  have hin : f.ccur.pos + 8 * k ≤ s.ibuf.bits := by simp only [hf, atByte, Buf.bits]; omega
  have hmove : f.ccur.advance (8 * k) = atByte (a + k) := by rw [hf, atByte, Cursor.advance, ← Nat.mul_add]; rfl
  have hval : s.ibuf.field f.ccur.pos (8 * k) = s.leAt a k := by rw [State.field_eq_bitsAt, hf]; exact s.bitsAt_bytes k a
  rw [rdc_ok hin, hmove, hval]

theorem rdc_bytes_past (hk : k ≠ 0) (h : s.ibuf.len.toNat < a + k) : rdc s.ibuf (8 * k) f = .error .outOfRange f := by
  refine rdc_error (by omega) ?_
  simp only [hf, atByte, Buf.bits]
  omega

end

/-! ### Verdicts -/

/-- The parse `m` from `f` has verdict `v`: it raises that cause, or with no cause it ends in `f'`. -/
def FrontEnds (m : FrontM Unit) (f : Front) (v : Option Cause) (f' : Front) : Prop :=
  match v with
  | none => m f = .ok () f'
  | some c => ∃ g, m f = .error c g

section
variable {s : State} {f f₁ f' : Front} {m : FrontM Unit} {w : Option Cause} {c : Cause}

theorem FrontEnds.error {g : Front} (h : m f = .error c g) : FrontEnds m f (some c) f' := ⟨g, h⟩

/-- Two parses that run alike have the same verdict. -/
theorem FrontEnds.of_eq {m₁ : FrontM Unit} (hrun : m f = m₁ f₁) (h : FrontEnds m₁ f₁ w f') : FrontEnds m f w f' := by
  cases w <;> simpa only [FrontEnds, hrun] using h

/-- A register written, then the rest. -/
theorem FrontEnds.write {g : Front → Front} (h : FrontEnds m (g f) w f') :
    FrontEnds (updF g >>= fun _ => m) f w f' :=
  .of_eq (bind_ok (updF_run g f)) h

/-- An operation that ends. -/
theorem FrontEnds.ok {α : Type} {o : FrontM α} {k : α → FrontM Unit} {x : α} (ho : o f = .ok x f₁)
    (h : FrontEnds (k x) f₁ w f') : FrontEnds (o >>= k) f w f' :=
  .of_eq (bind_ok ho) h

/-- An operation that raises. -/
theorem FrontEnds.raise {α : Type} {o : FrontM α} {k : α → FrontM Unit} (ho : o f = .error c f₁) (hw : w = some c) :
    FrontEnds (o >>= k) f w f' :=
  hw ▸ .error (bind_error ho)

/-- A field of `k` bytes at byte `a`, and the register it goes to: the rest decides, unless the buffer ends inside the field. -/
theorem FrontEnds.field {a : Nat} (k : Nat) {g : Nat → Front → Front} {m : Nat → FrontM Unit} (hf : f.ccur = atByte a)
    (hk : k ≠ 0) (hw : s.ibuf.len.toNat < a + k → w = some .outOfRange)
    (h : a + k ≤ s.ibuf.len.toNat → FrontEnds (m (s.leAt a k)) (g (s.leAt a k) { f with ccur := atByte (a + k) }) w f') :
    FrontEnds (rdc s.ibuf (8 * k) >>= fun v => updF (g v) >>= fun _ => m v) f w f' := by
  by_cases hlen : a + k ≤ s.ibuf.len.toNat
  · exact .ok (rdc_bytes hf hlen) (.write (h hlen))
  · exact .raise (rdc_bytes_past hf hk (by omega)) (hw (by omega))

/-- A condition that is not `q`, then the rest. -/
theorem FrontEnds.check {q : Prop} [Decidable q] {b : Bool} (hb : b = true ↔ ¬ q) (h : FrontEnds m f w f') :
    FrontEnds (frontCheck b c >>= fun _ => m) f (if q then some c else w) f' := by
  by_cases hq : q
  · rw [if_pos hq, Bool.eq_false_iff.2 fun h => hb.1 h hq]
    exact .raise (frontCheck_fail c f) rfl
  · rw [if_neg hq, hb.2 hq]
    exact .ok (frontCheck_pass c f) h

/-- The last condition. -/
theorem FrontEnds.lastCheck {q : Prop} [Decidable q] {b : Bool} (hb : b = true ↔ ¬ q) :
    FrontEnds (frontCheck b c) f (if q then some c else none) f := by
  by_cases hq : q
  · rw [if_pos hq, Bool.eq_false_iff.2 fun h => hb.1 h hq]
    exact .error (frontCheck_fail c f)
  · rw [if_neg hq, hb.2 hq]
    exact frontCheck_pass c f

/-- What was ruled out before does not decide. -/
theorem FrontEnds.ruledOut {q : Prop} [Decidable q] {v : Option Cause} (hq : ¬ q) (h : FrontEnds m f w f') :
    FrontEnds m f (if q then v else w) f' := by
  rwa [if_neg hq]

end

/-! ### The offset table -/

/-- A table after offsets were stored from direction `d` on: theirs there, elsewhere what it held. -/
theorem fileRead_storeOffsets : ∀ (vs : List (BitVec 32)) (d : Nat) (l : List (BitVec 32)) (j : Nat),
    fileRead 0 (storeOffsets d vs l) j = if d ≤ j ∧ j < d + vs.length then fileRead 0 vs (j - d) else fileRead 0 l j
  | [], d, l, j => (if_neg (by simp)).symm
  | v :: vs, d, l, j => by
    rw [storeOffsets, fileRead_storeOffsets vs, fileRead_fileWrite, List.length_cons]
    rcases Nat.lt_trichotomy j d with hj | rfl | hj
    · rw [if_neg (by omega), if_neg (by omega), if_neg (by omega)]
    · rw [if_neg (by omega), if_pos rfl, if_pos (by omega), Nat.sub_self]
      rfl
    · obtain ⟨i, rfl⟩ := Nat.exists_eq_add_of_lt hj
      rw [if_neg (show d + i + 1 ≠ d by omega), show d + i + 1 - (d + 1) = i by omega, show d + i + 1 - d = i + 1 by omega]
      exact if_congr (by omega) rfl rfl

/-- The offsets of `k` directions from `d` on, as the buffer has them (30_encoding.md R92). -/
def State.offsets (s : State) (d k : Nat) : List (BitVec 32) :=
  (List.range' d k).map fun j => BitVec.ofNat 32 (s.leAt (15 + 4 * j) 4)

theorem State.offsets_succ (s : State) (d k : Nat) :
    s.offsets d (k + 1) = BitVec.ofNat 32 (s.leAt (15 + 4 * d) 4) :: s.offsets (d + 1) k := rfl

@[simp] theorem State.offsets_length (s : State) (d k : Nat) : (s.offsets d k).length = k := by
  simp [State.offsets]

theorem State.fileRead_offsets (s : State) {k j : Nat} (h : j < k) :
    fileRead 0 (s.offsets 0 k) j = BitVec.ofNat 32 (s.leAt (15 + 4 * j) 4) := by
  simp [fileRead, State.offsets, h]

/-- The offset table read, then the rest; unless the buffer ends inside the table. -/
theorem FrontEnds.offsets {s : State} {f' : Front} {m : FrontM Unit} {w : Option Cause} : ∀ (k d : Nat) {f : Front},
    f.ccur = atByte (15 + 4 * d) → 15 + 4 * d ≤ s.ibuf.len.toNat →
    (s.ibuf.len.toNat < 15 + 4 * (d + k) → w = some .outOfRange) →
    (15 + 4 * (d + k) ≤ s.ibuf.len.toNat →
      FrontEnds m { f with ccur := atByte (15 + 4 * (d + k)), diroff := storeOffsets d (s.offsets d k) f.diroff } w f') →
    FrontEnds (offsetLoop s.ibuf d k >>= fun _ => m) f w f'
  | 0, d, f, hf, hlen, _, h => by
    have hend := h hlen
    rw [Nat.add_zero, ← hf] at hend
    exact .ok (f₁ := f) rfl hend
  | k + 1, d, f, hf, _, hw, h => by
    simp only [offsetLoop, bind_assoc]
    refine .field (s := s) 4 hf (by decide) (fun hlen => hw (by omega)) fun hlen => ?_
    refine FrontEnds.offsets k (d + 1) rfl hlen (fun hlen => hw (by omega)) fun hlen => ?_
    rw [show d + 1 + k = d + (k + 1) by omega] at hlen ⊢
    exact h hlen

/-! ### The whole header -/

/-- The first error R154's pseudocode meets (41_container_and_sequencer.md R154, R155; 60_exceptions.md R295). -/
def State.chdrVerdict (s : State) : Option Cause :=
  if s.ibuf.len = 0 then some Cause.outOfRange
  else if s.byteAt 0 ≠ 0x74 then some Cause.badSignature
  else if s.ibuf.len.toNat < 11 then some Cause.outOfRange
  else if s.leAt 7 4 ≠ 1 then some Cause.badSentinel
  else if s.ibuf.len.toNat < 15 + 4 * s.byteAt 2 then some Cause.outOfRange
  else if signedVal 32 (s.leAt 3 4) < 1 then some Cause.badFrameCount
  else if (∃ m, s.caps.maxFrames = some m ∧ m < s.leAt 3 4) then some Cause.capFrames
  else none

/-- The front end's registers after a whole header: formats `CONT` and `OFFT` (30_encoding.md R91, R92), `CCUR` behind them. -/
def State.chdrFront (s : State) : Front :=
  { s.front with
    ccur := atByte (15 + 4 * s.byteAt 2)
    signature := BitVec.ofNat 8 (s.byteAt 0)
    version := BitVec.ofNat 8 (s.byteAt 1)
    ndir := BitVec.ofNat 8 (s.byteAt 2)
    nframes := BitVec.ofNat 32 (s.leAt 3 4)
    sentinel := BitVec.ofNat 32 (s.leAt 7 4)
    totalsize := BitVec.ofNat 32 (s.leAt 11 4)
    diroff := storeOffsets 0 (s.offsets 0 (s.byteAt 2)) s.front.diroff }

theorem exceeds_iff {cap : Option Nat} {n : Nat} : exceeds cap n = true ↔ ∃ m, cap = some m ∧ m < n := by
  cases cap <;> simp [exceeds]

/-- Each line of R154's pseudocode is one clause of the verdict; the four fields before the sentinel share one. -/
theorem chdrParse_ends (s : State) : FrontEnds (chdrParse s.ibuf s.caps.maxFrames) s.front s.chdrVerdict s.chdrFront := by
  have hsigned : signedOf 32 (s.leAt 3 4) = signedVal 32 (s.leAt 3 4) := signedOf_eq_signedVal (s.leAt_lt 3 4)
  unfold State.chdrVerdict
  refine .write ?_
  refine .field (s := s) (a := 0) 1 rfl (by decide) (fun h => if_pos (by bv_omega)) fun hlen => .ruledOut (by bv_omega) ?_
  refine .check (by simp [State.leAt_one]) ?_
  refine .field (s := s) (a := 1) 1 rfl (by decide) (fun h => if_pos (by omega)) fun _ => ?_
  refine .field (s := s) (a := 2) 1 rfl (by decide) (fun h => if_pos (by omega)) fun _ => ?_
  refine .field (s := s) (a := 3) 4 rfl (by decide) (fun h => if_pos (by omega)) fun _ => ?_
  refine .field (s := s) (a := 7) 4 rfl (by decide) (fun h => if_pos (by omega)) fun hlen => .ruledOut (by omega) ?_
  refine .check (by simp) ?_
  refine .field (s := s) (a := 11) 4 rfl (by decide) (fun h => if_pos (by omega)) fun hlen => ?_
  simp only [State.leAt_one]
  refine .offsets (s := s) (s.byteAt 2) 0 rfl hlen (fun h => if_pos (by omega)) fun hlen => .ruledOut (by omega) ?_
  refine .check (by simp [hsigned]) ?_
  rw [Nat.zero_add]
  exact .lastCheck (by rw [← exceeds_iff, Bool.not_eq_true', Bool.not_eq_true])

/-! ### What follows the parse -/

theorem runFront_ok {m : FrontM Unit} {k : State → State} {s : State} {f : Front} (h : m s.front = .ok () f) :
    runFront m k s = .next (k { s with front := f }) := by simp only [runFront, h]

theorem runFront_error {m : FrontM Unit} {k : State → State} {s : State} {c : Cause} {f : Front}
    (h : m s.front = .error c f) : runFront m k s = .next (takeError c dirFrontEnd { s with front := f }) := by
  simp only [runFront, h]

theorem exec_chdr_parses {s : State} (h : s.chdrVerdict = none) :
    exec .chdr s = .next (dispatchEngine { s with front := s.chdrFront }) := by
  have hends := chdrParse_ends s
  rw [h] at hends
  exact runFront_ok hends

theorem exec_chdr_raises {s : State} {c : Cause} (h : s.chdrVerdict = some c) :
    ∃ f, exec .chdr s = .next (takeError c dirFrontEnd { s with front := f }) := by
  have hends := chdrParse_ends s
  rw [h] at hends
  obtain ⟨f, herr⟩ := hends
  exact ⟨f, runFront_error herr⟩

/-- A whole header has no error. -/
theorem State.chdrVerdict_none {s : State} (hsig : s.byteAt 0 = 0x74) (hsent : s.leAt 7 4 = 1)
    (hlen : 15 + 4 * s.byteAt 2 ≤ s.ibuf.len.toNat) (hcount : 1 ≤ signedVal 32 (s.leAt 3 4))
    (hcap : withinCap s.caps.maxFrames (s.leAt 3 4)) : s.chdrVerdict = none := by
  have hcap' : ¬ ∃ m, s.caps.maxFrames = some m ∧ m < s.leAt 3 4 := fun ⟨m, hm, hlt⟩ => Nat.not_lt.2 (hcap m hm) hlt
  rw [State.chdrVerdict, if_neg (by bv_omega), if_neg (not_not.2 hsig), if_neg (by omega), if_neg (not_not.2 hsent),
    if_neg (by omega), if_neg (by omega), if_neg hcap']

/-- The front end waits in `CFIN` (log 12). -/
theorem dispatchEngine_front (s : State) : (dispatchEngine s).front = { s.front with phase := phCfin } := by
  unfold dispatchEngine; split <;> rfl

/-- Nothing outside the two units changes. -/
theorem dispatchEngine_rest (s : State) (f : Front) (e : Engine) :
    { dispatchEngine s with front := f, eng := e } = { s with front := f, eng := e } := by
  unfold dispatchEngine; split <;> rfl

theorem dispatchEngine_eng (s : State) :
    (dispatchEngine s).eng = if s.front.ndir = 0 then s.eng else { s.eng with phase := phDseek, dir := 0 } := by
  unfold dispatchEngine; split <;> rfl

end Sys2Proof.Machine

open Sys2Proof Sys2Proof.Machine

/-- Settles O29: a whole header has no error, so the registers are those of `chdrFront`; the number of directions decides
whether the engine starts. -/
theorem chdrParses : Obligations.ChdrParses := by
  intro s hsig hsent hlen hcount hcap
  have hndir : s.chdrFront.ndir = 0 ↔ s.byteAt 2 = 0 := by
    rw [← BitVec.toNat_inj, ← s.toNat_ofNat_byteAt 2]; rfl
  refine ⟨_, exec_chdr_parses (State.chdrVerdict_none hsig hsent hlen hcount hcap), dispatchEngine_rest _ _ _, ?_⟩
  rw [dispatchEngine_front, dispatchEngine_eng]
  refine ⟨(s.toNat_ofNat_byteAt 0).trans hsig, s.toNat_ofNat_byteAt 1, s.toNat_ofNat_byteAt 2, s.toNat_ofNat_leAt 3 4,
    (s.toNat_ofNat_leAt 7 4).trans hsent, s.toNat_ofNat_leAt 11 4, fun d hd => ?_, fun d hd => ?_, ?_, rfl, fun h => ?_,
    fun h => ?_⟩
  · have hread : fileRead 0 s.chdrFront.diroff d = BitVec.ofNat 32 (s.leAt (15 + 4 * d) 4) := by
      rw [State.chdrFront, fileRead_storeOffsets, if_pos (by simpa using hd), Nat.sub_zero, s.fileRead_offsets hd]
    exact hread ▸ s.toNat_ofNat_leAt (15 + 4 * d) 4
  · exact (fileRead_storeOffsets _ _ _ _).trans (if_neg (by simpa using hd))
  · show atByte (15 + 4 * s.byteAt 2) = _
    rw [atByte, show 8 * (15 + 4 * s.byteAt 2) = 120 + 32 * s.byteAt 2 by omega]
  · exact if_pos (hndir.2 h)
  · exact if_neg fun h0 => by rw [hndir.1 h0] at h; omega

/-- Settles O30: the statement's list of conditions is `chdrVerdict`, and a raise stops both units. -/
theorem chdrRaises : Obligations.ChdrRaises := by
  intro s c h
  obtain ⟨f, hrun⟩ := exec_chdr_raises (s := s) h
  exact ⟨_, hrun, takeError_raises c dirFrontEnd s.port { s with front := f }, rfl⟩
end

section
/-!
PROOFS. The DirectionHeader parser (42_direction_header.md): what a run of reads through `MAIN` does to the engine when the
buffer holds its bits, and that it raises when it does not; then each step's registers.
-/

namespace Sys2Proof.Machine

/-! ### Runs of reads through `MAIN` -/

/-- The engine with `MAIN` moved by `n` bits and the registers `r`. -/
def Engine.took (e : Engine) (n : Nat) (r : DirRegs) : Engine := { e with regs := r, tr.main := e.tr.main.advance n }

@[simp] theorem Engine.took_regs (e : Engine) (n : Nat) (r : DirRegs) : (e.took n r).regs = r := rfl

@[simp] theorem Engine.took_pos (e : Engine) (n : Nat) (r : DirRegs) : (e.took n r).tr.main.pos = e.tr.main.pos + n := rfl

theorem Engine.took_write {e : Engine} {n : Nat} {r r' : DirRegs} : { e.took n r with regs := r' } = e.took n r' := rfl

@[simp] theorem Engine.took_took (e : Engine) (n k : Nat) (r r' : DirRegs) : (e.took n r).took k r' = e.took (n + k) r' := by
  simp only [Engine.took, Cursor.advance, Nat.add_assoc]

/-- Where such a run ends, as the statements write the state. The registers are a variable here: compared with the model's on a
step's own registers, Lean would evaluate the fields they were read from. -/
theorem State.eng_took (s : State) (n : Nat) (r : DirRegs) (p : BitVec 5) (f : BitVec 32) :
    ({ s with eng := { s.eng.took n r with phase := p, frm := f } } : State) = { s with
      eng.regs := r
      eng.tr.main := { pos := s.eng.tr.main.pos + n, cons := s.eng.tr.main.cons + n }
      eng.phase := p
      eng.frm := f } := rfl

/-- From `e` the operation `m` needs `n` bits at `MAIN`: with them in the buffer it answers `x` and ends in `e'`; with fewer it
raises `OUT_OF_RANGE`, still for the direction of `e`. -/
structure Takes {α : Type} (s : State) (n : Nat) (m : EngM α) (e : Engine) (x : α) (e' : Engine) : Prop where
  inside : n = 0 ∨ e.tr.main.pos + n ≤ s.lenBits → m e = .ok x e'
  past : n ≠ 0 → s.lenBits < e.tr.main.pos + n → ∃ g, m e = .error .outOfRange g ∧ g.dir = e.dir

section
variable {β : Type} {s : State} {e e' : Engine} {n k : Nat} {r : DirRegs}

theorem Takes.rd (s : State) (e : Engine) (n : Nat) :
    Takes s n (rd s.ibuf .main n) e (s.bitsAt e.tr.main.pos n) (e.took n e.regs) where
  inside h := by
    rcases h with rfl | h
    · exact rd_zero _ _ _
    · rw [← State.field_eq_bitsAt]
      exact rd_ok h
  past hn h := ⟨e, rd_error hn h, rfl⟩

/-- An operation that reads nothing. -/
theorem Takes.still {α : Type} {m : EngM α} {x : α} (h : m e = .ok x e') : Takes s 0 m e x e' where
  inside _ := h
  past h := absurd rfl h

/-- A run of reads, then another from where it ended. -/
theorem Takes.bind {α : Type} {m : EngM α} {f : α → EngM β} {x : α} {y : β} (hm : Takes s n m e x (e.took n r))
    (hf : Takes s k (f x) (e.took n r) y e') : Takes s (n + k) (m >>= f) e y e' where
  inside h := by
    rw [bind_ok (hm.inside (by omega))]
    refine hf.inside ?_
    rw [Engine.took_pos]
    omega
  past hnk h := by
    by_cases hin : n = 0 ∨ e.tr.main.pos + n ≤ s.lenBits
    · rw [bind_ok (hm.inside hin)]
      exact hf.past (by omega) (by rw [Engine.took_pos]; omega)
    · obtain ⟨g, hg, hdir⟩ := hm.past (by omega) (by omega)
      exact ⟨g, bind_error hg, hdir⟩

/-- An operation that reads nothing and keeps `MAIN` and the direction, then the rest. -/
theorem Takes.after {α : Type} {o : EngM α} {f : α → EngM β} {x : α} {y : β} {e₁ : Engine} (ho : o e = .ok x e₁)
    (hpos : e₁.tr.main.pos = e.tr.main.pos) (hdir : e₁.dir = e.dir) (h : Takes s n (f x) e₁ y e') :
    Takes s n (o >>= f) e y e' where
  inside hn := (bind_ok ho).trans (h.inside (hpos ▸ hn))
  past hn hp := by
    rw [bind_ok ho, ← hdir]
    exact h.past hn (hpos ▸ hp)

/-- A run of reads, then one operation that reads nothing. -/
theorem Takes.last {α : Type} {m : EngM α} {f : α → EngM β} {x : α} {y : β} (hm : Takes s n m e x (e.took n r))
    (hf : f x (e.took n r) = .ok y e') : Takes s n (m >>= f) e y e' :=
  hm.bind (k := 0) (.still hf)

/-- A value read, a register written with it, then the rest. -/
theorem Takes.field {o : EngM β} {v : β} {g : β → Engine → Engine} {m : EngM Unit} (ho : Takes s n o e v (e.took n e.regs))
    (hg : g v (e.took n e.regs) = e.took n r) (hm : Takes s k m (e.took n r) () e') :
    Takes s (n + k) (o >>= fun x => upd (g x) >>= fun _ => m) e () e' :=
  ho.bind (.after ((upd_run _ _).trans (congrArg _ hg)) rfl rfl hm)

/-- An engine step that is a run of reads: its result, or the raise for its direction (60_exceptions.md R281). -/
theorem Takes.exec {i : Instr} {m : EngM Unit} (hi : exec i s = runEng m s) (h : Takes s n m s.eng () e') (hn : n ≠ 0) :
    (s.eng.tr.main.pos + n ≤ s.lenBits → exec i s = .next { s with eng := e' }) ∧
      (s.lenBits < s.eng.tr.main.pos + n → EngRaises i s .outOfRange) := by
  rw [EngRaises, hi]
  refine ⟨fun hin => runEng_ok (h.inside (.inr hin)), fun hpast => ?_⟩
  obtain ⟨g, hg, hdir⟩ := h.past hn hpast
  refine ⟨_, runEng_error hg, ?_⟩
  rw [Engine.errDir, hdir]
  exact takeError_raises _ _ s.port { s with eng := g }

end

/-! ### `DHDR` -/

/-- The widths after the fields `is` were read from bit `p` on, four bits each, through `WLUT` (30_encoding.md R96, R104). -/
def State.widthsFrom (s : State) : List (Fin 7) → Nat → Widths → Widths
  | [], _, wb => wb
  | i :: is, p, wb => s.widthsFrom is (p + 4) (setWidthAt wb i (wlut (BitVec.ofNat 4 (s.bitsAt p 4))))

theorem widthLoop_takes (s : State) : ∀ (is : List (Fin 7)) (e : Engine), Takes s (4 * is.length) (widthLoop s.ibuf is) e ()
    (e.took (4 * is.length) { e.regs with wb := s.widthsFrom is e.tr.main.pos e.regs.wb })
  | [], _ => .still rfl
  | i :: is, e => by
    have hrest := (Takes.rd s e 4).field (g := fun v e => { e with regs.wb := setWidthAt e.regs.wb i (wlut (BitVec.ofNat 4 v)) })
      rfl (widthLoop_takes s is _)
    rw [Engine.took_took, Nat.add_comm 4] at hrest
    exact hrest

/-- The seven widths in the order of format `DHDR` (30_encoding.md R96). -/
theorem State.widthsFrom_all (s : State) (p : Nat) (wb : Widths) : s.widthsFrom [0, 1, 2, 3, 4, 5, 6] p wb =
    let w (i : Nat) : BitVec 6 := wlut (BitVec.ofNat 4 (s.bitsAt (p + 4 * i) 4))
    { v0 := w 0, w := w 1, h := w 2, x := w 3, y := w 4, o := w 5, c := w 6 } := by
  simp [State.widthsFrom, setWidthAt, Nat.add_assoc]

/-- The registers a direction header at bit `p` leaves. -/
def State.dhdrRegs (s : State) (p : Nat) (r : DirRegs) : DirRegs :=
  { r with
    outsize := BitVec.ofNat 32 (s.bitsAt p 32)
    cflags := BitVec.ofNat 2 (s.bitsAt (p + 32) 2)
    wb := s.widthsFrom [0, 1, 2, 3, 4, 5, 6] (p + 34) r.wb }

theorem dhdrBody_takes (s : State) (e : Engine) : Takes s 62 (dhdrBody s.ibuf) e ()
    { e.took 62 (s.dhdrRegs e.tr.main.pos e.regs) with phase := phFgeom, frm := 0 } := by
  unfold dhdrBody
  apply Takes.field (n := 32) (k := 30) (.rd s e 32) Engine.took_write
  apply Takes.field (n := 2) (k := 28) (.rd s _ 2) Engine.took_write
  apply Takes.last (n := 28) (widthLoop_takes s [0, 1, 2, 3, 4, 5, 6] _)
  simp [State.dhdrRegs]

/-! ### `OPTCHK` -/

theorem optchkBody_pass {e : Engine} (h : e.regs.wb.o = 0) : optchkBody e = .ok () { e with phase := phBsizes } := by
  have hzero : decide (e.regs.wb.o.toNat = 0) = true := by rw [h]; rfl
  rw [optchkBody, bind_ok (get_run e), hzero, bind_ok (engCheck_pass _ e), goto_run]

theorem optchkBody_raises {e : Engine} (h : e.regs.wb.o ≠ 0) : optchkBody e = .error .optionalDataBits e := by
  have hsome : decide (e.regs.wb.o.toNat = 0) = false := decide_eq_false (BitVec.toNat_ne_iff_ne.2 h)
  rw [optchkBody, bind_ok (get_run e), hsome, bind_error (engCheck_fail _ e)]

/-! ### `BSIZES` -/

/-- The width of a size field that is there or not (30_encoding.md R99). -/
def sizeWidth (present : Bool) : Nat := if present then 20 else 0

@[simp] theorem sizeWidth_true : sizeWidth true = 20 := rfl

/-- A size field that stands at bit `p`, or is absent. -/
def State.sizeAt (s : State) (present : Bool) (p : Nat) : BitVec 20 :=
  if present then BitVec.ofNat 20 (s.bitsAt p 20) else 0

theorem readSize_takes (s : State) (present : Bool) (e : Engine) : Takes s (sizeWidth present) (readSize s.ibuf present) e
    (s.sizeAt present e.tr.main.pos) (e.took (sizeWidth present) e.regs) := by
  cases present with
  | false => exact .still rfl
  | true => exact (Takes.rd s e 20).last rfl

/-- How many bits the size fields take, `ec` and `raw` being the two flags (30_encoding.md R99). -/
def sizesLen (ec raw : Bool) : Nat := sizeWidth ec + (20 + (sizeWidth raw + sizeWidth raw))

theorem sizesLen_eq (ec raw : Bool) : sizesLen ec raw = (if ec then 20 else 0) + 20 + if raw then 40 else 0 := by
  cases ec <;> cases raw <;> rfl

/-- The registers the size fields from bit `p` on leave. -/
def State.bsizesRegs (s : State) (ec raw : Bool) (p : Nat) (r : DirRegs) : DirRegs :=
  { r with
    ecsize := s.sizeAt ec p
    pmsize := s.sizeAt true (p + sizeWidth ec)
    etsize := s.sizeAt raw (p + sizeWidth ec + 20)
    rpsize := s.sizeAt raw (p + sizeWidth ec + 20 + sizeWidth raw) }

theorem bsizesBody_takes (s : State) (e : Engine) :
    let n := sizesLen e.regs.ecPresent e.regs.rawPresent
    Takes s n (bsizesBody s.ibuf) e () { e.took n (s.bsizesRegs e.regs.ecPresent e.regs.rawPresent e.tr.main.pos e.regs) with
      phase := phPalv } := by
  refine Takes.after (get_run e) rfl rfl ?_
  refine (readSize_takes s _ e).field Engine.took_write ?_
  refine (readSize_takes s true _).field Engine.took_write ?_
  refine (readSize_takes s _ _).field Engine.took_write ?_
  refine Takes.field (n := sizeWidth _) (k := 0) (readSize_takes s _ _) Engine.took_write (.still ?_)
  simp [State.bsizesRegs, sizesLen, Nat.add_assoc]

/-- The four fields stand where the widths before them say. -/
theorem State.bsizesRegs_eq (s : State) (ec raw : Bool) (p : Nat) (r : DirRegs) : s.bsizesRegs ec raw p r =
    let e := if ec then 20 else 0
    let w := if raw then 40 else 0
    { r with
      ecsize := if e = 20 then BitVec.ofNat 20 (s.bitsAt p 20) else 0
      pmsize := BitVec.ofNat 20 (s.bitsAt (p + e) 20)
      etsize := if w = 40 then BitVec.ofNat 20 (s.bitsAt (p + e + 20) 20) else 0
      rpsize := if w = 40 then BitVec.ofNat 20 (s.bitsAt (p + e + 40) 20) else 0 } := by
  cases ec <;> cases raw <;> simp [State.bsizesRegs, State.sizeAt, sizeWidth, Nat.add_assoc]

/-! ### `PALV` -/

/-- The registers with the palette table that holds the indices `l` (10_state.md R31). -/
def DirRegs.withPal (r : DirRegs) (l : List Nat) : DirRegs :=
  { r with
    pal := l.map (fun i => BitVec.ofNat 8 i) ++ List.replicate (256 - l.length) 0
    palcnt := BitVec.ofNat 9 l.length }

theorem DirRegs.withPal_nil (r : DirRegs) : r.withPal [] = r.clearPal := by
  simp only [DirRegs.withPal, DirRegs.clearPal, List.map_nil, List.nil_append, List.length_nil, Nat.sub_zero]
  rfl

/-- The entry right after the first `l.length` ones written. -/
theorem fileWrite_append {α : Type} (d x y : α) (m : List α) : ∀ l : List α, fileWrite d (l ++ y :: m) l.length x = l ++ x :: m
  | [] => rfl
  | z :: l => congrArg (z :: ·) (fileWrite_append d x y m l)

/-- A set flag appends its index. -/
theorem DirRegs.palFlag_withPal_set (r : DirRegs) {l : List Nat} (hl : l.length < 256) (i : Nat) :
    (r.withPal l).palFlag i true = r.withPal (l ++ [i]) := by
  have hfree : List.replicate (256 - l.length) (0 : Byte) = 0 :: List.replicate (256 - (l ++ [i]).length) 0 := by
    rw [← List.replicate_succ, List.length_append, List.length_singleton]
    congr 1
    omega
  have hcnt : (BitVec.ofNat 9 l.length).toNat = (l.map (fun i => BitVec.ofNat 8 i)).length := by
    rw [BitVec.toNat_ofNat, List.length_map, Nat.mod_eq_of_lt (by omega)]
  have hsucc : BitVec.ofNat 9 l.length + 1 = BitVec.ofNat 9 (l ++ [i]).length := by
    rw [List.length_append, BitVec.ofNat_add]
    rfl
  simp only [DirRegs.palFlag, if_true, DirRegs.withPal, hcnt, hsucc, hfree, fileWrite_append, List.map_append,
    List.append_assoc]
  rfl

/-- The indices below `i` whose flag is set, the flags standing from bit `p` on (30_encoding.md R100). -/
def State.flagsSet (s : State) (p i : Nat) : List Nat := (List.range i).filter fun j => s.ibit (p + j) = 1

theorem State.flagsSet_length_le (s : State) (p i : Nat) : (s.flagsSet p i).length ≤ i :=
  (List.length_filter_le _ _).trans_eq List.length_range

theorem State.flagsSet_succ (s : State) (p i : Nat) :
    s.flagsSet p (i + 1) = if s.ibit (p + i) = 1 then s.flagsSet p i ++ [i] else s.flagsSet p i := by
  rw [State.flagsSet, List.range_succ, List.filter_append, List.filter_singleton]
  by_cases h : s.ibit (p + i) = 1 <;> simp [h, State.flagsSet]

/-- Flag `i` after those below it. -/
theorem DirRegs.palFlag_flagsSet (s : State) (r : DirRegs) (p : Nat) {i : Nat} (hi : i < 256) :
    (r.withPal (s.flagsSet p i)).palFlag i (decide (s.ibit (p + i) = 1)) = r.withPal (s.flagsSet p (i + 1)) := by
  rw [State.flagsSet_succ]
  by_cases h : s.ibit (p + i) = 1
  · rw [if_pos h, decide_eq_true h]
    exact r.palFlag_withPal_set ((s.flagsSet_length_le p i).trans_lt hi) i
  · rw [if_neg h, decide_eq_false h]
    rfl

/-- The flags from index `i` on, those below it being in the table. -/
theorem palLoop_takes (s : State) (r : DirRegs) (p : Nat) : ∀ (k i : Nat) (e : Engine), i + k ≤ 256 → e.tr.main.pos = p + i →
    e.regs = r.withPal (s.flagsSet p i) →
    Takes s k (palLoop s.ibuf i k) e () (e.took k (r.withPal (s.flagsSet p (i + k))))
  | 0, i, e, _, _, hr => .still (by rw [Nat.add_zero, ← hr]; rfl)
  | k + 1, i, e, hk, hp, hr => by
    have hflag : e.regs.palFlag i (decide (s.bitsAt e.tr.main.pos 1 = 1)) = r.withPal (s.flagsSet p (i + 1)) := by
      rw [State.bitsAt_one, hp, hr, DirRegs.palFlag_flagsSet s r p (by omega)]
    have hrest := (Takes.rd s e 1).field (g := fun v e => { e with regs := e.regs.palFlag i (decide (v = 1)) })
      Engine.took_write (palLoop_takes s r p k (i + 1) _ (by omega) (by simp [hp, Nat.add_assoc]) hflag)
    rw [Engine.took_took, Nat.add_assoc i, Nat.add_comm 1] at hrest
    exact hrest

theorem palvBody_takes (s : State) (e : Engine) : Takes s 256 (palvBody s.ibuf) e ()
    { e.took 256 (e.regs.withPal (s.flagsSet e.tr.main.pos 256)) with phase := phSlice } := by
  unfold palvBody
  refine Takes.after (upd_run _ e) rfl rfl ?_
  refine (palLoop_takes s e.regs _ 256 0 _ (by decide) rfl (DirRegs.withPal_nil _).symm).last ?_
  rfl

end Sys2Proof.Machine

open Sys2Proof Sys2Proof.Machine

/-- Settles O33: `DHDR` is a run of reads of 62 bits. -/
theorem dhdrReads : Obligations.DhdrReads := by
  intro s
  obtain ⟨hin, hpast⟩ := (dhdrBody_takes s s.eng).exec (i := .dhdr) rfl (by decide)
  refine ⟨fun h => (hin h).trans ?_, hpast⟩
  rw [State.eng_took, State.dhdrRegs, State.widthsFrom_all]

/-- Settles O36: `BSIZES` is a run of reads, of as many bits as the two flags say. -/
theorem bsizesReads : Obligations.BsizesReads := by
  intro s
  have htakes := bsizesBody_takes s s.eng
  rw [sizesLen_eq, State.bsizesRegs_eq] at htakes
  obtain ⟨hin, hpast⟩ := htakes.exec (i := .bsizes) rfl (by omega)
  exact ⟨fun h => (hin h).trans (congrArg _ (s.eng_took _ _ _ s.eng.frm)), hpast⟩

/-- Settles O37: `PALV` is a run of 256 reads, each flag in the place its index has. -/
theorem palvBuildsTable : Obligations.PalvBuildsTable := by
  intro s
  obtain ⟨hin, hpast⟩ := (palvBody_takes s s.eng).exec (i := .palv) rfl (by decide)
  exact ⟨fun h => (hin h).trans (congrArg _ (s.eng_took _ _ _ s.eng.frm)), hpast⟩

/-- Settles O35: the condition of R175 holds or not. -/
theorem optchkRefuses : Obligations.OptchkRefuses :=
  fun s => ⟨fun h => runEng_ok (optchkBody_pass h),
    fun h => ⟨_, runEng_error (optchkBody_raises h), takeError_raises _ _ s.port s⟩⟩

/-- Settles O38: `SLICE` reads nothing of the buffer, so it has this one outcome. -/
theorem sliceCursors : Obligations.SliceCursors := fun _ => rfl
end

section
/-!
PROOFS. The FrameGeometry parser (43_frame_geometry.md): the fields a frame header holds, the two tests, the box and its fold
into the accumulators, and `DBOX`; then the direction box as the union of the frame boxes, which the folds keep as an invariant.
-/

namespace Sys2Proof.Machine

/-! ### Frame records -/

theorem fileWrite_fileWrite {α : Type} (d : α) : ∀ (l : List α) (i : Nat) (x y : α),
    fileWrite d (fileWrite d l i x) i y = fileWrite d l i y
  | [], 0, _, _ => rfl
  | _ :: _, 0, _, _ => rfl
  | [], i + 1, x, y => congrArg (d :: ·) (fileWrite_fileWrite d [] i x y)
  | z :: l, i + 1, x, y => congrArg (z :: ·) (fileWrite_fileWrite d l i x y)

theorem DirRegs.frame_updFrame (r : DirRegs) (f : Nat) (g : FrameGeom → FrameGeom) (k : Nat) :
    (r.updFrame f g).frame k = if k = f then g (r.frame f) else r.frame k :=
  fileRead_fileWrite zeroFrame r.fg f (g (r.frame f)) k

@[simp] theorem DirRegs.frame_updFrame_self (r : DirRegs) (f : Nat) (g : FrameGeom → FrameGeom) :
    (r.updFrame f g).frame f = g (r.frame f) := by
  rw [DirRegs.frame_updFrame, if_pos rfl]

/-- Two changes of one record are one. -/
@[simp] theorem DirRegs.updFrame_updFrame (r : DirRegs) (f : Nat) (g h : FrameGeom → FrameGeom) :
    (r.updFrame f g).updFrame f h = r.updFrame f fun x => h (g x) := by
  rw [DirRegs.updFrame, DirRegs.frame_updFrame_self, DirRegs.updFrame_fg, fileWrite_fileWrite]
  rfl

/-! ### The accumulators -/

@[simp] theorem DirRegs.frame_fold (r : DirRegs) (f k : Nat) : (r.fold f).frame k = r.frame k :=
  congrArg (fileRead zeroFrame · k) (r.fold_fg f)

@[simp] theorem DirRegs.fold_minl (r : DirRegs) (f : Nat) :
    (r.fold f).minl = if f = 0 then (r.frame f).fl else min r.minl (r.frame f).fl := by
  unfold DirRegs.fold; dsimp only; split <;> rfl

@[simp] theorem DirRegs.fold_mint (r : DirRegs) (f : Nat) :
    (r.fold f).mint = if f = 0 then (r.frame f).ft else min r.mint (r.frame f).ft := by
  unfold DirRegs.fold; dsimp only; split <;> rfl

@[simp] theorem DirRegs.fold_maxr (r : DirRegs) (f : Nat) :
    (r.fold f).maxr = if f = 0 then (r.frame f).right else max r.maxr (r.frame f).right := by
  unfold DirRegs.fold; dsimp only; split <;> rfl

@[simp] theorem DirRegs.fold_maxb (r : DirRegs) (f : Nat) :
    (r.fold f).maxb = if f = 0 then (r.frame f).bottom else max r.maxb (r.frame f).bottom := by
  unfold DirRegs.fold; dsimp only; split <;> rfl

/-- A fold writes nothing but the accumulators. -/
theorem DirRegs.fold_rest (r : DirRegs) (f : Nat) :
    { r.fold f with minl := r.minl, mint := r.mint, maxr := r.maxr, maxb := r.maxb } = r := by
  unfold DirRegs.fold; dsimp only; split <;> rfl

/-! ### The reads of a frame header -/

/-- The frame header that stands at bit `p` (30_encoding.md R97). -/
def State.fhdrAt (s : State) (wb : Widths) (p : Nat) : FhdrFields :=
  let pw := p + wb.v0.toNat
  let ph := pw + wb.w.toNat
  let px := ph + wb.h.toNat
  let py := px + wb.x.toNat
  let po := py + wb.y.toNat
  let pc := po + wb.o.toNat
  let pb := pc + wb.c.toNat
  { variable0 := BitVec.ofNat 32 (s.bitsAt p wb.v0.toNat)
    width := BitVec.ofNat 32 (s.bitsAt pw wb.w.toNat)
    height := BitVec.ofNat 32 (s.bitsAt ph wb.h.toNat)
    xoffset := BitVec.ofInt 32 (signedOf wb.x.toNat (s.bitsAt px wb.x.toNat))
    yoffset := BitVec.ofInt 32 (signedOf wb.y.toNat (s.bitsAt py wb.y.toNat))
    noptional := BitVec.ofNat 32 (s.bitsAt po wb.o.toNat)
    ncoded := BitVec.ofNat 32 (s.bitsAt pc wb.c.toNat)
    bottomup := BitVec.ofNat 1 (s.bitsAt pb 1) }

section
variable {β : Type} {s : State} {e e' : Engine} {n k f : Nat}

theorem Takes.rds (s : State) (e : Engine) (n : Nat) :
    Takes s n (rds s.ibuf .main n) e (signedOf n (s.bitsAt e.tr.main.pos n)) (e.took n e.regs) :=
  (Takes.rd s e n).last rfl

/-- A skip never faults (40_bitcursor.md R135), so one past the end is found by the first bit read after it. -/
theorem Takes.skp {m : EngM Unit} (hk : k ≠ 0) (hm : Takes s k m (e.took n e.regs) () e') :
    Takes s (n + k) (skp .main n >>= fun _ => m) e () e' where
  inside h := (bind_ok (skp_run .main n e)).trans (hm.inside (by rw [Engine.took_pos]; omega))
  past _ h := (bind_ok (skp_run .main n e)).symm ▸ hm.past hk (by rw [Engine.took_pos]; omega)

/-- A value read and put into frame `f`'s record, then the rest. -/
theorem Takes.frameField {o : EngM β} {v : β} {g : β → FrameGeom → FrameGeom} {m : EngM Unit}
    (ho : Takes s n o e v (e.took n e.regs)) (hm : Takes s k m (e.took n (e.regs.updFrame f (g v))) () e') :
    Takes s (n + k) (o >>= fun x => updFG f (g x) >>= fun _ => m) e () e' :=
  ho.field (g := fun v e => { e with regs := e.regs.updFrame f (g v) }) Engine.took_write hm

end

/-- A frame header is one run of reads; its fields end in frame `f`'s record. -/
theorem readFrame_takes (s : State) (f : Nat) (wb : Widths) (e : Engine) :
    Takes s (codeLen (.fhdr wb)) (readFrame s.ibuf f wb) e ()
      (e.took (codeLen (.fhdr wb)) (e.regs.updFrame f (FrameGeom.store (s.fhdrAt wb e.tr.main.pos)))) := by
  have hrun : Takes s (wb.v0.toNat + (wb.w.toNat + (wb.h.toNat + (wb.x.toNat + (wb.y.toNat + (wb.o.toNat +
      (wb.c.toNat + 1))))))) (readFrame s.ibuf f wb) e ()
      (e.took (codeLen (.fhdr wb)) (e.regs.updFrame f (FrameGeom.store (s.fhdrAt wb e.tr.main.pos)))) := by
    refine .skp (by omega) ?_
    refine .frameField (.rd s _ _) ?_
    refine .frameField (.rd s _ _) ?_
    refine .frameField (.rds s _ _) ?_
    refine .frameField (.rds s _ _) ?_
    refine .frameField (.rd s _ _) ?_
    refine .frameField (.rd s _ _) ?_
    refine (Takes.rd s _ 1).last ?_
    simp only [updFG, upd_run, Engine.took_write, Engine.took_regs, Engine.took_took, Engine.took_pos,
      DirRegs.updFrame_updFrame, codeLen, State.fhdrAt, Nat.add_assoc]
    rfl
  simpa only [codeLen, Nat.add_assoc] using hrun

/-! ### What a header field stands for -/

theorem State.toNat_ofNat_bitsAt (s : State) (p : Nat) {n : Nat} (hn : n ≤ 32) :
    (BitVec.ofNat 32 (s.bitsAt p n)).toNat = s.bitsAt p n := by
  rw [BitVec.toNat_ofNat, Nat.mod_eq_of_lt ((s.bitsAt_lt p n).trans_le (Nat.pow_le_pow_right (by decide) hn))]

theorem State.toInt_ofInt_bitsAt (s : State) (p : Nat) {n : Nat} (hn : n ≤ 32) :
    (BitVec.ofInt 32 (signedOf n (s.bitsAt p n))).toInt = signedVal n (s.bitsAt p n) := by
  rw [signedOf_eq_signedVal (s.bitsAt_lt p n)]
  cases n with
  | zero => rfl
  | succ m =>
    obtain ⟨hlo, hhi⟩ := signedVal_range (Nat.add_one_ne_zero m) (s.bitsAt_lt p (m + 1))
    have hpow : (2 : Int) ^ (m + 1 - 1) ≤ 2 ^ 31 := pow_le_pow_right₀ (by decide) (by omega)
    exact BitVec.toInt_ofInt_eq_self (by decide) (by omega) (by omega)

theorem State.ofNat_one_bitsAt (s : State) (p : Nat) : BitVec.ofNat 1 (s.bitsAt p 1) = if s.ibit p = 1 then 1 else 0 := by
  rw [State.bitsAt_one]
  rcases Nat.mod_two_eq_zero_or_one (s.byteAt (p / 8) / 2 ^ (p % 8)) with h | h <;> simp [State.ibit, h]

/-! ### The tests -/

theorem frameChecks_bottomUp {g : FrameGeom} (h : g.fbu = 1) : frameChecks g = .error .bottomUpFlag := if_pos h

theorem frameChecks_empty {g : FrameGeom} (hbu : g.fbu = 0) (h : g.fw.toNat = 0 ∨ g.fh.toNat = 0) :
    frameChecks g = .error .emptyBox := by
  rw [frameChecks, if_neg (by rw [hbu]; decide), if_pos (h.imp (by omega) (by omega))]

theorem frameChecks_pass {g : FrameGeom} (hbu : g.fbu = 0) (hw : 1 ≤ g.fw.toNat) (hh : 1 ≤ g.fh.toNat) :
    frameChecks g = .ok () := by
  rw [frameChecks, if_neg (by rw [hbu]; decide), if_neg (by omega)]

theorem checkFrame_pass {f : Nat} {e : Engine} (h : frameChecks (e.regs.frame f) = .ok ()) :
    checkFrame f e = .ok () e := by
  simp only [checkFrame, h]

theorem checkFrame_error {f : Nat} {e : Engine} {c : Cause} (h : frameChecks (e.regs.frame f) = .error c) :
    checkFrame f e = .error c e := by
  simp only [checkFrame, h]

/-! ### `FGEOM` -/

/-- The registers with header `h` and its box in frame `f`'s record, and the box folded in (43_frame_geometry.md R191). -/
def DirRegs.addFrame (r : DirRegs) (f : Nat) (h : FhdrFields) : DirRegs :=
  (r.updFrame f fun g => (g.store h).setBox).fold f

theorem DirRegs.frame_addFrame (r : DirRegs) (f : Nat) (h : FhdrFields) (k : Nat) :
    (r.addFrame f h).frame k = if k = f then ((r.frame f).store h).setBox else r.frame k :=
  (DirRegs.frame_fold _ f k).trans (r.frame_updFrame f _ k)

@[simp] theorem DirRegs.frame_addFrame_self (r : DirRegs) (f : Nat) (h : FhdrFields) :
    (r.addFrame f h).frame f = ((r.frame f).store h).setBox := by
  rw [DirRegs.frame_addFrame, if_pos rfl]

/-- Only the record and the accumulators change. -/
theorem DirRegs.addFrame_rest (r : DirRegs) (f : Nat) (h : FhdrFields) :
    { r.addFrame f h with fg := r.fg, minl := r.minl, mint := r.mint, maxr := r.maxr, maxb := r.maxb } = r := by
  have hfold := (r.updFrame f fun g => (g.store h).setBox).fold_rest f
  exact congrArg (fun x : DirRegs => { x with fg := r.fg }) hfold

/-- Frame 0's box sets the accumulators, another frame's is added to them. -/
theorem DirRegs.addFrame_accumulators (r : DirRegs) (f : Nat) (h : FhdrFields) :
    let g := ((r.frame f).store h).setBox
    let t := r.addFrame f h
    if f = 0 then t.minl = g.fl ∧ t.mint = g.ft ∧ t.maxr = g.right ∧ t.maxb = g.bottom
    else
      t.minl = min r.minl g.fl ∧ t.mint = min r.mint g.ft ∧ t.maxr = max r.maxr g.right ∧ t.maxb = max r.maxb g.bottom := by
  by_cases hf : f = 0 <;> simp [DirRegs.addFrame, hf]

/-- The step order moves the phase and the frame number only. -/
theorem Engine.nextFrame_rest (n : BitVec 32) (p : BitVec 5) (e : Engine) :
    { e.nextFrame n fun x => { x with phase := p } with phase := e.phase, frm := e.frm } = e :=
  nextFrame_keeps (P := fun x => { x with phase := e.phase, frm := e.frm } = e) (fun _ _ h => h) (fun _ h => h) rfl

@[simp] theorem Engine.nextFrame_regs (n : BitVec 32) (p : BitVec 5) (e : Engine) :
    (e.nextFrame n fun x => { x with phase := p }).regs = e.regs := (congrArg Engine.regs (e.nextFrame_rest n p) :)

@[simp] theorem Engine.nextFrame_tr (n : BitVec 32) (p : BitVec 5) (e : Engine) :
    (e.nextFrame n fun x => { x with phase := p }).tr = e.tr := (congrArg Engine.tr (e.nextFrame_rest n p) :)

/-- A run of reads through `MAIN` and the step order leave the rest of the engine. -/
theorem Engine.took_nextFrame_rest (e : Engine) (n : Nat) (r : DirRegs) (nf : BitVec 32) (p : BitVec 5) :
    { (e.took n r).nextFrame nf fun x => { x with phase := p } with
      regs := e.regs, tr.main := e.tr.main, phase := e.phase, frm := e.frm } = e :=
  (congrArg (fun x : Engine => { x with regs := e.regs, tr.main := e.tr.main }) ((e.took n r).nextFrame_rest nf p) :)

/-- A next frame's number is below `2 ^ 31`, so counting does not wrap (41_container_and_sequencer.md R152). -/
theorem walksFrames_nextFrame {s : State} {e : Engine} (p : BitVec 5) (hphase : e.phase = s.eng.phase)
    (hfrm : e.frm = s.eng.frm) :
    WalksFrames s { s with eng := e.nextFrame s.front.nframes fun x => { x with phase := p } } p := by
  have hmax : s.front.nframes.toInt < 2 ^ 31 := BitVec.toInt_lt
  by_cases hmore : (s.eng.frm.toNat : Int) + 1 < s.front.nframes.toInt
  · rw [WalksFrames, if_pos hmore, Engine.nextFrame, moreFrames, hfrm, decide_eq_true hmore, if_pos rfl]
    refine ⟨hphase, ?_⟩
    simp only [BitVec.toNat_add]
    exact Nat.mod_eq_of_lt (by simp; omega)
  · rw [WalksFrames, if_neg hmore, Engine.nextFrame, moreFrames, hfrm, decide_eq_false hmore]
    rfl

section
variable {s : State} {e : Engine} {n : BitVec 32}

theorem fgeomBody_past (h : s.lenBits < e.tr.main.pos + codeLen (.fhdr e.regs.wb)) :
    ∃ g, fgeomBody s.ibuf n e = .error .outOfRange g ∧ g.dir = e.dir := by
  obtain ⟨g, hg, hdir⟩ := (readFrame_takes s e.frm.toNat e.regs.wb e).past (Nat.succ_ne_zero _) h
  exact ⟨g, (bind_ok (get_run e)).trans (bind_error hg), hdir⟩

variable (hin : e.tr.main.pos + codeLen (.fhdr e.regs.wb) ≤ s.lenBits)
include hin

theorem fgeomBody_refuses {c : Cause}
    (hc : frameChecks ((e.regs.frame e.frm.toNat).store (s.fhdrAt e.regs.wb e.tr.main.pos)) = .error c) :
    ∃ g, fgeomBody s.ibuf n e = .error c g ∧ g.dir = e.dir := by
  rw [fgeomBody, bind_ok (get_run e), bind_ok ((readFrame_takes s _ _ e).inside (.inr hin))]
  refine ⟨_, bind_error (checkFrame_error ?_), rfl⟩
  rw [Engine.took_regs, DirRegs.frame_updFrame_self, hc]

theorem fgeomBody_adds
    (hc : frameChecks ((e.regs.frame e.frm.toNat).store (s.fhdrAt e.regs.wb e.tr.main.pos)) = .ok ()) :
    fgeomBody s.ibuf n e = .ok () ((e.took (codeLen (.fhdr e.regs.wb))
      (e.regs.addFrame e.frm.toNat (s.fhdrAt e.regs.wb e.tr.main.pos))).nextFrame n fun x => { x with phase := phDbox }) := by
  rw [fgeomBody, bind_ok (get_run e), bind_ok ((readFrame_takes s _ _ e).inside (.inr hin)), bind_ok (checkFrame_pass ?_)]
  · rw [updFG, bind_ok (upd_run _ _), bind_ok (upd_run _ _), upd_run, Engine.took_write, Engine.took_regs,
      DirRegs.updFrame_updFrame]
    rfl
  · rw [Engine.took_regs, DirRegs.frame_updFrame_self, hc]

end

/-- A step of the engine that raises, raises for the direction it was in (60_exceptions.md R281). -/
theorem engRaises_of_run {i : Instr} {m : EngM Unit} {s : State} {c : Cause} (hi : exec i s = runEng m s)
    (h : ∃ g, m s.eng = .error c g ∧ g.dir = s.eng.dir) : EngRaises i s c := by
  obtain ⟨g, hg, hdir⟩ := h
  refine ⟨_, hi.trans (runEng_error hg), ?_⟩
  rw [Engine.errDir, hdir]
  exact takeError_raises c _ s.port { s with eng := g }

/-! ### `DBOX` -/

theorem exceeds_eq_false {cap : Option Nat} {n : Nat} (h : withinCap cap n) : exceeds cap n = false := by
  rw [← Bool.not_eq_true, exceeds_iff]
  rintro ⟨m, hm, hlt⟩
  exact absurd hlt (Nat.not_lt.2 (h m hm))

theorem dboxBody_fits {cap : Option Nat} {e : Engine} (h : withinCap cap (e.regs.setDirBox.dw * e.regs.setDirBox.dh)) :
    dboxBody cap e = .ok () { e with regs := e.regs.setDirBox, phase := phOptchk } := by
  rw [dboxBody, bind_ok (upd_run _ e), bind_ok (get_run _), exceeds_eq_false h]
  rfl

theorem dboxBody_raises {cap : Option Nat} {e : Engine} {m : Nat} (hm : cap = some m)
    (h : m < e.regs.setDirBox.dw * e.regs.setDirBox.dh) :
    ∃ g, dboxBody cap e = .error .capCanvas g ∧ g.dir = e.dir := by
  refine ⟨{ e with regs := e.regs.setDirBox }, ?_, rfl⟩
  rw [dboxBody, bind_ok (upd_run _ e), bind_ok (get_run _), exceeds_iff.2 ⟨m, hm, h⟩]
  rfl

/-! ### The union -/

/-- The accumulators bound the boxes of the frames below `n`, and each is a side of one of them. -/
structure DirRegs.Bounds (r : DirRegs) (n : Nat) : Prop where
  left : IsLeast ((fun f => (r.frame f).fl) '' Set.Iio n) r.minl
  top : IsLeast ((fun f => (r.frame f).ft) '' Set.Iio n) r.mint
  right : IsGreatest ((fun f => (r.frame f).right) '' Set.Iio n) r.maxr
  bottom : IsGreatest ((fun f => (r.frame f).bottom) '' Set.Iio n) r.maxb

theorem image_Iio_succ (x : Nat → Int) (n : Nat) : x '' Set.Iio (n + 1) = insert (x n) (x '' Set.Iio n) := by
  rw [← Set.image_insert_eq, ← Order.Iio_succ_eq_insert, Nat.succ_eq_succ]

theorem DirRegs.bounds_fold_zero (r : DirRegs) : (r.fold 0).Bounds 1 := by
  constructor <;> simp

theorem DirRegs.Bounds.fold {r : DirRegs} {n : Nat} (h : r.Bounds n) (hn : n ≠ 0) : (r.fold n).Bounds (n + 1) := by
  constructor <;> simp only [image_Iio_succ, DirRegs.frame_fold]
  · rw [DirRegs.fold_minl, if_neg hn, min_comm]
    exact h.left.insert _
  · rw [DirRegs.fold_mint, if_neg hn, min_comm]
    exact h.top.insert _
  · rw [DirRegs.fold_maxr, if_neg hn, max_comm]
    exact h.right.insert _
  · rw [DirRegs.fold_maxb, if_neg hn, max_comm]
    exact h.bottom.insert _

/-- Frame 0 sets the accumulators whatever they held, and each further frame keeps the bounds. -/
theorem DirRegs.bounds_foldl (r₀ : DirRegs) {n : Nat} (hn : 1 ≤ n) : ((List.range n).foldl DirRegs.fold r₀).Bounds n := by
  induction n, hn using Nat.le_induction with
  | base => exact r₀.bounds_fold_zero
  | succ n hn ih =>
    rw [List.range_succ, List.foldl_append]
    exact ih.fold (by omega)

/-- With at least one frame, the accumulators are the sides of a box. -/
theorem DirRegs.Bounds.ordered {r : DirRegs} {n : Nat} (h : r.Bounds n) : r.minl ≤ r.maxr ∧ r.mint ≤ r.maxb := by
  obtain ⟨⟨f, hf, hl⟩, -⟩ := h.left
  obtain ⟨⟨k, hk, ht⟩, -⟩ := h.top
  have hr := h.right.2 ⟨f, hf, rfl⟩
  have hb := h.bottom.2 ⟨k, hk, rfl⟩
  simp only [FrameGeom.right, FrameGeom.bottom] at hl ht hr hb
  omega

end Sys2Proof.Machine

open Sys2Proof Sys2Proof.Machine

/-- Settles O39: `FGEOM` is the run of reads of a frame header, then the two tests on the record, the box and its fold. -/
theorem fgeomReads : Obligations.FgeomReads := by
  intro s hwidths wb pw ph px py po pc pb fw fh f
  have hend : s.eng.tr.main.pos + codeLen (.fhdr wb) = pb + 1 := by
    simp only [codeLen, pb, pc, po, py, px, ph, pw]
    omega
  let h : FhdrFields := s.fhdrAt wb s.eng.tr.main.pos
  have hw : h.width.toNat = fw := s.toNat_ofNat_bitsAt _ (hwidths 1)
  have hh : h.height.toNat = fh := s.toNat_ofNat_bitsAt _ (hwidths 2)
  have hbu : h.bottomup = if s.ibit pb = 1 then 1 else 0 := s.ofNat_one_bitsAt pb
  have hdown : s.ibit pb = 0 → h.bottomup = 0 := fun h0 => by rw [hbu, h0]; rfl
  refine ⟨fun hpast => engRaises_of_run rfl (fgeomBody_past (hend ▸ hpast)), fun hin hup => ?_, fun hin hup hempty => ?_,
    fun hin hup hw₁ hh₁ => ?_⟩
  · exact engRaises_of_run rfl (fgeomBody_refuses (hend ▸ hin) (frameChecks_bottomUp (hbu.trans (if_pos hup))))
  · rw [← hw, ← hh] at hempty
    exact engRaises_of_run rfl (fgeomBody_refuses (hend ▸ hin) (frameChecks_empty (hdown hup) hempty))
  · rw [← hw] at hw₁
    rw [← hh] at hh₁
    have hrun := fgeomBody_adds (n := s.front.nframes) (hend ▸ hin) (frameChecks_pass (hdown hup) hw₁ hh₁)
    refine ⟨_, runEng_ok hrun, rfl, ?_⟩
    simp only [Engine.nextFrame_regs, Engine.took_regs, f, DirRegs.frame_addFrame_self]
    refine ⟨hw, hh, s.toInt_ofInt_bitsAt _ (hwidths 3), s.toInt_ofInt_bitsAt _ (hwidths 4),
      s.toNat_ofNat_bitsAt _ (hwidths 5), s.toNat_ofNat_bitsAt _ (hwidths 6), hdown hup, rfl, ?_, fun k hk => ?_, ?_,
      DirRegs.addFrame_rest _ _ _, ?_, Engine.took_nextFrame_rest _ _ _ _ _, walksFrames_nextFrame phDbox rfl rfl⟩
    · rw [← hh]
      rfl
    · exact (DirRegs.frame_addFrame _ _ _ k).trans (if_neg hk)
    · rw [← hw, ← hh]
      exact DirRegs.addFrame_accumulators _ _ _
    · rw [Engine.nextFrame_tr, ← hend, Nat.add_sub_cancel_left]
      rfl

/-- Settles O40: the step fixes the box, then tests its area. -/
theorem dboxFixesBox : Obligations.DboxFixesBox := by
  intro s r hlr htb
  refine ⟨fun hcap => ⟨_, runEng_ok (dboxBody_fits hcap), rfl, rfl, ?_, ?_⟩, fun m hm hlt => ?_⟩
  · exact Int.toNat_of_nonneg (Int.sub_nonneg_of_le hlr)
  · exact Int.toNat_of_nonneg (Int.sub_nonneg_of_le htb)
  · exact engRaises_of_run rfl (dboxBody_raises hm hlt)

/-- Settles O41: the folds keep the bounds, so the box fixed from them is the union. -/
theorem boxIsUnion : Obligations.BoxIsUnion := by
  intro r₀ n hn
  have hbounds := r₀.bounds_foldl hn
  generalize (List.range n).foldl DirRegs.fold r₀ = r at hbounds
  obtain ⟨hlr, htb⟩ := hbounds.ordered
  have hright : r.minl + ((r.maxr - r.minl).toNat : Int) = r.maxr := by omega
  have hbottom : r.mint + ((r.maxb - r.mint).toNat : Int) = r.maxb := by omega
  simp only [DirRegs.setDirBox_dl, DirRegs.setDirBox_dt, DirRegs.setDirBox_dw, DirRegs.setDirBox_dh, hright, hbottom]
  refine ⟨fun f hf => ?_, hbounds.left.1, hbounds.top.1, hbounds.right.1, hbounds.bottom.1⟩
  have hmem {x : Nat → Int} : x f ∈ x '' Set.Iio n := ⟨f, hf, rfl⟩
  exact ⟨hbounds.left.2 hmem, hbounds.right.2 hmem, hbounds.top.2 hmem, hbounds.bottom.2 hmem⟩
end

section
/-!
PROOFS. The CellGrid builder (44_cellgrid.md): both tilings as runs of regular cells with one last cell, the cells laid out
row-major, the two steps, and the visits of a frame inside its direction's grid.
-/

namespace Sys2Proof.Machine

/-! ### A run of regular cells -/

/-- `n` cells of extent 4 and a last one: a whole direction axis, and a frame axis after its first cell
(44_cellgrid.md R207, R210). -/
def regularCells (n last : Nat) : List Nat := List.replicate n 4 ++ [last]

section
variable {n last i x : Nat}

@[simp] theorem regularCells_length : (regularCells n last).length = n + 1 := by
  simp [regularCells]

@[simp] theorem regularCells_sum : (regularCells n last).sum = 4 * n + last := by
  simp [regularCells, Nat.mul_comm]

theorem regularCells_sum_take (h : i ≤ n) : ((regularCells n last).take i).sum = 4 * i := by
  rw [regularCells, List.take_append_of_le_length (by simpa using h)]
  simp [Nat.mul_comm, h]

theorem regularCells_getD (h : i ≤ n) : (regularCells n last).getD i 0 = if i < n then 4 else last := by
  split
  next hlt => rw [regularCells, List.getD_append _ _ _ _ (by simpa using hlt), List.getD_replicate _ hlt]
  next hge =>
    obtain rfl : i = n := by omega
    simp [regularCells]

theorem mem_regularCells (h : x ∈ regularCells n last) : x = 4 ∨ x = last := by
  simp only [regularCells, List.mem_append, List.mem_replicate, List.mem_singleton] at h
  exact h.imp_left And.right

end

/-! ### The tilings -/

theorem dtile_eq {E : Nat} (hE : 1 ≤ E) : dtile E = regularCells ((E - 1) / 4) ((E - 1) % 4 + 1) := by
  have hlast : E - 4 * ((E - 1) / 4) = (E - 1) % 4 + 1 := by omega
  simp only [dtile, regularCells, Nat.add_sub_cancel_left, hlast]

theorem dtile_length (E : Nat) : (dtile E).length = 1 + (E - 1) / 4 := by
  simp [dtile, Nat.add_comm]

theorem dtile_sum_take {E i : Nat} (hE : 1 ≤ E) (hi : i < (dtile E).length) : ((dtile E).take i).sum = 4 * i := by
  rw [dtile_length] at hi
  rw [dtile_eq hE, regularCells_sum_take (by omega)]

/-- A frame axis that its first column covers, but for at most one pixel, has one cell. -/
theorem ftile_one {E o : Nat} (h : E ≤ 4 - o % 4 + 1) : ftile E o = [E] := if_pos h

/-- R210's count and its decrement as one formula. -/
theorem ftileCount_eq {t : Nat} (ht : 1 ≤ t) : ftileCount t = (t - 1) / 4 + 2 := by
  simp only [ftileCount]
  split <;> omega

/-- Any other frame axis has its first column, then regular cells (44_cellgrid.md R213). -/
theorem ftile_many {E o : Nat} (h : 4 - o % 4 + 1 < E) :
    ftile E o = (4 - o % 4) :: regularCells ((E - (4 - o % 4) - 2) / 4) ((E - (4 - o % 4) - 2) % 4 + 2) := by
  have hcount : ftileCount (E - (4 - o % 4) - 1) - 2 = (E - (4 - o % 4) - 2) / 4 := by
    rw [ftileCount_eq (by omega)]
    omega
  have hlast : E - (4 - o % 4) - 4 * ((E - (4 - o % 4) - 2) / 4) = (E - (4 - o % 4) - 2) % 4 + 2 := by omega
  simp only [ftile, if_neg (Nat.not_le.2 h), regularCells, hcount, hlast]

theorem ftile_length_eq_one {E o : Nat} : (ftile E o).length = 1 ↔ E ≤ 4 - o % 4 + 1 := by
  rcases Nat.lt_or_ge (4 - o % 4 + 1) E with h | h
  · rw [ftile_many h, List.length_cons, regularCells_length]
    omega
  · rw [ftile_one h]
    exact iff_of_true rfl h

theorem ftile_sum (E o : Nat) : (ftile E o).sum = E := by
  rcases Nat.lt_or_ge (4 - o % 4 + 1) E with h | h
  · rw [ftile_many h, List.sum_cons, regularCells_sum]
    omega
  · rw [ftile_one h, List.sum_singleton]

theorem mem_ftile {E o x : Nat} (hE : 1 ≤ E) (hx : x ∈ ftile E o) : 1 ≤ x ∧ x ≤ 5 := by
  rcases Nat.lt_or_ge (4 - o % 4 + 1) E with h | h
  · rw [ftile_many h] at hx
    rcases List.mem_cons.1 hx with rfl | hx
    · omega
    · rcases mem_regularCells hx with rfl | rfl <;> omega
  · rw [ftile_one h, List.mem_singleton] at hx
    omega

/-- Where a frame cell after the first starts, from the frame's own side. -/
theorem ftile_sum_take {E o i : Nat} (hi : 1 ≤ i) (hlen : i < (ftile E o).length) :
    ((ftile E o).take i).sum = 4 - o % 4 + 4 * (i - 1) := by
  rcases Nat.lt_or_ge (4 - o % 4 + 1) E with h | h
  · obtain ⟨j, rfl⟩ : ∃ j, i = j + 1 := ⟨i - 1, by omega⟩
    rw [ftile_many h, List.length_cons, regularCells_length] at hlen
    rw [ftile_many h, List.take_succ_cons, List.sum_cons, regularCells_sum_take (by omega), Nat.add_sub_cancel]
  · rw [ftile_one h, List.length_singleton] at hlen
    omega

/-! ### Cells laid out row-major -/

section
variable (h y : Nat)

@[simp] theorem gridRow_length : ∀ (ws : List Nat) (x : Nat), (gridRow h y ws x).length = ws.length
  | [], _ => rfl
  | w :: ws, x => congrArg (· + 1) (gridRow_length ws (x + w))

theorem fileRead_gridRow (d : CellGeom) : ∀ (ws : List Nat) (x q : Nat), q < ws.length →
    fileRead d (gridRow h y ws x) q = { w := ws.getD q 0, h := h, x := x + (ws.take q).sum, y := y }
  | w :: ws, x, 0, _ => rfl
  | w :: ws, x, q + 1, hq => by
    rw [List.take_succ_cons, List.sum_cons, ← Nat.add_assoc]
    exact fileRead_gridRow d ws (x + w) q (Nat.lt_of_succ_lt_succ hq)

end

/-- Cell `q + r * columns` is the one in column `q` and row `r` (44_cellgrid.md R206, R209). -/
theorem fileRead_gridCells (d : CellGeom) (cw : List Nat) (x q : Nat) (hq : q < cw.length) :
    ∀ (hs : List Nat) (y r : Nat), r < hs.length → fileRead d (gridCells cw x hs y) (q + r * cw.length) =
      { w := cw.getD q 0, h := hs.getD r 0, x := x + (cw.take q).sum, y := y + (hs.take r).sum }
  | h :: hs, y, 0, _ => by
    rw [Nat.zero_mul, Nat.add_zero]
    exact (List.getD_append _ _ d q (by rwa [gridRow_length])).trans (fileRead_gridRow h y d cw x q hq)
  | h :: hs, y, r + 1, hr => by
    rw [List.take_succ_cons, List.sum_cons, ← Nat.add_assoc y, Nat.succ_mul, ← Nat.add_assoc q]
    refine (List.getD_append_right _ _ d _ (by rw [gridRow_length]; omega)).trans ?_
    rw [gridRow_length, Nat.add_sub_cancel]
    exact fileRead_gridCells d cw x q hq hs (y + h) r (Nat.lt_of_succ_lt_succ hr)

theorem fileRead_replicate {α : Type} (d : α) (n i : Nat) : fileRead d (List.replicate n d) i = d := by
  by_cases h : i < n <;> simp [fileRead, List.getD, h]

/-! ### `DGRID` -/

/-- The engine after `DGRID`: the grid, no occupant, `FGRID` of frame 0 next (44_cellgrid.md R206). -/
def Engine.gridBuilt (e : Engine) : Engine :=
  { e with
    regs := { e.regs.setGridCounts with dcell := gridCells (dtile e.regs.dw) 0 (dtile e.regs.dh) 0 }
    tr.occ := List.replicate ((dtile e.regs.dw).length * (dtile e.regs.dh).length) none
    phase := phFgrid
    frm := 0 }

section
variable {cap : Option Nat} {e : Engine}

theorem dgridBody_fits (h : withinCap cap ((dtile e.regs.dw).length * (dtile e.regs.dh).length)) :
    dgridBody cap e = .ok () e.gridBuilt := by
  rw [dgridBody, bind_ok (upd_run _ e), bind_ok (get_run _), DirRegs.setGridCounts_hcc, DirRegs.setGridCounts_vcc,
    exceeds_eq_false h]
  rfl

theorem dgridBody_raises {m : Nat} (hm : cap = some m) (h : m < (dtile e.regs.dw).length * (dtile e.regs.dh).length) :
    ∃ g, dgridBody cap e = .error .capDcells g ∧ g.dir = e.dir := by
  refine ⟨{ e with regs := e.regs.setGridCounts }, ?_, rfl⟩
  rw [dgridBody, bind_ok (upd_run _ e), bind_ok (get_run _), DirRegs.setGridCounts_hcc, DirRegs.setGridCounts_vcc,
    exceeds_iff.2 ⟨m, hm, h⟩]
  rfl

end

/-! ### `FGRID` -/

/-- The counts written leave the box and the frame records, which the tilings read. -/
@[simp] theorem DirRegs.frameCols_setFrameCounts (r : DirRegs) (f k : Nat) :
    (r.setFrameCounts f).frameCols k = r.frameCols k := rfl

@[simp] theorem DirRegs.frameRows_setFrameCounts (r : DirRegs) (f k : Nat) :
    (r.setFrameCounts f).frameRows k = r.frameRows k := rfl

/-- The registers with frame `f`'s grid (44_cellgrid.md R209). -/
def DirRegs.buildFrame (r : DirRegs) (f : Nat) : DirRegs := (r.setFrameCounts f).setFrameCells f

theorem DirRegs.fhcc_buildFrame (r : DirRegs) (f k : Nat) :
    fileRead 0 (r.buildFrame f).fhcc k = if k = f then (r.frameCols f).length else fileRead 0 r.fhcc k :=
  fileRead_fileWrite 0 r.fhcc f _ k

theorem DirRegs.fvcc_buildFrame (r : DirRegs) (f k : Nat) :
    fileRead 0 (r.buildFrame f).fvcc k = if k = f then (r.frameRows f).length else fileRead 0 r.fvcc k :=
  fileRead_fileWrite 0 r.fvcc f _ k

theorem DirRegs.fcell_buildFrame (r : DirRegs) (f k : Nat) :
    fileRead [] (r.buildFrame f).fcell k =
      if k = f then gridCells (r.frameCols f) (r.offX f) (r.frameRows f) (r.offY f) else fileRead [] r.fcell k :=
  fileRead_fileWrite [] r.fcell f _ k

theorem DirRegs.cell_buildFrame (r : DirRegs) (f q c : Nat) (hq : q < (r.frameCols f).length)
    (hc : c < (r.frameRows f).length) : (r.buildFrame f).cell f (q + c * (r.frameCols f).length) =
      { w := (r.frameCols f).getD q 0, h := (r.frameRows f).getD c 0,
        x := r.offX f + ((r.frameCols f).take q).sum, y := r.offY f + ((r.frameRows f).take c).sum } := by
  rw [DirRegs.cell, DirRegs.fcell_buildFrame, if_pos rfl]
  exact fileRead_gridCells zeroCell _ _ q hq _ _ c hc

section
variable {n : BitVec 32} {done : Engine → Engine} {e : Engine}

theorem Engine.nextFrame_more (h : (e.frm.toNat : Int) + 1 < n.toInt) : e.nextFrame n done = { e with frm := e.frm + 1 } :=
  if_pos (decide_eq_true h)

theorem Engine.nextFrame_last (h : ¬ (e.frm.toNat : Int) + 1 < n.toInt) : e.nextFrame n done = done e :=
  if_neg fun hmore => h (of_decide_eq_true hmore)

end

/-- The engine after `FGRID`: the frame's grid, then the step order (44_cellgrid.md R209). -/
def Engine.frameBuilt (n : BitVec 32) (e : Engine) : Engine :=
  Engine.nextFrame n (Engine.firstCell phRcell) { e with regs := e.regs.buildFrame e.frm.toNat }

theorem Engine.frameBuilt_more {n : BitVec 32} {e : Engine} (h : (e.frm.toNat : Int) + 1 < n.toInt) :
    e.frameBuilt n = { e with regs := e.regs.buildFrame e.frm.toNat, frm := e.frm + 1 } :=
  Engine.nextFrame_more h

theorem Engine.frameBuilt_last {n : BitVec 32} {e : Engine} (h : ¬ (e.frm.toNat : Int) + 1 < n.toInt) :
    e.frameBuilt n = Engine.firstCell phRcell { e with regs := e.regs.buildFrame e.frm.toNat } :=
  Engine.nextFrame_last h

/-- The step order leaves the registers, and of the rest moves the phase and the visit's counters only. -/
theorem Engine.frameBuilt_rest (n : BitVec 32) (e : Engine) : e.frameBuilt n =
    { e with
      regs := e.regs.buildFrame e.frm.toNat, phase := (e.frameBuilt n).phase, frm := (e.frameBuilt n).frm,
      cy := (e.frameBuilt n).cy, cx := (e.frameBuilt n).cx } := by
  by_cases h : (e.frm.toNat : Int) + 1 < n.toInt
  · rw [Engine.frameBuilt_more h]
  · rw [Engine.frameBuilt_last h]
    rfl

@[simp] theorem Engine.frameBuilt_regs (n : BitVec 32) (e : Engine) :
    (e.frameBuilt n).regs = e.regs.buildFrame e.frm.toNat := by rw [Engine.frameBuilt_rest]

/-- `FGRID` counts its frames as `FGEOM` does; they differ in what follows the last one. -/
theorem walksFrames_frameBuilt (s : State) : WalksFrames s { s with eng := s.eng.frameBuilt s.front.nframes } phRcell := by
  have hwalk := walksFrames_nextFrame (s := s) (e := s.eng) phRcell rfl rfl
  by_cases h : (s.eng.frm.toNat : Int) + 1 < s.front.nframes.toInt
  · rw [Engine.nextFrame_more h] at hwalk
    rwa [Engine.frameBuilt_more h]
  · rw [WalksFrames, if_neg h, Engine.frameBuilt_last h]
    rfl

section
variable {cap : Option Nat} {n : BitVec 32} {e : Engine}

theorem fgridBody_fits
    (h : withinCap cap ((e.regs.frameCols e.frm.toNat).length * (e.regs.frameRows e.frm.toNat).length)) :
    fgridBody cap n e = .ok () (e.frameBuilt n) := by
  rw [fgridBody, bind_ok (upd_run _ e), bind_ok (get_run _)]
  simp only [DirRegs.frameCols_setFrameCounts, DirRegs.frameRows_setFrameCounts, exceeds_eq_false h]
  rfl

theorem fgridBody_raises {m : Nat} (hm : cap = some m)
    (h : m < (e.regs.frameCols e.frm.toNat).length * (e.regs.frameRows e.frm.toNat).length) :
    ∃ g, fgridBody cap n e = .error .capFcells g ∧ g.dir = e.dir := by
  refine ⟨{ e with regs := e.regs.setFrameCounts e.frm.toNat }, ?_, rfl⟩
  rw [fgridBody, bind_ok (upd_run _ e), bind_ok (get_run _)]
  simp only [DirRegs.frameCols_setFrameCounts, DirRegs.frameRows_setFrameCounts, exceeds_iff.2 ⟨m, hm, h⟩]
  rfl

end

/-! ### The visits of a frame -/

section
variable {E o c : Nat}

/-- A frame cell's first pixel lies in the direction cell it is mapped to (44_cellgrid.md R215). -/
theorem ftile_start_div (hc : c < (ftile E o).length) : (o + ((ftile E o).take c).sum) / 4 = o / 4 + c := by
  rcases Nat.eq_zero_or_pos c with rfl | hpos
  · rfl
  · rw [ftile_sum_take hpos hc]
    omega

/-- A frame cell ends inside the frame. -/
theorem ftile_end_le (hc : c < (ftile E o).length) : ((ftile E o).take c).sum + (ftile E o).getD c 0 ≤ E := by
  have hend := List.sum_take_succ (ftile E o) c hc
  have hdrop := List.sum_take_add_sum_drop (ftile E o) (c + 1)
  rw [ftile_sum] at hdrop
  rw [List.getD_eq_getElem _ _ hc]
  omega

/-- The direction cell a frame cell is mapped to is one of the axis (44_cellgrid.md R215). -/
theorem ftile_column_lt {D : Nat} (hE : 1 ≤ E) (hin : o + E ≤ D) (hc : c < (ftile E o).length) :
    o / 4 + c < (dtile D).length := by
  have hstart := ftile_start_div hc
  have hend := ftile_end_le hc
  have hsize : 1 ≤ (ftile E o).getD c 0 := by
    rw [List.getD_eq_getElem _ _ hc]
    exact (mem_ftile hE (List.getElem_mem hc)).1
  rw [dtile_length]
  omega

end

end Sys2Proof.Machine

open Sys2Proof Sys2Proof.Machine

/-- Settles O42: a direction axis is a run of regular cells. -/
theorem directionTiling : Obligations.DirectionTiling := by
  intro E hE
  have hlen := dtile_length E
  refine ⟨hlen, ?_, fun i hi => ⟨dtile_sum_take hE hi, ?_⟩⟩
  · rw [dtile_eq hE, regularCells_sum]
    omega
  · rw [dtile_eq hE, regularCells_getD (by omega), regularCells_length]
    simp only [Nat.add_lt_add_iff_right]

/-- Settles O43: one cell, or the first column and a run of regular cells that starts on the direction's grid. -/
theorem frameTiling : Obligations.FrameTiling := by
  intro E o hE first l
  have hone : l.length = 1 ↔ E ≤ first + 1 := ftile_length_eq_one
  refine ⟨ftile_sum E o, fun x => mem_ftile hE, hone, fun h => ftile_one (hone.1 h), fun hlen => ?_,
    fun i hi hlen => ⟨ftile_sum_take hi hlen, ?_⟩⟩
  · have hl : l = first :: regularCells ((E - first - 2) / 4) ((E - first - 2) % 4 + 2) := ftile_many (by omega)
    rw [hl, List.length_cons, regularCells_length]
    refine ⟨by omega, rfl, fun i hi hlt => ?_, ?_⟩
    · obtain ⟨j, rfl⟩ : ∃ j, i = j + 1 := ⟨i - 1, by omega⟩
      rw [List.getD_cons_succ, regularCells_getD (by omega), if_pos (by omega)]
    · rw [Nat.add_sub_cancel, List.getD_cons_succ, regularCells_getD le_rfl, if_neg (Nat.lt_irrefl _)]
  · have hstart : (l.take i).sum = 4 - o % 4 + 4 * (i - 1) := ftile_sum_take hi hlen
    omega

/-- Settles O44: the counts decide the capacity test, then the grid is laid out with cell `(q, r)` at `(4q, 4r)`. -/
theorem dgridBuilds : Obligations.DgridBuilds := by
  intro s hw hh cw ch
  refine ⟨fun hcap => ⟨_, runEng_ok (dgridBody_fits hcap), rfl, fun q r hq hr => ?_, fun k _ => ?_⟩,
    fun m hm hlt => engRaises_of_run rfl (dgridBody_raises hm hlt)⟩
  · have hcell := fileRead_gridCells zeroCell cw 0 q hq ch 0 r hr
    rwa [dtile_sum_take hw hq, dtile_sum_take hh hr, Nat.zero_add, Nat.zero_add] at hcell
  · exact fileRead_replicate none _ k

/-- Settles O45: the grid of frame `FRM` is written between the capacity test and the step order. -/
theorem fgridBuilds : Obligations.FgridBuilds := by
  intro s r f ox oy cw ch _ _ _ _
  refine ⟨fun hcap => ⟨_, runEng_ok (fgridBody_fits hcap), ?_⟩, fun m hm hlt => engRaises_of_run rfl (fgridBody_raises hm hlt)⟩
  simp only [Engine.frameBuilt_regs]
  refine ⟨congrArg (fun e => { s with eng := e }) (s.eng.frameBuilt_rest _), r.fhcc_buildFrame f, r.fvcc_buildFrame f,
    fun k hk => (r.fcell_buildFrame f k).trans (if_neg hk), r.cell_buildFrame f, walksFrames_frameBuilt s, fun h => ?_,
    fun h => ?_⟩
  · rw [Engine.frameBuilt_more h]
    exact ⟨rfl, rfl⟩
  · rw [Engine.frameBuilt_last h]
    exact ⟨rfl, rfl, rfl⟩

/-- Settles O46: column and row stay below the counts, so `K` is a row-major index of the direction's grid. -/
theorem visitsStayInGrid : Obligations.VisitsStayInGrid := by
  intro DW DH W H ox oy hW hH hinX hinY cw ch hcc vcc k
  have hcol {cx : Nat} (h : cx < cw.length) : ox / 4 + cx < hcc := ftile_column_lt hW hinX h
  have hrow {cy : Nat} (h : cy < ch.length) : oy / 4 + cy < vcc := ftile_column_lt hH hinY h
  refine ⟨fun cx cy hx hy => ⟨?_, ftile_start_div hx, ftile_start_div hy, ?_, ?_⟩, fun cx cy cx' cy' hx _ hx' _ hk => ?_⟩
  · have hindex := Nat.add_mul_lt_mul_of_lt_of_lt (hcol hx) (hrow hy)
    rwa [Nat.mul_comm hcc] at hindex
  · exact (Nat.add_assoc ox _ _).trans_le ((Nat.add_le_add_left (ftile_end_le hx) ox).trans hinX)
  · exact (Nat.add_assoc oy _ _).trans_le ((Nat.add_le_add_left (ftile_end_le hy) oy).trans hinY)
  · obtain ⟨hcols, hrows⟩ := pixAddr_inj (hcol hx) (hcol hx') hk
    exact ⟨Nat.add_left_cancel hcols, Nat.add_left_cancel hrows⟩
end

section
/-!
PROOFS. The values of a fresh cell (45_reconstructor.md R231 to R236): each read of a visit moves one cursor, a nibble chain is
read to its end, and the value loop accepts exactly the values the statements list.
-/

namespace Sys2Proof.Machine

/-! ### Reads of a visit -/

/-- The engine with cursor `c` moved by `n` bits and the working registers `w`: what a read of a visit leaves. -/
def Engine.moved (e : Engine) (c : EngCursor) (n : Nat) (w : Work) : Engine :=
  { e with tr := { e.tr.setCur c ((e.tr.cur c).advance n) with work := w } }

section
variable (e : Engine) (c : EngCursor) (n k : Nat) (w w' : Work)

@[simp] theorem Engine.moved_work : (e.moved c n w).tr.work = w := rfl

@[simp] theorem Engine.moved_pos : ((e.moved c n w).tr.cur c).pos = (e.tr.cur c).pos + n := by cases c <;> rfl

@[simp] theorem Engine.moved_main_pos : (e.moved .main n w).tr.main.pos = e.tr.main.pos + n := rfl

@[simp] theorem Engine.moved_zero : e.moved c 0 e.tr.work = e := by cases c <;> rfl

@[simp] theorem Engine.moved_moved : (e.moved c n w).moved c k w' = e.moved c (n + k) w' := by
  cases c <;> simp only [Engine.moved, Transient.setCur, Transient.cur, Cursor.advance, Nat.add_assoc]

theorem Engine.setCur_eq_moved :
    { e with tr := e.tr.setCur c ((e.tr.cur c).advance n) } = e.moved c n e.tr.work := by cases c <;> rfl

theorem updW_moved (f : Work → Work) : updW f (e.moved c n w) = .ok () (e.moved c n (f w)) := rfl

end

section
variable {s : State} {e : Engine} {c : EngCursor} {n : Nat}

theorem rd_inside (h : (e.tr.cur c).pos + n ≤ s.lenBits) :
    rd s.ibuf c n e = .ok (s.bitsAt (e.tr.cur c).pos n) (e.moved c n e.tr.work) := by
  rw [rd_ok h, Engine.setCur_eq_moved, State.field_eq_bitsAt]

/-- A one-bit flag, and one that is not there and counts as 0 (45_reconstructor.md R229, R231). -/
theorem rd_flag {v k : Nat} (hk : k = n)
    (h : (n = 1 ∧ s.bitsAt (e.tr.cur c).pos 1 = v ∧ (e.tr.cur c).pos + 1 ≤ s.lenBits) ∨ (n = 0 ∧ v = 0)) :
    rd s.ibuf c k e = .ok v (e.moved c n e.tr.work) := by
  subst hk
  obtain ⟨rfl, hv, hin⟩ | ⟨rfl, rfl⟩ := h
  · rw [rd_inside hin, hv]
  · rw [rd_zero, Engine.moved_zero]

end

theorem active_iff (n : BitVec 20) : active n = true ↔ n ≠ 0 := by
  rw [active, decide_eq_true_iff, Nat.pos_iff_ne_zero, ← BitVec.toNat_ne_iff_ne]
  rfl

/-! ### Nibble chains -/

/-- `j` nibbles 15 and then a nibble `d` below 15 stand at bit `p` (30_encoding.md R112). -/
def State.ChainAt (s : State) (p j d : Nat) : Prop :=
  d < 15 ∧ (∀ i, i < j → s.bitsAt (p + 4 * i) 4 = 15) ∧ s.bitsAt (p + 4 * j) 4 = d

theorem State.chainAt_zero {s : State} {p d : Nat} : s.ChainAt p 0 d ↔ d < 15 ∧ s.bitsAt p 4 = d := by
  simp [State.ChainAt]

theorem State.chainAt_succ {s : State} {p j d : Nat} :
    s.ChainAt p (j + 1) d ↔ s.bitsAt p 4 = 15 ∧ s.ChainAt (p + 4) j d := by
  have hnib (i : Nat) : p + 4 * (i + 1) = p + 4 + 4 * i := by omega
  simp only [State.ChainAt, Nat.forall_lt_succ_left, hnib, Nat.mul_zero, Nat.add_zero]
  tauto

/-- What the next nibble of a chain is added to (45_reconstructor.md R233). -/
def Work.chainBase (w : Work) : BitVec 32 := if w.chain then w.v else w.lastpix

/-- The registers after a chain whose nibbles sum to `n`. -/
def Work.endChain (w : Work) (n : Nat) : Work := { w with v := w.chainBase + BitVec.ofNat 32 n, chain := false }

theorem Work.addNibble_last (w : Work) {d : Nat} (hd : d < 15) : w.addNibble (BitVec.ofNat 4 d) = w.endChain d := by
  have hne : BitVec.ofNat 4 d ≠ 15 := by bv_omega
  have hset : (BitVec.ofNat 4 d).setWidth 32 = BitVec.ofNat 32 d := by bv_omega
  rw [Work.addNibble, hset, decide_eq_false hne]
  rfl

theorem Work.endChain_addNibble (w : Work) (n : Nat) : (w.addNibble 15).endChain n = w.endChain (15 + n) := by
  have hbase : (w.addNibble 15).chainBase = w.chainBase + 15 := rfl
  rw [Work.endChain, hbase, BitVec.add_assoc, Work.endChain, BitVec.ofNat_add]
  rfl

section
variable {s : State} {e : Engine}

theorem chainLoop_past {k : Nat} (h : s.lenBits < e.tr.main.pos + 4) :
    chainLoop s.ibuf (k + 1) e = .error .outOfRange e := bind_error (rd_error (c := .main) (by decide) h)

theorem chainLoop_nibble {k : Nat} (h : e.tr.main.pos + 4 ≤ s.lenBits) : chainLoop s.ibuf (k + 1) e =
    (if s.bitsAt e.tr.main.pos 4 = 15 then chainLoop s.ibuf k else pure () : EngM Unit)
      (e.moved .main 4 (e.tr.work.addNibble (BitVec.ofNat 4 (s.bitsAt e.tr.main.pos 4)))) := by
  rw [chainLoop, bind_ok (rd_inside (c := .main) h), bind_ok (updW_run _ _)]
  rfl

theorem chainLoop_open {k : Nat} (h : e.tr.main.pos + 4 ≤ s.lenBits) (h15 : s.bitsAt e.tr.main.pos 4 = 15) :
    chainLoop s.ibuf (k + 1) e = chainLoop s.ibuf k (e.moved .main 4 (e.tr.work.addNibble 15)) := by
  rw [chainLoop_nibble h, if_pos h15, h15]
  rfl

theorem chainLoop_last {k : Nat} (h : e.tr.main.pos + 4 ≤ s.lenBits) (hd : s.bitsAt e.tr.main.pos 4 < 15) :
    chainLoop s.ibuf (k + 1) e = .ok () (e.moved .main 4 (e.tr.work.endChain (s.bitsAt e.tr.main.pos 4))) := by
  rw [chainLoop_nibble h, if_neg (Nat.ne_of_lt hd), Work.addNibble_last _ hd, pure_run]

/-- A chain after its first nibble, a 15. -/
theorem Engine.moved_endChain (j d : Nat) :
    (e.moved .main 4 (e.tr.work.addNibble 15)).moved .main (4 * (j + 1)) ((e.tr.work.addNibble 15).endChain (15 * j + d)) =
      e.moved .main (4 * (j + 1 + 1)) (e.tr.work.endChain (15 * (j + 1) + d)) := by
  rw [Engine.moved_moved, Work.endChain_addNibble, Nat.add_comm 4, ← Nat.mul_succ, ← Nat.add_assoc, Nat.add_comm 15,
    ← Nat.mul_succ]

/-- The loop ends exactly on a chain that the buffer holds and the fuel reaches. -/
theorem chainLoop_eq_ok : ∀ (k : Nat) {e e' : Engine}, chainLoop s.ibuf k e = .ok () e' ↔
    ∃ j d, s.ChainAt e.tr.main.pos j d ∧ j < k ∧ e.tr.main.pos + 4 * (j + 1) ≤ s.lenBits ∧
      e' = e.moved .main (4 * (j + 1)) (e.tr.work.endChain (15 * j + d))
  | 0, _, _ => ⟨fun h => (nomatch h), fun ⟨_, _, _, hj, _⟩ => (nomatch hj)⟩
  | k + 1, e, e' => by
    obtain hpast | hin := Nat.lt_or_ge s.lenBits (e.tr.main.pos + 4)
    · rw [chainLoop_past hpast]
      exact ⟨fun h => (nomatch h), fun ⟨j, _, _, _, hend, _⟩ => by omega⟩
    have hlt : s.bitsAt e.tr.main.pos 4 < 16 := s.bitsAt_lt _ 4
    constructor
    · intro h
      by_cases h15 : s.bitsAt e.tr.main.pos 4 = 15
      · rw [chainLoop_open hin h15, chainLoop_eq_ok k] at h
        obtain ⟨j, d, hchain, hj, hend, rfl⟩ := h
        rw [Engine.moved_main_pos] at hchain hend
        exact ⟨j + 1, d, State.chainAt_succ.2 ⟨h15, hchain⟩, by omega, by omega, Engine.moved_endChain j d⟩
      · rw [chainLoop_last hin (by omega)] at h
        cases h
        exact ⟨0, _, State.chainAt_zero.2 ⟨by omega, rfl⟩, by omega, hin, by simp⟩
    · rintro ⟨j, d, hchain, hj, hend, rfl⟩
      cases j with
      | zero =>
        obtain ⟨hd, rfl⟩ := State.chainAt_zero.1 hchain
        simp [chainLoop_last hin hd]
      | succ j =>
        obtain ⟨h15, hchain⟩ := State.chainAt_succ.1 hchain
        rw [chainLoop_open hin h15, chainLoop_eq_ok k, Engine.moved_main_pos]
        exact ⟨j, d, hchain, by omega, by omega, (Engine.moved_endChain j d).symm⟩

end

/-! ### One value -/

/-- The cursor the values are read through, by their encoding type (45_reconstructor.md R232, R233). -/
def valueCursor (raw : Bool) : EngCursor := if raw then .rp else .main

/-- The working registers after a value `x` was read: a raw byte touches none of them. -/
def Work.afterRead (w : Work) (raw : Bool) (x : BitVec 32) : Work := if raw then w else { w with v := x, chain := false }

section
variable {s : State} {raw : Bool} {last p v q : Nat}

theorem valueAt_delta : ValueAt s false last p v q ↔
    ∃ j d, s.ChainAt p j d ∧ v = (last + 15 * j + d) % 2 ^ 32 ∧ q = p + 4 * (j + 1) := by
  simp only [ValueAt, State.ChainAt, Bool.false_eq_true, if_false, and_assoc]

theorem ValueAt.lt (h : ValueAt s raw last p v q) : v < 2 ^ 32 := by
  cases raw with
  | true =>
    obtain ⟨rfl, -⟩ := h
    exact (s.bitsAt_lt p 8).trans (by decide)
  | false =>
    obtain ⟨j, d, -, rfl, -⟩ := valueAt_delta.1 h
    exact Nat.mod_lt _ (by decide)

theorem ValueAt.le (h : ValueAt s raw last p v q) : p ≤ q := by
  cases raw with
  | true =>
    obtain ⟨-, rfl⟩ := h
    exact Nat.le_add_right _ _
  | false =>
    obtain ⟨j, d, -, -, rfl⟩ := valueAt_delta.1 h
    exact Nat.le_add_right _ _

end

section
variable {s : State} {e e' : Engine} {x : BitVec 32}

/-- A chain whose end the buffer holds is shorter than the fuel (log 20). -/
theorem lt_chainFuel {j : Nat} (h : e.tr.main.pos + 4 * (j + 1) ≤ s.lenBits) : j < chainFuel s.ibuf e := by
  change j < (s.lenBits - e.tr.main.pos) / 4 + 1
  omega

theorem readDelta_eq_ok (hc : e.tr.work.chain = false) : readDelta s.ibuf e = .ok x e' ↔
    ∃ v q, ValueAt s false e.tr.work.lastpix.toNat e.tr.main.pos v q ∧ q ≤ s.lenBits ∧ x = BitVec.ofNat 32 v ∧
      e' = e.moved .main (q - e.tr.main.pos) (e.tr.work.afterRead false x) := by
  have hsum (j d : Nat) : e.tr.work.chainBase + BitVec.ofNat 32 (15 * j + d) =
      BitVec.ofNat 32 ((e.tr.work.lastpix.toNat + 15 * j + d) % 2 ^ 32) := by
    apply BitVec.eq_of_toNat_eq
    simp [Work.chainBase, hc, Nat.add_assoc]
  have hend (j d : Nat) : e.tr.work.endChain (15 * j + d) =
      e.tr.work.afterRead false (BitVec.ofNat 32 ((e.tr.work.lastpix.toNat + 15 * j + d) % 2 ^ 32)) := by
    rw [Work.endChain, hsum]
    rfl
  rw [readDelta, bind_ok (get_run e), bind_eq_ok]
  constructor
  · rintro ⟨_, g, hloop, hx⟩
    obtain ⟨j, d, hchain, -, hin, rfl⟩ := (chainLoop_eq_ok _).1 hloop
    cases hx
    refine ⟨_, _, valueAt_delta.2 ⟨j, d, hchain, rfl, rfl⟩, hin, hsum j d, ?_⟩
    rw [Nat.add_sub_cancel_left, hend, ← hsum]
    rfl
  · rintro ⟨v, q, hv, hin, rfl, rfl⟩
    obtain ⟨j, d, hchain, rfl, rfl⟩ := valueAt_delta.1 hv
    refine ⟨(), _, (chainLoop_eq_ok _).2 ⟨j, d, hchain, lt_chainFuel hin, hin, rfl⟩, ?_⟩
    rw [Nat.add_sub_cancel_left, hend]
    rfl

theorem readRaw_eq_ok : (rd s.ibuf .rp 8 >>= fun v => pure (BitVec.ofNat 32 v) : EngM (BitVec 32)) e = .ok x e' ↔
    ∃ v q, ValueAt s true e.tr.work.lastpix.toNat e.tr.rp.pos v q ∧ q ≤ s.lenBits ∧ x = BitVec.ofNat 32 v ∧
      e' = e.moved .rp (q - e.tr.rp.pos) (e.tr.work.afterRead true x) := by
  by_cases hin : e.tr.rp.pos + 8 ≤ s.lenBits
  · rw [bind_ok (rd_inside (c := .rp) hin)]
    constructor
    · intro h
      cases h
      exact ⟨_, _, ⟨rfl, rfl⟩, hin, rfl, by rw [Nat.add_sub_cancel_left]; rfl⟩
    · rintro ⟨v, q, ⟨rfl, rfl⟩, -, rfl, rfl⟩
      rw [Nat.add_sub_cancel_left]
      rfl
  · rw [bind_error (rd_error (c := .rp) (by decide) (not_le.1 hin))]
    exact ⟨fun h => (nomatch h), fun ⟨_, _, ⟨_, hq⟩, hle, _⟩ => absurd (hq ▸ hle) hin⟩

/-- A value is read exactly where the statements' `ValueAt` places one inside the buffer. -/
theorem readValue_eq_ok (raw : Bool) (hc : e.tr.work.chain = false) : readValue s.ibuf (BitVec.ofBool raw) e = .ok x e' ↔
    ∃ v q, ValueAt s raw e.tr.work.lastpix.toNat (e.tr.cur (valueCursor raw)).pos v q ∧ q ≤ s.lenBits ∧
      x = BitVec.ofNat 32 v ∧
      e' = e.moved (valueCursor raw) (q - (e.tr.cur (valueCursor raw)).pos) (e.tr.work.afterRead raw x) := by
  cases raw with
  | true => exact readRaw_eq_ok
  | false => exact readDelta_eq_ok hc

end

/-! ### The value loop -/

section
variable {s : State} {raw : Bool}

theorem ValuesAt.le : ∀ {k last p : Nat} {acc : List Nat} {q : Nat}, ValuesAt s raw k last p acc q → p ≤ q
  | 0, _, _, _, _, h => h.2.ge
  | k + 1, _, _, _, _, ⟨v, r, hv, _, hrest⟩ => by
    split at hrest
    · exact hrest.2 ▸ hv.le
    · obtain ⟨more, -, hmore⟩ := hrest
      exact hv.le.trans hmore.le

/-- The registers with the accepted value `x` (45_reconstructor.md R236). -/
def Work.accept (w : Work) (x : BitVec 32) : Work := { w with lastpix := x, vals := w.vals ++ [x] }

@[simp] theorem Work.afterRead_lastpix (w : Work) (x : BitVec 32) : (w.afterRead raw x).lastpix = w.lastpix := by
  cases raw <;> rfl

@[simp] theorem Work.afterRead_vals (w : Work) (x : BitVec 32) : (w.afterRead raw x).vals = w.vals := by
  cases raw <;> rfl

@[simp] theorem Work.afterRead_mask (w : Work) (x : BitVec 32) : (w.afterRead raw x).mask = w.mask := by
  cases raw <;> rfl

@[simp] theorem Work.afterRead_k (w : Work) (x : BitVec 32) : (w.afterRead raw x).k = w.k := by
  cases raw <;> rfl

@[simp] theorem Work.afterRead_vend (w : Work) (x : BitVec 32) : (w.afterRead raw x).vend = w.vend := by
  cases raw <;> rfl

theorem Work.afterRead_chain {w : Work} {x : BitVec 32} (h : w.chain = false) : (w.afterRead raw x).chain = false := by
  cases raw
  · rfl
  · exact h

variable {e : Engine} {b : Buf} {t : BitVec 1} {k n : Nat} {c : EngCursor} {w : Work} {x : BitVec 32}

/-- A value equal to the accumulator ends the loop (45_reconstructor.md R234). -/
theorem valueLoop_stop (h : readValue b t e = .ok x (e.moved c n w)) (hx : x = w.lastpix) :
    valueLoop b t (k + 1) e = .ok () (e.moved c n { w with vend := true }) := by
  rw [valueLoop, bind_ok h, bind_ok (updW_moved _ _ _ _ _), bind_ok (get_run _), hx, Work.takeValue_stop]
  rfl

/-- Any other value is accepted, and the loop goes on. -/
theorem valueLoop_accept (h : readValue b t e = .ok x (e.moved c n w)) (hx : x ≠ w.lastpix) (hv : w.vend = false) :
    valueLoop b t (k + 1) e = valueLoop b t k (e.moved c n (w.accept x)) := by
  rw [valueLoop, bind_ok h, bind_ok (updW_moved _ _ _ _ _), bind_ok (get_run _), Work.takeValue_accept _ _ hx,
    if_neg (by rw [Engine.moved_work, hv]; decide), Work.accept]

end

/-- The working registers between two values: no chain is open and no terminator was met. -/
structure Work.Ready (w : Work) : Prop where
  chain : w.chain = false
  vend : w.vend = false

theorem Work.Ready.accept {w : Work} (h : w.Ready) (raw : Bool) (x : BitVec 32) : ((w.afterRead raw x).accept x).Ready where
  chain := Work.afterRead_chain h.chain
  vend := (w.afterRead_vend x).trans h.vend

/-- From `w` to `w'` the values `acc` were accepted; the visit and its mask stay. -/
structure Work.Accepts (w w' : Work) (acc : List Nat) : Prop where
  k : w'.k = w.k
  mask : w'.mask = w.mask
  vals : w'.vals.map BitVec.toNat = w.vals.map BitVec.toNat ++ acc

theorem Work.Accepts.cons {w w' : Work} {raw : Bool} {v : Nat} {acc : List Nat} (hv : v < 2 ^ 32)
    (h : ((w.afterRead raw (BitVec.ofNat 32 v)).accept (BitVec.ofNat 32 v)).Accepts w' acc) : w.Accepts w' (v :: acc) where
  k := h.k.trans (w.afterRead_k _)
  mask := h.mask.trans (w.afterRead_mask _)
  vals := by
    rw [h.vals]
    simpa [Work.accept] using hv

theorem ofNat_eq_iff_of_lt {v : Nat} (hv : v < 2 ^ 32) (l : BitVec 32) : BitVec.ofNat 32 v = l ↔ v = l.toNat := by
  rw [BitVec.nat_eq_toNat, and_iff_right hv, eq_comm]

section
variable {s : State} {raw : Bool}

/-- The engine after the value `v`, whose read ended at bit `r`; the working registers are still to be changed by `f`. -/
def Engine.valueRead (e : Engine) (raw : Bool) (v r : Nat) (f : Work → Work) : Engine :=
  e.moved (valueCursor raw) (r - (e.tr.cur (valueCursor raw)).pos) (f (e.tr.work.afterRead raw (BitVec.ofNat 32 v)))

/-- The engine after the accepted value `v`. -/
def Engine.accepted (e : Engine) (raw : Bool) (v r : Nat) : Engine := e.valueRead raw v r fun w => w.accept (BitVec.ofNat 32 v)

section
variable {e : Engine} {v r k : Nat} (hready : e.tr.work.Ready)
  (hv : ValueAt s raw e.tr.work.lastpix.toNat (e.tr.cur (valueCursor raw)).pos v r) (hin : r ≤ s.lenBits)
include hready hv hin

theorem valueLoop_terminator (hlast : v = e.tr.work.lastpix.toNat) :
    valueLoop s.ibuf (BitVec.ofBool raw) (k + 1) e = .ok () (e.valueRead raw v r fun w => { w with vend := true }) :=
  valueLoop_stop ((readValue_eq_ok raw hready.chain).2 ⟨v, r, hv, hin, rfl, rfl⟩)
    (by rw [Work.afterRead_lastpix, ofNat_eq_iff_of_lt hv.lt, hlast])

theorem valueLoop_accepted (hlast : v ≠ e.tr.work.lastpix.toNat) :
    valueLoop s.ibuf (BitVec.ofBool raw) (k + 1) e = valueLoop s.ibuf (BitVec.ofBool raw) k (e.accepted raw v r) :=
  valueLoop_accept ((readValue_eq_ok raw hready.chain).2 ⟨v, r, hv, hin, rfl, rfl⟩)
    (by rwa [Work.afterRead_lastpix, ne_eq, ofNat_eq_iff_of_lt hv.lt]) ((Work.afterRead_vend _ _).trans hready.vend)

end

/-- What is left to be read after an accepted value. -/
theorem valuesAt_accepted {e : Engine} {v r k q : Nat} {acc : List Nat} (hv : v < 2 ^ 32)
    (hr : (e.tr.cur (valueCursor raw)).pos ≤ r) :
    ValuesAt s raw k (e.accepted raw v r).tr.work.lastpix.toNat ((e.accepted raw v r).tr.cur (valueCursor raw)).pos acc q ↔
      ValuesAt s raw k v r acc q := by
  have hlast : (e.accepted raw v r).tr.work.lastpix.toNat = v := Nat.mod_eq_of_lt hv
  rw [hlast, Engine.accepted, Engine.valueRead, Engine.moved_pos, Nat.add_sub_cancel' hr]

/-- Values that the buffer holds are accepted, and the cursor ends behind the last read. -/
theorem valueLoop_of_valuesAt : ∀ (k : Nat) {e : Engine} {acc : List Nat} {q : Nat}, e.tr.work.Ready →
    ValuesAt s raw k e.tr.work.lastpix.toNat (e.tr.cur (valueCursor raw)).pos acc q →
    ∃ w, valueLoop s.ibuf (BitVec.ofBool raw) k e =
        .ok () (e.moved (valueCursor raw) (q - (e.tr.cur (valueCursor raw)).pos) w) ∧ e.tr.work.Accepts w acc
  | 0, e, _, _, _, ⟨hacc, hq⟩ => by
    subst hacc hq
    refine ⟨e.tr.work, ?_, rfl, rfl, (List.append_nil _).symm⟩
    rw [Nat.sub_self, Engine.moved_zero]
    rfl
  | k + 1, e, acc, q, hready, ⟨v, r, hv, hin, hrest⟩ => by
    by_cases hlast : v = e.tr.work.lastpix.toNat
    · obtain ⟨rfl, rfl⟩ := (if_pos hlast).mp hrest
      exact ⟨_, valueLoop_terminator hready hv hin hlast, Work.afterRead_k _ _, Work.afterRead_mask _ _, by simp⟩
    · obtain ⟨more, rfl, hmore⟩ := (if_neg hlast).mp hrest
      obtain ⟨w, hloop, haccepts⟩ := valueLoop_of_valuesAt k (hready.accept raw _) ((valuesAt_accepted hv.lt hv.le).2 hmore)
      refine ⟨w, ?_, haccepts.cons hv.lt⟩
      rw [valueLoop_accepted hready hv hin hlast, hloop, Engine.accepted, Engine.valueRead, Engine.moved_moved, Engine.moved_pos,
        Nat.add_sub_cancel' hv.le, Nat.add_comm, Nat.sub_add_sub_cancel hmore.le hv.le]

/-- The loop ends only on values that the buffer holds. -/
theorem valuesAt_of_valueLoop : ∀ (k : Nat) {e e' : Engine}, e.tr.work.Ready →
    valueLoop s.ibuf (BitVec.ofBool raw) k e = .ok () e' →
    ∃ acc q, ValuesAt s raw k e.tr.work.lastpix.toNat (e.tr.cur (valueCursor raw)).pos acc q
  | 0, _, _, _, _ => ⟨[], _, rfl, rfl⟩
  | k + 1, e, e', hready, h => by
    have hbind := h
    rw [valueLoop, bind_eq_ok] at hbind
    obtain ⟨x, g, hread, -⟩ := hbind
    obtain ⟨v, r, hv, hin, rfl, rfl⟩ := (readValue_eq_ok raw hready.chain).1 hread
    by_cases hlast : v = e.tr.work.lastpix.toNat
    · exact ⟨[], r, v, r, hv, hin, (if_pos hlast).mpr ⟨rfl, rfl⟩⟩
    · rw [valueLoop_accepted hready hv hin hlast] at h
      obtain ⟨acc, q, hacc⟩ := valuesAt_of_valueLoop k (hready.accept raw _) h
      exact ⟨v :: acc, q, v, r, hv, hin, (if_neg hlast).mpr ⟨acc, rfl, (valuesAt_accepted hv.lt hv.le).1 hacc⟩⟩

end
end Sys2Proof.Machine
end

section
/-!
PROOFS. `RCELL` (45_reconstructor.md R227 to R239): the assembled quad, the next visit, and the step in its three ways out: a
reused cell, a fresh cell, a raise.
-/

namespace Sys2Proof.Machine

/-! ### The assembled quad -/

theorem fillSlot_eq (m : Bool) (old : Byte) (vs : List (BitVec 32)) :
    fillSlot m old vs = (if m then (vs.getD 0 0).setWidth 8 else old, vs.drop m.toNat) := by
  cases m with
  | false => rfl
  | true => cases vs <;> rfl

theorem rankBelow_succ (m : BitVec 4) (i : Nat) : rankBelow m (i + 1) = rankBelow m i + (m.getLsbD i).toNat := by
  rw [rankBelow, List.range_succ, List.filter_append, List.length_append, List.filter_singleton]
  cases m.getLsbD i <;> rfl

/-- A set slot takes the value whose rank from the end is its own among the set slots (45_reconstructor.md R237, R238). -/
theorem slot_assembleQuad (m : BitVec 4) (vals : List (BitVec 32)) (old : Quad) {i : Nat} (hi : i < 4) :
    (assembleQuad m vals old).slot i =
      if m.getLsbD i then (vals.reverse.getD (rankBelow m i) 0).setWidth 8 else old.slot i := by
  have hzero : rankBelow m 0 = 0 := rfl
  interval_cases i <;>
    simp [assembleQuad, fillSlot_eq, Quad.slot, rankBelow_succ, hzero]

theorem getD_reverse_toNat (l : List (BitVec 32)) (i : Nat) : (l.reverse.getD i 0).toNat =
    if i < l.length then (l.map BitVec.toNat).getD (l.length - 1 - i) 0 else 0 := by
  split
  · next h => rw [List.getD_reverse i h]; exact (List.getD_map l 0 BitVec.toNat).symm
  · next h => rw [List.getD_eq_default _ _ (by simpa using h)]; rfl

theorem assembleQuad_slotRule (m : BitVec 4) (vals : List (BitVec 32)) (old : Quad) {i : Nat} (hi : i < 4) :
    ((assembleQuad m vals old).slot i).toNat = slotRule m (vals.map BitVec.toNat) old i := by
  rw [slot_assembleQuad m vals old hi, slotRule, List.length_map]
  split
  · rw [BitVec.toNat_setWidth, getD_reverse_toNat]
    split <;> rfl
  · rfl

/-! ### The next visit -/

section
variable (n : BitVec 32) (p : BitVec 5) (e : Engine)

/-- The step order moves the phase and the visit's counters only. -/
theorem Engine.nextCell_rest :
    { e.nextCell n fun x => { x with phase := p } with phase := e.phase, frm := e.frm, cy := e.cy, cx := e.cx } = e :=
  nextCell_keeps (P := fun x => { x with phase := e.phase, frm := e.frm, cy := e.cy, cx := e.cx } = e)
    (fun _ _ _ _ h => h) (fun _ h => h) rfl

@[simp] theorem Engine.nextCell_regs : (e.nextCell n fun x => { x with phase := p }).regs = e.regs :=
  (congrArg Engine.regs (e.nextCell_rest n p) :)

@[simp] theorem Engine.nextCell_tr : (e.nextCell n fun x => { x with phase := p }).tr = e.tr :=
  (congrArg Engine.tr (e.nextCell_rest n p) :)

@[simp] theorem Engine.nextCell_dir : (e.nextCell n fun x => { x with phase := p }).dir = e.dir :=
  (congrArg Engine.dir (e.nextCell_rest n p) :)

@[simp] theorem Engine.nextCell_free : (e.nextCell n fun x => { x with phase := p }).free = e.free :=
  (congrArg Engine.free (e.nextCell_rest n p) :)

end

/-- A next frame's number is below `2 ^ 31`, so counting does not wrap (41_container_and_sequencer.md R152). -/
theorem toNat_frm_succ {f n : BitVec 32} (h : (f.toNat : Int) + 1 < n.toInt) : (f + 1).toNat = f.toNat + 1 := by
  have hmax : n.toInt < 2 ^ 31 := BitVec.toInt_lt
  exact Nat.mod_eq_of_lt (by simp; omega)

/-- The next visit from the frame, the counters and the grid counts of the current one (41_container_and_sequencer.md R153). -/
theorem walks_nextCell {s : State} {e : Engine} (p : BitVec 5) (hphase : e.phase = s.eng.phase) (hfrm : e.frm = s.eng.frm)
    (hcy : e.cy = s.eng.cy) (hcx : e.cx = s.eng.cx) (hregs : e.regs = s.eng.regs) :
    Walks s { s with eng := e.nextCell s.front.nframes fun x => { x with phase := p } } p := by
  simp only [Walks, State.nextVisit, Engine.nextCell, moreFrames, decide_eq_true_iff, hfrm, hcy, hcx, hregs]
  split_ifs with hcol hrow hmore
  · exact ⟨hphase, rfl, rfl, rfl⟩
  · exact ⟨hphase, rfl, rfl, rfl⟩
  · exact ⟨hphase, toNat_frm_succ hmore, rfl, rfl⟩
  · rfl

/-! ### The mask -/

/-- The engine of a visit, its direction cell noted (45_reconstructor.md R228). -/
def State.opened (s : State) : Engine := { s.eng with tr.work := { s.eng.tr.work with k := s.visitK } }

/-- No equal-cells bit is set: there is none, or the buffer holds a clear one; `EC` moves by `ecn` bits for it. -/
def State.EqualCellsClear (s : State) (ecn : Nat) : Prop :=
  if s.eng.regs.ecsize = 0 then ecn = 0
  else ecn = 1 ∧ s.bitsAt s.eng.tr.ec.pos 1 = 0 ∧ s.eng.tr.ec.pos + 1 ≤ s.lenBits

theorem State.equalCellsClear_of_or {s : State}
    (h : s.eng.regs.ecsize = 0 ∨ (s.eng.tr.ec.pos + 1 ≤ s.lenBits ∧ s.bitsAt s.eng.tr.ec.pos 1 = 0)) :
    ∃ ecn, s.EqualCellsClear ecn := by
  by_cases hsize : s.eng.regs.ecsize = 0
  · exact ⟨0, (if_pos hsize).mpr rfl⟩
  · obtain ⟨hin, hbit⟩ := h.resolve_left hsize
    exact ⟨1, (if_neg hsize).mpr ⟨rfl, hbit, hin⟩⟩

/-- The rest of step 2 when the cell is not reused. -/
def readPixelMask (b : Buf) : EngM Bool := do
  let m ← rd b .pm 4
  updW fun w => w.setMask (BitVec.ofNat 4 m)
  return false

/-- The engine after the mask `m`, `EC` and `PM` moved for it. -/
def Engine.masked (e : Engine) (m : BitVec 4) (ecn pmn : Nat) : Engine :=
  (e.moved .ec ecn e.tr.work).moved .pm pmn ((e.tr.work.setEq 0).setMask m)

section
variable {s : State} {prev : Option Nat} {m : BitVec 4} {ecn pmn etn : Nat} {raw : Bool} {i : Nat}

/-- What an equal-cells bit decides (45_reconstructor.md R229, R230). -/
theorem readMask_occupied {v : Nat} (h : rd s.ibuf .ec (if active s.eng.regs.ecsize then 1 else 0) s.opened =
    .ok v (s.opened.moved .ec ecn s.opened.tr.work)) :
    readMask s.ibuf s.eng.regs.ecsize (some i) s.opened = (if v = 1 then pure true else readPixelMask s.ibuf : EngM Bool)
      (s.opened.moved .ec ecn (s.opened.tr.work.setEq (BitVec.ofNat 1 v))) := by
  rw [readMask, if_neg (Option.some_ne_none i), bind_ok h, bind_ok (updW_moved _ _ _ _ _)]
  rfl

theorem readMask_reuses (hsize : s.eng.regs.ecsize ≠ 0) (hin : s.eng.tr.ec.pos + 1 ≤ s.lenBits)
    (hbit : s.bitsAt s.eng.tr.ec.pos 1 = 1) : readMask s.ibuf s.eng.regs.ecsize (some i) s.opened =
      .ok true (s.opened.moved .ec 1 (s.opened.tr.work.setEq 1)) := by
  rw [readMask_occupied (rd_flag (if_pos ((active_iff _).2 hsize)) (.inl ⟨rfl, hbit, hin⟩))]
  rfl

theorem readMask_unequal (h : s.EqualCellsClear ecn) : readMask s.ibuf s.eng.regs.ecsize (some i) s.opened =
    readPixelMask s.ibuf (s.opened.moved .ec ecn (s.opened.tr.work.setEq 0)) := by
  have hflag : rd s.ibuf .ec (if active s.eng.regs.ecsize then 1 else 0) s.opened =
      .ok 0 (s.opened.moved .ec ecn s.opened.tr.work) := by
    unfold State.EqualCellsClear at h
    split at h
    · next hsize => exact rd_flag (h ▸ if_neg (by rwa [active_iff, not_not])) (.inr ⟨h, rfl⟩)
    · next hsize => exact rd_flag (h.1 ▸ if_pos ((active_iff _).2 hsize)) (.inl h)
  rw [readMask_occupied hflag]
  rfl

theorem readMask_fresh (h : MaskRead s prev m ecn pmn) :
    readMask s.ibuf s.eng.regs.ecsize prev s.opened = .ok false (s.opened.masked m ecn pmn) := by
  cases prev with
  | none =>
    obtain ⟨rfl, rfl, rfl⟩ := h
    rfl
  | some i =>
    obtain ⟨rfl, hm, hin, hec⟩ := h
    have hmask : BitVec.ofNat 4 (s.bitsAt s.eng.tr.pm.pos 4) = m := by rw [← hm, BitVec.ofNat_toNat, BitVec.setWidth_eq]
    rw [readMask_unequal hec, readPixelMask,
      bind_ok (rd_inside (e := s.opened.moved .ec ecn (s.opened.tr.work.setEq 0)) (c := .pm) hin)]
    exact hmask ▸ rfl

theorem readMask_pastEqualCells (hsize : s.eng.regs.ecsize ≠ 0) (hpast : s.lenBits < s.eng.tr.ec.pos + 1) :
    readMask s.ibuf s.eng.regs.ecsize (some i) s.opened = .error .outOfRange s.opened := by
  have hrd : rd s.ibuf .ec (if active s.eng.regs.ecsize then 1 else 0) s.opened = .error .outOfRange s.opened := by
    simp only [(active_iff _).2 hsize, if_true]
    exact rd_error (by decide) hpast
  rw [readMask, if_neg (Option.some_ne_none i), bind_error hrd]

theorem readMask_pastMask (h : s.EqualCellsClear ecn) (hpast : s.lenBits < s.eng.tr.pm.pos + 4) :
    readMask s.ibuf s.eng.regs.ecsize (some i) s.opened =
      .error .outOfRange (s.opened.moved .ec ecn (s.opened.tr.work.setEq 0)) := by
  rw [readMask_unequal h]
  exact bind_error (rd_error (e := s.opened.moved .ec ecn (s.opened.tr.work.setEq 0)) (c := .pm) (by decide) hpast)

/-! ### The values of the visit -/

/-- The engine after the encoding type, `ET` moved for it and the value loop prepared. -/
def Engine.typed (e : Engine) (raw : Bool) (etn : Nat) : Engine :=
  e.moved .et etn (e.tr.work.setEtb (BitVec.ofBool raw))

theorem popc_pos (m : BitVec 4) : 0 < popc m ↔ m ≠ 0 := by
  revert m
  decide

/-- When the encoding-type bit is read (45_reconstructor.md R231). -/
theorem readsType_iff : 0 < popc m ∧ active s.eng.regs.etsize = true ↔ m ≠ 0 ∧ s.eng.regs.etsize ≠ 0 :=
  and_congr (popc_pos m) (active_iff _)

/-- The encoding-type bit, and the loop it prepares. -/
theorem readValues_typed (h : TypeRead s m raw etn) :
    readValues s.ibuf s.eng.regs.etsize (s.opened.masked m ecn pmn) =
      valueLoop s.ibuf (BitVec.ofBool raw) (popc m) ((s.opened.masked m ecn pmn).typed raw etn) := by
  have hflag : rd s.ibuf .et (if 0 < popc m ∧ active s.eng.regs.etsize = true then 1 else 0) (s.opened.masked m ecn pmn) =
      .ok raw.toNat ((s.opened.masked m ecn pmn).moved .et etn (s.opened.masked m ecn pmn).tr.work) := by
    simp only [readsType_iff]
    unfold TypeRead at h
    split at h
    · next hread =>
      obtain ⟨rfl, rfl, hin⟩ := h
      refine rd_flag (if_pos hread) (.inl ⟨rfl, ?_, hin⟩)
      have hlt : s.bitsAt s.eng.tr.et.pos 1 < 2 := s.bitsAt_lt _ 1
      by_cases hbit : s.bitsAt s.eng.tr.et.pos 1 = 1
      · rwa [decide_eq_true hbit]
      · rw [decide_eq_false hbit]
        change s.bitsAt s.eng.tr.et.pos 1 = 0
        omega
    · next hread =>
      obtain ⟨rfl, rfl⟩ := h
      exact rd_flag (if_neg hread) (.inr ⟨rfl, rfl⟩)
  rw [readValues, bind_ok (get_run _)]
  refine (bind_ok hflag).trans ?_
  rw [bind_ok (updW_moved _ _ _ _ _)]
  cases raw <;> rfl

theorem readValues_pastType (hm : m ≠ 0) (hsize : s.eng.regs.etsize ≠ 0) (hpast : s.lenBits < s.eng.tr.et.pos + 1) :
    readValues s.ibuf s.eng.regs.etsize (s.opened.masked m ecn pmn) = .error .outOfRange (s.opened.masked m ecn pmn) := by
  rw [readValues, bind_ok (get_run _)]
  refine bind_error ?_
  have hread : 0 < popc m ∧ active s.eng.regs.etsize = true := readsType_iff.2 ⟨hm, hsize⟩
  simp only [Engine.masked, Engine.moved_work, Work.setMask_cnt, hread, and_self, if_true]
  exact rd_error (by decide) hpast

/-- What stops the values is the end of the buffer, and the engine stays in its direction. -/
theorem valueLoop_error {b : Buf} {t : BitVec 1} {k : Nat} {e g : Engine} {c : Cause} (h : valueLoop b t k e = .error c g) :
    c = .outOfRange ∧ g.dir = e.dir :=
  (EngKeeps.valueLoop (P := fun x => x.dir = e.dir) (E := fun c x => c = .outOfRange ∧ x.dir = e.dir) b t
    (fun _ _ _ h => h) (fun _ h => ⟨rfl, h⟩) (fun _ _ h => h) k e rfl).2 c g h

/-- Where the values start (45_reconstructor.md R232, R233). -/
def State.valueStart (s : State) (raw : Bool) : Nat := if raw then s.eng.tr.rp.pos else s.eng.tr.main.pos

theorem typed_pos : (((s.opened.masked m ecn pmn).typed raw etn).tr.cur (valueCursor raw)).pos = s.valueStart raw := by
  cases raw <;> rfl

theorem typed_ready : ((s.opened.masked m ecn pmn).typed raw etn).tr.work.Ready := ⟨rfl, rfl⟩

/-- The engine after the values of a fresh cell, which end at bit `q` and leave the working registers `w`. -/
def State.decoded (s : State) (ecn pmn etn : Nat) (raw : Bool) (q : Nat) (w : Work) : Engine :=
  { s.eng with tr := { s.eng.tr with
    ec := s.eng.tr.ec.advance ecn
    pm := s.eng.tr.pm.advance pmn
    et := s.eng.tr.et.advance etn
    rp := if raw then { pos := q, cons := s.eng.tr.rp.cons + (q - s.eng.tr.rp.pos) } else s.eng.tr.rp
    main := if raw then s.eng.tr.main else { pos := q, cons := s.eng.tr.main.cons + (q - s.eng.tr.main.pos) }
    work := w } }

theorem State.decoded_eq_moved {q : Nat} (hq : s.valueStart raw ≤ q) (w : Work) : s.decoded ecn pmn etn raw q w =
    ((s.opened.masked m ecn pmn).typed raw etn).moved (valueCursor raw) (q - s.valueStart raw) w := by
  have hend := Nat.add_sub_cancel' hq
  cases raw with
  | true =>
    change s.eng.tr.rp.pos + (q - s.eng.tr.rp.pos) = q at hend
    exact congrArg (fun p => { s.decoded ecn pmn etn true q w with tr.rp.pos := p }) hend.symm
  | false =>
    change s.eng.tr.main.pos + (q - s.eng.tr.main.pos) = q at hend
    exact congrArg (fun p => { s.decoded ecn pmn etn false q w with tr.main.pos := p }) hend.symm

theorem readValues_decodes {acc : List Nat} {q : Nat} (htype : TypeRead s m raw etn)
    (hvals : ValuesAt s raw (popc m) 0 (s.valueStart raw) acc q) :
    ∃ w, readValues s.ibuf s.eng.regs.etsize (s.opened.masked m ecn pmn) = .ok () (s.decoded ecn pmn etn raw q w) ∧
      w.k = s.visitK ∧ w.mask = m ∧ w.vals.map BitVec.toNat = acc := by
  obtain ⟨w, hrun, haccepts⟩ := valueLoop_of_valuesAt (popc m)
    (typed_ready (s := s) (m := m) (ecn := ecn) (pmn := pmn) (raw := raw) (etn := etn)) (by rw [typed_pos]; exact hvals)
  refine ⟨w, ?_, haccepts.k, haccepts.mask, haccepts.vals⟩
  rw [readValues_typed htype, hrun, typed_pos, ← State.decoded_eq_moved hvals.le]

theorem readValues_past (htype : TypeRead s m raw etn)
    (hvals : ¬ ∃ acc q, ValuesAt s raw (popc m) 0 (s.valueStart raw) acc q) :
    ∃ g, readValues s.ibuf s.eng.regs.etsize (s.opened.masked m ecn pmn) = .error .outOfRange g ∧ g.dir = s.eng.dir := by
  rw [readValues_typed htype]
  cases hrun : valueLoop s.ibuf (BitVec.ofBool raw) (popc m) ((s.opened.masked m ecn pmn).typed raw etn) with
  | ok u g => exact absurd (typed_pos (s := s) ▸ valuesAt_of_valueLoop (popc m) typed_ready hrun) hvals
  | error c g =>
    obtain ⟨rfl, hdir⟩ := valueLoop_error hrun
    exact ⟨g, rfl, hdir⟩

end

/-! ### The entry and the step order -/

/-- The entry a visit appends (45_reconstructor.md R227 step 5). -/
def Engine.newEntry (prev : Option Nat) (e : Engine) : Entry :=
  { q := assembleQuad e.tr.work.mask e.tr.work.vals (prevQuad e.tr.pbe prev)
    t := Config.freeQuad e.free
    frame := e.frm
    fci := e.visitCell }

theorem Engine.appendEntry_pbe (prev : Option Nat) (e : Engine) :
    (e.appendEntry prev).tr.pbe = e.tr.pbe ++ [e.newEntry prev] := rfl

theorem Engine.appendEntry_occ (prev : Option Nat) (e : Engine) (k : Nat) :
    fileRead none (e.appendEntry prev).tr.occ k =
      if k = e.tr.work.k then some e.tr.pbe.length else fileRead none e.tr.occ k :=
  fileRead_fileWrite none _ _ _ k

section
variable {b : Buf} {cap prev : Option Nat} {e g : Engine} {c : Cause}

theorem freshCell_past (h : readValues b e.regs.etsize e = .error c g) : freshCell b cap prev e = .error c g := by
  rw [freshCell, bind_ok (get_run e), bind_error h]

theorem freshCell_full (h : readValues b e.regs.etsize e = .ok () g) (hcap : cap = some g.tr.pbe.length) :
    freshCell b cap prev e = .error .capPbe g := by
  have hfull : (!pbeFull cap g.tr.pbcnt) = false := by rw [pbeFull, Transient.pbcnt, decide_eq_true hcap, Bool.not_true]
  rw [freshCell, bind_ok (get_run e), bind_ok h, bind_ok (get_run g), hfull, bind_error (engCheck_fail _ g)]

theorem freshCell_appends (h : readValues b e.regs.etsize e = .ok () g) (hcap : cap ≠ some g.tr.pbe.length) :
    freshCell b cap prev e = .ok () (g.appendEntry prev) := by
  have hroom : (!pbeFull cap g.tr.pbcnt) = true := by rw [pbeFull, Transient.pbcnt, decide_eq_false hcap, Bool.not_false]
  rw [freshCell, bind_ok (get_run e), bind_ok h, bind_ok (get_run g), hroom, bind_ok (engCheck_pass _ g), upd_run]

end

/-- What follows the mask: nothing for a reused cell, and the next visit. -/
def afterMask (b : Buf) (maxPbe : Option Nat) (nframes : BitVec 32) (prev : Option Nat) (reuse : Bool) : EngM Unit := do
  (if reuse then pure () else freshCell b maxPbe prev : EngM Unit)
  upd (Engine.nextCell nframes fun x => { x with phase := phPxlat })

section
variable {s : State} {prev : Option Nat} (hprev : fileRead none s.eng.tr.occ s.visitK = prev) {e g : Engine} {c : Cause}
include hprev

theorem rcellBody_opened : rcellBody s.ibuf s.caps.maxPbe s.front.nframes s.eng =
    (readMask s.ibuf s.eng.regs.ecsize prev >>= afterMask s.ibuf s.caps.maxPbe s.front.nframes prev) s.opened := by
  subst hprev
  rfl

theorem exec_rcell_reuses (h : readMask s.ibuf s.eng.regs.ecsize prev s.opened = .ok true e) :
    exec .rcell s = .next { s with eng := e.nextCell s.front.nframes fun x => { x with phase := phPxlat } } :=
  runEng_ok ((rcellBody_opened hprev).trans (bind_ok h))

theorem exec_rcell_fresh (h : readMask s.ibuf s.eng.regs.ecsize prev s.opened = .ok false e)
    (hcell : freshCell s.ibuf s.caps.maxPbe prev e = .ok () g) :
    exec .rcell s = .next { s with eng := g.nextCell s.front.nframes fun x => { x with phase := phPxlat } } :=
  runEng_ok ((rcellBody_opened hprev).trans ((bind_ok h).trans (bind_ok hcell)))

theorem rcell_raises_mask (h : readMask s.ibuf s.eng.regs.ecsize prev s.opened = .error c e) (hdir : e.dir = s.eng.dir) :
    EngRaises .rcell s c :=
  engRaises_of_run rfl ⟨e, (rcellBody_opened hprev).trans (bind_error h), hdir⟩

theorem rcell_raises_cell (h : readMask s.ibuf s.eng.regs.ecsize prev s.opened = .ok false e)
    (hcell : freshCell s.ibuf s.caps.maxPbe prev e = .error c g) (hdir : g.dir = s.eng.dir) : EngRaises .rcell s c :=
  engRaises_of_run rfl ⟨g, (rcellBody_opened hprev).trans ((bind_ok h).trans (bind_error hcell)), hdir⟩

end

theorem prevQuad_eq_oldQuad (s : State) (prev : Option Nat) : prevQuad s.eng.tr.pbe prev = oldQuad s prev := by
  cases prev <;> rfl

end Sys2Proof.Machine

open Sys2Proof Sys2Proof.Machine

/-- Settles O47: a set equal-cells bit leads straight to the next visit. -/
theorem rcellReuses : Obligations.RcellReuses := by
  intro s i hocc hsize hin hbit
  refine ⟨_, exec_rcell_reuses hocc (readMask_reuses hsize hin hbit), rfl, ?_⟩
  simp only [Engine.nextCell_regs, Engine.nextCell_free, Engine.nextCell_dir, Engine.nextCell_tr]
  exact ⟨rfl, rfl, rfl, rfl, walks_nextCell phPxlat rfl rfl rfl rfl rfl⟩

/-- Settles O48: the mask, the encoding type and the values are read in turn, and the entry made of them is appended. -/
theorem rcellDecodes : Obligations.RcellDecodes := by
  intro s prev m ecn pmn etn raw acc q hocc hmask htype hvals hroom
  obtain ⟨w, hread, hk, hm, hacc⟩ := readValues_decodes (ecn := ecn) (pmn := pmn) htype hvals
  refine ⟨_, (s.decoded ecn pmn etn raw q w).newEntry prev,
    exec_rcell_fresh hocc (readMask_fresh hmask) (freshCell_appends hread hroom), rfl, ?_⟩
  simp only [Engine.nextCell_regs, Engine.nextCell_dir, Engine.nextCell_tr]
  refine ⟨rfl, rfl, Engine.appendEntry_pbe prev _, rfl, rfl, fun i hi => ?_, fun k => ?_, rfl, rfl, rfl, rfl, rfl, rfl, rfl, rfl,
    hm, hacc, walks_nextCell phPxlat rfl rfl rfl rfl rfl⟩
  · rw [← prevQuad_eq_oldQuad, ← hm, ← hacc]
    exact assembleQuad_slotRule w.mask w.vals _ hi
  · rw [← hk]
    exact Engine.appendEntry_occ prev _ k

/-- Settles O49: the reads in their order, then the capacity test. -/
theorem rcellRaises : Obligations.RcellRaises := by
  intro s
  refine ⟨fun i hocc hsize hpast => ?_, fun i hocc hec hpast => ?_, fun prev m ecn pmn hocc hmask => ⟨fun hm hsize hpast => ?_,
    fun raw etn htype => ⟨fun hnone => ?_, fun acc q hvals hfull => ?_⟩⟩⟩
  · exact rcell_raises_mask hocc (readMask_pastEqualCells hsize hpast) rfl
  · obtain ⟨ecn, hclear⟩ := State.equalCellsClear_of_or hec
    exact rcell_raises_mask hocc (readMask_pastMask hclear hpast) rfl
  · exact rcell_raises_cell hocc (readMask_fresh hmask) (freshCell_past (readValues_pastType hm hsize hpast)) rfl
  · obtain ⟨g, hread, hdir⟩ := readValues_past (ecn := ecn) (pmn := pmn) htype hnone
    exact rcell_raises_cell hocc (readMask_fresh hmask) (freshCell_past hread) hdir
  · obtain ⟨w, hread, -⟩ := readValues_decodes (ecn := ecn) (pmn := pmn) htype hvals
    exact rcell_raises_cell hocc (readMask_fresh hmask) (freshCell_full hread hfull) rfl
end

section
/-!
PROOFS. The reconstructor's two steps around the cells (45_reconstructor.md R240, R243): `PXLAT` entry by entry, and the four
tests of `ICHK`.
-/

namespace Sys2Proof.Machine

/-! ### `PXLAT` -/

/-- Each slot through the palette table (45_reconstructor.md R240). -/
theorem Quad.slot_translate (pal : List Byte) (q : Quad) : ∀ i : Nat,
    (q.translate pal).slot i = fileRead 0 pal (q.slot i).toNat
  | 0 => rfl
  | 1 => rfl
  | 2 => rfl
  | _ + 3 => rfl

/-! ### `ICHK` -/

/-- A test that holds lets the rest run; one that fails raises its cause. -/
theorem engCheck_bind (ok : Prop) [Decidable ok] (c : Cause) (m : Unit → EngM Unit) (e : Engine) :
    (engCheck (decide ok) c >>= m) e = if ok then m () e else .error c e := by
  by_cases h : ok
  · rw [if_pos h, decide_eq_true h, bind_ok (engCheck_pass c e)]
  · rw [if_neg h, decide_eq_false h, bind_error (engCheck_fail c e)]

/-- The four tests in their order, then the compositor's preparation (45_reconstructor.md R243). -/
theorem ichkBody_run (e : Engine) : ichkBody e =
    if e.tr.ec.cons = e.regs.ecsize.toNat then
      if e.tr.pm.cons = e.regs.pmsize.toNat then
        if e.tr.et.cons = e.regs.etsize.toNat then
          if e.tr.rp.cons = e.regs.rpsize.toNat then .ok () (e.prepareCanvas.firstCell phCcell)
          else .error .rawPixelCodes e
        else .error .encodingType e
      else .error .pixelMask e
    else .error .equalCells e := by
  simp only [ichkBody, bind_ok (get_run e), engCheck_bind]
  rfl

/-- Every last occurrence of the grid is made invalid (45_reconstructor.md R243). -/
theorem Engine.fileRead_prepareCanvas_last {e : Engine} {k : Nat} (h : k < e.regs.hcc * e.regs.vcc) :
    fileRead zeroLast e.prepareCanvas.tr.last k = { fileRead zeroLast e.tr.last k with valid := false } := by
  rw [Engine.prepareCanvas, fileRead, List.getD_eq_getElem?_getD, List.getElem?_map, List.getElem?_range h]
  rfl

end Sys2Proof.Machine

open Sys2Proof Sys2Proof.Machine

/-- Settles O50: the entries are mapped one by one. -/
theorem pxlatTranslates : Obligations.PxlatTranslates := by
  intro s
  refine ⟨_, rfl, rfl, List.length_map _, fun e x hx => ⟨x.translate s.eng.regs.pal, ?_, rfl, rfl, rfl, fun i _ => ?_⟩⟩
  · exact (List.getElem?_map ..).trans (congrArg _ hx)
  · exact x.q.slot_translate s.eng.regs.pal i

/-- Settles O51: the first test that fails decides the raise; with none, the preparation is the step. -/
theorem ichkChecks : Obligations.IchkChecks := by
  intro s e p y r
  have hraise {c : Cause} (h : ichkBody s.eng = .error c s.eng) : EngRaises .ichk s c :=
    engRaises_of_run rfl ⟨s.eng, h, rfl⟩
  have hrun := ichkBody_run s.eng
  refine ⟨fun he => hraise ?_, fun he hp => hraise ?_, fun he hp hy => hraise ?_, fun he hp hy hr => hraise ?_,
    fun he hp hy hr => ?_⟩
  · rwa [if_neg he] at hrun
  · rwa [if_pos he, if_neg hp] at hrun
  · rwa [if_pos he, if_pos hp, if_neg hy] at hrun
  · rwa [if_pos he, if_pos hp, if_pos hy, if_neg hr] at hrun
  · rw [if_pos he, if_pos hp, if_pos hy, if_pos hr] at hrun
    exact ⟨_, runEng_ok hrun, rfl, fun k hk => Engine.fileRead_prepareCanvas_last hk, fun _ => rfl⟩
end

section
/-!
PROOFS. The blocks of the compositor (46_compositor.md R256, R258 to R261): a block's pixels in order, and what painting and
copying a block leave in a memory, the live-canvas rule of R259 included.
-/

namespace Sys2Proof.Machine

/-! ### The order of a block's pixels -/

/-- Addresses inside a canvas rise row by row, left to right (46_compositor.md R256). -/
theorem pixAddr_lt {dw x y x' y' : Nat} (hx : x < dw) (h : y < y' ∨ y = y' ∧ x < x') : pixAddr dw x y < pixAddr dw x' y' := by
  obtain hrow | ⟨rfl, hcol⟩ := h
  · have hnext : (y + 1) * dw ≤ y' * dw := Nat.mul_le_mul_right dw hrow
    rw [Nat.succ_mul] at hnext
    simp only [pixAddr]
    omega
  · exact Nat.add_lt_add_right hcol _

/-- The pixels of a block are listed row by row, left to right. -/
theorem blockPixels_rowMajor (w h : Nat) :
    (blockPixels w h).Pairwise fun p q => p.2 < q.2 ∨ p.2 = q.2 ∧ p.1 < q.1 := by
  refine List.pairwise_flatMap.2 ⟨fun y _ => ?_, ?_⟩
  · exact List.pairwise_map.2 (List.pairwise_lt_range.imp fun hx => .inr ⟨rfl, hx⟩)
  · refine List.pairwise_lt_range.imp fun hy => ?_
    simp only [List.mem_map]
    rintro _ ⟨_, _, rfl⟩ _ ⟨_, _, rfl⟩
    exact .inl hy

/-- Pixel `(x, y)` is number `x + y * w` of its block. -/
theorem blockPixels_numbers (w : Nat) : ∀ h : Nat, (blockPixels w h).map (fun p => p.1 + p.2 * w) = List.range (w * h)
  | 0 => rfl
  | h + 1 => by
    have hrow : blockPixels w (h + 1) = blockPixels w h ++ (List.range w).map fun x => (x, h) := by
      simp [blockPixels, List.range_succ]
    rw [hrow, List.map_append, blockPixels_numbers w h, Nat.mul_succ, List.range_add, List.map_map]
    simp [Function.comp_def, Nat.add_comm, Nat.mul_comm]

section
variable {dw : Nat} {g : CellGeom} {x y : Nat}

/-- The pixels before one have lower addresses, those after it higher ones. -/
theorem blockPixels_split (hin : g.x + g.w ≤ dw) (hx : x < g.w) (hy : y < g.h) : ∃ before after,
    blockPixels g.w g.h = before ++ (x, y) :: after ∧
      (∀ p ∈ before, blockAddr dw g p.1 p.2 < blockAddr dw g x y) ∧
      ∀ p ∈ after, blockAddr dw g x y < blockAddr dw g p.1 p.2 := by
  have hascend : (blockPixels g.w g.h).Pairwise fun p q => blockAddr dw g p.1 p.2 < blockAddr dw g q.1 q.2 := by
    refine (blockPixels_rowMajor g.w g.h).imp_of_mem fun {p q} hp _ hpq => pixAddr_lt ?_ (by omega)
    have hcol := (mem_blockPixels.1 hp).1
    omega
  obtain ⟨before, after, hsplit⟩ := List.append_of_mem (mem_blockPixels (p := (x, y)).2 ⟨hx, hy⟩)
  rw [hsplit] at hascend
  obtain ⟨-, hafter, hbefore⟩ := List.pairwise_append.1 hascend
  exact ⟨before, after, hsplit, fun p hp => hbefore p hp _ List.mem_cons_self, (List.pairwise_cons.1 hafter).1⟩

theorem not_outsideBlock_iff {a : Nat} : ¬ OutsideBlock dw g a ↔ ∃ x y, x < g.w ∧ y < g.h ∧ a = blockAddr dw g x y := by
  simp only [OutsideBlock, ne_eq, not_forall, not_not, exists_prop]

theorem not_outsideBlock (hx : x < g.w) (hy : y < g.h) : ¬ OutsideBlock dw g (blockAddr dw g x y) := fun h => h x y hx hy rfl

/-- The addresses a block operation stores to are those of the block. -/
theorem mem_blockAddrs {a : Nat} :
    a ∈ (blockPixels g.w g.h).map (fun p => pixAddr dw (g.x + p.1) (g.y + p.2)) ↔ ¬ OutsideBlock dw g a := by
  simp only [not_outsideBlock_iff, List.mem_map, mem_blockPixels, Prod.exists, and_assoc]
  exact exists₂_congr fun x y => and_congr_right fun _ => and_congr_right fun _ => eq_comm

/-- The addresses stored to before pixel `(x, y)` are those of the block below its own. -/
theorem mem_before_iff {before after : List (Nat × Nat)} {b : Nat} (hsplit : blockPixels g.w g.h = before ++ (x, y) :: after)
    (hbefore : ∀ p ∈ before, blockAddr dw g p.1 p.2 < blockAddr dw g x y)
    (hafter : ∀ p ∈ after, blockAddr dw g x y < blockAddr dw g p.1 p.2) :
    b ∈ before.map (fun p => blockAddr dw g p.1 p.2) ↔ ¬ OutsideBlock dw g b ∧ b < blockAddr dw g x y := by
  rw [← mem_blockAddrs, hsplit, List.map_append, List.map_cons, List.mem_append, List.mem_cons]
  constructor
  · intro h
    obtain ⟨p, hp, rfl⟩ := List.mem_map.1 h
    exact ⟨.inl h, hbefore p hp⟩
  · rintro ⟨h | h | h, hlt⟩
    · exact h
    · exact absurd h hlt.ne
    · obtain ⟨p, hp, rfl⟩ := List.mem_map.1 h
      exact absurd hlt (hafter p hp).not_gt

theorem ne_of_outsideBlock {a : Nat} (h : OutsideBlock dw g a) :
    ∀ p ∈ blockPixels g.w g.h, pixAddr dw (g.x + p.1) (g.y + p.2) ≠ a := fun p hp he =>
  h p.1 p.2 (mem_blockPixels.1 hp).1 (mem_blockPixels.1 hp).2 he.symm

end

/-! ### Block operations -/

/-- After a run of writes an address that no later one names holds what was written there, computed from the memory as it then
was. -/
theorem Mem.read_foldl_at {β : Type} (f : β → Nat) (g : Mem → β → Byte) {before after : List β} {p : β} {m : Mem}
    (hm : Mem.wf m = true) (h : ∀ q ∈ after, f q ≠ f p) :
    ((before ++ p :: after).foldl (fun m q => m.write (f q) (g m q)) m).read (f p) =
      g (before.foldl (fun m q => m.write (f q) (g m q)) m) p := by
  have hbefore := Mem.wf_foldl (fun _ => f) g before m hm
  rw [List.foldl_append, List.foldl_cons, Mem.read_foldl_other f g _ _ _ (Mem.wf_write _ _ hbefore) h,
    Mem.read_write _ hbefore, if_pos rfl]

/-- A run of copies in the order of their addresses: a source that was overwritten before is read as overwritten. -/
theorem Mem.read_foldl_copy {β : Type} (f src : β → Nat) {before after : List β} {p : β} {m : Mem} (hm : Mem.wf m = true)
    (hbefore : ∀ q ∈ before, f q < f p) (hafter : ∀ q ∈ after, f p < f q) :
    let n := (before ++ p :: after).foldl (fun m q => m.write (f q) (m.read (src q))) m
    (src p ∈ before.map f → n.read (f p) = n.read (src p)) ∧
      (src p ∉ before.map f → n.read (f p) = m.read (src p)) := by
  intro n
  have hread := Mem.read_foldl_at f (fun m q => m.read (src q)) (before := before) hm fun q hq => (hafter q hq).ne'
  refine ⟨fun hsrc => hread.trans ?_, fun hsrc => hread.trans ?_⟩
  · obtain ⟨q, hq, hlt⟩ := List.mem_map.1 hsrc
    have hlater : ∀ r ∈ p :: after, f r ≠ src p := by
      intro r hr
      have hq' := hbefore q hq
      obtain rfl | hr := List.mem_cons.1 hr
      · omega
      · have hr' := hafter r hr
        omega
    have hwf := Mem.wf_foldl (fun _ => f) (fun m q => m.read (src q)) before m hm
    simp only [n, List.foldl_append]
    exact (Mem.read_foldl_other f (fun m q => m.read (src q)) (src p) _ _ hwf hlater).symm
  · exact Mem.read_foldl_other f _ _ _ _ hm fun q hq he => hsrc (List.mem_map.2 ⟨q, hq, he⟩)

/-- The block of cell `g` painted, pixel `p` with slot `code p` of a quad (46_compositor.md R261). -/
def paintBlock (dw : Nat) (g : CellGeom) (t : Quad) (code : Nat × Nat → Nat) (ps : List (Nat × Nat)) (m : Mem) : Mem :=
  ps.foldl (fun m p => m.write (blockAddr dw g p.1 p.2) (t.slot (code p))) m

section
variable {dw : Nat} {g : CellGeom} {m : Mem} (hm : Mem.wf m = true)
include hm

theorem paintBlock_outside {t : Quad} {code : Nat × Nat → Nat} {a : Nat} (h : OutsideBlock dw g a) :
    (paintBlock dw g t code (blockPixels g.w g.h) m).read a = m.read a :=
  Mem.read_foldl_other _ _ a _ m hm (ne_of_outsideBlock h)

theorem paintBlock_inside {t : Quad} {code : Nat × Nat → Nat} {x y : Nat} (hin : g.x + g.w ≤ dw) (hx : x < g.w)
    (hy : y < g.h) :
    (paintBlock dw g t code (blockPixels g.w g.h) m).read (blockAddr dw g x y) = t.slot (code (x, y)) := by
  obtain ⟨before, after, hsplit, -, hafter⟩ := blockPixels_split hin hx hy
  rw [hsplit]
  exact Mem.read_foldl_at (fun p => blockAddr dw g p.1 p.2) (fun _ p => t.slot (code p)) hm
    (p := (x, y)) fun p hp => (hafter p hp).ne'

/-- A copied pixel takes its source pixel of the live canvas: as overwritten where the copy has been there before, else as it
was (46_compositor.md R259). -/
theorem copyBlock_inside {sx sy x y : Nat} (hin : g.x + g.w ≤ dw) (hx : x < g.w) (hy : y < g.h) :
    let n := copyBlock dw sx sy g.x g.y (blockPixels g.w g.h) m
    let a := blockAddr dw g x y
    let b := pixAddr dw (sx + x) (sy + y)
    let overwritten := ¬ OutsideBlock dw g b ∧ b < a
    (overwritten → n.read a = n.read b) ∧ (¬ overwritten → n.read a = m.read b) := by
  obtain ⟨before, after, hsplit, hbefore, hafter⟩ := blockPixels_split hin hx hy
  have hrun := Mem.read_foldl_copy (fun p => blockAddr dw g p.1 p.2) (fun p => pixAddr dw (sx + p.1) (sy + p.2)) (p := (x, y))
    hm hbefore hafter
  rw [← hsplit] at hrun
  have hmem := mem_before_iff hsplit hbefore hafter (b := pixAddr dw (sx + x) (sy + y))
  exact ⟨fun h => hrun.1 (hmem.2 h), fun h => hrun.2 (mt hmem.1 h)⟩

end

end Sys2Proof.Machine
end

section
/-!
PROOFS. `CCELL` and `DFIN` (46_compositor.md R255 to R265, R268): the frame of every visit that goes on, its two branches, the
code loop of a fresh cell, and the end of a direction.
-/

namespace Sys2Proof.Machine

/-! ### A visit and its frame -/

theorem DirRegs.outArr_wf {r : DirRegs} (h : r.memOk) (f : Nat) : Mem.wf (r.outArr f) = true := by
  rw [DirRegs.outArr, fileRead, List.getD_eq_getElem?_getD]
  cases hf : r.out[f]? with
  | none => rfl
  | some m => exact h m (List.mem_of_getElem? hf)

/-- The output arrays at the start of a visit: the frame's is zeroed at its first cell (46_compositor.md R265). -/
def State.openOut (s : State) : List Mem :=
  if s.visitC = 0 then fileWrite [] s.eng.regs.out s.eng.frm.toNat [] else s.eng.regs.out

theorem fileRead_openOut (s : State) (f : Nat) : fileRead [] s.openOut f =
    if f = s.eng.frm.toNat ∧ s.visitC = 0 then [] else s.eng.regs.outArr f := by
  unfold State.openOut
  by_cases hc : s.visitC = 0
  · rw [if_pos hc, fileRead_fileWrite]
    simp only [hc, and_true]
    rfl
  · rw [if_neg hc, if_neg fun h => hc h.2]
    rfl

theorem openOut_wf {s : State} (h : s.eng.regs.memOk) (f : Nat) : Mem.wf (fileRead [] s.openOut f) = true := by
  rw [fileRead_openOut]
  split_ifs
  · rfl
  · exact DirRegs.outArr_wf h f

/-- The engine of a visit with its memories, the cursor `MAIN` and the entry pointer. -/
def State.composed (s : State) (main : Cursor) (idx : Nat) (canvas : Mem) (out : List Mem) : Engine :=
  { s.eng with
    regs := { s.eng.regs with out := out }
    tr := { s.eng.tr with
      main := main, pbidx := idx, canvas := canvas, work := { s.eng.tr.work with px := 0, py := 0 } } }

/-- The engine at the start of a visit (46_compositor.md R256). -/
def State.visitOpened (s : State) : Engine := s.composed s.eng.tr.main s.eng.tr.pbidx s.eng.tr.canvas s.openOut

theorem openVisit_eq_visitOpened (s : State) : s.eng.openVisit = s.visitOpened := by
  unfold State.visitOpened
  by_cases hc : s.visitC = 0
  · rw [State.openOut, if_pos hc]
    exact if_pos hc
  · rw [State.openOut, if_neg hc]
    exact if_neg hc

/-- The output arrays after the visit's cell was emitted from a canvas (46_compositor.md R260, R261). -/
def State.emitted (s : State) (canvas : Mem) : List Mem :=
  fileWrite [] s.openOut s.eng.frm.toNat
    (emitBlock s.eng.regs.dw s.visitCell.x s.visitCell.y (blockPixels s.visitCell.w s.visitCell.h) canvas
      (fileRead [] s.openOut s.eng.frm.toNat))

theorem emit_composed (s : State) (main : Cursor) (idx : Nat) (canvas : Mem) :
    (s.composed main idx canvas s.openOut).emit s.visitCell = s.composed main idx canvas (s.emitted canvas) := rfl

/-- The output arrays where the visit's cell leaves them alone: the other frames', and the frame's outside the block. -/
structure State.KeepsOut (s : State) (out : List Mem) : Prop where
  other   : ∀ f a, f ≠ s.eng.frm.toNat → Mem.read (fileRead [] out f) a = (s.eng.regs.outArr f).read a
  outside : ∀ a, OutsideBlock s.eng.regs.dw s.visitCell a →
    Mem.read (fileRead [] out s.eng.frm.toNat) a = if s.visitC = 0 then 0 else (s.eng.regs.outArr s.eng.frm.toNat).read a

theorem openOut_read (s : State) (a : Nat) : Mem.read (fileRead [] s.openOut s.eng.frm.toNat) a =
    if s.visitC = 0 then 0 else (s.eng.regs.outArr s.eng.frm.toNat).read a := by
  rw [fileRead_openOut]
  by_cases hc : s.visitC = 0 <;> simp only [hc, and_true, and_false, if_true, if_false, Mem.read_nil]

theorem openOut_keeps (s : State) : s.KeepsOut s.openOut where
  other f a hf := by rw [fileRead_openOut, if_neg fun h => hf h.1]
  outside a _ := openOut_read s a

section
variable {s : State} {canvas : Mem} (hm : s.eng.regs.memOk)
include hm

theorem emitted_keeps : s.KeepsOut (s.emitted canvas) where
  other f a hf := by rw [State.emitted, fileRead_fileWrite, if_neg hf, (openOut_keeps s).other f a hf]
  outside a ha := by
    rw [State.emitted, fileRead_fileWrite_self, emitBlock_other (openOut_wf hm _) (ne_of_outsideBlock ha), openOut_read]

theorem emitted_inside {x y : Nat} (hx : x < s.visitCell.w) (hy : y < s.visitCell.h) :
    Mem.read (fileRead [] (s.emitted canvas) s.eng.frm.toNat) (blockAddr s.eng.regs.dw s.visitCell x y) =
      canvas.read (blockAddr s.eng.regs.dw s.visitCell x y) := by
  rw [State.emitted, fileRead_fileWrite_self, emitBlock_read _ _ (openOut_wf hm _),
    if_pos (mem_blockAddrs.2 (not_outsideBlock hx hy))]

end

/-- The engine after a visit: its cell is the last occurrence, and the next visit follows (46_compositor.md R256, R263). -/
def State.visited (s : State) (e : Engine) : Engine :=
  (e.record s.visitK s.visitCell).nextCell s.front.nframes fun x => { x with phase := phDfin }

section
variable {s : State} {main : Cursor} {idx : Nat} {canvas : Mem} {out : List Mem}

@[simp] theorem visited_regs {e : Engine} : (s.visited e).regs = e.regs := Engine.nextCell_regs ..

@[simp] theorem visited_tr {e : Engine} : (s.visited e).tr = (e.record s.visitK s.visitCell).tr := Engine.nextCell_tr ..

@[simp] theorem visited_dir {e : Engine} : (s.visited e).dir = e.dir := Engine.nextCell_dir ..

@[simp] theorem visited_free {e : Engine} : (s.visited e).free = e.free := Engine.nextCell_free ..

/-- What every visit leaves beside its block, from what its memories keep. -/
theorem ccellFrame_visited
    (hcanvas : ∀ a, OutsideBlock s.eng.regs.dw s.visitCell a → canvas.read a = s.eng.tr.canvas.read a)
    (hout : s.KeepsOut out) : CcellFrame s { s with eng := s.visited (s.composed main idx canvas out) } s.visitCell := by
  simp only [CcellFrame, visited_regs, visited_tr, visited_dir, visited_free]
  exact ⟨rfl, rfl, hcanvas, hout.other, hout.outside, fun k => fileRead_fileWrite zeroLast _ _ _ k, rfl, rfl, rfl, rfl, rfl,
    rfl, rfl, rfl, walks_nextCell (s := { s with eng.regs.out := out }) phDfin rfl rfl rfl rfl rfl⟩

end

/-! ### The two branches -/

/-- The model's test is the statements' (46_compositor.md R257). -/
theorem fresh_iff (s : State) : s.eng.fresh = true ↔ s.isFresh := by
  have hcell : s.eng.visitCell = s.visitC := rfl
  simp only [Engine.fresh, Bool.and_eq_true, decide_eq_true_iff, State.isFresh, hcell, and_assoc]
  constructor
  · rintro ⟨hlt, htag⟩
    refine ⟨s.eng.tr.pbe[s.eng.tr.pbidx], List.getElem?_eq_getElem hlt, ?_⟩
    rwa [fileRead, List.getD_eq_getElem _ _ hlt] at htag
  · rintro ⟨x, hx, htag⟩
    refine ⟨(List.getElem?_eq_some_iff.1 hx).1, ?_⟩
    rwa [fileRead, List.getD_eq_getElem?_getD, hx]

/-- What a visit does to its cell (46_compositor.md R256). -/
def State.cellBranch (s : State) : EngM Unit :=
  if s.eng.fresh then freshPaint s.ibuf s.visitCell
  else upd (Engine.backReference s.visitCell (fileRead zeroLast s.eng.tr.last s.visitK))

/-- What every visit does after it. -/
def State.afterBranch (s : State) : EngM Unit := do
  upd (Engine.record s.visitK s.visitCell)
  upd (Engine.nextCell s.front.nframes fun x => { x with phase := phDfin })

section
variable {s : State} {e : Engine} {c : Cause}

theorem afterBranch_run : s.afterBranch e = .ok () (s.visited e) := rfl

theorem ccellBody_opened : ccellBody s.ibuf s.front.nframes s.eng =
    (s.cellBranch >>= fun _ => s.afterBranch) s.eng.openVisit := rfl

theorem exec_ccell (h : s.cellBranch s.eng.openVisit = .ok () e) : exec .ccell s = .next { s with eng := s.visited e } :=
  runEng_ok (ccellBody_opened.trans ((bind_ok h).trans afterBranch_run))

theorem ccell_raises (h : s.cellBranch s.eng.openVisit = .error c e) (hdir : e.dir = s.eng.dir) : EngRaises .ccell s c :=
  engRaises_of_run rfl ⟨e, ccellBody_opened.trans (bind_error h), hdir⟩

theorem cellBranch_fresh (h : s.isFresh) : s.cellBranch = freshPaint s.ibuf s.visitCell := if_pos ((fresh_iff s).2 h)

theorem exec_ccell_back (hfresh : ¬ s.isFresh)
    (h : Engine.backReference s.visitCell (fileRead zeroLast s.eng.tr.last s.visitK) s.visitOpened = e) :
    exec .ccell s = .next { s with eng := s.visited e } := by
  refine exec_ccell ?_
  rw [State.cellBranch, if_neg (mt (fresh_iff s).1 hfresh), upd_run, openVisit_eq_visitOpened, h]

/-- Sizes that differ: the block of the canvas is cleared (46_compositor.md R258). -/
theorem backReference_clears {l : LastOcc} (h : l.w ≠ s.visitCell.w ∨ l.h ≠ s.visitCell.h) :
    let cleared := clearBlock s.eng.regs.dw s.visitCell.x s.visitCell.y (blockPixels s.visitCell.w s.visitCell.h)
      s.eng.tr.canvas
    Engine.backReference s.visitCell l s.visitOpened = s.composed s.eng.tr.main s.eng.tr.pbidx cleared s.openOut :=
  if_pos h

/-- Equal sizes: the block is copied on the canvas and emitted (46_compositor.md R259, R260). -/
theorem backReference_copies {l : LastOcc} (hw : l.w = s.visitCell.w) (hh : l.h = s.visitCell.h) :
    let copied := copyBlock s.eng.regs.dw l.x l.y s.visitCell.x s.visitCell.y (blockPixels s.visitCell.w s.visitCell.h)
      s.eng.tr.canvas
    Engine.backReference s.visitCell l s.visitOpened =
      s.composed s.eng.tr.main s.eng.tr.pbidx copied (s.emitted copied) :=
  (if_neg fun h => h.elim (· hw) (· hh)).trans (emit_composed s _ _ _)

end

/-! ### A fresh cell -/

section
variable {s : State} {e : Engine} {g : CellGeom} {t : Quad}

/-- A pixel code, inside the buffer or of no width (46_compositor.md R262; 40_bitcursor.md R138). -/
theorem rd_code {n : Nat} (h : n = 0 ∨ e.tr.main.pos + n ≤ s.lenBits) :
    rd s.ibuf .main n e = .ok (s.bitsAt e.tr.main.pos n) (e.moved .main n e.tr.work) := by
  obtain rfl | hin := h
  · rw [rd_zero, Engine.moved_zero]
    rfl
  · exact rd_inside hin

/-- The engine after `n` bits of pixel codes, with canvas `c`. -/
def Engine.painted (e : Engine) (n : Nat) (c : Mem) : Engine :=
  { e with tr := { e.tr with main := e.tr.main.advance n, canvas := c } }

theorem painted_painted (n k : Nat) (c d : Mem) : (e.painted n c).painted k d = e.painted (n + k) d := by
  simp only [Engine.painted, Cursor.advance, Nat.add_assoc]

/-- One code read, one pixel painted. -/
theorem paintLoop_cons {p : Nat × Nat} {ps : List (Nat × Nat)}
    (h : codeWidth t = 0 ∨ e.tr.main.pos + codeWidth t ≤ s.lenBits) :
    paintLoop s.ibuf g t (p :: ps) e = paintLoop s.ibuf g t ps (e.painted (codeWidth t)
      (paintBlock e.regs.dw g t (fun _ => s.bitsAt e.tr.main.pos (codeWidth t)) [p] e.tr.canvas)) := by
  rw [paintLoop, bind_ok (rd_code h), bind_ok (upd_run _ _)]
  rfl

/-- Codes that stand one after the other, pixel `p`'s at bit `start p`, paint the pixels. -/
theorem paintLoop_ok {start : Nat × Nat → Nat} : ∀ {ps : List (Nat × Nat)} {e : Engine},
    ps.map start = List.range' e.tr.main.pos ps.length (codeWidth t) →
    codeWidth t * ps.length = 0 ∨ e.tr.main.pos + codeWidth t * ps.length ≤ s.lenBits →
    paintLoop s.ibuf g t ps e = .ok () (e.painted (codeWidth t * ps.length)
      (paintBlock e.regs.dw g t (fun p => s.bitsAt (start p) (codeWidth t)) ps e.tr.canvas))
  | [], _, _, _ => rfl
  | p :: ps, e, hstart, hin => by
    rw [List.length_cons, Nat.mul_succ] at hin ⊢
    rw [List.map_cons, List.length_cons, List.range'_succ, List.cons.injEq] at hstart
    obtain ⟨hp, hps⟩ := hstart
    rw [paintLoop_cons (by omega), paintLoop_ok hps (hin.imp (by omega) fun h => ?_), painted_painted, Nat.add_comm, ← hp]
    · rfl
    · change e.tr.main.pos + codeWidth t + codeWidth t * ps.length ≤ s.lenBits
      omega

/-- Codes that run past the end of the buffer (46_compositor.md R256; 40_bitcursor.md R139). -/
theorem paintLoop_past : ∀ {ps : List (Nat × Nat)} {e : Engine}, 1 ≤ codeWidth t * ps.length →
    s.lenBits < e.tr.main.pos + codeWidth t * ps.length →
    ∃ e', paintLoop s.ibuf g t ps e = .error .outOfRange e' ∧ e'.dir = e.dir
  | [], _, hsome, _ => absurd hsome (by simp)
  | p :: ps, e, hsome, hpast => by
    rw [List.length_cons, Nat.mul_succ] at hsome hpast
    by_cases hin : e.tr.main.pos + codeWidth t ≤ s.lenBits
    · rw [paintLoop_cons (.inr hin)]
      refine paintLoop_past (by omega) ?_
      change s.lenBits < e.tr.main.pos + codeWidth t + codeWidth t * ps.length
      omega
    · have hwidth : codeWidth t ≠ 0 := by
        intro h0
        rw [h0] at hsome
        omega
      exact ⟨e, bind_error (rd_error (c := .main) hwidth (not_le.1 hin)), rfl⟩

end

/-- The bit a pixel's code starts at, row by row from `MAIN` on (46_compositor.md R262). -/
def State.codeStart (s : State) (t : Quad) (p : Nat × Nat) : Nat :=
  s.eng.tr.main.pos + codeWidth t * (p.1 + p.2 * s.visitCell.w)

theorem codeStarts (s : State) (t : Quad) : (blockPixels s.visitCell.w s.visitCell.h).map (s.codeStart t) =
    List.range' s.eng.tr.main.pos (blockPixels s.visitCell.w s.visitCell.h).length (codeWidth t) := by
  have hnumbers := congrArg (List.map (s.eng.tr.main.pos + codeWidth t * ·)) (blockPixels_numbers s.visitCell.w s.visitCell.h)
  rw [List.map_map] at hnumbers
  rw [blockPixels_length]
  exact hnumbers.trans (List.ext_getElem (by simp) (by simp))

/-- The canvas after the visit's cell was painted from the quad `t`. -/
def State.paintedCanvas (s : State) (t : Quad) : Mem :=
  paintBlock s.eng.regs.dw s.visitCell t (fun p => s.bitsAt (s.codeStart t p) (codeWidth t))
    (blockPixels s.visitCell.w s.visitCell.h) s.eng.tr.canvas

/-- What follows the pixels of a fresh cell (46_compositor.md R256). -/
def afterPixels (g : CellGeom) : EngM Unit := do
  upd (Engine.emit g)
  upd fun e => { e with tr.pbidx := e.tr.pbidx + 1 }

section
variable {s : State} {x : Entry} (hx : s.eng.tr.pbe[s.eng.tr.pbidx]? = some x)
include hx

theorem freshPaint_opened : freshPaint s.ibuf s.visitCell s.eng.openVisit =
    (paintLoop s.ibuf s.visitCell x.t (blockPixels s.visitCell.w s.visitCell.h) >>= fun _ => afterPixels s.visitCell)
      s.visitOpened := by
  have hentry : fileRead zeroEntry s.eng.tr.pbe s.eng.tr.pbidx = x := by rw [fileRead, List.getD_eq_getElem?_getD, hx]; rfl
  rw [openVisit_eq_visitOpened, ← hentry]
  rfl

theorem exec_ccell_fresh (hfresh : s.isFresh)
    (hin : codeWidth x.t * (s.visitCell.w * s.visitCell.h) = 0 ∨
      s.eng.tr.main.pos + codeWidth x.t * (s.visitCell.w * s.visitCell.h) ≤ s.lenBits) :
    exec .ccell s = .next { s with
      eng := s.visited (s.composed (s.eng.tr.main.advance (codeWidth x.t * (s.visitCell.w * s.visitCell.h)))
        (s.eng.tr.pbidx + 1) (s.paintedCanvas x.t) (s.emitted (s.paintedCanvas x.t))) } := by
  refine exec_ccell ?_
  rw [← blockPixels_length s.visitCell.w] at hin ⊢
  rw [cellBranch_fresh hfresh, freshPaint_opened hx]
  exact bind_ok (paintLoop_ok (e := s.visitOpened) (codeStarts s x.t) hin)

theorem ccell_raises_past (hfresh : s.isFresh) (hsome : 1 ≤ codeWidth x.t * (s.visitCell.w * s.visitCell.h))
    (hpast : s.lenBits < s.eng.tr.main.pos + codeWidth x.t * (s.visitCell.w * s.visitCell.h)) :
    EngRaises .ccell s .outOfRange := by
  rw [← blockPixels_length s.visitCell.w] at hsome hpast
  obtain ⟨e, hrun, hdir⟩ := paintLoop_past (g := s.visitCell) (e := s.visitOpened) hsome hpast
  refine ccell_raises ?_ hdir
  rw [cellBranch_fresh hfresh, freshPaint_opened hx, bind_error hrun]

end

/-! ### `DFIN` -/

section
variable {ndir : BitVec 8} {e : Engine}

theorem finish_regs : (e.finish ndir).regs = e.regs := by
  unfold Engine.finish
  dsimp only
  split <;> rfl

theorem finish_next (h : e.dir.toNat + 1 < ndir.toNat) :
    (e.finish ndir).phase = phDseek ∧ (e.finish ndir).dir.toNat = e.dir.toNat + 1 := by
  have hrun : e.finish ndir = { e with tr := discarded e.free, free := e.free + 1, phase := phDseek, dir := e.dir + 1 } :=
    if_pos h
  rw [hrun]
  exact ⟨rfl, by bv_omega⟩

theorem finish_last (h : ndir.toNat ≤ e.dir.toNat + 1) : (e.finish ndir).phase = phIdle := by
  have hrun : e.finish ndir = { e with tr := discarded e.free, free := e.free + 1, phase := phIdle } := if_neg h.not_gt
  rw [hrun]

end

end Sys2Proof.Machine

open Sys2Proof Sys2Proof.Machine

/-- Settles O52: the codes are read and painted one by one, the painted block is emitted. -/
theorem ccellPaints : Obligations.CcellPaints := by
  intro s x hmem hfresh hx g nb p
  obtain ⟨hcanvas, hout⟩ := hmem
  refine ⟨fun hfit hin => ⟨_, exec_ccell_fresh hx hfresh hin, ?_⟩, ccell_raises_past hx hfresh⟩
  have hpixel {px py : Nat} (hpx : px < g.w) (hpy : py < g.h) := paintBlock_inside (t := x.t)
    (code := fun p => s.bitsAt (s.codeStart x.t p) (codeWidth x.t)) hcanvas hfit hpx hpy
  refine ⟨ccellFrame_visited (fun a ha => paintBlock_outside hcanvas ha) (emitted_keeps hout), fun px py hpx hpy => ?_, ?_⟩
  · simp only [visited_regs, visited_tr]
    exact ⟨hpixel hpx hpy, (emitted_inside hout hpx hpy).trans (hpixel hpx hpy)⟩
  · simp only [visited_tr]
    exact ⟨rfl, rfl⟩

/-- Settles O53: the two sizes decide between a clear and a copy. -/
theorem ccellRefersBack : Obligations.CcellRefersBack := by
  intro s hmem hback g l dw hfit
  obtain ⟨hcanvas, hout⟩ := hmem
  refine ⟨fun hsize => ⟨_, exec_ccell_back hback (backReference_clears hsize), ?_⟩, fun hw hh _ =>
    ⟨_, exec_ccell_back hback (backReference_copies hw hh), ?_⟩⟩
  · refine ⟨ccellFrame_visited (fun a ha => clearBlock_other hcanvas (ne_of_outsideBlock ha)) (openOut_keeps s), ?_⟩
    simp only [visited_regs, visited_tr]
    refine ⟨rfl, rfl, fun x y hx hy => ⟨?_, openOut_read s _⟩⟩
    exact (clearBlock_read _ _ hcanvas _).trans (if_pos (mem_blockAddrs.2 (not_outsideBlock hx hy)))
  · refine ⟨ccellFrame_visited (fun a ha => copyBlock_other hcanvas (ne_of_outsideBlock ha)) (emitted_keeps hout), ?_⟩
    simp only [visited_regs, visited_tr]
    refine ⟨rfl, rfl, fun x y hx hy => ?_⟩
    have hcopy := copyBlock_inside (sx := l.x) (sy := l.y) hcanvas hfit hx hy
    simp only [not_outsideBlock_iff] at hcopy
    exact ⟨hcopy.1, hcopy.2, emitted_inside hout hx hy⟩

/-- Settles O54: the finished direction is written to its entry, and a next direction's number does not wrap. -/
theorem dfinFinishes : Obligations.DfinFinishes := fun _ =>
  ⟨_, rfl, rfl, fun d => fileRead_fileWrite resetRegs _ _ _ d, finish_regs, finish_next, finish_last⟩
end

section
/-!
PROOFS. Every instruction has a next state, and no step of a decode stops the machine (60_exceptions.md R280): the errors of
the spec are next states, and a state whose control registers agree fetches no code that is never issued.
-/

namespace Sys2Proof.Machine

/-! ### Instructions -/

theorem runEng_goesOn (m : EngM Unit) (s : State) : goesOn (runEng m s) := by
  rcases runEng_cases m s with ⟨e, -, hrun⟩ | ⟨c, e, -, hrun⟩ <;> exact ⟨_, hrun⟩

theorem runFront_goesOn (m : FrontM Unit) (k : State → State) (s : State) : goesOn (runFront m k s) := by
  rcases runFront_cases m k s with ⟨f, -, hrun⟩ | ⟨c, f, -, hrun⟩ <;> exact ⟨_, hrun⟩

theorem bcRead_goesOn (cur : CursorSel) (n : Nat) (val : Nat → Int) (s : State) : goesOn (bcRead cur n val s) := by
  rcases bcRead_cases cur n val s with ⟨-, hrun⟩ | ⟨-, -, hrun⟩ <;> exact ⟨_, hrun⟩

theorem execFmtFhdr_goesOn (wb : Widths) (f : FhdrFields) (s : State) : goesOn (execFmtFhdr wb f s) := by
  unfold execFmtFhdr
  dsimp only
  split <;> exact ⟨_, rfl⟩

/-- EVERY INSTRUCTION HAS A NEXT STATE. -/
theorem exec_goesOn (i : Instr) (s : State) : goesOn (exec i s) := by
  cases i with
  | rdbits | rdsbits | rdbit => exact bcRead_goesOn _ _ _ s
  | chdr => exact runFront_goesOn _ _ s
  | dhdr | fgeom | dbox | optchk | bsizes | palv | dgrid | fgrid | rcell | ichk | ccell => exact runEng_goesOn _ s
  | slice => exact runEng_goesOn sliceBody s
  | fmtFhdr wb f => exact execFmtFhdr_goesOn wb f s
  | skip | cons | clone | start | clear | dseek | pxlat | dfin | cfin => exact ⟨_, rfl⟩
  | fmtCont | fmtOfft | fmtDhdr | fmtSizes | fmtPalv | sig | sentinel | widx => exact ⟨_, rfl⟩
  | ecbit | pmask | etbit | rawval | dnibEnd | dnibCont | pixcode0 | pixcode1 | pixcode2 => exact ⟨_, rfl⟩

/-! ### Formats and codes that do not decode -/

/-- A decoder whose every failure is one the spec names an error for (30_encoding.md R116, 20_memory.md R68). -/
def FailsByName {α : Type} (m : Except DecodeErr α) : Prop := ∀ e, m = .error e → ∃ c, decodeErrCause e = some c

section
variable {α β : Type}

theorem FailsByName.ok (a : α) : FailsByName (.ok a) := fun _ h => nomatch h

theorem FailsByName.error {e : DecodeErr} {c : Cause} (h : decodeErrCause e = some c) :
    FailsByName (.error e : Except DecodeErr α) := fun _ he => by cases he; exact ⟨c, h⟩

theorem FailsByName.bind {m : Except DecodeErr α} {k : α → Except DecodeErr β} (hm : FailsByName m)
    (hk : ∀ a, FailsByName (k a)) : FailsByName (m >>= k) := fun e h => by
  rcases except_bind_error h with hfirst | ⟨a, -, hrest⟩
  · exact hm e hfirst
  · exact hk a e hrest

theorem FailsByName.ite {p : Prop} [Decidable p] {m k : Except DecodeErr α} (hm : FailsByName m) (hk : FailsByName k) :
    FailsByName (if p then m else k) := by split <;> assumption

end

theorem takeField_failsByName (n : Nat) (bs : List Bool) : FailsByName (takeField n bs) := .ite (.ok _) (.error rfl)

theorem takeWords_failsByName : ∀ (n : Nat) (bs : List Bool), FailsByName (takeWords n bs)
  | 0, _ => .ok _
  | n + 1, bs => (takeField_failsByName 32 bs).bind fun ⟨_, bs⟩ => (takeWords_failsByName n bs).bind fun _ => .ok _

theorem takeSize_failsByName (present : Bool) (bs : List Bool) : FailsByName (takeSize present bs) :=
  .ite ((takeField_failsByName 20 bs).bind fun _ => .ok _) (.ok _)

theorem decodeCont_failsByName (bs : List Bool) : FailsByName (decodeCont bs) :=
  (takeField_failsByName 8 bs).bind fun ⟨_, bs⟩ => .ite (.error rfl) <|
    (takeField_failsByName 8 bs).bind fun ⟨_, bs⟩ => (takeField_failsByName 8 bs).bind fun ⟨_, bs⟩ =>
    (takeField_failsByName 32 bs).bind fun ⟨_, bs⟩ => (takeField_failsByName 32 bs).bind fun ⟨_, bs⟩ =>
    .ite (.error rfl) <| (takeField_failsByName 32 bs).bind fun _ => .ok _

theorem decodeDhdr_failsByName (bs : List Bool) : FailsByName (decodeDhdr bs) :=
  (takeField_failsByName 32 bs).bind fun ⟨_, bs⟩ => (takeField_failsByName 2 bs).bind fun ⟨_, bs⟩ =>
    (takeField_failsByName 4 bs).bind fun ⟨_, bs⟩ => (takeField_failsByName 4 bs).bind fun ⟨_, bs⟩ =>
    (takeField_failsByName 4 bs).bind fun ⟨_, bs⟩ => (takeField_failsByName 4 bs).bind fun ⟨_, bs⟩ =>
    (takeField_failsByName 4 bs).bind fun ⟨_, bs⟩ => (takeField_failsByName 4 bs).bind fun ⟨_, bs⟩ =>
    (takeField_failsByName 4 bs).bind fun _ => .ok _

theorem decodeFhdr_failsByName (wb : Widths) (bs : List Bool) : FailsByName (decodeFhdr wb bs) :=
  (takeField_failsByName _ bs).bind fun ⟨_, bs⟩ => (takeField_failsByName _ bs).bind fun ⟨_, bs⟩ =>
    (takeField_failsByName _ bs).bind fun ⟨_, bs⟩ => (takeField_failsByName _ bs).bind fun ⟨_, bs⟩ =>
    (takeField_failsByName _ bs).bind fun ⟨_, bs⟩ => (takeField_failsByName _ bs).bind fun ⟨_, bs⟩ =>
    (takeField_failsByName _ bs).bind fun ⟨_, bs⟩ => (takeField_failsByName _ bs).bind fun _ => .ok _

theorem decodeSizes_failsByName (cflags : BitVec 2) (bs : List Bool) : FailsByName (decodeSizes cflags bs) :=
  (takeSize_failsByName _ bs).bind fun ⟨_, bs⟩ => (takeField_failsByName 20 bs).bind fun ⟨_, bs⟩ =>
    .ite ((takeField_failsByName 20 bs).bind fun ⟨_, bs⟩ => (takeField_failsByName 20 bs).bind fun _ => .ok _) (.ok _)

theorem decodeCode_failsByName (k : CodeFmt) (bs : List Bool) : FailsByName (decodeCode k bs) := by
  cases k with
  | cont => exact decodeCont_failsByName bs
  | offt n => exact (takeWords_failsByName n bs).bind fun _ => .ok _
  | dhdr => exact decodeDhdr_failsByName bs
  | fhdr wb => exact decodeFhdr_failsByName wb bs
  | sizes cf => exact decodeSizes_failsByName cf bs
  | sig | sentinel => exact (takeField_failsByName _ bs).bind fun _ => .ite (.ok _) (.error rfl)
  | dnib => exact (takeField_failsByName _ bs).bind fun _ => .ite (.ok _) (.ok _)
  | pixcode0 => exact .ok _
  | palv | widx | ecbit | pmask | etbit | rawval | pixcode1 | pixcode2 =>
    exact (takeField_failsByName _ bs).bind fun _ => .ok _

theorem decode_code_failsByName (k : CodeFmt) (bs : List Bool) : FailsByName (decode (.code k bs)) :=
  (decodeCode_failsByName k bs).bind fun _ => .ok _

/-! ### What is never fetched -/

/-- Only a code that is never issued is refused (30_encoding.md R120, R121, R123). -/
theorem fetchedOf_refuse {d : BitVec 9} {a : Except DecodeErr Instr} {r : Refusal} (h : fetchedOf d a = .refuse r) :
    ∃ e ∈ [DecodeErr.badCursor, .badWidth, .neverTaken], a = .error e := by
  cases a with
  | ok i => cases h
  | error e => cases e <;> simp [fetchedOf, decodeErrCause] at h ⊢

theorem fetchCode_ne_refuse (d : BitVec 9) (k : CodeFmt) (bs : List Bool) (r : Refusal) :
    fetchedOf d (decode (.code k bs)) ≠ .refuse r := fun h => by
  obtain ⟨e, he, herr⟩ := fetchedOf_refuse h
  obtain ⟨c, hc⟩ := decode_code_failsByName k bs e herr
  have unnamed : ∀ e ∈ [DecodeErr.badCursor, .badWidth, .neverTaken], decodeErrCause e = none := by decide
  exact nomatch hc.symm.trans (unnamed e he)

/-- `PHASE` codes 0 to 17 are those taken (30_encoding.md R123). -/
theorem fetchSeq_ne_refuse {p : BitVec 5} (hp : p.toNat ≤ 17) (d : BitVec 9) (r : Refusal) :
    fetchedOf d (decode (.seq p)) ≠ .refuse r := fun h => by
  obtain ⟨e, he, herr⟩ := fetchedOf_refuse h
  have taken : ∀ p : BitVec 5, p.toNat ≤ 17 →
      ∀ e ∈ [DecodeErr.badCursor, .badWidth, .neverTaken], decode (.seq p) ≠ .error e := by decide
  exact taken p hp e he herr

theorem engPhaseOk.le {p : BitVec 5} (h : engPhaseOk p) : p.toNat ≤ 17 := by
  rcases h with rfl | ⟨-, hle⟩
  · decide
  · omega

theorem frontPhaseOk.le {p : BitVec 5} (h : frontPhaseOk p) : p.toNat ≤ 17 := by
  rcases h with rfl | rfl | rfl <;> decide

/-- A state whose control registers agree fetches no code that is never issued, unless it is a `BCOP` word. -/
theorem State.CtlOk.fetchBlock_ne_refuse {s : State} (hs : s.CtlOk) (hport : ∀ w n20, s.port ≠ some (.bcop w n20))
    (r : Refusal) : fetchBlock s ≠ .refuse r := by
  by_cases hb : s.status = stBusy
  · rcases hp : s.port with _ | ⟨w, n20⟩ | k
    · by_cases he : s.eng.phase = phIdle
      · exact fetchBlock_front hb hp he ▸ fetchSeq_ne_refuse hs.frontPhase.le _ r
      · exact fetchBlock_engine hb hp he ▸ fetchSeq_ne_refuse hs.engPhase.le _ r
    · exact absurd hp (hport w n20)
    · exact fetchBlock_port hb hp ▸ fetchCode_ne_refuse _ _ _ r
  · rw [fetchBlock_notBusy hb]
    exact nofun

theorem runFetched_goesOn {f : Fetched} (hf : ∀ r, f ≠ .refuse r) (s : State) : goesOn (runFetched f s) := by
  cases f with
  | instr i => exact exec_goesOn i s
  | wait | noOp | error => exact ⟨_, rfl⟩
  | refuse r => exact absurd rfl (hf r)

end Sys2Proof.Machine

open Sys2Proof Sys2Proof.Machine

/-- Settles O7: a pending command decodes, and the block's own fetch is no refusal. -/
theorem nothingStops : Obligations.NothingStops := by
  refine ⟨exec_goesOn, fun s hs hin hport => ?_⟩
  by_cases hctrl : s.ctrl = 0
  · have block {u : State} (hu : s.inputs = [] ∧ u = s ∨ ∃ rest, s.inputs = none :: rest ∧ u = { s with inputs := rest }) :
        goesOn (step s) := step_block hctrl hu ▸ runFetched_goesOn (hs.fetchBlock_ne_refuse hport) u
    rcases hin with hin | ⟨rest, hin⟩
    · exact block (.inl ⟨hin, rfl⟩)
    · exact block (.inr ⟨rest, hin, rfl⟩)
  · obtain ⟨i, hd⟩ := decode_cmd_ok s.ctrl hctrl
    rw [step_command hctrl, hd]
    exact exec_goesOn i s
end

section
/-!
PROOFS. The record of a raise (60_exceptions.md R281), and what changes `irq` (R290).
-/

namespace Sys2Proof.Machine

theorem beginDecode_irq (s : State) : (beginDecode s).irq = s.irq := by
  unfold beginDecode; split <;> rfl

theorem ackClear_irq (s : State) :
    (ackClear s).irq = if s.status = stDone ∨ s.status = stError then 0 else s.irq := by
  unfold ackClear; split <;> rfl

theorem dispatchEngine_irq (s : State) : (dispatchEngine s).irq = s.irq := by
  unfold dispatchEngine; split <;> rfl

/-- A command changes `irq` only by an accepted `CLEAR` (41_container_and_sequencer.md R151). -/
theorem command_irq {i : Instr} {s t : State} (hd : decode (.cmd s.ctrl) = .ok i) (h : exec i s = .next t) :
    t.irq = s.irq ∨ (t.irq = 0 ∧ s.ctrl.getLsbD 1 = true ∧ (s.status = stDone ∨ s.status = stError)) := by
  have cleared : s.ctrl.getLsbD 1 = true → t.irq = (if s.status = stDone ∨ s.status = stError then 0 else s.irq) →
      t.irq = s.irq ∨ (t.irq = 0 ∧ s.ctrl.getLsbD 1 = true ∧ (s.status = stDone ∨ s.status = stError)) := by
    intro hbit hirq
    split at hirq
    · next hstopped => exact .inr ⟨hirq, hbit, hstopped⟩
    · exact .inl hirq
  rcases decode_cmd_kind hd with ⟨-, rfl⟩ | ⟨hc, rfl⟩ | ⟨hc, rfl⟩ <;> cases h
  · exact .inl (beginDecode_irq _)
  · exact cleared (hc ▸ rfl) (ackClear_irq _)
  · exact cleared (hc ▸ rfl) ((beginDecode_irq _).trans (ackClear_irq _))

/-- An instruction other than a command changes `irq` only at the change to `DONE` or `ERROR`, to `IRQ_EN`. -/
theorem exec_irq {i : Instr} {s t : State} (hcmd : isCmd i = false) (h : exec i s = .next t) :
    t.irq = s.irq ∨ (t.irq = s.irqEn ∧ (t.status = stDone ∨ t.status = stError)) := by
  obtain ⟨-, hirqEn, -⟩ := State.hostSide_eq_iff.1 (exec_frame h).host
  cases exec_effect h with
  | same _ hc => exact .inl hc.irq
  | raised u c d _ _ ht =>
    have hirq : t.irq = t.irqEn := ht ▸ rfl
    exact .inr ⟨hirq.trans hirqEn, .inr (ht ▸ rfl)⟩
  | dispatched f _ ht => exact .inl (ht ▸ dispatchEngine_irq _)
  | finished _ ht => exact .inr ⟨ht ▸ rfl, .inl (ht ▸ rfl)⟩
  | command hi => exact absurd (hi.symm.trans hcmd) (by decide)

theorem BlockTurn.irqEn {s u : State} (hu : BlockTurn s u) : u.irqEn = s.irqEn := by
  rcases hu with rfl | ⟨rest, -, rfl⟩ <;> rfl

end Sys2Proof.Machine

open Sys2Proof Sys2Proof.Machine

/-- Settles O22: the record is `takeError`'s own, and a block in `ERROR` is not in `DONE`. -/
theorem raiseRecord : Obligations.RaiseRecord := fun c d s =>
  ⟨takeError_raises c d s.port s, resultRead_notDone (show stError ≠ stDone by decide)⟩

/-- Settles O19: a command, the reset input, a raise and `CFIN` are the only cases of a step that change `irq`. -/
theorem irqChanges : Obligations.IrqChanges := by
  intro s t hstep
  have ran {u : State} {i : Instr} (hb : s.status = stBusy) (hu : BlockTurn s u) (hcmd : isCmd i = false)
      (he : exec i u = .next t) :
      t.irq = s.irq ∨ (t.irq = s.irqEn ∧ s.status = stBusy ∧ (t.status = stDone ∨ t.status = stError)) := by
    rcases exec_irq hcmd he with hsame | ⟨hirq, hst⟩
    · exact .inl (hsame.trans hu.fields.1.irq)
    · exact .inr ⟨hirq.trans hu.irqEn, hb, hst⟩
  cases step_is hstep with
  | cmd i _ hd he => exact (command_irq hd he).imp_right fun hclear => .inr (.inl hclear)
  | host r rest hctrl hin he =>
    rcases hostAccess_cases he with ⟨rfl, rfl⟩ | ⟨hc, -, -⟩
    · exact .inr (.inr (.inr ⟨rfl, hctrl, by rw [hin]; rfl⟩))
    · exact .inl hc.irq
  | wait u _ hu ht => exact .inl (ht ▸ hu.fields.1.irq)
  | noOp u _ _ hu ht => exact .inl (ht ▸ hu.fields.1.irq)
  | raise u c d _ hb hu _ ht => exact .inr (.inl ⟨ht ▸ hu.irqEn, hb, .inr (ht ▸ rfl)⟩)
  | bcop u i w n20 _ hb hu _ hd he => exact (ran hb hu (decode_bcop_kind hd).2 he).imp_right .inl
  | code u i k b _ hb hu hd he => exact (ran hb hu (decode_code_kind hd).2 he).imp_right .inl
  | seq u i p _ hb hu _ _ hd he => exact (ran hb hu (decode_seq_kind hd).2.1 he).imp_right .inl
end

section
/-!
PROOFS. The causes each instruction can raise, and the record it raises them with (60_exceptions.md R281, R283, R285).
-/

namespace Sys2Proof.Machine

/-! ### The operations of the engine's steps -/

/-- An operation of an engine step keeps the direction `d` in work, and what it raises is one of `l`. -/
abbrev RaisesOnly {α : Type} (d : BitVec 8) (l : List Cause) (m : EngM α) : Prop :=
  EngKeeps (fun e => e.dir = d) (fun c e => c ∈ l ∧ e.dir = d) m

section
variable {d : BitVec 8} {l : List Cause}

/-- A write that leaves the direction alone. -/
theorem upd_raisesOnly {f : Engine → Engine} (hf : ∀ e, (f e).dir = e.dir := by exact fun _ => rfl) : RaisesOnly d l (upd f) :=
  .upd fun e h => (hf e).trans h

theorem updW_raisesOnly (f : Work → Work) : RaisesOnly d l (updW f) := .updW fun _ _ h => h

theorem goto_raisesOnly (p : BitVec 5) : RaisesOnly d l (goto p) := .goto fun _ h => h

theorem updFG_raisesOnly (f : Nat) (g : FrameGeom → FrameGeom) : RaisesOnly d l (updFG f g) := .updFG f g fun _ _ h => h

theorem skp_raisesOnly (c : EngCursor) (n : Nat) : RaisesOnly d l (skp c n) := .skp c n fun _ _ h => h

theorem engCheck_raisesOnly (b : Bool) {c : Cause} (hc : c ∈ l) : RaisesOnly d l (engCheck b c) :=
  .check b fun _ h _ => ⟨hc, h⟩

theorem checkFrame_raisesOnly (f : Nat) (hbu : .bottomUpFlag ∈ l) (hempty : .emptyBox ∈ l) :
    RaisesOnly d l (checkFrame f) := .checkFrame f (fun _ h => ⟨hbu, h⟩) fun _ h => ⟨hempty, h⟩

theorem nextFrame_raisesOnly (n : BitVec 32) {done : Engine → Engine} (hd : ∀ e, (done e).dir = e.dir) :
    RaisesOnly d l (upd (Engine.nextFrame n done)) :=
  .upd fun _ h => nextFrame_keeps (P := fun e => e.dir = d) (fun _ _ h => h) (fun e h => (hd e).trans h) h

theorem nextCell_raisesOnly (n : BitVec 32) {done : Engine → Engine} (hd : ∀ e, (done e).dir = e.dir) :
    RaisesOnly d l (upd (Engine.nextCell n done)) :=
  .upd fun _ h => nextCell_keeps (P := fun e => e.dir = d) (fun _ _ _ _ h => h) (fun e h => (hd e).trans h) h

/-! Those that read raise the one cause of a read (40_bitcursor.md R139). -/

section
variable (hl : .outOfRange ∈ l) (b : Buf)
include hl

theorem rd_raisesOnly (c : EngCursor) (n : Nat) : RaisesOnly d l (rd b c n) := .rd b c n (fun _ _ h => h) fun _ h => ⟨hl, h⟩

theorem rds_raisesOnly (c : EngCursor) (n : Nat) : RaisesOnly d l (rds b c n) :=
  .rds b c n (fun _ _ h => h) fun _ h => ⟨hl, h⟩

theorem widthLoop_raisesOnly (is : List (Fin 7)) : RaisesOnly d l (widthLoop b is) :=
  .widthLoop (P := fun e => e.dir = d) (E := fun c e => c ∈ l ∧ e.dir = d) b (fun _ _ h => h) (fun _ h => ⟨hl, h⟩)
    (fun _ _ _ h => h) is

theorem readSize_raisesOnly (p : Bool) : RaisesOnly d l (readSize b p) :=
  .readSize b p (fun _ _ h => h) fun _ h => ⟨hl, h⟩

theorem readMask_raisesOnly (n : BitVec 20) (prev : Option Nat) : RaisesOnly d l (readMask b n prev) :=
  .readMask b n prev (fun _ _ _ h => h) (fun _ h => ⟨hl, h⟩) fun _ _ h => h

theorem readValues_raisesOnly (n : BitVec 20) : RaisesOnly d l (readValues b n) :=
  .readValues b n (fun _ _ _ h => h) (fun _ h => ⟨hl, h⟩) fun _ _ h => h

theorem paintLoop_raisesOnly (g : CellGeom) (t : Quad) (ps : List (Nat × Nat)) : RaisesOnly d l (paintLoop b g t ps) :=
  .paintLoop (P := fun e => e.dir = d) (E := fun c e => c ∈ l ∧ e.dir = d) b g t (fun _ _ h => h) (fun _ h => ⟨hl, h⟩)
    (fun _ _ _ _ h => h) ps

theorem palLoop_raisesOnly : ∀ k i : Nat, RaisesOnly d l (palLoop b i k)
  | 0, _ => .pure ()
  | k + 1, i => (rd_raisesOnly hl b _ _).bind fun _ => (upd_raisesOnly).bind fun _ =>
      palLoop_raisesOnly k (i + 1)

theorem readFrame_raisesOnly (f : Nat) (wb : Widths) : RaisesOnly d l (readFrame b f wb) :=
  (skp_raisesOnly _ _).bind fun _ =>
    (rd_raisesOnly hl b _ _).bind fun _ => (updFG_raisesOnly f _).bind fun _ =>
    (rd_raisesOnly hl b _ _).bind fun _ => (updFG_raisesOnly f _).bind fun _ =>
    (rds_raisesOnly hl b _ _).bind fun _ => (updFG_raisesOnly f _).bind fun _ =>
    (rds_raisesOnly hl b _ _).bind fun _ => (updFG_raisesOnly f _).bind fun _ =>
    (rd_raisesOnly hl b _ _).bind fun _ => (updFG_raisesOnly f _).bind fun _ =>
    (rd_raisesOnly hl b _ _).bind fun _ => (updFG_raisesOnly f _).bind fun _ =>
    (rd_raisesOnly hl b _ _).bind fun _ => updFG_raisesOnly f _

end

/-! ### The engine's steps: each raises only what the cause table lists for it -/

theorem dhdrBody_raisesOnly (b : Buf) : RaisesOnly d (mayRaise .dhdr) (dhdrBody b) :=
  have hread := by decide
  (rd_raisesOnly hread b _ _).bind fun _ => (upd_raisesOnly).bind fun _ =>
    (rd_raisesOnly hread b _ _).bind fun _ => (upd_raisesOnly).bind fun _ =>
    (widthLoop_raisesOnly hread b _).bind fun _ => upd_raisesOnly

theorem fgeomBody_raisesOnly (b : Buf) (n : BitVec 32) : RaisesOnly d (mayRaise .fgeom) (fgeomBody b n) :=
  EngKeeps.get.bind fun _ => (readFrame_raisesOnly (by decide) b _ _).bind fun _ =>
    (checkFrame_raisesOnly _ (by decide) (by decide)).bind fun _ => (updFG_raisesOnly _ _).bind fun _ =>
    (upd_raisesOnly).bind fun _ => nextFrame_raisesOnly n fun _ => rfl

theorem dboxBody_raisesOnly (cap : Option Nat) : RaisesOnly d (mayRaise .dbox) (dboxBody cap) :=
  (upd_raisesOnly).bind fun _ => EngKeeps.get.bind fun _ =>
    (engCheck_raisesOnly _ (by decide)).bind fun _ => goto_raisesOnly _

theorem optchkBody_raisesOnly : RaisesOnly d (mayRaise .optchk) optchkBody :=
  EngKeeps.get.bind fun _ => (engCheck_raisesOnly _ (by decide)).bind fun _ => goto_raisesOnly _

theorem bsizesBody_raisesOnly (b : Buf) : RaisesOnly d (mayRaise .bsizes) (bsizesBody b) :=
  have hread := by decide
  EngKeeps.get.bind fun _ =>
    (readSize_raisesOnly hread b _).bind fun _ => (upd_raisesOnly).bind fun _ =>
    (readSize_raisesOnly hread b _).bind fun _ => (upd_raisesOnly).bind fun _ =>
    (readSize_raisesOnly hread b _).bind fun _ => (upd_raisesOnly).bind fun _ =>
    (readSize_raisesOnly hread b _).bind fun _ => (upd_raisesOnly).bind fun _ => goto_raisesOnly _

theorem palvBody_raisesOnly (b : Buf) : RaisesOnly d (mayRaise .palv) (palvBody b) :=
  (upd_raisesOnly).bind fun _ => (palLoop_raisesOnly (by decide) b 256 0).bind fun _ => goto_raisesOnly _

theorem dgridBody_raisesOnly (cap : Option Nat) : RaisesOnly d (mayRaise .dgrid) (dgridBody cap) :=
  (upd_raisesOnly).bind fun _ => EngKeeps.get.bind fun _ =>
    (engCheck_raisesOnly _ (by decide)).bind fun _ => (upd_raisesOnly).bind fun _ =>
    upd_raisesOnly

theorem fgridBody_raisesOnly (cap : Option Nat) (n : BitVec 32) : RaisesOnly d (mayRaise .fgrid) (fgridBody cap n) :=
  (upd_raisesOnly).bind fun _ => EngKeeps.get.bind fun _ =>
    (engCheck_raisesOnly _ (by decide)).bind fun _ => (upd_raisesOnly).bind fun _ =>
    nextFrame_raisesOnly n fun _ => rfl

theorem freshCell_raisesOnly (b : Buf) (cap prev : Option Nat) : RaisesOnly d (mayRaise .rcell) (freshCell b cap prev) :=
  EngKeeps.get.bind fun _ => (readValues_raisesOnly (by decide) b _).bind fun _ => EngKeeps.get.bind fun _ =>
    (engCheck_raisesOnly _ (by decide)).bind fun _ => upd_raisesOnly

theorem rcellBody_raisesOnly (b : Buf) (cap : Option Nat) (n : BitVec 32) :
    RaisesOnly d (mayRaise .rcell) (rcellBody b cap n) :=
  EngKeeps.get.bind fun _ => (updW_raisesOnly _).bind fun _ => (readMask_raisesOnly (by decide) b _ _).bind fun _ =>
    (EngKeeps.ite (.pure ()) (freshCell_raisesOnly b cap _)).bind fun _ => nextCell_raisesOnly n fun _ => rfl

theorem ichkBody_raisesOnly : RaisesOnly d (mayRaise .ichk) ichkBody :=
  EngKeeps.get.bind fun _ => (engCheck_raisesOnly _ (by decide)).bind fun _ =>
    (engCheck_raisesOnly _ (by decide)).bind fun _ => (engCheck_raisesOnly _ (by decide)).bind fun _ =>
    (engCheck_raisesOnly _ (by decide)).bind fun _ => (upd_raisesOnly).bind fun _ =>
    upd_raisesOnly

theorem Engine.openVisit_dir (e : Engine) : e.openVisit.dir = e.dir := by
  unfold Engine.openVisit; dsimp only; split <;> rfl

theorem Engine.backReference_dir (g : CellGeom) (o : LastOcc) (e : Engine) : (e.backReference g o).dir = e.dir := by
  unfold Engine.backReference; split <;> rfl

theorem freshPaint_raisesOnly (b : Buf) (g : CellGeom) : RaisesOnly d (mayRaise .ccell) (freshPaint b g) :=
  EngKeeps.get.bind fun _ => (paintLoop_raisesOnly (by decide) b g _ _).bind fun _ =>
    (upd_raisesOnly).bind fun _ => upd_raisesOnly

theorem ccellBody_raisesOnly (b : Buf) (n : BitVec 32) : RaisesOnly d (mayRaise .ccell) (ccellBody b n) :=
  EngKeeps.get.bind fun _ => (upd_raisesOnly Engine.openVisit_dir).bind fun _ =>
    (EngKeeps.ite (freshPaint_raisesOnly b _) (upd_raisesOnly (Engine.backReference_dir _ _))).bind fun _ =>
    (upd_raisesOnly).bind fun _ => nextCell_raisesOnly n fun _ => rfl

end

/-! ### What a step to `ERROR` is -/

/-- If `i` took `s` to `ERROR` at `t`, it raised one of its own causes, with its own `ERRDIR`. -/
def RaisesOwn (i : Instr) (s t : State) : Prop := t.status = stError → ∃ c ∈ mayRaise i, Raises s t c (raisesAs i s)

theorem RaisesOwn.notError {i : Instr} {s t : State} (h : t.status ≠ stError) : RaisesOwn i s t := fun ht => absurd ht h

/-- The verdict on a container header is a cause the table lists for `CHDR` (41_container_and_sequencer.md R154). -/
theorem State.chdrVerdict_mem {s : State} {c : Cause} (h : s.chdrVerdict = some c) : c ∈ mayRaise .chdr := by
  unfold State.chdrVerdict at h
  split_ifs at h <;> cases h <;> decide

/-- The two refusals of a frame header (43_frame_geometry.md R191). -/
theorem frameChecks_mem {g : FrameGeom} {c : Cause} (h : frameChecks g = .error c) : c ∈ [Cause.bottomUpFlag, .emptyBox] := by
  unfold frameChecks at h
  split_ifs at h <;> cases h <;> decide

section
variable {i : Instr} {s t : State} (hs : s.status ≠ stError)
include hs

/-- A step of the engine: its operations raise its causes, and nothing but the engine differs when they do. -/
theorem runEng_raisesOwn {m : EngM Unit} (hm : RaisesOnly s.eng.dir (mayRaise i) m)
    (hdir : raisesAs i s = s.eng.dir.setWidth 9) (h : runEng m s = .next t) : RaisesOwn i s t := by
  rcases runEng_cases m s with ⟨e, -, hrun⟩ | ⟨c, e, herr, hrun⟩ <;> cases hrun.symm.trans h
  · exact .notError hs
  · obtain ⟨hc, he⟩ := (hm s.eng rfl).2 c e herr
    have herrDir : e.errDir = raisesAs i s := by rw [hdir, Engine.errDir, he]
    exact fun _ => ⟨c, hc, herrDir ▸ takeError_raises c e.errDir s.port { s with eng := e }⟩

theorem bcRead_raisesOwn {cur : CursorSel} {n : Nat} {val : Nat → Int} (hi : .outOfRange ∈ mayRaise i)
    (hdir : raisesAs i s = s.cursorDir cur) (h : bcRead cur n val s = .next t) : RaisesOwn i s t := by
  rcases bcRead_cases cur n val s with ⟨-, hrun⟩ | ⟨-, -, hrun⟩ <;> cases hrun.symm.trans h
  · exact .notError ((s.setCursor_status cur _).trans_ne hs)
  · exact fun _ => ⟨.outOfRange, hi, hdir ▸ takeError_raises _ _ none s⟩

theorem chdr_raisesOwn (h : exec .chdr s = .next t) : RaisesOwn .chdr s t := by
  cases hv : s.chdrVerdict with
  | none =>
    cases (exec_chdr_parses hv).symm.trans h
    exact .notError ((dispatchEngine_status _).trans_ne hs)
  | some c =>
    obtain ⟨f, hrun⟩ := exec_chdr_raises hv
    cases hrun.symm.trans h
    exact fun _ => ⟨c, State.chdrVerdict_mem hv, takeError_raises c dirFrontEnd s.port { s with front := f }⟩

theorem fmtFhdr_raisesOwn {wb : Widths} {f : FhdrFields} (h : exec (.fmtFhdr wb f) s = .next t) :
    RaisesOwn (.fmtFhdr wb f) s t := by
  change execFmtFhdr wb f s = .next t at h
  unfold execFmtFhdr at h
  dsimp only at h
  split at h <;> cases h
  · exact .notError hs
  · next c hc => exact fun _ => ⟨c, frameChecks_mem hc, takeError_raises c _ none _⟩

theorem ackClear_notError : (ackClear s).status ≠ stError := by
  rw [ackClear_status]
  split
  · decide
  · exact hs

theorem beginDecode_notError : (beginDecode s).status ≠ stError := by
  rw [beginDecode_status]
  split
  · decide
  · exact hs

end

/-- AN INSTRUCTION RAISES ITS OWN CAUSES ONLY. -/
theorem exec_raisesOwn {i : Instr} {s t : State} (hs : s.status ≠ stError) (h : exec i s = .next t) : RaisesOwn i s t := by
  have hs₀ : ({ s with ctrl := 0 } : State).status ≠ stError := hs
  cases i with
  | rdbits cur n => exact bcRead_raisesOwn hs (.head _) (raisesAs_read cur n s).1 h
  | rdsbits cur n => exact bcRead_raisesOwn hs (.head _) (raisesAs_read cur n s).2.1 h
  | rdbit cur => exact bcRead_raisesOwn hs (.head _) (raisesAs_read cur 0 s).2.2 h
  | skip cur | clone cur => cases h; exact .notError ((s.setCursor_status cur _).trans_ne hs)
  | start c =>
    cases h
    cases c
    · exact .notError (beginDecode_notError hs₀)
    · exact .notError (beginDecode_notError (ackClear_notError hs₀))
  | clear st =>
    cases h
    cases st
    · exact .notError (ackClear_notError hs₀)
    · exact .notError (beginDecode_notError (ackClear_notError hs₀))
  | chdr => exact chdr_raisesOwn hs h
  | dhdr => exact runEng_raisesOwn hs (dhdrBody_raisesOnly _) rfl h
  | fgeom => exact runEng_raisesOwn hs (fgeomBody_raisesOnly _ _) rfl h
  | dbox => exact runEng_raisesOwn hs (dboxBody_raisesOnly _) rfl h
  | optchk => exact runEng_raisesOwn hs optchkBody_raisesOnly rfl h
  | bsizes => exact runEng_raisesOwn hs (bsizesBody_raisesOnly _) rfl h
  | palv => exact runEng_raisesOwn hs (palvBody_raisesOnly _) rfl h
  | dgrid => exact runEng_raisesOwn hs (dgridBody_raisesOnly _) rfl h
  | fgrid => exact runEng_raisesOwn hs (fgridBody_raisesOnly _ _) rfl h
  | rcell => exact runEng_raisesOwn hs (rcellBody_raisesOnly _ _ _) rfl h
  | ichk => exact runEng_raisesOwn hs ichkBody_raisesOnly rfl h
  | ccell => exact runEng_raisesOwn hs (ccellBody_raisesOnly _ _) rfl h
  | cfin => cases h; exact .notError (show stDone ≠ stError by decide)
  | fmtFhdr => exact fmtFhdr_raisesOwn hs h
  | cons | dseek | slice | pxlat | dfin => cases h; exact .notError hs
  | fmtCont | fmtOfft | fmtDhdr | fmtSizes | fmtPalv | sig | sentinel | widx => cases h; exact .notError hs
  | ecbit | pmask | etbit | rawval | dnibEnd | dnibCont | pixcode0 | pixcode1 | pixcode2 => cases h; exact .notError hs

end Sys2Proof.Machine

open Sys2Proof Sys2Proof.Machine

/-- Settles O23: from a state not in `ERROR`, what an instruction raises is its own. -/
theorem whatInstructionsRaise : Obligations.WhatInstructionsRaise := fun _ _ _ h hs => exec_raisesOwn hs h
end

section
/-!
PROOFS. Every byte memory stays in canonical form (log 5). An instruction writes no memory, or it is one of the six that store
pixels: those keep the canvas and the output arrays in form operation by operation.
-/

namespace Sys2Proof.Machine

/-! ### The pixel memories of an engine -/

/-- The canvas and the output arrays in work are in canonical form. -/
structure Engine.PixelsOk (e : Engine) : Prop where
  canvas : Mem.wf e.tr.canvas = true
  out    : e.regs.memOk

/-- One output array written in form. -/
theorem DirRegs.memOk.updOut {r : DirRegs} (h : r.memOk) (f : Nat) {g : Mem → Mem}
    (hg : ∀ m, Mem.wf m = true → Mem.wf (g m) = true) : (r.updOut f g).memOk := by
  intro m hm
  rcases mem_fileWrite hm with rfl | rfl | hold
  · exact hg _ (r.outArr_wf h f)
  · rfl
  · exact h m hold

namespace Engine.PixelsOk
variable {e : Engine} (h : e.PixelsOk)
include h

theorem congr {e' : Engine} (hp : e'.pixels = e.pixels) : e'.PixelsOk := by
  obtain ⟨hcanvas, hout⟩ := Prod.mk.inj hp
  exact ⟨hcanvas ▸ h.canvas, fun m hm => h.out m (hout ▸ hm)⟩

theorem setCur (c : EngCursor) (v : Cursor) : { e with tr := e.tr.setCur c v }.PixelsOk := h.congr (e.pixels_setCur c v)

theorem setCanvas {m : Mem} (hm : Mem.wf m = true) : { e with tr.canvas := m }.PixelsOk := ⟨hm, h.out⟩

theorem paint (g : CellGeom) (q : Quad) (x y code : Nat) : (e.paint g q x y code).PixelsOk :=
  h.setCanvas (Mem.wf_write _ _ h.canvas)

theorem paintAll (g : CellGeom) (q : Quad) (ps : List (Nat × Nat)) :
    (ps.foldl (fun e p => e.paint g q p.1 p.2 0) e).PixelsOk := by
  induction ps generalizing e with
  | nil => exact h
  | cons p ps ih => exact ih (h.paint g q p.1 p.2 0)

theorem pixel (code : Nat) : (e.pixel code).PixelsOk := (h.paint ..).congr rfl

theorem emit (g : CellGeom) : (e.emit g).PixelsOk := ⟨h.canvas, h.out.updOut _ fun _ => emitBlock_wf⟩

theorem openVisit : e.openVisit.PixelsOk := by
  unfold Engine.openVisit
  dsimp only
  split
  · exact ⟨h.canvas, h.out.updOut _ fun _ _ => rfl⟩
  · exact h.congr rfl

theorem backReference (g : CellGeom) (l : LastOcc) : (e.backReference g l).PixelsOk := by
  unfold Engine.backReference
  split
  · exact h.setCanvas (clearBlock_wf h.canvas)
  · exact (h.setCanvas (copyBlock_wf h.canvas)).emit g

theorem finish (ndir : BitVec 8) : (e.finish ndir).PixelsOk := by
  unfold Engine.finish
  dsimp only
  split <;> exact ⟨discarded_canvas_wf _, h.out⟩

end Engine.PixelsOk

/-! ### The steps of the engine that store pixels -/

/-- An operation of an engine step keeps the pixel memories in form, whether it ends or raises. -/
abbrev KeepsForm {α : Type} (m : EngM α) : Prop := EngKeeps Engine.PixelsOk (fun _ => Engine.PixelsOk) m

theorem engCheck_keepsForm (b : Bool) (c : Cause) : KeepsForm (engCheck b c) := .check b fun _ h _ => h

theorem ichkBody_keepsForm : KeepsForm ichkBody :=
  EngKeeps.get.bind fun _ => (engCheck_keepsForm _ _).bind fun _ => (engCheck_keepsForm _ _).bind fun _ =>
    (engCheck_keepsForm _ _).bind fun _ => (engCheck_keepsForm _ _).bind fun _ =>
    (EngKeeps.upd fun _ h => ⟨rfl, h.out⟩).bind fun _ => .upd fun _ h => h.congr rfl

theorem paintLoop_keepsForm (b : Buf) (g : CellGeom) (t : Quad) (ps : List (Nat × Nat)) : KeepsForm (paintLoop b g t ps) :=
  .paintLoop (E := fun _ => Engine.PixelsOk) b g t (fun _ v h => h.setCur .main v) (fun _ h => h)
    (fun _ x y k h => h.paint g t x y k) ps

theorem freshPaint_keepsForm (b : Buf) (g : CellGeom) : KeepsForm (freshPaint b g) :=
  EngKeeps.get.bind fun _ => (paintLoop_keepsForm b g _ _).bind fun _ => (EngKeeps.upd fun _ h => h.emit g).bind fun _ =>
    .upd fun _ h => h.congr rfl

theorem ccellBody_keepsForm (b : Buf) (n : BitVec 32) : KeepsForm (ccellBody b n) :=
  EngKeeps.get.bind fun _ => (EngKeeps.upd fun _ h => h.openVisit).bind fun _ =>
    (EngKeeps.ite (freshPaint_keepsForm b _) (.upd fun _ h => h.backReference _ _)).bind fun _ =>
    (EngKeeps.upd fun _ h => h.congr rfl).bind fun _ =>
    .upd fun _ h => nextCell_keeps (fun _ _ _ _ h => h.congr rfl) (fun _ h => h.congr rfl) h

/-! ### Every memory of the machine -/

namespace State.MemOk
variable {s t : State} (hs : s.MemOk)
include hs

theorem pixelsOk : s.eng.PixelsOk := ⟨hs.canvas, hs.regs⟩

/-- The engine alone changed. -/
theorem setEng {e : Engine} (he : e.PixelsOk) : { s with eng := e }.MemOk := ⟨hs.ibuf, he.canvas, he.out, hs.result⟩

/-- The memories are the same data. -/
theorem congr (hbuf : t.ibuf.mem = s.ibuf.mem) (hp : t.pixels = s.pixels) : t.MemOk := by
  obtain ⟨heng, hresult⟩ := Prod.mk.inj hp
  have he := hs.pixelsOk.congr heng
  exact ⟨hbuf ▸ hs.ibuf, he.canvas, he.out, hresult ▸ hs.result⟩

theorem runEng {m : EngM Unit} (hm : KeepsForm m) (h : runEng m s = .next t) : t.MemOk := by
  obtain ⟨hok, herror⟩ := hm s.eng hs.pixelsOk
  rcases runEng_cases m s with ⟨e, hrun, hnext⟩ | ⟨c, e, hrun, hnext⟩ <;> cases hnext.symm.trans h
  · exact hs.setEng (hok _ e hrun)
  · exact (hs.setEng (herror c e hrun)).congr rfl rfl

/-- A finished direction enters the result store with its output arrays as they stand (46_compositor.md R268). -/
theorem dfin (h : exec .dfin s = .next t) : t.MemOk := by
  cases h
  have he := hs.pixelsOk.finish s.front.ndir
  refine ⟨hs.ibuf, he.canvas, he.out, fun r hr => ?_⟩
  rcases mem_fileWrite hr with rfl | rfl | hold
  · exact hs.regs
  · exact fun _ hm => nomatch hm
  · exact hs.result r hold

/-- A pixel code read, and the pixels its consumer stores. -/
theorem pixcode {n : Nat} {f : Engine → Engine} (hf : ∀ e, e.PixelsOk → (f e).PixelsOk) :
    { consumeCode (.eng .main) n s with eng := f (consumeCode (.eng .main) n s).eng }.MemOk :=
  have hread : (consumeCode (.eng .main) n s).MemOk := hs.congr rfl (s.setCursor_pixels _ _)
  hread.setEng (hf _ hread.pixelsOk)

/-- EVERY INSTRUCTION KEEPS EVERY MEMORY IN FORM. -/
theorem exec {i : Instr} (h : exec i s = .next t) : t.MemOk := by
  by_cases hi : storesNothing i = true
  · have hframe := exec_frame h
    exact hs.congr (congrArg Buf.mem (State.hostSide_eq_iff.1 hframe.host).1) (hframe.pixels hi)
  · cases i with
    | ichk => exact hs.runEng ichkBody_keepsForm h
    | ccell => exact hs.runEng (ccellBody_keepsForm _ _) h
    | dfin => exact hs.dfin h
    | pixcode0 => cases h; exact hs.pixcode fun _ he => he.paintAll _ _ _
    | pixcode1 c | pixcode2 c => cases h; exact hs.pixcode fun _ he => he.pixel c.toNat
    | _ => exact absurd rfl hi

end State.MemOk

/-! ### The host -/

/-- A byte written to `IBUF`, by whether the block is `BUSY` (93_implementation_defined.md U2). -/
theorem ibufWrite_busy {s : State} (hb : s.status = stBusy) (a : BitVec 32) (v : Byte) :
    hostAccess (.ibufWrite a v) s = .refused .ibufWriteWhileBusy := if_pos hb

theorem ibufWrite_notBusy {s : State} (hb : s.status ≠ stBusy) (a : BitVec 32) (v : Byte) :
    hostAccess (.ibufWrite a v) s = .next { s with ibuf.mem := s.ibuf.mem.write a.toNat v } := if_neg hb

section
variable {s t : State}

theorem csrWrite_ibufMem {n : Nat} {v : BitVec 32} (h : csrWrite n v s = .next t) : t.ibuf.mem = s.ibuf.mem := by
  unfold csrWrite at h
  split at h
  case h_6 => split at h <;> cases h <;> rfl
  all_goals cases h <;> rfl

theorem csrRead_ibufMem {n : Nat} (h : csrRead n s = .next t) : t.ibuf.mem = s.ibuf.mem := by
  unfold csrRead at h
  split at h
  case h_6 => split at h <;> cases h <;> rfl
  all_goals cases h <;> rfl

theorem resultRead_ibufMem {p : ResultSel} (h : resultRead p s = .next t) : t.ibuf.mem = s.ibuf.mem := by
  unfold resultRead at h
  split at h
  · split at h <;> cases h
    rfl
  · cases h
    rfl

/-- An access of the host other than the reset input leaves the input buffer in form. -/
theorem hostAccess_ibuf_wf {r : HostReq} (hr : r ≠ .rst) (h : hostAccess r s = .next t) (hs : Mem.wf s.ibuf.mem = true) :
    Mem.wf t.ibuf.mem = true := by
  cases r with
  | csrWrite n v => exact csrWrite_ibufMem h ▸ hs
  | csrRead n => exact csrRead_ibufMem h ▸ hs
  | resultRead p => exact resultRead_ibufMem h ▸ hs
  | rst => exact absurd rfl hr
  | ibufWrite a v =>
    by_cases hb : s.status = stBusy
    · exact nomatch (ibufWrite_busy hb a v).symm.trans h
    · cases (ibufWrite_notBusy hb a v).symm.trans h
      exact Mem.wf_write _ _ hs

theorem State.MemOk.hostAccess {r : HostReq} (hs : s.MemOk) (h : hostAccess r s = .next t) : t.MemOk := by
  by_cases hr : r = .rst
  · subst hr
    cases h
    exact reset_memOk.congr rfl rfl
  · obtain ⟨-, heng, hresult⟩ := (hostAccess_cases h).resolve_left fun hrst => hr hrst.1
    exact ⟨hostAccess_ibuf_wf hr h hs.ibuf, heng ▸ hs.canvas, heng ▸ hs.regs, hresult ▸ hs.result⟩

theorem BlockTurn.memOk (hu : BlockTurn s t) (hs : s.MemOk) : t.MemOk := by
  rcases hu with rfl | ⟨rest, -, rfl⟩
  · exact hs
  · exact hs.congr rfl rfl

end
end Sys2Proof.Machine

open Sys2Proof Sys2Proof.Machine

/-- Settles O8: an instruction keeps every memory in form, an access of the host does, and no other case of a step writes
one. -/
theorem stepKeepsMemory : Obligations.StepKeepsMemory := by
  intro s t hs hstep
  cases step_is hstep with
  | cmd i _ _ he => exact hs.exec he
  | host r rest _ _ he =>
    have hrest : ({ s with inputs := rest } : State).MemOk := hs.congr rfl rfl
    exact hrest.hostAccess he
  | wait u _ hu ht => exact ht ▸ hu.memOk hs
  | noOp u _ _ hu ht => exact ht ▸ (hu.memOk hs).congr rfl rfl
  | raise u c d _ _ hu _ ht => exact ht ▸ (hu.memOk hs).congr rfl rfl
  | bcop u i w n20 _ _ hu _ _ he => exact (hu.memOk hs).exec he
  | code u i k b _ _ hu _ he => exact (hu.memOk hs).exec he
  | seq u i p _ _ hu _ _ _ he => exact (hu.memOk hs).exec he

/-- Settles O16: the two branches of U2, and a byte read after a write to a memory in form. -/
theorem bufferWrite : Obligations.BufferWrite := fun s a v hs =>
  ⟨fun hb => ibufWrite_busy hb a v,
    fun hb => ⟨_, ibufWrite_notBusy hb a v, rfl, rfl, Mem.read_write s.ibuf.mem hs.ibuf a.toNat v⟩⟩

/-- Settles O12: the reset input leaves the registers of `State.reset`. -/
theorem resetValues : Obligations.ResetValues := by
  unfold Obligations.ResetValues
  intro resetTo
  have hreset : resetTo State.reset := ⟨rfl, rfl, rfl, rfl, rfl, rfl, rfl, rfl, rfl, rfl⟩
  exact ⟨hreset, fun s => ⟨resetInput s, rfl, hreset⟩⟩
end

section
/-!
PROOFS. The decoder reads back what the encoder writes (30_encoding.md): a `BCOP` word field by field, a format or code from the
head of any stream that begins with its bits.
-/

namespace Sys2Proof

open Machine

/-! ### `BCOP` words -/

section
variable (op : BitVec 3) (cur : CursorSel) (n : BitVec 6) (src : BitVec 3)

theorem bcopWord_cur : (bcopWord op cur n src).extractLsb' 3 3 = encodeCursor cur := by
  apply BitVec.eq_of_getLsbD_eq
  intro i hi
  have hlt : ¬ 3 + i < 3 := by omega
  simp only [bcopWord, BitVec.getLsbD_extractLsb', BitVec.getLsbD_append, hi, hlt, decide_true, Bool.true_and, if_true, if_false,
    Nat.add_sub_cancel_left]

theorem bcopWord_n : (bcopWord op cur n src).extractLsb' 6 6 = n := by
  apply BitVec.eq_of_getLsbD_eq
  intro i hi
  have h3 : ¬ 6 + i < 3 := by omega
  have h6 : ¬ 6 + i - 3 < 3 := by omega
  have hi' : 6 + i - 3 - 3 = i := by omega
  simp only [bcopWord, BitVec.getLsbD_extractLsb', BitVec.getLsbD_append, hi, h3, h6, hi', decide_true, Bool.true_and, if_true,
    if_false]

theorem bcopWord_src : (bcopWord op cur n src).extractLsb' 12 3 = src := by
  apply BitVec.eq_of_getLsbD_eq
  intro i hi
  have h3 : ¬ 12 + i < 3 := by omega
  have h6 : ¬ 12 + i - 3 < 3 := by omega
  have h12 : ¬ 12 + i - 3 - 3 < 6 := by omega
  have hi' : 12 + i - 3 - 3 - 6 = i := by omega
  simp only [bcopWord, BitVec.getLsbD_extractLsb', BitVec.getLsbD_append, hi, h3, h6, h12, hi', decide_true,
    Bool.true_and, if_false]

end

theorem except_ok_bind {ε α β : Type} (a : α) (k : α → Except ε β) : ((.ok a : Except ε α) >>= k) = k a := rfl

/-- A word of a `BCOP` operation is decoded by its four fields. -/
theorem decodeBcop_bcopWord (op : BitVec 3) (cur : CursorSel) (n : BitVec 6) (src : BitVec 3) (n20 : BitVec 20) :
    decodeBcop (bcopWord op cur n src) n20 = match op.toNat with
      | 1 => do return .rdbits cur (← decodeWidth n)
      | 2 => do return .rdsbits cur (← decodeWidth n)
      | 3 => .ok (.rdbit cur)
      | 4 => .ok (.skip cur n20)
      | 5 => .ok (.cons cur)
      | 6 => do return .clone cur (← decodeCursor src)
      | _ => .error .noOperation := by
  simp only [decodeBcop, Laws.bcopWord_op, bcopWord_cur, bcopWord_n, bcopWord_src, decodeCursor_encodeCursor]
    <;> rfl

/-! ### Formats and codes -/

/-- A decoder: what it reads at the head of a stream, and the stream after it. -/
abbrev Reader (α : Type) := List Bool → Except DecodeErr (α × List Bool)

/-- From every stream that begins with `bits` the operation `m` answers `a` and leaves the rest of the stream. -/
def ReadsBack {α : Type} (m : Reader α) (bits : List Bool) (a : α) : Prop :=
  ∀ rest, m (bits ++ rest) = .ok (a, rest)

section
variable {α β : Type}

theorem ReadsBack.ok (a : α) : ReadsBack (fun bs => .ok (a, bs)) [] a := fun _ => rfl

theorem ReadsBack.bind {m : Reader α} {k : α × List Bool → Except DecodeErr (β × List Bool)}
    {bits more : List Bool} {a : α} {b : β} (hm : ReadsBack m bits a) (hk : ReadsBack (fun bs => k (a, bs)) more b) :
    ReadsBack (fun bs => m bs >>= k) (bits ++ more) b := fun rest => by
  show (m (bits ++ more ++ rest) >>= k) = _
  rw [List.append_assoc, hm, except_ok_bind]
  exact hk rest

theorem ReadsBack.last {m : Reader α} {k : α × List Bool → Except DecodeErr (β × List Bool)}
    {bits : List Bool} {a : α} {b : β} (hm : ReadsBack m bits a) (hk : ∀ bs, k (a, bs) = .ok (b, bs)) :
    ReadsBack (fun bs => m bs >>= k) bits b := fun rest => by
  show (m (bits ++ rest) >>= k) = _
  rw [hm, except_ok_bind, hk]

/-- A field reads back as the value it was written from, if its width holds that value. -/
theorem ReadsBack.field {n v : Nat} (hv : v < 2 ^ n) : ReadsBack (takeField n) (fieldBits n v) v := fun rest => by
  rw [takeField_append, Nat.mod_eq_of_lt hv]

/-- Of any other value its low bits. -/
theorem ReadsBack.low (n v : Nat) : ReadsBack (takeField n) (fieldBits n v) (v % 2 ^ n) := takeField_append n v

/-- A field of a register's width. -/
theorem ReadsBack.reg {n : Nat} (v : BitVec n) : ReadsBack (takeField n) (fieldBits n v.toNat) v.toNat := .field v.isLt


/-- A value the decoder checks, and that passes. -/
theorem ReadsBack.unless {p : Prop} [Decidable p] {m k : Reader α} {bits : List Bool} {a : α}
    (hp : ¬ p) (hk : ReadsBack k bits a) : ReadsBack (fun bs => if p then m bs else k bs) bits a := fun rest =>
  (if_neg hp).trans (hk rest)

end

/-- `FMT.CONT` (30_encoding.md R91), its signature and sentinel being the ones R93 and R95 fix. -/
theorem decodeCont_readsBack (ver nd : BitVec 8) (nf ts : BitVec 32) :
    ReadsBack decodeCont (fieldBits 8 0x74 ++ fieldBits 8 ver.toNat ++ fieldBits 8 nd.toNat ++ fieldBits 32 nf.toNat
      ++ fieldBits 32 1 ++ fieldBits 32 ts.toNat) (.fmtCont ver nd nf ts) := by
  simp only [List.append_assoc]
  refine (ReadsBack.field (by decide)).bind (.unless (not_not.2 rfl) ?_)
  refine (ReadsBack.reg ver).bind <| (ReadsBack.reg nd).bind <| (ReadsBack.reg nf).bind ?_
  refine (ReadsBack.field (by decide)).bind (.unless (not_not.2 rfl) ?_)
  refine (ReadsBack.reg ts).last fun bs => ?_
  simp only [BitVec.ofNat_toNat, BitVec.setWidth_eq]
  rfl

/-- `FMT.OFFT` (30_encoding.md R92). -/
theorem takeWords_readsBack : ∀ vs : List (BitVec 32),
    ReadsBack (takeWords vs.length) (vs.flatMap fun v => fieldBits 32 v.toNat) vs
  | [] => .ok []
  | v :: vs => (ReadsBack.reg v).bind <| (takeWords_readsBack vs).last fun bs => by
    simp only [BitVec.ofNat_toNat, BitVec.setWidth_eq]
    rfl

/-- `FMT.DHDR` (30_encoding.md R96). -/
theorem decodeDhdr_readsBack (f : DhdrFields) : ReadsBack decodeDhdr (dhdrBits f) (.fmtDhdr f) := by
  simp only [dhdrBits, List.append_assoc]
  refine (ReadsBack.reg f.outsize).bind <| (ReadsBack.reg f.cflags).bind <| (ReadsBack.reg f.v0idx).bind <|
    (ReadsBack.reg f.widx).bind <| (ReadsBack.reg f.hidx).bind <| (ReadsBack.reg f.xidx).bind <|
    (ReadsBack.reg f.yidx).bind <| (ReadsBack.reg f.oidx).bind <| (ReadsBack.reg f.cidx).last fun bs => ?_
  simp only [BitVec.ofNat_toNat, BitVec.setWidth_eq]
  rfl

/-! ### Fields of a frame header -/

/-- The two's complement of `n` bits is the balanced remainder modulo `2 ^ n` (00_scope.md R8). -/
theorem signedVal_eq_bmod {n u : Nat} (hu : u < 2 ^ n) : signedVal n u = (u : Int).bmod (2 ^ n) := by
  cases n with
  | zero => simp_all [signedVal]
  | succ m =>
    have hhalf : (2 : Int) ^ m = (2 ^ m : Nat) := by push_cast; rfl
    rw [Int.bmod_def, Nat.pow_succ, ← Int.natCast_mod, Nat.mod_eq_of_lt (by omega)]
    simp only [signedVal, Nat.add_sub_cancel, pow_succ, hhalf]
    split <;> split <;> omega

/-- A signed value that fits its width is read back from the low bits of its two's complement (30_encoding.md R102). -/
theorem signedOf_lowBits {n : Nat} (hn : n ≤ 32) {x : BitVec 32} (hx : fitsSigned n x.toInt = true) :
    signedOf n (x.toNat % 2 ^ n) = x.toInt := by
  have hlow : signedOf n (x.toNat % 2 ^ n) = x.toInt.bmod (2 ^ n) := by
    have hlt : x.toNat % 2 ^ n < 2 ^ n := Nat.mod_lt _ (Nat.two_pow_pos n)
    rw [signedOf_eq_signedVal hlt, signedVal_eq_bmod hlt, Int.natCast_mod, Int.emod_bmod, BitVec.toInt_eq_toNat_bmod,
      Int.bmod_bmod_of_dvd (Nat.pow_dvd_pow 2 hn)]
  rw [hlow]
  cases n with
  | zero => simp_all [fitsSigned]
  | succ m =>
    have hhalf : (2 : Int) ^ m = (2 ^ m : Nat) := by push_cast; rfl
    simp only [fitsSigned, Nat.add_one_ne_zero, if_false, Nat.add_sub_cancel, hhalf, decide_eq_true_eq] at hx
    apply Int.bmod_eq_of_le <;> rw [Nat.pow_succ] <;> omega

/-- `FMT.FHDR` (30_encoding.md R97), each field as wide as the direction header says. -/
theorem decodeFhdr_readsBack {wb : Widths} {f : FhdrFields} (hwb : widthsOk wb = true) (hf : fhdrOk wb f = true) :
    ReadsBack (decodeFhdr wb) (fhdrBits wb f) (.fmtFhdr wb f) := by
  simp only [widthsOk, Bool.and_eq_true, decide_eq_true_eq, and_assoc] at hwb
  simp only [fhdrOk, fitsUnsigned, Bool.and_eq_true, decide_eq_true_eq, and_assoc] at hf
  obtain ⟨-, -, -, hx, hy, -, -⟩ := hwb
  obtain ⟨fv, fw, fh, fx, fy, fo, fc⟩ := hf
  simp only [fhdrBits, List.append_assoc]
  refine (ReadsBack.field fv).bind <| (ReadsBack.field fw).bind <| (ReadsBack.field fh).bind <|
    (ReadsBack.low _ _).bind <| (ReadsBack.low _ _).bind <| (ReadsBack.field fo).bind <| (ReadsBack.field fc).bind <|
    (ReadsBack.reg f.bottomup).last fun bs => ?_
  simp only [signedOf_lowBits hx fx, signedOf_lowBits hy fy, BitVec.ofInt_toInt, BitVec.ofNat_toNat, BitVec.setWidth_eq]
  rfl

/-! ### Sub-bitstream sizes -/

theorem takeSize_readsBack (o : Option (BitVec 20)) : ReadsBack (takeSize o.isSome) (sizeBits o) o := by
  cases o with
  | none => exact .ok none
  | some v =>
    refine (ReadsBack.reg v).last fun bs => ?_
    simp only [BitVec.ofNat_toNat, BitVec.setWidth_eq]
    rfl

/-- First part of `FMT.DTAIL` (30_encoding.md R99), under the flags that say which sizes stand in it. -/
theorem decodeSizes_readsBack (ec : Option (BitVec 20)) (pm : BitVec 20) (etrp : Option (BitVec 20 × BitVec 20)) :
    ReadsBack (decodeSizes (sizesFlags ec etrp))
      (sizeBits ec ++ fieldBits 20 pm.toNat ++ sizeBits (etrp.map Prod.fst) ++ sizeBits (etrp.map Prod.snd))
      (.fmtSizes ec pm etrp) := by
  simp only [List.append_assoc]
  unfold decodeSizes
  rw [sizesFlags_bit1, sizesFlags_bit0]
  refine (takeSize_readsBack ec).bind <| (ReadsBack.reg pm).bind ?_
  cases etrp with
  | none =>
    refine fun rest => ?_
    simp only [BitVec.ofNat_toNat, BitVec.setWidth_eq]
    rfl
  | some x =>
    refine (ReadsBack.reg x.1).bind <| (ReadsBack.reg x.2).last fun bs => ?_
    simp only [BitVec.ofNat_toNat, BitVec.setWidth_eq]
    rfl

/-! ### The whole encoder -/

/-- The bits of a well-formed format or code read back as it, whatever stands after them (30_encoding.md R113). -/
theorem decodeCode_readsBack {i : Instr} (hi : i.wf = true) {k : CodeFmt} {bits : List Bool} (h : encode i = .code k bits) :
    ReadsBack (decodeCode k) bits i := by
  cases i with
  | fmtCont ver nd nf ts =>
    cases h; exact decodeCont_readsBack ver nd nf ts
  | fmtOfft vs => cases h; exact (takeWords_readsBack vs).last fun _ => rfl
  | fmtDhdr f => cases h; exact decodeDhdr_readsBack f
  | fmtFhdr wb f =>
    cases h
    obtain ⟨hwb, hf⟩ := Bool.and_eq_true_iff.1 hi
    exact decodeFhdr_readsBack hwb hf
  | fmtSizes ec pm etrp =>
    cases h; exact decodeSizes_readsBack ec pm etrp
  | sig => cases h; exact (ReadsBack.field (by decide)).last fun _ => rfl
  | sentinel => cases h; exact (ReadsBack.field (by decide)).last fun _ => rfl
  | dnibCont => cases h; exact (ReadsBack.field (by decide)).last fun _ => rfl
  | dnibEnd d =>
    cases h
    have hd : d.toNat ≠ 15 := fun he => of_decide_eq_true hi (BitVec.eq_of_toNat_eq he)
    refine (ReadsBack.reg d).last fun bs => ?_
    simp only [if_neg hd, BitVec.ofNat_toNat, BitVec.setWidth_eq]
    rfl
  | pixcode0 => cases h; exact .ok _
  | fmtPalv v | widx f v | ecbit v | pmask v | etbit v | rawval v | pixcode1 v | pixcode2 v =>
    cases h
    refine (ReadsBack.reg v).last fun bs => ?_
    simp only [BitVec.ofNat_toNat, BitVec.setWidth_eq]
    rfl
  | _ => cases h

theorem decode_code {k : CodeFmt} {bits : List Bool} {i : Instr} (h : ReadsBack (decodeCode k) bits i) :
    decode (.code k bits) = .ok i := by
  have hread := h []
  rw [List.append_nil] at hread
  rw [decode, hread]
  rfl

/-- The words of the `BCOP` operations (30_encoding.md R120, R121); a width of 33 or more is not issued. -/
theorem decode_bcop_encode {i : Instr} (hi : i.wf = true) {w : BitVec 15} {n20 : BitVec 20} (h : encode i = .bcop w n20) :
    decode (.bcop w n20) = .ok i := by
  cases i with
  | rdbits c n | rdsbits c n =>
    cases h
    rw [decode, decodeBcop_bcopWord, decodeWidth_ok (of_decide_eq_true hi)]
    rfl
  | clone c src =>
    cases h
    rw [decode, decodeBcop_bcopWord, decodeCursor_encodeCursor]
    rfl
  | rdbit c | skip c n | cons c =>
    cases h
    rw [decode, decodeBcop_bcopWord]
    rfl
  | _ => cases h

/-- The two command words that are well formed as written, and `CLEAR`'s with the `START` bit (30_encoding.md R122, log 23). -/
theorem decode_cmd_encode {i : Instr} (hi : i.wf = true) {c : BitVec 2} (h : encode i = .cmd c) : decode (.cmd c) = .ok i := by
  cases i with
  | start c =>
    cases h
    cases c with
    | false => rfl
    | true => cases hi
  | clear st => cases h; cases st <;> rfl
  | _ => cases h

/-- The `PHASE` codes (30_encoding.md R123). -/
theorem decode_seq_encode {i : Instr} {p : BitVec 5} (h : encode i = .seq p) : decode (.seq p) = .ok i := by
  cases i <;> cases h <;> rfl

end Sys2Proof

open Sys2Proof Sys2Proof.Machine

/-- Settles O1: each of the four forms an instruction is given in reads back. -/
theorem decodeOfEncode : Obligations.DecodeOfEncode := by
  intro i hi
  cases h : encode i with
  | bcop w n20 => exact decode_bcop_encode hi h
  | cmd c => exact decode_cmd_encode hi h
  | seq p => exact decode_seq_encode h
  | code k bits => exact decode_code (decodeCode_readsBack hi h)
end

section
/-!
PROOFS. What the decoder reads, and how much of the stream it takes: one walk over the formats and codes gives both the length
known before the read (30_encoding.md R113) and that what was read is well formed.
-/

namespace Sys2Proof

open Machine

/-- Whenever `m` answers, it has taken the first `n` bits of the stream, and its answer has `P`. -/
def Consumes {α : Type} (n : Nat) (P : α → Prop) (m : Reader α) : Prop :=
  ∀ bs a rest, m bs = .ok (a, rest) → n ≤ bs.length ∧ rest = bs.drop n ∧ P a

section
variable {α β : Type} {n k : Nat} {P : α → Prop} {Q : β → Prop}

theorem Consumes.ok {a : α} (h : P a) : Consumes 0 P fun bs => .ok (a, bs) := fun _ _ _ he => by
  cases he
  exact ⟨Nat.zero_le _, rfl, h⟩

theorem Consumes.error {e : DecodeErr} : Consumes n P fun _ => .error e := fun _ _ _ he => nomatch he

theorem Consumes.bind {m : Reader α} {f : α × List Bool → Except DecodeErr (β × List Bool)}
    (hm : Consumes n P m) (hf : ∀ a, P a → Consumes k Q fun bs => f (a, bs)) : Consumes (n + k) Q fun bs => m bs >>= f := by
  intro bs b rest h
  obtain ⟨⟨a, left⟩, hread, hrest⟩ := except_bind_ok h
  obtain ⟨hn, rfl, ha⟩ := hm bs a left hread
  obtain ⟨hk, rfl, hb⟩ := hf a ha _ b rest hrest
  rw [List.length_drop] at hk
  exact ⟨by omega, List.drop_drop, hb⟩

/-- An operation, then one that takes nothing more. -/
theorem Consumes.last {m : Reader α} {f : α × List Bool → Except DecodeErr (β × List Bool)}
    (hm : Consumes n P m) (hf : ∀ a, P a → Consumes 0 Q fun bs => f (a, bs)) : Consumes n Q fun bs => m bs >>= f := hm.bind hf

theorem Consumes.ite {p : Prop} [Decidable p] {m m' : Reader α} (hm : p → Consumes n P m)
    (hm' : ¬ p → Consumes n P m') : Consumes n P fun bs => if p then m bs else m' bs := by
  by_cases h : p
  · simpa only [if_pos h] using hm h
  · simpa only [if_neg h] using hm' h

theorem Consumes.len {m : Reader α} (hm : Consumes n P m) (h : n = k) : Consumes k P m := h ▸ hm

end

theorem takeField_consumes (n : Nat) : Consumes n (fun v => v < 2 ^ n) (takeField n) := by
  intro bs v rest h
  obtain hn | hn := Nat.lt_or_ge bs.length n
  · rw [takeField_short hn] at h
    cases h
  · rw [takeField_ok hn] at h
    cases h
    refine ⟨hn, rfl, (bitsValue_lt _).trans_eq ?_⟩
    rw [List.length_take, Nat.min_eq_left hn]

theorem takeWords_consumes : ∀ n : Nat, Consumes (32 * n) (fun vs => vs.length = n) (takeWords n)
  | 0 => .ok rfl
  | n + 1 => Consumes.len (n := 32 + 32 * n) ((takeField_consumes 32).bind fun _ _ =>
      (takeWords_consumes n).last fun _ hvs => .ok (congrArg (· + 1) hvs)) (by omega)

theorem takeSize_consumes (present : Bool) : Consumes (if present then 20 else 0) (fun _ => True) (takeSize present) := by
  cases present with
  | false => exact .ok trivial
  | true => exact (takeField_consumes 20).last fun _ _ => .ok trivial

/-! ### The formats -/

/-- `FMT.CONT` (30_encoding.md R91). -/
theorem decodeCont_consumes : Consumes 120 (fun i => i.wf = true) decodeCont :=
  Consumes.len (n := 8 + (8 + (8 + (32 + (32 + 32))))) ((takeField_consumes 8).bind fun _ _ => .ite (fun _ => .error) fun _ =>
    (takeField_consumes 8).bind fun _ _ => (takeField_consumes 8).bind fun _ _ => (takeField_consumes 32).bind fun _ _ =>
    (takeField_consumes 32).bind fun _ _ => .ite (fun _ => .error) fun _ => (takeField_consumes 32).last fun _ _ => .ok rfl) rfl

/-- `FMT.DHDR` (30_encoding.md R96). -/
theorem decodeDhdr_consumes : Consumes 62 (fun i => i.wf = true) decodeDhdr :=
  have index : ∀ n, Consumes n _ (takeField n) := takeField_consumes
  Consumes.len (n := 32 + (2 + (4 + (4 + (4 + (4 + (4 + (4 + 4)))))))) ((index 32).bind fun _ _ => (index 2).bind fun _ _ =>
    (index 4).bind fun _ _ => (index 4).bind fun _ _ => (index 4).bind fun _ _ => (index 4).bind fun _ _ =>
    (index 4).bind fun _ _ => (index 4).bind fun _ _ => (index 4).last fun _ _ => .ok rfl) rfl


theorem fitsUnsigned_ofNat {n v : Nat} (hn : n ≤ 32) (hv : v < 2 ^ n) : fitsUnsigned n (BitVec.ofNat 32 v).toNat = true := by
  have h32 : v < 2 ^ 32 := hv.trans_le (Nat.pow_le_pow_right (by decide) hn)
  rw [fitsUnsigned, BitVec.toNat_ofNat, Nat.mod_eq_of_lt h32]
  exact decide_eq_true hv

/-- A signed field read is in the range of its width (30_encoding.md R102). -/
theorem fitsSigned_ofInt {n u : Nat} (hn : n ≤ 32) (hu : u < 2 ^ n) :
    fitsSigned n (BitVec.ofInt 32 (signedOf n u)).toInt = true := by
  rw [signedOf_eq_signedVal hu]
  cases n with
  | zero =>
    obtain rfl : u = 0 := Nat.lt_one_iff.1 hu
    rfl
  | succ m =>
    obtain ⟨hlo, hhi⟩ := signedVal_range (Nat.add_one_ne_zero m) hu
    have hpow : (2 : Int) ^ (m + 1 - 1) ≤ 2 ^ 31 := pow_le_pow_right₀ (by decide) (by omega)
    rw [BitVec.toInt_ofInt_eq_self (by decide) (by omega) (by omega), fitsSigned, if_neg (Nat.add_one_ne_zero m)]
    exact decide_eq_true ⟨hlo, hhi⟩

/-- `FMT.FHDR` (30_encoding.md R97): every field read fits its width. -/
theorem decodeFhdr_consumes (wb : Widths) :
    Consumes (codeLen (.fhdr wb)) (fun i => widthsOk wb = true → i.wf = true) (decodeFhdr wb) := by
  refine Consumes.len (n := wb.v0.toNat + (wb.w.toNat + (wb.h.toNat + (wb.x.toNat + (wb.y.toNat + (wb.o.toNat +
    (wb.c.toNat + 1))))))) ?_ (by simp only [codeLen, Nat.add_assoc])
  refine (takeField_consumes _).bind fun v0 fv => (takeField_consumes _).bind fun fw ffw =>
    (takeField_consumes _).bind fun fh ffh => (takeField_consumes _).bind fun fx ffx =>
    (takeField_consumes _).bind fun fy ffy => (takeField_consumes _).bind fun no fno =>
    (takeField_consumes _).bind fun nc fnc => (takeField_consumes 1).last fun bu _ => .ok fun hwb => ?_
  have hwidths := hwb
  simp only [widthsOk, Bool.and_eq_true, decide_eq_true_eq, and_assoc] at hwidths
  obtain ⟨hv, hw, hh, hx, hy, ho, hc⟩ := hwidths
  simp only [Instr.wf, fhdrOk, Bool.and_eq_true, and_assoc]
  exact ⟨hwb, fitsUnsigned_ofNat hv fv, fitsUnsigned_ofNat hw ffw, fitsUnsigned_ofNat hh ffh, fitsSigned_ofInt hx ffx,
    fitsSigned_ofInt hy ffy, fitsUnsigned_ofNat ho fno, fitsUnsigned_ofNat hc fnc⟩

/-- First part of `FMT.DTAIL` (30_encoding.md R99). -/
theorem decodeSizes_consumes (cf : BitVec 2) : Consumes (codeLen (.sizes cf)) (fun i => i.wf = true) (decodeSizes cf) := by
  refine Consumes.len (n := (if cf.getLsbD 1 then 20 else 0) + (20 + if cf.getLsbD 0 then 40 else 0)) ?_
    (by simp only [codeLen, Nat.add_assoc])
  refine (takeSize_consumes _).bind fun _ _ => (takeField_consumes 20).bind fun _ _ => .ite (fun h => ?_) (fun h => ?_)
  · rw [if_pos h]
    exact (takeField_consumes 20).bind (k := 20) fun _ _ => (takeField_consumes 20).last fun _ _ => .ok rfl
  · rw [if_neg h]
    exact .ok rfl

/-! ### The whole decoder -/

/-- What an offset table and a frame header are read under: at most 255 directions, widths of at most 32 bits. -/
def CodeFmt.Admits : CodeFmt → Prop
  | .offt n => n ≤ 255
  | .fhdr wb => widthsOk wb = true
  | _ => True

theorem decodeCode_consumes (k : CodeFmt) : Consumes (codeLen k) (fun i => k.Admits → i.wf = true) (decodeCode k) := by
  have wf {n : Nat} {m : Reader Instr} (h : Consumes n (fun i => i.wf = true) m) :
      Consumes n (fun i => k.Admits → i.wf = true) m := fun bs i rest hm =>
    have ⟨hn, hrest, hi⟩ := h bs i rest hm
    ⟨hn, hrest, fun _ => hi⟩
  cases k with
  | cont => exact wf decodeCont_consumes
  | dhdr => exact wf decodeDhdr_consumes
  | sizes cf => exact wf (decodeSizes_consumes cf)
  | fhdr wb => exact decodeFhdr_consumes wb
  | offt n =>
    refine (takeWords_consumes n).last fun vs hvs => .ok fun hn => ?_
    exact decide_eq_true (hvs.trans_le hn)
  | sig | sentinel => exact (takeField_consumes _).last fun _ _ => .ite (fun _ => .ok fun _ => rfl) fun _ => .error
  | dnib =>
    refine (takeField_consumes 4).last fun v hv => .ite (fun _ => .ok fun _ => rfl) fun h15 => .ok fun _ => ?_
    exact decide_eq_true (by bv_omega)
  | pixcode0 => exact .ok fun _ => rfl
  | palv | widx | ecbit | pmask | etbit | rawval | pixcode1 | pixcode2 =>
    exact (takeField_consumes _).last fun _ _ => .ok fun _ => rfl

/-- A `BCOP` word's width is at most 32; nothing else of it is checked (30_encoding.md R120). -/
theorem decode_bcop_wf {w : BitVec 15} {n20 : BitVec 20} {i : Instr} (h : decode (.bcop w n20) = .ok i) : i.wf = true := by
  have width {n m : BitVec 6} (hn : decodeWidth n = .ok m) : decide (m.toNat ≤ 32) = true := by
    unfold decodeWidth at hn
    split at hn <;> cases hn
    exact decide_eq_true ‹_›
  simp only [decode, decodeBcop] at h
  split at h
  case h_7 => cases h
  all_goals obtain ⟨c, -, h⟩ := except_bind_ok h
  case h_1 | h_2 =>
    obtain ⟨n, hn, h⟩ := except_bind_ok h
    cases h
    exact width hn
  case h_6 =>
    obtain ⟨_, -, h⟩ := except_bind_ok h
    cases h
    rfl
  all_goals
    cases h
    rfl

theorem isSeq_wf {i : Instr} (h : isSeq i = true) : i.wf = true := by
  cases i with
  | chdr | dseek | dhdr | fgeom | dbox | optchk | bsizes | palv | slice | dgrid | fgrid | rcell | pxlat | ichk | ccell | dfin
  | cfin => rfl
  | _ => cases h

end Sys2Proof

open Sys2Proof Sys2Proof.Machine

/-- Settles O3: the walk over the decoder, its length alone. -/
theorem codeConsumesItsLength : Obligations.CodeConsumesItsLength := fun k bs i rest h =>
  have ⟨hlen, hrest, _⟩ := decodeCode_consumes k bs i rest h
  ⟨hlen, hrest⟩

/-- Settles O2: each of the four forms, and for a format or code the walk over the decoder. -/
theorem decodedIsWellFormed : Obligations.DecodedIsWellFormed := by
  intro x i h hadmits
  cases x with
  | bcop w n20 => exact decode_bcop_wf h
  | cmd c => obtain ⟨-, rfl⟩ | ⟨-, rfl⟩ | ⟨-, rfl⟩ := decode_cmd_kind h <;> rfl
  | seq p => exact isSeq_wf (decode_seq_kind h).1
  | code k bits =>
    obtain ⟨⟨_, rest⟩, hread, hj⟩ := except_bind_ok h
    cases hj
    obtain ⟨-, -, hwf⟩ := decodeCode_consumes k bits _ rest hread
    exact hwf (by cases k <;> exact hadmits)
end

section
/-!
PROOFS. Which words name an instruction (30_encoding.md R120, R121, R123), words written out from its tables, and the constant
tables.
-/

namespace Sys2Proof

open Machine

/-! ### The fields of a `BCOP` word -/

section
variable (w : BitVec 15)

theorem bcop_op : (w.extractLsb' 0 3).toNat = w.toNat % 8 := by simp

theorem bcop_cur : (w.extractLsb' 3 3).toNat = w.toNat / 8 % 8 := by simp [Nat.shiftRight_eq_div_pow]

theorem bcop_n : (w.extractLsb' 6 6).toNat = w.toNat / 64 % 64 := by simp [Nat.shiftRight_eq_div_pow]

theorem bcop_src : (w.extractLsb' 12 3).toNat = w.toNat / 4096 := by
  have hw := w.isLt
  rw [BitVec.extractLsb'_toNat, Nat.shiftRight_eq_div_pow]
  omega

end

theorem exists_of_isOk {ε α : Type} {m : Except ε α} (h : m.isOk = true) : ∃ a, m = .ok a := by
  cases m with
  | ok a => exact ⟨a, rfl⟩
  | error e => cases h

/-- Cursor numbers 0 to 5 name a cursor (30_encoding.md R121). -/
theorem decodeCursor_issued {c : BitVec 3} (h : c.toNat < 6) : ∃ d, decodeCursor c = .ok d := by
  have all : ∀ c : BitVec 3, c.toNat < 6 → (decodeCursor c).isOk = true := by decide
  exact exists_of_isOk (all c h)

/-- Cursor numbers 6 and 7 are never issued (30_encoding.md R121). -/
theorem decodeCursor_reserved : ∀ c : BitVec 3, 6 ≤ c.toNat → decodeCursor c = .error .badCursor := by decide

/-- Widths above 32 are never issued (30_encoding.md R120). -/
theorem decodeWidth_wide {n : BitVec 6} (h : 33 ≤ n.toNat) : decodeWidth n = .error .badWidth := if_neg (by omega)

section
variable {w : BitVec 15} {n20 : BitVec 20}

/-- An operation on a cursor that is never issued (30_encoding.md R121). -/
theorem decode_bcop_badCursor (hop : ¬ (w.toNat % 8 = 0 ∨ w.toNat % 8 = 7)) (hcur : 6 ≤ w.toNat / 8 % 8) :
    decode (.bcop w n20) = .error .badCursor := by
  have hbad := decodeCursor_reserved (w.extractLsb' 3 3) ((bcop_cur w).symm ▸ hcur)
  have hops : w.toNat % 8 = 1 ∨ w.toNat % 8 = 2 ∨ w.toNat % 8 = 3 ∨ w.toNat % 8 = 4 ∨ w.toNat % 8 = 5 ∨
      w.toNat % 8 = 6 := by omega
  rcases hops with h | h | h | h | h | h <;> simp only [decode, decodeBcop, hbad, bcop_op, h] <;> rfl

variable {c : CursorSel} (hcur : decodeCursor (w.extractLsb' 3 3) = .ok c)
include hcur

/-- The two reads, whose width is checked (30_encoding.md R120). -/
theorem decode_bcop_read (hop : w.toNat % 8 = 1 ∨ w.toNat % 8 = 2) :
    if 33 ≤ w.toNat / 64 % 64 then decode (.bcop w n20) = .error .badWidth else ∃ i, decode (.bcop w n20) = .ok i := by
  rw [← bcop_n]
  split
  · next hn => rcases hop with h | h <;> simp only [decode, decodeBcop, hcur, bcop_op, h, decodeWidth_wide hn] <;> rfl
  · next hn =>
    have hok := decodeWidth_ok (n := w.extractLsb' 6 6) (by omega)
    rcases hop with h | h <;> simp only [decode, decodeBcop, hcur, bcop_op, h, hok] <;> exact ⟨_, rfl⟩

/-- The operations with no operand besides the cursor and `n20`. -/
theorem decode_bcop_plain (hop : w.toNat % 8 = 3 ∨ w.toNat % 8 = 4 ∨ w.toNat % 8 = 5) :
    ∃ i, decode (.bcop w n20) = .ok i := by
  rcases hop with h | h | h <;> simp only [decode, decodeBcop, hcur, bcop_op, h] <;> exact ⟨_, rfl⟩

/-- `CLONE`, whose source cursor is checked too (30_encoding.md R121). -/
theorem decode_bcop_clone (hop : w.toNat % 8 = 6) :
    if 6 ≤ w.toNat / 4096 then decode (.bcop w n20) = .error .badCursor else ∃ i, decode (.bcop w n20) = .ok i := by
  simp only [decode, decodeBcop, hcur, bcop_op, hop, ← bcop_src]
  split
  · next hsrc =>
    rw [decodeCursor_reserved _ hsrc]
    rfl
  · next hsrc =>
    obtain ⟨d, hd⟩ := decodeCursor_issued (Nat.lt_of_not_le hsrc)
    rw [hd]
    exact ⟨_, rfl⟩

end

/-- `PHASE` codes 1 to 17 are the sequencer's steps (30_encoding.md R123). -/
theorem decode_seq_step (p : BitVec 5) (h0 : p ≠ 0) (h18 : p.toNat < 18) : ∃ i, decode (.seq p) = .ok i := by
  have all : ∀ p : BitVec 5, p ≠ 0 → p.toNat < 18 → (decode (.seq p)).isOk = true := by decide
  exact exists_of_isOk (all p h0 h18)

end Sys2Proof

open Sys2Proof Sys2Proof.Machine

/-- Settles O5: the clauses in their order; past the first two the word has an operation and a cursor, and the operation says
which other field is checked. -/
theorem selectCodes : Obligations.SelectCodes := by
  refine ⟨fun w n20 => ?_, fun p => ?_⟩
  · by_cases hop : w.toNat % 8 = 0 ∨ w.toNat % 8 = 7
    · simp only [if_pos hop, decode_bcop_noOperation n20 hop]
    by_cases hcur : 6 ≤ w.toNat / 8 % 8
    · simp only [if_neg hop, if_pos hcur, decode_bcop_badCursor hop hcur]
    obtain ⟨c, hc⟩ := decodeCursor_issued (c := w.extractLsb' 3 3) (by rw [bcop_cur]; omega)
    simp only [if_neg hop, if_neg hcur]
    have hops : (w.toNat % 8 = 1 ∨ w.toNat % 8 = 2) ∨ (w.toNat % 8 = 3 ∨ w.toNat % 8 = 4 ∨ w.toNat % 8 = 5) ∨
        w.toNat % 8 = 6 := by omega
    obtain hread | hplain | hclone := hops
    · have hle : w.toNat % 8 ≤ 2 := by omega
      have hne : w.toNat % 8 ≠ 6 := by omega
      simpa only [hle, hne, true_and, false_and, if_false] using decode_bcop_read hc hread
    · rw [if_neg (by omega), if_neg (by omega)]
      exact decode_bcop_plain hc hplain
    · rw [if_neg (by omega)]
      simpa only [hclone, true_and] using decode_bcop_clone hc hclone
  · split_ifs with h0 h18
    · rw [h0]; rfl
    · exact decode_seq_never p h18
    · exact decode_seq_step p h0 (by omega)

/-- Settles O4: each word evaluates. -/
theorem decodesTableWords : Obligations.DecodesTableWords := ⟨rfl, rfl, rfl, rfl, rfl, rfl, rfl, rfl, rfl, rfl, rfl⟩

/-- Settles O21: sixteen indices and sixteen causes. -/
theorem constantTables : Obligations.ConstantTables :=
  ⟨rfl, rfl, fun c => by cases c <;> rfl, fun c => by cases c <;> rfl⟩
end

section
/-!
PROOFS. The in-stream formats and codes as instructions of their own (30_encoding.md; log 18): each moves its cursor by its
length and writes the registers of its consumer.
-/

namespace Sys2Proof.Machine

/-! ### The palette flags -/

/-- The flags of a word stored from index `i` on, those below it being in the table (30_encoding.md R100). -/
theorem storeFlags_withPal (valid : BitVec 256) (r : DirRegs) : ∀ k i : Nat, i + k ≤ 256 →
    storeFlags valid i k (r.withPal ((List.range i).filter fun j => valid.getLsbD j)) =
      r.withPal ((List.range (i + k)).filter fun j => valid.getLsbD j)
  | 0, _, _ => rfl
  | k + 1, i, hk => by
    have hflag : (r.withPal ((List.range i).filter fun j => valid.getLsbD j)).palFlag i (valid.getLsbD i) =
        r.withPal ((List.range (i + 1)).filter fun j => valid.getLsbD j) := by
      have hlen : ((List.range i).filter fun j => valid.getLsbD j).length < 256 :=
        ((List.length_filter_le _ _).trans_eq List.length_range).trans_lt (by omega)
      rw [List.range_succ, List.filter_append, List.filter_singleton]
      cases valid.getLsbD i with
      | false => exact congrArg r.withPal (List.append_nil _).symm
      | true => exact r.palFlag_withPal_set hlen i
    rw [storeFlags, hflag, storeFlags_withPal valid r k (i + 1) (by omega), Nat.add_assoc, Nat.add_comm 1]

theorem storeFlags_clearPal (valid : BitVec 256) (r : DirRegs) :
    storeFlags valid 0 256 r.clearPal = r.withPal ((List.range 256).filter fun j => valid.getLsbD j) := by
  rw [← DirRegs.withPal_nil]
  exact storeFlags_withPal valid r 256 0 (by decide)

theorem exec_fmtPalv (valid : BitVec 256) (s : State) :
    exec (.fmtPalv valid) s = .next ((consumeCode (.eng .main) 256 s).updRegs fun r =>
      r.withPal ((List.range 256).filter fun j => valid.getLsbD j)) := by
  simp only [← storeFlags_clearPal]
  rfl

/-! ### The sizes -/

theorem codeLen_sizes (ec : Option (BitVec 20)) (et : Option (BitVec 20 × BitVec 20)) :
    codeLen (.sizes (sizesFlags ec et)) = (if ec.isSome then 20 else 0) + 20 + if et.isSome then 40 else 0 := by
  rw [codeLen, sizesFlags_bit1, sizesFlags_bit0]

theorem exec_fmtSizes (ec : Option (BitVec 20)) (pm : BitVec 20) (et : Option (BitVec 20 × BitVec 20)) (s : State) :
    exec (.fmtSizes ec pm et) s = .next ((consumeCode (.eng .main) (codeLen (.sizes (sizesFlags ec et))) s).updRegs fun r =>
      { r with ecsize := ec.getD 0, pmsize := pm, etsize := (et.getD (0, 0)).1, rpsize := (et.getD (0, 0)).2 }) := by
  cases et <;> rfl

/-! ### The frame header -/

section
variable {wb : Widths} {f : FhdrFields} {s : State}

/-- The state a frame header leaves before its two tests. -/
def State.fhdrStored (s : State) (wb : Widths) (f : FhdrFields) : State :=
  (consumeCode (.eng .main) (codeLen (.fhdr wb)) s).updRegs fun r => r.updFrame s.eng.frm.toNat (FrameGeom.store f)

theorem fhdrStored_frame (k : Nat) : (s.fhdrStored wb f).eng.regs.frame k =
    if k = s.eng.frm.toNat then (s.eng.regs.frame k).store f else s.eng.regs.frame k := by
  refine (DirRegs.frame_updFrame s.eng.regs s.eng.frm.toNat (FrameGeom.store f) k).trans ?_
  split
  · next h => rw [h]
  · rfl

theorem exec_fmtFhdr (wb : Widths) (f : FhdrFields) (s : State) : exec (.fmtFhdr wb f) s =
    match frameChecks ((s.eng.regs.frame s.eng.frm.toNat).store f) with
    | .ok _ => .next (s.fhdrStored wb f)
    | .error c => .next (takeError c s.eng.errDir (s.fhdrStored wb f)) := by
  have hframe := fhdrStored_frame (wb := wb) (f := f) (s := s) s.eng.frm.toNat
  rw [if_pos rfl] at hframe
  rw [← hframe]
  rfl

theorem exec_fmtFhdr_stores (h : frameChecks ((s.eng.regs.frame s.eng.frm.toNat).store f) = .ok ()) :
    exec (.fmtFhdr wb f) s = .next (s.fhdrStored wb f) := by
  rw [exec_fmtFhdr, h]

theorem fmtFhdr_raises {c : Cause} (h : frameChecks ((s.eng.regs.frame s.eng.frm.toNat).store f) = .error c) :
    EngRaises (.fmtFhdr wb f) s c := by
  refine ⟨_, ?_, takeError_raises c s.eng.errDir none (s.fhdrStored wb f)⟩
  rw [exec_fmtFhdr, h]
  rfl

end

/-! ### The codes of a cell -/

/-- A last nibble closes the chain. -/
theorem Work.endChain_nibble (w : Work) (d : BitVec 4) : { w.addNibble d with chain := false } = w.endChain d.toNat := by
  rw [Work.endChain, BitVec.ofNat_toNat]
  rfl

/-- The registers after a chain whose nibbles sum to `n`, its value taken (45_reconstructor.md R233, R234). -/
def Work.chainValue (w : Work) (n : Nat) : Work := (w.endChain n).takeValue (w.endChain n).v

theorem Work.chainValue_stop {w : Work} {n : Nat} (h : (w.endChain n).v = w.lastpix) :
    w.chainValue n = { w.endChain n with vend := true } := if_pos h

theorem Work.chainValue_accept {w : Work} {n : Nat} (h : (w.endChain n).v ≠ w.lastpix) :
    w.chainValue n = { w.endChain n with lastpix := (w.endChain n).v, vals := w.vals ++ [(w.endChain n).v] } :=
  Work.takeValue_accept (w.endChain n) _ h

theorem exec_rawval (v : BitVec 8) (s : State) : exec (.rawval v) s =
    .next { s with port := none, eng := s.eng.moved .rp 8 (s.eng.tr.work.takeValue (v.setWidth 32)) } := rfl

theorem exec_dnibCont (s : State) : exec .dnibCont s =
    .next { s with port := none, eng := s.eng.moved .main 4 (s.eng.tr.work.addNibble 15) } := rfl

theorem exec_dnibEnd (d : BitVec 4) (s : State) : exec (.dnibEnd d) s =
    .next { s with port := none, eng := s.eng.moved .main 4 (s.eng.tr.work.chainValue d.toNat) } := by
  rw [Work.chainValue, ← Work.endChain_nibble]
  rfl

/-! ### Nibble chains -/

/-- The working registers after `j` nibbles 15. -/
def Work.fifteens (w : Work) : Nat → Work
  | 0 => w
  | j + 1 => (w.fifteens j).addNibble 15

/-- The state after `j` steps of `DNIB.CONT`. -/
def State.fifteens (s : State) : Nat → State
  | 0 => s
  | j + 1 => { s.fifteens j with
      port := none
      eng := (s.fifteens j).eng.moved .main 4 ((s.fifteens j).eng.tr.work.addNibble 15) }

theorem State.fifteens_eng (s : State) : ∀ j : Nat, (s.fifteens j).eng = s.eng.moved .main (4 * j) (s.eng.tr.work.fifteens j)
  | 0 => rfl
  | j + 1 => by rw [State.fifteens, State.fifteens_eng s j, Engine.moved_moved, Nat.mul_succ]; rfl

/-- Nibbles before the last one of a chain add to its sum (30_encoding.md R112). -/
theorem Work.fifteens_endChain (w : Work) : ∀ j n : Nat, (w.fifteens j).endChain n = w.endChain (15 * j + n)
  | 0, n => by rw [Nat.mul_zero, Nat.zero_add]; rfl
  | j + 1, n => by
    rw [Work.fifteens, Work.endChain_addNibble, Work.fifteens_endChain w j, Nat.mul_succ, Nat.add_assoc]

theorem Work.fifteens_chainValue (w : Work) (j n : Nat) : (w.fifteens j).chainValue n = w.chainValue (15 * j + n) := by
  rw [Work.chainValue, Work.fifteens_endChain]
  rfl

/-- A chain of `j` nibbles 15 and a last nibble `d`. -/
theorem exec_dnibEnd_fifteens (s : State) (j : Nat) (d : BitVec 4) : exec (.dnibEnd d) (s.fifteens j) =
    .next { s.fifteens j with
      port := none
      eng := s.eng.moved .main (4 * (j + 1)) (s.eng.tr.work.chainValue (15 * j + d.toNat)) } := by
  rw [exec_dnibEnd, State.fifteens_eng, Engine.moved_moved, Engine.moved_work, Work.fifteens_chainValue, Nat.mul_succ]

@[simp] theorem Work.chainValue_v (w : Work) (n : Nat) : (w.chainValue n).v = (w.endChain n).v := by
  rw [Work.chainValue, Work.takeValue]
  split <;> rfl

@[simp] theorem Work.chainValue_chain (w : Work) (n : Nat) : (w.chainValue n).chain = false := by
  rw [Work.chainValue, Work.takeValue]
  split <;> rfl

theorem Work.chainValue_vals (w : Work) (n : Nat) : (w.chainValue n).vals =
    if (w.chainValue n).v = w.lastpix then w.vals else w.vals ++ [(w.chainValue n).v] := by
  rw [Work.chainValue_v]
  split
  · next h => rw [Work.chainValue_stop h]; rfl
  · next h => rw [Work.chainValue_accept h]

/-- The value of a chain: its sum added to the accumulator, modulo 2^32 (30_encoding.md R112). -/
theorem Work.endChain_v_toNat {w : Work} (hchain : w.chain = false) (n : Nat) :
    (w.endChain n).v.toNat = (w.lastpix.toNat + n) % 2 ^ 32 := by
  rw [Work.endChain, Work.chainBase, hchain, BitVec.toNat_add, BitVec.toNat_ofNat, Nat.add_mod_mod]
  rfl

end Sys2Proof.Machine

open Sys2Proof Sys2Proof.Machine

/-- Settles O55: three codes write their registers outright; the offsets are stored one by one. -/
theorem containerCodes : Obligations.ContainerCodes := by
  intro s ver nd nf ts offs cur
  refine ⟨rfl, ⟨_, rfl, rfl, fun d => ?_⟩, rfl, rfl⟩
  exact (fileRead_storeOffsets offs 0 s.front.diroff d).trans (if_congr (by omega) rfl rfl)

/-- Settles O56: the widths and the flags by their files, the rest outright. -/
theorem headerCodes : Obligations.HeaderCodes := by
  intro s f k i ec pm et valid e cur set
  refine ⟨rfl, ⟨_, rfl, rfl, fun j => widthAt_setWidthAt e.regs.wb k j (wlut i)⟩, ?_, ?_⟩
  · rw [exec_fmtSizes, codeLen_sizes]
    rfl
  · rw [exec_fmtPalv]
    rfl

/-- Settles O57: the record `FRM` is written, then the two tests of a frame header decide. -/
theorem frameHeaderCode : Obligations.FrameHeaderCode := by
  intro s wb f n
  refine ⟨fun hbu => fmtFhdr_raises (frameChecks_bottomUp hbu), fun hbu hbox => fmtFhdr_raises (frameChecks_empty hbu ?_),
    fun hbu hw hh => ?_⟩
  · exact hbox.imp (congrArg BitVec.toNat) (congrArg BitVec.toNat)
  · have hpos {x : BitVec 32} (h : x ≠ 0) : 1 ≤ x.toNat := Nat.pos_of_ne_zero (BitVec.toNat_ne_iff_ne.2 h)
    refine ⟨_, exec_fmtFhdr_stores (frameChecks_pass hbu (hpos hw) (hpos hh)), rfl, fun k => ?_⟩
    rw [fhdrStored_frame, FrameGeom.store, hbu]

/-- Settles O58: one cursor moved and the working registers of the consumer; a value is a terminator or accepted. -/
theorem cellCodes : Obligations.CellCodes := by
  intro s e m y v d tr w adv put sum
  have hwide : (v.setWidth 32).toNat = v.toNat := BitVec.toNat_setWidth_of_le (by decide)
  refine ⟨rfl, rfl, rfl, fun hstop => ?_, fun haccept => ?_, rfl, fun hstop => ?_, fun haccept => ?_⟩
  · have hv : v.setWidth 32 = w.lastpix := BitVec.eq_of_toNat_eq (hwide.trans hstop)
    rw [exec_rawval, hv, Work.takeValue_stop]
    rfl
  · have hv : v.setWidth 32 ≠ w.lastpix := fun h => haccept (hwide.symm.trans (congrArg BitVec.toNat h))
    rw [exec_rawval, Work.takeValue_accept _ _ hv]
    rfl
  · rw [exec_dnibEnd, Work.chainValue_stop hstop]
    rfl
  · rw [exec_dnibEnd, Work.chainValue_accept haccept]
    rfl

/-- Settles O59: by induction on the number of nibbles 15, each of which adds to the sum of the chain. -/
theorem chainSums : Obligations.ChainSums := by
  intro s j d _ hchain run
  have hrun : run = .next (s.fifteens j) := by
    induction j with
    | zero => rfl
    | succ j ih => exact (congrArg (fun o => match o with | .next u => exec .dnibCont u | o => o) ih).trans (exec_dnibCont _)
  refine ⟨_, _, hrun, exec_dnibEnd_fifteens s j d, ?_, ?_, rfl, ?_⟩
  · rw [Engine.moved_work, Work.chainValue_v, Work.endChain_v_toNat hchain, Nat.add_assoc]
  · rw [Engine.moved_work, Work.chainValue_chain]
  · exact Work.chainValue_vals _ _
end

section
/-!
PROOFS. `DHDR`, `BSIZES` and `PALV` read the formats the decoder reads (30_encoding.md R96, R99, R100): the bits from a position
of the buffer on, decoded field by field, are the values the statements of the steps name.
-/

namespace Sys2Proof.Machine

/-! ### The decoder on bits of the buffer -/

/-- The bits of two fields in a row. -/
theorem Buf.stream_add (b : Buf) (k : Nat) : ∀ n p : Nat, p + n ≤ b.bits →
    b.stream p (n + k) = b.stream p n ++ b.stream (p + n) k
  | 0, p, _ => by rw [Nat.zero_add]; rfl
  | n + 1, p, h => by
    have hp : p < b.bits := by omega
    rw [Nat.add_right_comm, Buf.stream, if_pos hp, Buf.stream_add b k n (p + 1) (by omega), Buf.stream, if_pos hp,
      Nat.add_assoc p, Nat.add_comm 1, List.cons_append]

/-- The decoder `m` takes the `n` bits at position `p`, if the buffer holds them, and answers `a`. -/
def State.Decodes {α : Type} (s : State) (p n : Nat) (m : Reader α) (a : α) : Prop :=
  p + n ≤ s.lenBits → ReadsBack m (s.ibuf.stream p n) a

section
variable {α β : Type} {s : State} {p n k : Nat} {a : α} {b : β}

theorem State.decodes_field (s : State) (p n : Nat) : s.Decodes p n (takeField n) (s.bitsAt p n) := fun h rest => by
  have hlen : (s.ibuf.stream p n).length = n := by
    rw [Buf.stream_length]
    exact Nat.min_eq_left (Nat.le_sub_of_add_le' h)
  have hle : n ≤ (s.ibuf.stream p n ++ rest).length := by
    rw [List.length_append]
    omega
  rw [takeField_ok hle, List.take_left' hlen, List.drop_left' hlen, Buf.bitsValue_stream _ _ _ h, State.field_eq_bitsAt]

theorem State.Decodes.ok (s : State) (p : Nat) (a : α) : s.Decodes p 0 (fun bs => .ok (a, bs)) a := fun _ => .ok a

theorem State.Decodes.bind {m : Reader α}
    {f : α × List Bool → Except DecodeErr (β × List Bool)} (hm : s.Decodes p n m a)
    (hf : s.Decodes (p + n) k (fun bs => f (a, bs)) b) : s.Decodes p (n + k) (fun bs => m bs >>= f) b := fun h => by
  rw [Buf.stream_add _ _ _ _ (show p + n ≤ s.ibuf.bits from (Nat.le_add_right _ k).trans ((Nat.add_assoc ..).trans_le h))]
  exact (hm (by omega)).bind (hf (by omega))

theorem State.Decodes.last {m : Reader α}
    {f : α × List Bool → Except DecodeErr (β × List Bool)} (hm : s.Decodes p n m a)
    (hf : s.Decodes (p + n) 0 (fun bs => f (a, bs)) b) : s.Decodes p n (fun bs => m bs >>= f) b := hm.bind hf

end

/-- A step does what the format at `MAIN` says: the format decodes to `j`, which leaves the registers `r`, and so does the step
before the order of steps goes on. -/
theorem step_reads_format {s : State} {f : CodeFmt} {i j : Instr} {r : DirRegs} {q : BitVec 5} (e : Engine → Engine)
    (hbits : s.eng.tr.main.pos + codeLen f ≤ s.lenBits)
    (hdecode : s.Decodes s.eng.tr.main.pos (codeLen f) (decodeCode f) j)
    (hformat : exec j s = .next { s with port := none, eng := s.eng.took (codeLen f) r })
    (hstep : exec i s = .next { s with eng := { e (s.eng.took (codeLen f) r) with phase := q } }) :
    ∃ j u, decode (.code f (s.ibuf.stream s.eng.tr.main.pos (codeLen f))) = .ok j ∧ exec j s = .next u ∧
      exec i s = .next { u with port := s.port, eng := { e u.eng with phase := q } } :=
  ⟨j, _, decode_code (hdecode hbits), hformat, hstep⟩

/-! ### The three formats -/

/-- The direction header that stands at bit `p` (30_encoding.md R96). -/
def State.dhdrFieldsAt (s : State) (p : Nat) : DhdrFields :=
  let idx (i : Nat) : BitVec 4 := BitVec.ofNat 4 (s.bitsAt (p + 34 + 4 * i) 4)
  { outsize := BitVec.ofNat 32 (s.bitsAt p 32)
    cflags := BitVec.ofNat 2 (s.bitsAt (p + 32) 2)
    v0idx := idx 0, widx := idx 1, hidx := idx 2, xidx := idx 3, yidx := idx 4, oidx := idx 5, cidx := idx 6 }

theorem State.decodes_dhdr (s : State) (p : Nat) : s.Decodes p 62 (decodeCode .dhdr) (.fmtDhdr (s.dhdrFieldsAt p)) := by
  have field := s.decodes_field
  refine (field _ 32).bind (k := 30) <| (field _ 2).bind (k := 28) <| (field _ 4).bind (k := 24) <| (field _ 4).bind (k := 20) <|
    (field _ 4).bind (k := 16) <| (field _ 4).bind (k := 12) <| (field _ 4).bind (k := 8) <| (field _ 4).bind (k := 4) <|
    (field _ 4).last ?_
  simp only [State.dhdrFieldsAt, Nat.add_assoc]
  exact .ok s _ _

/-- The registers of `DHDR` are the fields of the format, the indices through `WLUT` (30_encoding.md R104). -/
theorem State.dhdrRegs_eq (s : State) (p : Nat) (r : DirRegs) : s.dhdrRegs p r =
    let f := s.dhdrFieldsAt p
    { r with
      outsize := f.outsize
      cflags := f.cflags
      wb := { v0 := wlut f.v0idx, w := wlut f.widx, h := wlut f.hidx, x := wlut f.xidx, y := wlut f.yidx, o := wlut f.oidx,
              c := wlut f.cidx } } := by
  rw [State.dhdrRegs, State.widthsFrom_all]
  simp only [State.dhdrFieldsAt]

theorem exec_dhdrAt (s : State) (p : Nat) : exec (.fmtDhdr (s.dhdrFieldsAt p)) s = .next { s with
    port := none
    eng := s.eng.took 62 (s.dhdrRegs p s.eng.regs) } := by
  rw [State.dhdrRegs_eq]
  rfl

/-- The size field that stands at bit `p`, if it is there (30_encoding.md R99). -/
def State.sizeFieldAt (s : State) (present : Bool) (p : Nat) : Option (BitVec 20) :=
  if present then some (BitVec.ofNat 20 (s.bitsAt p 20)) else none

/-- The size fields that stand from bit `p` on, `ec` and `raw` being the two flags (30_encoding.md R99). -/
def State.sizesAt (s : State) (ec raw : Bool) (p : Nat) : Instr :=
  let q := p + sizeWidth ec
  .fmtSizes (s.sizeFieldAt ec p) (BitVec.ofNat 20 (s.bitsAt q 20))
    (if raw then some (BitVec.ofNat 20 (s.bitsAt (q + 20) 20), BitVec.ofNat 20 (s.bitsAt (q + 20 + 20) 20)) else none)

theorem State.decodes_size (s : State) (present : Bool) (p : Nat) :
    s.Decodes p (sizeWidth present) (takeSize present) (s.sizeFieldAt present p) := by
  cases present with
  | false => exact .ok s p _
  | true => exact (s.decodes_field p 20).last (.ok s _ _)

theorem State.decodes_sizes (s : State) (cf : BitVec 2) (p : Nat) :
    s.Decodes p (codeLen (.sizes cf)) (decodeCode (.sizes cf)) (s.sizesAt (cf.getLsbD 1) (cf.getLsbD 0) p) := by
  change s.Decodes p _ (decodeSizes cf) _
  rw [codeLen, ← sizesLen_eq]
  unfold decodeSizes
  generalize cf.getLsbD 1 = ec
  refine (s.decodes_size ec p).bind <| (s.decodes_field _ 20).bind ?_
  cases cf.getLsbD 0 with
  | false => exact .ok s _ _
  | true => exact (s.decodes_field _ 20).bind <| (s.decodes_field _ 20).last (.ok s _ _)

theorem exec_sizesAt (s : State) (ec raw : Bool) (p : Nat) : exec (s.sizesAt ec raw p) s = .next { s with
    port := none
    eng := s.eng.took (sizesLen ec raw) (s.bsizesRegs ec raw p s.eng.regs) } := by
  rw [State.sizesAt, exec_fmtSizes, codeLen_sizes]
  cases ec <;> cases raw <;> rfl

/-- Bit `i` of a field is bit `i` of the buffer from its position on (20_memory.md R63). -/
theorem State.testBit_bitsAt (s : State) : ∀ (n p i : Nat), i < n → (s.bitsAt p n).testBit i = decide (s.ibit (p + i) = 1)
  | 0, _, _, h => absurd h (Nat.not_lt_zero _)
  | n + 1, p, i, h => by
    have hbit : s.ibit p < 2 := Nat.mod_lt _ (by decide)
    rw [State.bitsAt_succ]
    cases i with
    | zero =>
      rw [Nat.testBit_zero, Nat.add_mul_mod_self_left, Nat.mod_eq_of_lt hbit, Nat.add_zero]
    | succ i =>
      rw [Nat.testBit_succ, Nat.add_mul_div_left _ _ (by decide), Nat.div_eq_of_lt hbit, Nat.zero_add,
        State.testBit_bitsAt s n (p + 1) i (by omega), Nat.add_assoc, Nat.add_comm 1]

/-- The palette flags in a word and in the buffer. -/
theorem State.filter_flags (s : State) (p : Nat) :
    ((List.range 256).filter fun j => (BitVec.ofNat 256 (s.bitsAt p 256)).getLsbD j) = s.flagsSet p 256 := by
  refine List.filter_congr fun j hj => ?_
  have hj : j < 256 := List.mem_range.1 hj
  rw [BitVec.getLsbD_ofNat, State.testBit_bitsAt s 256 p j hj, decide_eq_true hj, Bool.true_and]

theorem State.decodes_palv (s : State) (p : Nat) :
    s.Decodes p 256 (decodeCode .palv) (.fmtPalv (BitVec.ofNat 256 (s.bitsAt p 256))) :=
  (s.decodes_field p 256).last (.ok s _ _)

theorem exec_palvAt (s : State) (p : Nat) : exec (.fmtPalv (BitVec.ofNat 256 (s.bitsAt p 256))) s = .next { s with
    port := none
    eng := s.eng.took 256 (s.eng.regs.withPal (s.flagsSet p 256)) } := by
  rw [exec_fmtPalv, State.filter_flags]
  rfl

end Sys2Proof.Machine

open Sys2Proof Sys2Proof.Machine

/-- Settles O34: for each step the format decoded at `MAIN`, its own meaning, and the run of reads that is the step. -/
theorem stepsReadTheirFormats : Obligations.StepsReadTheirFormats := by
  intro s p run
  refine ⟨fun h => ?_, fun h => ?_, fun h => ?_⟩
  · refine step_reads_format (fun e => { e with frm := 0 }) h (s.decodes_dhdr p) (exec_dhdrAt s p) ?_
    obtain ⟨hin, -⟩ := (dhdrBody_takes s s.eng).exec (i := .dhdr) rfl (by decide)
    have hframe (e : Engine) : ({ s with eng := { e with phase := phFgeom, frm := 0 } } : State) =
        { s with eng := { (fun e => { e with frm := 0 } : Engine → Engine) e with phase := phFgeom } } := rfl
    exact (hin h).trans (congrArg _ (hframe _))
  · have hlen : codeLen (.sizes s.eng.regs.cflags) = sizesLen s.eng.regs.ecPresent s.eng.regs.rawPresent :=
      (sizesLen_eq _ _).symm
    refine step_reads_format id h (s.decodes_sizes _ p) (hlen ▸ exec_sizesAt s _ _ p) ?_
    obtain ⟨hin, -⟩ := (bsizesBody_takes s s.eng).exec (i := .bsizes) rfl (by rw [sizesLen_eq]; omega)
    rw [hlen] at h ⊢
    exact hin h
  · refine step_reads_format id h (s.decodes_palv p) (exec_palvAt s p) ?_
    obtain ⟨hin, -⟩ := (palvBody_takes s s.eng).exec (i := .palv) rfl (by decide)
    exact hin h
end

section
/-!
PROOFS. The pixel codes as instructions of their own (30_encoding.md R114, 46_compositor.md R261; log 18): one pixel painted, or
every pixel of the cell with the same slot.
-/

namespace Sys2Proof.Machine

/-- A run of writes of one value. -/
theorem Mem.read_foldl_same {β : Type} (f : β → Nat) (v : Byte) : ∀ (l : List β) (m : Mem), Mem.wf m = true → ∀ b,
    (l.foldl (fun m p => m.write (f p) v) m).read b = if b ∈ l.map f then v else m.read b
  | [], _, _, _ => (if_neg List.not_mem_nil).symm
  | p :: l, m, hm, b => by
    rw [List.foldl_cons, Mem.read_foldl_same f v l _ (Mem.wf_write _ _ hm), Mem.read_write m hm, List.map_cons]
    by_cases hb : b = f p <;> simp [hb]

/-- The block of a cell painted with one slot; whether two of its pixels share an address does not matter. -/
theorem paintBlock_same {dw : Nat} {g : CellGeom} {t : Quad} {m : Mem} (hm : Mem.wf m = true) (c b : Nat) :
    (paintBlock dw g t (fun _ => c) (blockPixels g.w g.h) m).read b =
      if b ∈ (blockPixels g.w g.h).map (fun p => pixAddr dw (g.x + p.1) (g.y + p.2)) then t.slot c else m.read b :=
  Mem.read_foldl_same (fun p : Nat × Nat => blockAddr dw g p.1 p.2) (t.slot c) _ m hm b

/-- Pixels painted one after another change the canvas alone. -/
theorem foldl_paint (g : CellGeom) (t : Quad) (c : Nat) : ∀ (ps : List (Nat × Nat)) (e : Engine),
    ps.foldl (fun e p => e.paint g t p.1 p.2 c) e = { e with
      tr.canvas := paintBlock e.regs.dw g t (fun _ => c) ps e.tr.canvas }
  | [], _ => rfl
  | _ :: ps, e => foldl_paint g t c ps (e.paint g t _ _ c)

/-- `PIXCODE0` reads nothing and paints the cell of the visit (46_compositor.md R261). -/
theorem exec_pixcode0 (s : State) : exec .pixcode0 s = .next { s with
    port := none
    eng.tr.canvas := paintBlock s.eng.regs.dw s.visitCell s.eng.visitQuad (fun _ => 0)
      (blockPixels s.visitCell.w s.visitCell.h) s.eng.tr.canvas } := by
  have hpaint := foldl_paint s.visitCell s.eng.visitQuad 0 (blockPixels s.visitCell.w s.visitCell.h)
    (consumeCode (.eng .main) (codeLen .pixcode0) s).eng
  exact congrArg (fun e => Host.Outcome.next { consumeCode (.eng .main) (codeLen .pixcode0) s with eng := e }) hpaint

end Sys2Proof.Machine

open Sys2Proof Sys2Proof.Machine

/-- Settles O60: one write to the canvas, or a run of writes of slot 0. -/
theorem pixelCodes : Obligations.PixelCodes := by
  intro s c1 c2 hmem g q w a next one
  obtain ⟨hcanvas, -⟩ := hmem
  refine ⟨⟨_, rfl, rfl, ?_⟩, ⟨_, rfl, rfl, ?_⟩, _, exec_pixcode0 s, rfl, fun x y hx hy => ?_, fun b hb => ?_⟩
  · exact Mem.read_write _ hcanvas a _
  · exact Mem.read_write _ hcanvas a _
  · exact (paintBlock_same hcanvas 0 _).trans (if_pos (mem_blockAddrs.2 (not_outsideBlock hx hy)))
  · exact (paintBlock_same hcanvas 0 b).trans (if_neg fun h => mem_blockAddrs.1 h hb)
end
